-- ==== Sys2Proof/Word.lean ====
section
/-! DEFINITION. The word types, the enumerations the spec names (links, DP registers, JTAG codes, bus types),
and the binary frames a command can be written in. Rule numbers are those of spec/. -/

namespace Sys2Proof

/-- A 32-bit word (R11). -/
abbrev W32 := BitVec 32

/-- A byte (R11). -/
abbrev Byte := BitVec 8

/-- An AP index, 0 to 255 (R10 `AP_INDEX_MAX`, R24). -/
abbrev ApIndex := BitVec 8

/-- A register address of which only bits 3 and 2 cross the link (R70, R115, R123). -/
abbrev RegAddr := BitVec 4

/-- A 35-bit data-register scan (R117, R118). -/
abbrev Scan := BitVec 35

/-- The active link (R10 `IFACE`). -/
inductive Iface where
  | jtag | swd | vendor
deriving DecidableEq, Repr

/-- The three JTAG instruction-register codes DAPSEQ loads (R116). -/
inductive IrCode where
  | abort | dpacc | apacc
deriving DecidableEq, Repr

/-- The 4-bit instruction-register code (R116). -/
def IrCode.code : IrCode → BitVec 4
  | .abort => 0b1000
  | .dpacc => 0b1010
  | .apacc => 0b1011

/-- The IR code a 4-bit value names; DAPSEQ loads no other (R116, R130). -/
def IrCode.ofCode (v : BitVec 4) : Option IrCode :=
  if v = 0b1000 then some .abort
  else if v = 0b1010 then some .dpacc
  else if v = 0b1011 then some .apacc
  else none

/-- The DP registers of the table of R33, in the order of their codes (R127). -/
inductive DpReg where
  | dpidr | abort | ctrlStat | select | rdbuff | targetid | dlpidr | eventstat | targetsel | dpidr1 | select1
deriving DecidableEq, Repr

/-- The DP register code carried in the flags byte of DP_READ and DP_WRITE (R127). -/
def DpReg.code : DpReg → BitVec 8
  | .dpidr => 0
  | .abort => 1
  | .ctrlStat => 2
  | .select => 3
  | .rdbuff => 4
  | .targetid => 5
  | .dlpidr => 6
  | .eventstat => 7
  | .targetsel => 8
  | .dpidr1 => 9
  | .select1 => 10

/-- The register a code names; a code above 10 names none (R127, R129). -/
def DpReg.ofCode (c : BitVec 8) : Option DpReg :=
  match c.toNat with
  | 0 => some .dpidr
  | 1 => some .abort
  | 2 => some .ctrlStat
  | 3 => some .select
  | 4 => some .rdbuff
  | 5 => some .targetid
  | 6 => some .dlpidr
  | 7 => some .eventstat
  | 8 => some .targetsel
  | 9 => some .dpidr1
  | 10 => some .select1
  | _ => none

/-- `dp_version` (R21). `undetected` and `absent` are the two values the spec adds (90_conflicts C2). -/
inductive DpVersion where
  | undetected | absent | v1 | v2 | v3
deriving DecidableEq, Repr

/-- `ap_state[i]` (R24). -/
inductive ApState where
  | unresolved | absent | presentDisabled | presentEnabled
deriving DecidableEq, Repr

/-- The bus type of an AP (R25, R47). -/
inductive BusType where
  | ahb | apb | axi | jtag | com | other
deriving DecidableEq, Repr

/-- The busy check of a keyhole poll: address, mask, expected value (R28, R239). -/
structure BusyCheck where
  addr : W32
  mask : W32
  expected : W32
deriving DecidableEq, Repr

/-- A command in binary form. `host` is the level H word list of R111; the others are the level L formats of
R128. That a level L transaction can stand in the command list, and the six level L frame shapes below the
spec's own formats, are the model's (DESIGN CHOICE, log 6 and log 7). -/
inductive Frame where
  /-- Header word, then operand words (R111). -/
  | host (words : List W32)
  /-- F-IR4: an instruction-register load (R116, R128). -/
  | ir4 (code : BitVec 4)
  /-- F-DR35-REQ under an instruction-register code: a DP, AP or ABORT transaction (R117, R128). -/
  | dr35 (code : BitVec 4) (req : Scan)
  /-- The same scan as the building block JTAG.SCAN (R151). -/
  | dr35Scan (code : BitVec 4) (req : Scan)
  /-- A sequence of scans: JTAG.READN or JTAG.WRITEN (R156, R157). -/
  | dr35Seq (scans : List (BitVec 4 × Scan))
  /-- F-SWD-REQ and the word of its data phase (R119, R121, R128). -/
  | swdReq (req : Byte) (wdata : W32)
  /-- The same packet as the building block SWD.XFER (R170). -/
  | swdXfer (req : Byte) (wdata : W32)
  /-- A sequence of packets: SWD.READN or SWD.WRITEN (R175, R176). -/
  | swdSeq (packets : List (Byte × W32))
  /-- Raw `Out` bits in the order sent: SWD.LINERESET (R178). -/
  | rawOut (bits : List Bool)
deriving DecidableEq, Repr

end Sys2Proof
end

