-- ==== Sys2Proof/Syntax.lean ====
section
/-! DEFINITION. The instructions of spec/opcode_table.json, one constructor per row: level H host commands
(R126) and level L link transactions (R128). Operands keep the values a host can write down, those out of range
included: the meanings refuse them as R129 and R318 say. -/

namespace Sys2Proof

/-- A host command (level H) or a link transaction (level L) (R16, R110). -/
inductive Instr where
  /-- DETECT_VERSION (R191). -/
  | detectVersion
  /-- REASSERT_POWER (R201). -/
  | reassertPower
  /-- DP_READ `reg` (R197). -/
  | dpRead (reg : DpReg)
  /-- DP_WRITE `reg, value` (R198). -/
  | dpWrite (reg : DpReg) (value : W32)
  /-- SELECT_AP `ap, addr` (R194). -/
  | selectAp (ap : ApIndex) (addr : W32)
  /-- FREEZE_SELECT (R195). -/
  | freezeSelect
  /-- UNFREEZE_SELECT (R196). -/
  | unfreezeSelect
  /-- CHECK_STICKY (R199). -/
  | checkSticky
  /-- CLEAR_STICKY (R200). -/
  | clearSticky
  /-- AP_READ `ap, addr` (R202). -/
  | apRead (ap : ApIndex) (addr : W32)
  /-- AP_WRITE `ap, addr, value` (R203). -/
  | apWrite (ap : ApIndex) (addr : W32) (value : W32)
  /-- SWD_CONNECT `[targetsel]` (R178). -/
  | swdConnect (targetsel : Option W32)
  /-- GET_CONNECTION `ap [, autoinc] [, peripheral] [, allow_disabled]` (R271). -/
  | getConnection (ap : ApIndex) (autoinc : Option Bool) (peripheral allowDisabled : Bool)
  /-- MEMORY_READ `ap, start, end` (R273). -/
  | memoryRead (ap : ApIndex) (start stop : Nat)
  /-- MEMORY_WRITE `ap, start, len, data words` (R274). -/
  | memoryWrite (ap : ApIndex) (start len : Nat) (data : List W32)
  /-- REGISTER_READ `ap, n, register numbers` (R278). -/
  | registerRead (ap : ApIndex) (n : Nat) (regs : List W32)
  /-- REGISTER_WRITE `ap, n, register numbers, values` (R279). -/
  | registerWrite (ap : ApIndex) (n : Nat) (regs values : List W32)
  /-- RUN_CTRL_READ `ap, ctrl_data` (R280). -/
  | runCtrlRead (ap : ApIndex) (ctrl : List W32)
  /-- RUN_CTRL_WRITE `ap, ctrl_data` (R281). -/
  | runCtrlWrite (ap : ApIndex) (ctrl : List W32)
  /-- SCAN_APS `extra_details` (R275). -/
  | scanAps (extraDetails : Bool)
  /-- GET_CHIP_VERSION (R276). -/
  | getChipVersion
  /-- TEARDOWN (R277). -/
  | teardown
  /-- READ_MEMORY `ap, start, end` (R234). -/
  | readMemory (ap : ApIndex) (start stop : Nat)
  /-- WRITE_MEMORY `ap, start, len, data words` (R235). -/
  | writeMemory (ap : ApIndex) (start len : Nat) (data : List W32)
  /-- WRITE_MEMORY_RMW `ap, start, len, data words` (R236). -/
  | writeMemoryRmw (ap : ApIndex) (start len : Nat) (data : List W32)
  /-- POLL_READ `ap, address, count [, busy_check]` (R239). -/
  | pollRead (ap : ApIndex) (address : W32) (count : Nat) (busy : Option BusyCheck)
  /-- POLL_WRITE `ap, address, count, values [, busy_check]` (R240). -/
  | pollWrite (ap : ApIndex) (address : W32) (count : Nat) (values : List W32) (busy : Option BusyCheck)
  /-- JTAG.IRSEL `ir` (R150). -/
  | jtagIrsel (ir : IrCode)
  /-- JTAG.SCAN `ir, rnw, A, data` (R151). -/
  | jtagScan (ir : IrCode) (rnw : Bool) (a : RegAddr) (data : W32)
  /-- JTAG.DPACC.RD `A` (R152). -/
  | jtagDpaccRd (a : RegAddr)
  /-- JTAG.DPACC.WR `A, v` (R153). -/
  | jtagDpaccWr (a : RegAddr) (value : W32)
  /-- JTAG.APACC.RD `A` (R154). -/
  | jtagApaccRd (a : RegAddr)
  /-- JTAG.APACC.WR `A, v` (R155). -/
  | jtagApaccWr (a : RegAddr) (value : W32)
  /-- JTAG.READN `[(ir_1, A_1), …]` (R156). -/
  | jtagReadn (reads : List (IrCode × RegAddr))
  /-- JTAG.WRITEN `A, [w_1 …]` (R157). -/
  | jtagWriten (a : RegAddr) (values : List W32)
  /-- JTAG.ABORT.WR `v` (R158). -/
  | jtagAbortWr (value : W32)
  /-- SWD.XFER `apndp, rnw, A, wdata` (R170). -/
  | swdXfer (apndp rnw : Bool) (a : RegAddr) (wdata : W32)
  /-- SWD.DP.RD `A` (R171). -/
  | swdDpRd (a : RegAddr)
  /-- SWD.DP.WR `A, v` (R172). -/
  | swdDpWr (a : RegAddr) (value : W32)
  /-- SWD.AP.RD `A` (R173). -/
  | swdApRd (a : RegAddr)
  /-- SWD.AP.WR `A, v` (R174). -/
  | swdApWr (a : RegAddr) (value : W32)
  /-- SWD.READN `A, n` (R175). -/
  | swdReadn (a : RegAddr) (n : Nat)
  /-- SWD.WRITEN `A, [w_1 …]` (R176). -/
  | swdWriten (a : RegAddr) (values : List W32)
  /-- SWD.ABORT `v` (R177). -/
  | swdAbort (value : W32)
  /-- SWD.LINERESET (R178). -/
  | swdLinereset
  /-- SWD.TARGETSEL `v` (R179). -/
  | swdTargetsel (value : W32)
deriving DecidableEq, Repr

end Sys2Proof
end

