-- ==== Sys2Proof/WellFormed.lean ====
section
/-! DEFINITION. Which instructions the binary forms of the spec can write down: the numbers fit their operand
words (R111, R126), the lists have the lengths their counts announce (R129), and a link transaction's register
address is one the link emits (R123, R130). An instruction that is not well formed can still be given in the
abstract syntax; its meaning then refuses what R129 refuses. -/

namespace Sys2Proof

/-- Bits `[1:0]` of every register address are zero (R123). -/
def RegAddr.aligned (a : RegAddr) : Bool := a.extractLsb' 0 2 == 0#2

/-- One 32-bit operand word holds the number (R111). -/
def fitsWord (n : Nat) : Bool := decide (n < 2 ^ 32)

/-- One read of a JTAG sequence: not under ABORT, never DP address 0x8 (R130, R152). -/
def readScanOk (r : IrCode × RegAddr) : Bool :=
  r.2.aligned &&
    match r.1 with
    | .abort => false
    | .dpacc => r.2 != 0x8#4
    | .apacc => true

/-- A scan the JTAG driver emits: a read carries zero data and is never under ABORT, DP address 0x8 is never read,
and DP address 0 is never written under DPACC (R117, R130, R151 to R158). R128 takes the fields of JTAG.SCAN as given.
DESIGN CHOICE (log 6): a write under ABORT may have any aligned address; only JTAG.ABORT.WR has address 0. -/
def scanOk (ir : IrCode) (rnw : Bool) (a : RegAddr) (data : W32) : Bool :=
  if rnw then readScanOk (ir, a) && data == 0
  else a.aligned &&
    match ir with
    | .abort => true
    | .dpacc => a != 0x0#4
    | .apacc => true

/-- A packet the SWD driver emits: DP address 0x8 is never read (R130). -/
def packetOk (apndp rnw : Bool) (a : RegAddr) : Bool :=
  a.aligned && !(!apndp && rnw && a == 0x8#4)

/-- The instruction has a binary form of its own. The words of SWD.DP.WR at 0x0 and 0xC are those of SWD.ABORT and
SWD.TARGETSEL (R177, R179), so those two are written as the latter (log 7). -/
def Instr.WellFormed : Instr → Bool
  | .detectVersion => true
  | .reassertPower => true
  | .dpRead _ => true
  | .dpWrite _ _ => true
  | .selectAp _ _ => true
  | .freezeSelect => true
  | .unfreezeSelect => true
  | .checkSticky => true
  | .clearSticky => true
  | .apRead _ _ => true
  | .apWrite _ _ _ => true
  | .swdConnect _ => true
  | .getConnection _ _ _ _ => true
  | .memoryRead _ start stop => fitsWord start && fitsWord stop
  | .memoryWrite _ start len data => fitsWord start && fitsWord len && data.length == (len + 3) / 4
  | .registerRead _ n regs => fitsWord n && regs.length == n
  | .registerWrite _ n regs values => fitsWord n && regs.length == n && values.length == n
  | .runCtrlRead _ _ => true
  | .runCtrlWrite _ _ => true
  | .scanAps _ => true
  | .getChipVersion => true
  | .teardown => true
  | .readMemory _ start stop => fitsWord start && fitsWord stop
  | .writeMemory _ start len data => fitsWord start && fitsWord len && data.length == (len + 3) / 4
  | .writeMemoryRmw _ start len data => fitsWord start && fitsWord len && data.length == (len + 3) / 4
  | .pollRead _ _ count _ => fitsWord count
  | .pollWrite _ _ count values _ => fitsWord count && values.length == count
  | .jtagIrsel _ => true
  | .jtagScan ir rnw a data => scanOk ir rnw a data
  | .jtagDpaccRd a => scanOk .dpacc true a 0
  | .jtagDpaccWr a v => scanOk .dpacc false a v
  | .jtagApaccRd a => scanOk .apacc true a 0
  | .jtagApaccWr a v => scanOk .apacc false a v
  | .jtagReadn reads => !reads.isEmpty && reads.all readScanOk
  | .jtagWriten a values => a.aligned && !values.isEmpty
  | .jtagAbortWr _ => true
  | .swdXfer apndp rnw a _ => packetOk apndp rnw a
  | .swdDpRd a => packetOk false true a
  | .swdDpWr a _ => packetOk false false a && a != 0x0#4 && a != 0xC#4
  | .swdApRd a => packetOk true true a
  | .swdApWr a _ => packetOk true false a
  | .swdReadn a n => a.aligned && n != 0
  | .swdWriten a values => a.aligned && !values.isEmpty
  | .swdAbort _ => true
  | .swdLinereset => true
  | .swdTargetsel _ => true

end Sys2Proof
end

