-- ==== Sys2Proof/Decode.lean ====
section
/-! DEFINITION. Decoding of the binary forms, total on any frame and rejecting by name, and the encoder, both from
30_encoding.md: the level H header and operand words (R111, R126, R127, R129, R131), the JTAG formats (R116, R117)
and the SWD request byte (R119). The bit-field helpers of those formats stand here too. -/

namespace Sys2Proof

/-! ## Fields of the formats -/

/-- The level H header `0, flags, ap, opcode` from bit 31 down (R111). -/
def hHeader (opcode flags ap : BitVec 8) : W32 := 0#8 ++ flags ++ ap ++ opcode

/-- Header field `rsv[31:24]` (R111). -/
def hRsv (w : W32) : BitVec 8 := w.extractLsb' 24 8

/-- Header field `flags[23:16]` (R111). -/
def hFlags (w : W32) : BitVec 8 := w.extractLsb' 16 8

/-- Header field `ap[15:8]` (R111). -/
def hAp (w : W32) : ApIndex := w.extractLsb' 8 8

/-- Header field `opcode[7:0]` (R111). -/
def hOpcode (w : W32) : BitVec 8 := w.extractLsb' 0 8

/-- F-DR35-REQ: DATAIN `[34:3]`, A[3:2] `[2:1]`, RnW `[0]` (R117). -/
def drReq (rnw : Bool) (a : RegAddr) (data : W32) : Scan := data ++ a.extractLsb' 2 2 ++ BitVec.ofBool rnw

/-- RnW of a request (R117). -/
def drRnw (r : Scan) : Bool := r.getLsbD 0

/-- The register address of a request, bits `[1:0]` zero (R117, R123). -/
def drAddr (r : Scan) : RegAddr := r.extractLsb' 1 2 ++ 0#2

/-- DATAIN of a request; DATAOUT of a response stands at the same place (R117, R118). -/
def drData (r : Scan) : W32 := r.extractLsb' 3 32

/-- The ACK bits of a response (R118). -/
def drAck (r : Scan) : BitVec 3 := r.extractLsb' 0 3

/-- F-SWD-REQ, bit 7 first: Park, Stop, Parity, A[3], A[2], RnW, APnDP, Start; the parity is even over bits 1 to 4
(R119). -/
def swdReqByte (apndp rnw : Bool) (a : RegAddr) : Byte :=
  1#1 ++ 0#1 ++ BitVec.ofBool (apndp ^^ rnw ^^ a.getLsbD 2 ^^ a.getLsbD 3) ++ BitVec.ofBool (a.getLsbD 3)
    ++ BitVec.ofBool (a.getLsbD 2) ++ BitVec.ofBool rnw ++ BitVec.ofBool apndp ++ 1#1

/-- APnDP of a request byte (R119). -/
def swdApndp (b : Byte) : Bool := b.getLsbD 1

/-- RnW of a request byte (R119). -/
def swdRnw (b : Byte) : Bool := b.getLsbD 2

/-- The register address of a request byte, bits `[1:0]` zero (R119, R123). -/
def swdAddr (b : Byte) : RegAddr := b.extractLsb' 3 2 ++ 0#2

/-- The byte is one of the sixteen request bytes: start, stop, park and parity as R119 gives them (R130). -/
def swdReqValid (b : Byte) : Bool := b == swdReqByte (swdApndp b) (swdRnw b) (swdAddr b)

/-- `bits(x, n)`: the low `n` bits of `x`, bit 0 first (R170). -/
def bitsOf {w : Nat} (x : BitVec w) (n : Nat) : List Bool := (List.range n).map x.getLsbD

/-- The 136 bits of the line reset in the order sent: 56 ones, 0xE79E bit 0 first, 56 ones, 8 zeros (R178). -/
def lineResetBits : List Bool :=
  List.replicate 56 true ++ bitsOf 0xE79E#16 16 ++ List.replicate 56 true ++ List.replicate 8 false

/-! ## Decoding -/

/-- Why a frame is not a command. Each becomes the refusal IllegalCommand (R129, R318). -/
inductive DecodeError where
  /-- No header word. -/
  | empty
  /-- `rsv` is not zero (R129). -/
  | reservedBits
  /-- The opcode is not in R126 (R129). -/
  | unknownOpcode
  /-- The flags have a bit set that the row does not define (R129). -/
  | undefinedFlag
  /-- The DP register code is above 10 (R129). -/
  | dpRegisterCode
  /-- The frame does not hold the operand words R126 gives the row (log 8). -/
  | operandCount
  /-- The instruction-register code is outside R116 (R130). -/
  | irCode
  /-- A scan the driver never emits (R130). -/
  | scanRequest
  /-- Neither N reads and the RDBUFF read, nor N writes of one AP register (R156, R157). -/
  | scanSequence
  /-- A request byte outside the sixteen, or the read of DP address 0x8 (R130). -/
  | swdRequest
  /-- Neither n AP reads and the RDBUFF read, nor n writes of one AP register (R175, R176). -/
  | swdSequence
  /-- Raw bits that are not the line reset (R178). -/
  | rawBits
deriving DecidableEq, Repr

/-- A row without flags: any flag bit is undefined (R129). -/
def noFlags (flags : BitVec 8) (r : Except DecodeError Instr) : Except DecodeError Instr :=
  if flags = 0 then r else .error .undefinedFlag

/-- A row whose flags are the bits of `mask` (R129). -/
def flagsIn (mask flags : BitVec 8) (r : Except DecodeError Instr) : Except DecodeError Instr :=
  if flags &&& ~~~mask = 0 then r else .error .undefinedFlag

/-- A row without operand words. -/
def operands0 (ops : List W32) (i : Instr) : Except DecodeError Instr :=
  match ops with
  | [] => .ok i
  | _ => .error .operandCount

/-- A row of one operand word. -/
def operands1 (ops : List W32) (f : W32 → Instr) : Except DecodeError Instr :=
  match ops with
  | [x] => .ok (f x)
  | _ => .error .operandCount

/-- A row of two operand words. -/
def operands2 (ops : List W32) (f : W32 → W32 → Instr) : Except DecodeError Instr :=
  match ops with
  | [x, y] => .ok (f x y)
  | _ => .error .operandCount

/-- A row of one operand word and a list. -/
def operands1List (ops : List W32) (f : W32 → List W32 → Instr) : Except DecodeError Instr :=
  match ops with
  | x :: rest => .ok (f x rest)
  | _ => .error .operandCount

/-- A row of two operand words and a list. -/
def operands2List (ops : List W32) (f : W32 → W32 → List W32 → Instr) : Except DecodeError Instr :=
  match ops with
  | x :: y :: rest => .ok (f x y rest)
  | _ => .error .operandCount

/-- The busy-check words that end a POLL command when flag bit 0 is set: addr, mask, expected (R126). -/
def busyOf (given : Bool) (ops : List W32) : Except DecodeError (Option BusyCheck) :=
  match given, ops with
  | false, [] => .ok none
  | true, [x, y, z] => .ok (some ⟨x, y, z⟩)
  | _, _ => .error .operandCount

/-- The register a DP_READ or DP_WRITE names (R127, R129). -/
def withDpReg (flags : BitVec 8) (f : DpReg → Except DecodeError Instr) : Except DecodeError Instr :=
  match DpReg.ofCode flags with
  | some r => f r
  | none => .error .dpRegisterCode

/-- How many of the words after `count` of a POLL_WRITE are values: all but the three busy-check words (R126). -/
def pollValueCount (given : Bool) (rest : List W32) : Nat := if given then rest.length - 3 else rest.length

/-- The row of R126 that an opcode selects, read from its flags, AP byte and operand words. -/
def decodeRow (opcode : BitVec 8) (flags : BitVec 8) (ap : ApIndex) (ops : List W32) : Except DecodeError Instr :=
  match opcode.toNat with
  | 0x01 => noFlags flags (operands0 ops .detectVersion)
  | 0x02 => noFlags flags (operands0 ops .reassertPower)
  | 0x03 => withDpReg flags fun r => operands0 ops (.dpRead r)
  | 0x04 => withDpReg flags fun r => operands1 ops (.dpWrite r)
  | 0x05 => noFlags flags (operands1 ops (.selectAp ap))
  | 0x06 => noFlags flags (operands0 ops .freezeSelect)
  | 0x07 => noFlags flags (operands0 ops .unfreezeSelect)
  | 0x08 => noFlags flags (operands0 ops .checkSticky)
  | 0x09 => noFlags flags (operands0 ops .clearSticky)
  | 0x0A => noFlags flags (operands1 ops (.apRead ap))
  | 0x0B => noFlags flags (operands2 ops (.apWrite ap))
  | 0x0C => flagsIn 0x01 flags
      (if flags.getLsbD 0 then operands1 ops (fun t => .swdConnect (some t)) else operands0 ops (.swdConnect none))
  | 0x10 => flagsIn 0x0F flags (operands0 ops
      (.getConnection ap (if flags.getLsbD 1 then some (flags.getLsbD 2) else none) (flags.getLsbD 3)
        (flags.getLsbD 0)))
  | 0x11 => noFlags flags (operands2 ops fun s e => .memoryRead ap s.toNat e.toNat)
  | 0x12 => noFlags flags (operands2List ops fun s n d => .memoryWrite ap s.toNat n.toNat d)
  | 0x13 => noFlags flags (operands1List ops fun n rs => .registerRead ap n.toNat rs)
  | 0x14 => noFlags flags (operands1List ops fun n rs =>
      .registerWrite ap n.toNat (rs.take n.toNat) (rs.drop n.toNat))
  | 0x15 => noFlags flags (.ok (.runCtrlRead ap ops))
  | 0x16 => noFlags flags (.ok (.runCtrlWrite ap ops))
  | 0x17 => flagsIn 0x01 flags (operands0 ops (.scanAps (flags.getLsbD 0)))
  | 0x18 => noFlags flags (operands0 ops .getChipVersion)
  | 0x19 => noFlags flags (operands0 ops .teardown)
  | 0x20 => noFlags flags (operands2 ops fun s e => .readMemory ap s.toNat e.toNat)
  | 0x21 => noFlags flags (operands2List ops fun s n d => .writeMemory ap s.toNat n.toNat d)
  | 0x22 => noFlags flags (operands2List ops fun s n d => .writeMemoryRmw ap s.toNat n.toNat d)
  | 0x23 => flagsIn 0x01 flags
      (match ops with
       | x :: n :: rest => (busyOf (flags.getLsbD 0) rest).map (.pollRead ap x n.toNat)
       | _ => .error .operandCount)
  | 0x24 => flagsIn 0x01 flags
      (match ops with
       | x :: n :: rest =>
         (busyOf (flags.getLsbD 0) (rest.drop (pollValueCount (flags.getLsbD 0) rest))).map
           (.pollWrite ap x n.toNat (rest.take (pollValueCount (flags.getLsbD 0) rest)))
       | _ => .error .operandCount)
  | _ => .error .unknownOpcode

/-- A level H word list: the header, then the operand words its row gives (R111, R131). -/
def decodeHost : List W32 → Except DecodeError Instr
  | [] => .error .empty
  | w :: ops => if hRsv w = 0 then decodeRow (hOpcode w) (hFlags w) (hAp w) ops else .error .reservedBits

/-- A scan under an instruction-register code, as one of the five transactions R128 selects by IR and RnW. -/
def decodeScan (code : BitVec 4) (r : Scan) : Except DecodeError Instr :=
  match IrCode.ofCode code with
  | none => .error .irCode
  | some ir =>
    if scanOk ir (drRnw r) (drAddr r) (drData r) then
      match ir, drRnw r with
      | .abort, _ => if drAddr r = 0 then .ok (.jtagAbortWr (drData r)) else .error .scanRequest
      | .dpacc, true => .ok (.jtagDpaccRd (drAddr r))
      | .dpacc, false => .ok (.jtagDpaccWr (drAddr r) (drData r))
      | .apacc, true => .ok (.jtagApaccRd (drAddr r))
      | .apacc, false => .ok (.jtagApaccWr (drAddr r) (drData r))
    else .error .scanRequest

/-- The same scan as the building block (R151). -/
def decodeScanBlock (code : BitVec 4) (r : Scan) : Except DecodeError Instr :=
  match IrCode.ofCode code with
  | none => .error .irCode
  | some ir =>
    if scanOk ir (drRnw r) (drAddr r) (drData r) then .ok (.jtagScan ir (drRnw r) (drAddr r) (drData r))
    else .error .scanRequest

/-- One read of a JTAG.READN sequence (R156). -/
def readOfScan (x : BitVec 4 × Scan) : Option (IrCode × RegAddr) :=
  match IrCode.ofCode x.1 with
  | none => none
  | some ir => if drRnw x.2 && scanOk ir true (drAddr x.2) (drData x.2) then some (ir, drAddr x.2) else none

/-- The reads of a JTAG.READN sequence, which ends with the dummy read of RDBUFF under DPACC (R156). -/
def readsOfScans : List (BitVec 4 × Scan) → Option (List (IrCode × RegAddr))
  | [] => none
  | [x] => if x = (IrCode.dpacc.code, drReq true 0xC 0) then some [] else none
  | x :: xs =>
    match readOfScan x, readsOfScans xs with
    | some r, some rs => some (r :: rs)
    | _, _ => none

/-- The words of a JTAG.WRITEN sequence on AP register address `a` (R157). -/
def writesOfScans (a : RegAddr) : List (BitVec 4 × Scan) → Option (List W32)
  | [] => some []
  | x :: xs =>
    match writesOfScans a xs with
    | none => none
    | some ws => if x.1 = IrCode.apacc.code ∧ x.2 = drReq false a (drData x.2) then some (drData x.2 :: ws) else none

/-- A sequence of scans: JTAG.WRITEN when its first scan is a write, JTAG.READN when it is a read (R156, R157). -/
def decodeScanSeq : List (BitVec 4 × Scan) → Except DecodeError Instr
  | [] => .error .scanSequence
  | x :: xs =>
    if drRnw x.2 then
      match readsOfScans (x :: xs) with
      | some (r :: rs) => .ok (.jtagReadn (r :: rs))
      | _ => .error .scanSequence
    else
      match writesOfScans (drAddr x.2) (x :: xs) with
      | some ws => .ok (.jtagWriten (drAddr x.2) ws)
      | none => .error .scanSequence

/-- One request byte with its data word. The bytes 0x81 and 0x99 are SWD.ABORT and SWD.TARGETSEL (R128, log 7). -/
def decodeSwd (b : Byte) (wdata : W32) : Except DecodeError Instr :=
  if swdReqValid b && packetOk (swdApndp b) (swdRnw b) (swdAddr b) then
    match swdApndp b, swdRnw b with
    | false, true => .ok (.swdDpRd (swdAddr b))
    | false, false =>
      if b = 0x81#8 then .ok (.swdAbort wdata)
      else if b = 0x99#8 then .ok (.swdTargetsel wdata)
      else .ok (.swdDpWr (swdAddr b) wdata)
    | true, true => .ok (.swdApRd (swdAddr b))
    | true, false => .ok (.swdApWr (swdAddr b) wdata)
  else .error .swdRequest

/-- The same packet as the building block (R170). -/
def decodeSwdBlock (b : Byte) (wdata : W32) : Except DecodeError Instr :=
  if swdReqValid b && packetOk (swdApndp b) (swdRnw b) (swdAddr b) then
    .ok (.swdXfer (swdApndp b) (swdRnw b) (swdAddr b) wdata)
  else .error .swdRequest

/-- How many reads of AP address `a` stand before the closing read of RDBUFF (R175). -/
def readsOfPackets (a : RegAddr) : List (Byte × W32) → Option Nat
  | [] => none
  | [x] => if x = (swdReqByte false true 0xC, 0) then some 0 else none
  | x :: xs =>
    match readsOfPackets a xs with
    | none => none
    | some n => if x = (swdReqByte true true a, 0) then some (n + 1) else none

/-- The words of an SWD.WRITEN sequence on AP register address `a` (R176). -/
def writesOfPackets (a : RegAddr) : List (Byte × W32) → Option (List W32)
  | [] => some []
  | x :: xs =>
    match writesOfPackets a xs with
    | none => none
    | some ws => if x.1 = swdReqByte true false a then some (x.2 :: ws) else none

/-- A sequence of packets: SWD.READN when its first packet is a read, else SWD.WRITEN (R175, R176). -/
def decodeSwdSeq : List (Byte × W32) → Except DecodeError Instr
  | [] => .error .swdSequence
  | x :: xs =>
    if swdRnw x.1 then
      match readsOfPackets (swdAddr x.1) (x :: xs) with
      | some (n + 1) => .ok (.swdReadn (swdAddr x.1) (n + 1))
      | _ => .error .swdSequence
    else
      match writesOfPackets (swdAddr x.1) (x :: xs) with
      | some ws => .ok (.swdWriten (swdAddr x.1) ws)
      | none => .error .swdSequence

/-- The instruction a frame holds, or the name of what is wrong with it. -/
def decode : Frame → Except DecodeError Instr
  | .host ws => decodeHost ws
  | .ir4 c =>
    match IrCode.ofCode c with
    | some ir => .ok (.jtagIrsel ir)
    | none => .error .irCode
  | .dr35 c r => decodeScan c r
  | .dr35Scan c r => decodeScanBlock c r
  | .dr35Seq xs => decodeScanSeq xs
  | .swdReq b w => decodeSwd b w
  | .swdXfer b w => decodeSwdBlock b w
  | .swdSeq xs => decodeSwdSeq xs
  | .rawOut bs => if bs = lineResetBits then .ok .swdLinereset else .error .rawBits

/-! ## Encoding -/

/-- The flags byte of GET_CONNECTION (R126). -/
def connectionFlags (autoinc : Option Bool) (peripheral allowDisabled : Bool) : BitVec 8 :=
  0#4 ++ BitVec.ofBool peripheral ++ BitVec.ofBool (autoinc.getD false) ++ BitVec.ofBool autoinc.isSome
    ++ BitVec.ofBool allowDisabled

/-- The three busy-check words, if given (R126). -/
def busyWords : Option BusyCheck → List W32
  | none => []
  | some b => [b.addr, b.mask, b.expected]

/-- A flags byte whose only flag is bit 0 (R126). -/
def flag0 (b : Bool) : BitVec 8 := if b then 1 else 0

/-- A number as an operand word (R111). -/
def wordOf (n : Nat) : W32 := BitVec.ofNat 32 n

/-- The binary form of a well-formed instruction (R111, R116, R117, R119, R126). -/
def encode : Instr → Frame
  | .detectVersion => .host [hHeader 0x01 0 0]
  | .reassertPower => .host [hHeader 0x02 0 0]
  | .dpRead r => .host [hHeader 0x03 r.code 0]
  | .dpWrite r v => .host [hHeader 0x04 r.code 0, v]
  | .selectAp ap addr => .host [hHeader 0x05 0 ap, addr]
  | .freezeSelect => .host [hHeader 0x06 0 0]
  | .unfreezeSelect => .host [hHeader 0x07 0 0]
  | .checkSticky => .host [hHeader 0x08 0 0]
  | .clearSticky => .host [hHeader 0x09 0 0]
  | .apRead ap addr => .host [hHeader 0x0A 0 ap, addr]
  | .apWrite ap addr v => .host [hHeader 0x0B 0 ap, addr, v]
  | .swdConnect none => .host [hHeader 0x0C 0 0]
  | .swdConnect (some t) => .host [hHeader 0x0C 1 0, t]
  | .getConnection ap ai per dis => .host [hHeader 0x10 (connectionFlags ai per dis) ap]
  | .memoryRead ap s e => .host [hHeader 0x11 0 ap, wordOf s, wordOf e]
  | .memoryWrite ap s n d => .host (hHeader 0x12 0 ap :: wordOf s :: wordOf n :: d)
  | .registerRead ap n rs => .host (hHeader 0x13 0 ap :: wordOf n :: rs)
  | .registerWrite ap n rs vs => .host (hHeader 0x14 0 ap :: wordOf n :: (rs ++ vs))
  | .runCtrlRead ap c => .host (hHeader 0x15 0 ap :: c)
  | .runCtrlWrite ap c => .host (hHeader 0x16 0 ap :: c)
  | .scanAps x => .host [hHeader 0x17 (flag0 x) 0]
  | .getChipVersion => .host [hHeader 0x18 0 0]
  | .teardown => .host [hHeader 0x19 0 0]
  | .readMemory ap s e => .host [hHeader 0x20 0 ap, wordOf s, wordOf e]
  | .writeMemory ap s n d => .host (hHeader 0x21 0 ap :: wordOf s :: wordOf n :: d)
  | .writeMemoryRmw ap s n d => .host (hHeader 0x22 0 ap :: wordOf s :: wordOf n :: d)
  | .pollRead ap x n b => .host (hHeader 0x23 (flag0 b.isSome) ap :: x :: wordOf n :: busyWords b)
  | .pollWrite ap x n vs b => .host (hHeader 0x24 (flag0 b.isSome) ap :: x :: wordOf n :: (vs ++ busyWords b))
  | .jtagIrsel ir => .ir4 ir.code
  | .jtagScan ir rnw a d => .dr35Scan ir.code (drReq rnw a d)
  | .jtagDpaccRd a => .dr35 IrCode.dpacc.code (drReq true a 0)
  | .jtagDpaccWr a v => .dr35 IrCode.dpacc.code (drReq false a v)
  | .jtagApaccRd a => .dr35 IrCode.apacc.code (drReq true a 0)
  | .jtagApaccWr a v => .dr35 IrCode.apacc.code (drReq false a v)
  | .jtagReadn rs =>
    .dr35Seq (rs.map (fun r => (r.1.code, drReq true r.2 0)) ++ [(IrCode.dpacc.code, drReq true 0xC 0)])
  | .jtagWriten a ws => .dr35Seq (ws.map fun w => (IrCode.apacc.code, drReq false a w))
  | .jtagAbortWr v => .dr35 IrCode.abort.code (drReq false 0 v)
  | .swdXfer apndp rnw a w => .swdXfer (swdReqByte apndp rnw a) w
  | .swdDpRd a => .swdReq (swdReqByte false true a) 0
  | .swdDpWr a v => .swdReq (swdReqByte false false a) v
  | .swdApRd a => .swdReq (swdReqByte true true a) 0
  | .swdApWr a v => .swdReq (swdReqByte true false a) v
  | .swdReadn a n => .swdSeq (List.replicate n (swdReqByte true true a, 0) ++ [(swdReqByte false true 0xC, 0)])
  | .swdWriten a ws => .swdSeq (ws.map fun w => (swdReqByte true false a, w))
  | .swdAbort v => .swdReq (swdReqByte false false 0x0) v
  | .swdLinereset => .rawOut lineResetBits
  | .swdTargetsel v => .swdReq (swdReqByte false false 0xC) v

/-! ## One word of the opcode table -/

/-- The operand words of a level H command whose operand words are all zero: as many as R126 gives its row when the
counts and lengths are zero. -/
def zeroOperands (w : W32) : List W32 :=
  match (hOpcode w).toNat with
  | 0x04 => [0]
  | 0x05 => [0]
  | 0x0A => [0]
  | 0x0B => [0, 0]
  | 0x0C => if (hFlags w).getLsbD 0 then [0] else []
  | 0x11 => [0, 0]
  | 0x12 => [0, 0]
  | 0x13 => [0]
  | 0x14 => [0]
  | 0x15 => [0]
  | 0x16 => [0]
  | 0x20 => [0, 0]
  | 0x21 => [0, 0]
  | 0x22 => [0, 0]
  | 0x23 => if (hFlags w).getLsbD 0 then [0, 0, 0, 0, 0] else [0, 0]
  | 0x24 => if (hFlags w).getLsbD 0 then [0, 0, 0, 0, 0] else [0, 0]
  | _ => []

/-- A 35-bit request given without its instruction-register code: ABORT for a write of address 0, which DPACC never
sends (R153), and DPACC otherwise (log 7). -/
def bareScanFrame (r : Scan) : Frame :=
  if !drRnw r && drAddr r == 0 then .dr35 IrCode.abort.code r else .dr35 IrCode.dpacc.code r

/-- The frame of an instruction whose table bits are `w`: up to 8 bits an SWD request byte or an instruction-register
code, up to 32 bits a level H header with zero operand words, above that a 35-bit scan. Eight bits that are neither
a request byte nor a code are the low bits of a scan (log 7). -/
def tableFrame (nbits w : Nat) : Frame :=
  if nbits ≤ 8 then
    if w % 2 = 1 ∧ w / 128 % 2 = 1 then .swdReq (BitVec.ofNat 8 w) 0
    else if (IrCode.ofCode (BitVec.ofNat 4 w)).isSome ∧ w < 16 then .ir4 (BitVec.ofNat 4 w)
    else bareScanFrame (BitVec.ofNat 35 w)
  else if nbits ≤ 32 then .host (BitVec.ofNat 32 w :: zeroOperands (BitVec.ofNat 32 w))
  else bareScanFrame (BitVec.ofNat 35 w)

/-- The instruction the decoder reads from the table bits `w`. -/
def decodeTableWord (nbits w : Nat) : Option Instr :=
  match decode (tableFrame nbits w) with
  | .ok i => some i
  | .error _ => none

end Sys2Proof
end

