-- ==== Sys2Proof/Machine/Types.lean ====
section
/-! DEFINITION. The records and enumerations the state is made of: commands, connections, errors, command results,
BitDriver calls, and the reference target T0. -/

namespace Sys2Proof.Machine

open Sys2Proof

/-- A command of the host's list: its binary form, or the abstract syntax, which R111 makes normative (and which
alone can write a range that ends at 2^32, R126). -/
inductive Command where
  | frame (f : Frame)
  | abstract (i : Instr)
deriving DecidableEq, Repr

/-- MemApConnection (R25). -/
structure MemApConnection where
  /-- The AP index. -/
  ap : ApIndex
  /-- IDR as read at creation. -/
  idr : W32
  /-- `BusType(idr)` (R47). -/
  busType : BusType
  /-- CSW.DeviceEn as read at creation. -/
  enabled : Bool
  /-- The CSW auto-increment default (R231). -/
  autoinc : Bool
  /-- A peripheral wrapper was requested at creation. -/
  peripheral : Bool
  /-- Address of DRW masked with 0xFF0. -/
  drwBank : BitVec 12
  /-- The sub-word capability cache. -/
  subword : Option Bool
  /-- The last CSW value DAPSEQ read or wrote for this AP. -/
  cswShadow : W32
deriving DecidableEq, Repr

/-- The `kind` of a DpOrApAccessError (R306, R307). -/
inductive AccessKind where
  | invalidAck | swdAck | readParity | backend
deriving DecidableEq, Repr

/-- The `kind` and `info` of a DpOrApAccessError, also the inner error of the two it is replaced by. -/
structure AccessError where
  kind : AccessKind
  info : W32
deriving DecidableEq, Repr

/-- The sixteen errors of R300, the five refusals of R318 among them. -/
inductive DapError where
  | versionUnsupported (id ver : W32)
  | apNotPresent (ap : ApIndex)
  | apDisabled (ap : ApIndex)
  | stickyProtocolError (snapshot : W32)
  | waitAckExhausted (ir : IrCode) (rnw : Bool) (a : RegAddr)
  | dpOrApAccessError (e : AccessError)
  | apAccessDisabledError (ap : ApIndex) (e : AccessError)
  | apBusAccessError (ap : ApIndex) (e : AccessError)
  | targetSelectionFailed (targetsel : Option W32) (attempts : Nat)
  | powerUpFailed (snapshot : W32)
  | busyPollTimeout (bcAddr value : W32)
  | illegalCommand
  | badArgument
  | dpNotReady
  | registerNotInVersion
  | noConnection (ap : ApIndex)
deriving DecidableEq, Repr

/-- The seven columns SCAN_APS adds with `extra_details` (R275). -/
structure ScanDetails where
  idr : W32
  csw : W32
  base : W32
  revision : BitVec 4
  designer : BitVec 11
  variant : BitVec 4
  type : BitVec 4
deriving DecidableEq, Repr

/-- One row of the SCAN_APS table (R275). -/
structure ScanRow where
  index : ApIndex
  cls : BitVec 4
  busType : BusType
  enabled : Bool
  details : Option ScanDetails
deriving DecidableEq, Repr

/-- The value a command returns (the result column of R126, before it is packed into words). -/
inductive Value where
  /-- No result words. -/
  | unit
  /-- One register value, or the version number of DETECT_VERSION. -/
  | word (w : W32)
  /-- REASSERT_POWER: AlreadyPowered or PoweredNow (R201). -/
  | power (already : Bool)
  /-- GET_CONNECTION: the connection (R271). -/
  | connection (c : MemApConnection)
  /-- GET_CONNECTION or GET_CHIP_VERSION: Absent (R271, R276). -/
  | absent
  /-- A byte string (R234, R273). -/
  | bytes (bs : List Byte)
  /-- A list of words (R239, R278, R280). -/
  | words (ws : List W32)
  /-- The SCAN_APS table (R275). -/
  | table (rows : List ScanRow)
  /-- GET_CHIP_VERSION: designer, part number, revision, instance (R276). -/
  | chip (designer : BitVec 11) (part : BitVec 16) (revision tinstance : BitVec 4)
deriving DecidableEq, Repr

/-- The result of a command: a value or an error (R9, R31). -/
inductive Result where
  | ok (v : Value)
  | error (e : DapError)
deriving DecidableEq, Repr

/-- A piece of an SWD transaction (R114). -/
inductive Segment where
  /-- The host drives the bits, first element first. -/
  | out (bits : List Bool)
  /-- The host samples `n` bits. -/
  | inp (n : Nat)
  /-- `n` turnaround clocks. -/
  | trn (n : Nat)
deriving DecidableEq, Repr

/-- A call of the vendor backend: the link primitives and the block transfer (R6, R115, R241). -/
inductive BackendCall where
  | dpRead (a : RegAddr)
  | dpWrite (a : RegAddr) (v : W32)
  | apRead (a : RegAddr)
  | apWrite (a : RegAddr) (v : W32)
  | abort (v : W32)
  | blockRead (ap : ApIndex) (addr : W32) (n : Nat)
  | blockWrite (ap : ApIndex) (addr : W32) (ws : List W32)
deriving DecidableEq, Repr

/-- The backend's answer: the words read, or an error code (R307). -/
inductive BackendReply where
  | ok (ws : List W32)
  | failed (code : W32)
deriving DecidableEq, Repr

/-- One call beyond the port, with its arguments and answer (R9, R112 to R114; a backend call when the link is the
vendor's). -/
inductive WireEvent where
  | irScan (value : BitVec 4)
  | drScan (out inp : Scan)
  | driveLine (segments : List Segment) (sampled : List Bool)
  | backend (call : BackendCall) (reply : BackendReply)
deriving DecidableEq, Repr

/-! ## The reference target T0 (45_reference_target.md) -/

/-- One member of `T0_APS`: its constants and its two registers (R400, R401). -/
structure T0Ap where
  index : ApIndex
  idr : W32
  base : W32
  csw0 : W32
  csw : W32
  tar : W32
deriving DecidableEq, Repr

/-- `t_wait` (R400). -/
inductive T0Wait where
  | count (n : Nat)
  | forever
deriving DecidableEq, Repr

/-- Which data phase T0 expects after an SWD request it acknowledged OK. R409 describes a transaction as a whole; the
latch between its two `drive_line` calls is the model's (log 5). -/
inductive T0Phase where
  | idle
  | dpRead (a : RegAddr)
  | dpWrite (a : RegAddr)
  | apRead (a : RegAddr)
  | apWrite (a : RegAddr)
deriving DecidableEq, Repr

/-- State and configuration of T0 (R400, R401). -/
structure T0 where
  /-- `T0_DPIDR`. -/
  dpidr : W32
  /-- `T0_TARGETID`. -/
  targetid : W32
  /-- `T0_DLPIDR`. -/
  dlpidr : W32
  /-- `T0_EVENTSTAT`. -/
  eventstat : W32
  /-- `T0_DPIDR1`. -/
  dpidr1 : W32
  /-- `T0_APS` with `t_csw` and `t_tar`. -/
  aps : List T0Ap
  /-- `T0_BAD`. -/
  bad : List Nat
  /-- `T0_POWER_DEAD`. -/
  powerDead : Bool
  /-- `t_select`. -/
  select : W32
  /-- `t_ctrl`. -/
  ctrl : W32
  /-- `t_sticky`. -/
  sticky : W32
  /-- `t_rdbuff`. -/
  rdbuff : W32
  /-- `t_ir`. -/
  ir : BitVec 4
  /-- `t_mem`, in the canonical form of `Memory.wf`. -/
  mem : List Host.Cell
  /-- `t_wait`. -/
  wait : T0Wait
  /-- `t_inject`. -/
  inject : Option (Nat × W32)
  /-- The data phase expected next (the model's own). -/
  phase : T0Phase
deriving DecidableEq, Repr

/-! ## The Codec (R278 to R281) -/

/-- A delegated operation (R278 to R281). -/
inductive CodecOp where
  | registerRead (regs : List W32)
  | registerWrite (regs values : List W32)
  | runCtrlRead (ctrl : List W32)
  | runCtrlWrite (ctrl : List W32)
deriving DecidableEq, Repr

/-- An engine command a Codec may issue on its connection (R278). -/
inductive EngineCall where
  | readMemory (start stop : Nat)
  | writeMemory (start : Nat) (bytes : List Byte)
  | writeMemoryRmw (start : Nat) (bytes : List Byte)
  | pollRead (address : W32) (count : Nat) (busy : Option BusyCheck)
  | pollWrite (address : W32) (values : List W32) (busy : Option BusyCheck)
deriving DecidableEq, Repr

/-- What a Codec does: return words, raise an error, or issue an engine command and go on with its value. The type is
well founded, so every Codec issues finitely many engine commands (R346). -/
inductive CodecProgram where
  | ret (ws : List W32)
  | raise (e : DapError)
  | call (c : EngineCall) (k : Value → CodecProgram)
deriving Inhabited

end Sys2Proof.Machine
end

