-- ==== Sys2Proof/Config.lean ====
section
/-! DEFINITION. What an implementation fixes (the parameters of R10), the constants the spec fixes, and the free
values: the environment's draws and the Codec. -/

namespace Sys2Proof

open Machine

/-- The parameters of R10 that R10 leaves open, fixed for a whole run and written by no command (R28, log 1). -/
structure Config where
  /-- `IFACE`. -/
  iface : Iface
  /-- `CLOCK_KHZ`; passed to the BitDriver, no rule depends on it. -/
  clockKHz : Nat
  /-- `PROBE_SELECTOR`; passed through, no rule depends on it. -/
  probeSelector : Option String
  /-- `CHAIN_PRE`; consumed by the BitDriver, no rule depends on it. -/
  chainPre : Nat
  /-- `CHAIN_POST`; consumed by the BitDriver, no rule depends on it. -/
  chainPost : Nat
  /-- `ORUN_DETECT`. -/
  orunDetect : Bool
  /-- `BLOCK_SUPPORT` of a vendor backend. -/
  blockSupport : Bool
  /-- The APs with `SUBWORD[ap]` true. -/
  subwordAps : List ApIndex
  /-- `BUSY_POLL_LIMIT`, at least 1. -/
  busyPollLimit : Nat
  /-- `TARGETSEL_ATTEMPTS`, at least 1. -/
  targetselAttempts : Nat
  /-- `SWD_IDLE_CYCLES`. -/
  swdIdleCycles : Nat
  /-- A Codec is supplied (R278). -/
  codecPresent : Bool
deriving DecidableEq, Repr

/-- The configuration State.reset names: the defaults of R10, and a named value where R10 gives none (DESIGN CHOICE,
log 1). -/
def Config.initial : Config where
  iface := .jtag
  clockKHz := 1000
  probeSelector := none
  chainPre := 0
  chainPost := 0
  orunDetect := false
  blockSupport := false
  subwordAps := []
  busyPollLimit := 1
  targetselAttempts := 1
  swdIdleCycles := 0
  codecPresent := true

/-- The two open caps are at least 1 (R10). -/
def Config.Valid (c : Config) : Bool := decide (1 ≤ c.busyPollLimit) && decide (1 ≤ c.targetselAttempts)

/-- Native block transfer: never on JTAG or SWD (R10, R241). -/
def Config.blocks (c : Config) : Bool := c.iface == .vendor && c.blockSupport

/-- `SUBWORD[ap]` (R10). -/
def Config.subwordOf (c : Config) (ap : ApIndex) : Bool := c.subwordAps.contains ap

namespace Config

/-- `WAIT_THRESHOLD` (R10). -/
def waitThreshold : Nat := 3

/-- `STICKY_REREAD_MAX` (R10). -/
def stickyRereadMax : Nat := 10

/-- `AUTOINC_BOUNDARY` (R10). -/
def autoincBoundary : Nat := 1024

/-- `POWER_TIMEOUT_S` (R10). -/
def powerTimeoutS : Nat := 1

/-- `POWER_POLL_HZ` (R10). -/
def powerPollHz : Nat := 1

/-- `POWER_POLL_LIMIT` (R10, R360). -/
def powerPollLimit : Nat := powerTimeoutS * powerPollHz + 1

/-- `DP_VERSION_MAX` (R10). -/
def dpVersionMax : Nat := 3

/-- The number of AP indices, `AP_INDEX_MAX + 1` (R10). -/
def apCount : Nat := 256

/-- FREE VALUE: the environment's `n`-th answer once the queued answers are used up. No rule constrains a draw (R87),
so it has no body (log 4). -/
opaque freeDraw : Nat → BitVec 35

/-- FREE VALUE: the Codec, an uninterpreted parameter of the model (R278, log 12). -/
opaque codec : CodecOp → MemApConnection → CodecProgram

end Config

end Sys2Proof
end

