-- ==== Sys2Proof/Machine/State.lean ====
section
/-! DEFINITION. The state of the machine as plain data, its two kinds of stop, and the state after reset. -/

namespace Sys2Proof.Machine

open Sys2Proof

/-- Reasons for which the machine stops with a fault. There are none: every error of the spec is the result of a
command, after which the next command is accepted (R315), and every BitDriver call returns (R319). -/
inductive Fault where
deriving DecidableEq, Repr

/-- Reasons for which the model gives no meaning. -/
inductive Refusal where
  /-- Raised by an arm of `exec` whose instruction has no meaning yet; safe. No arm raises it. -/
  | notModelled (mnemonic : String)
deriving DecidableEq, Repr

/-- The state. The first seven fields are the working registers of R20; `cfg` holds the parameters of R10; the others
are the observation of R9 and the host and environment ends of the two interfaces (log 2 to 5). -/
structure State where
  /-- `dp_version` (R21). -/
  dpVersion : DpVersion
  /-- `select_last`, the last value written to DP.SELECT, none when unknown (R22). -/
  selectLast : Option W32
  /-- `freeze_depth` (R23). -/
  freezeDepth : Nat
  /-- `frozen_valid` (R23). -/
  frozenValid : Bool
  /-- `ap_state[0..255]` (R24). -/
  apState : Vector ApState 256
  /-- `conn[0..255]` (R25). -/
  conn : Vector (Option MemApConnection) 256
  /-- `jtag_ir`, the code last loaded, none when not known (R26). -/
  jtagIr : Option IrCode
  /-- The parameters, fixed for a run (R10, R28). -/
  cfg : Config
  /-- The host's command list (R31). -/
  commands : List Command
  /-- The index of the current command in the host's list (R31). -/
  pc : Nat
  /-- The result list, in order (R9). -/
  results : List Result
  /-- The wire trace, in order (R9). -/
  trace : List WireEvent
  /-- The environment's coming answers; a call that samples `n` bits takes the low `n` of one (R87, log 4). -/
  answers : List (BitVec 35)
  /-- How many answers have been drawn: the argument of the free value (log 4). -/
  drawn : Nat
  /-- The reference target, when the loop is closed with it (R400 to R410, log 5). -/
  target : Option T0
deriving DecidableEq, Repr

/-- The state right after the construction of the transport (R50, R340). Nothing beyond the port is known (R341). -/
def State.reset : State where
  dpVersion := .undetected
  selectLast := none
  freezeDepth := 0
  frozenValid := false
  apState := Vector.replicate 256 .unresolved
  conn := Vector.replicate 256 none
  jtagIr := none
  cfg := Config.initial
  commands := []
  pc := 0
  results := []
  trace := []
  answers := []
  drawn := 0
  target := none

end Sys2Proof.Machine
end

