-- ==== Sys2Proof/Machine/Flags.lean ====
section
/-! DEFINITION. The register layouts DAPSEQ knows: the DP registers' addresses, banks, access modes and versions, the
sticky and power flags of CTRL_STAT, the values of SELECT, ABORT and CSW, the MEM-AP offsets, and the fields of DPIDR,
IDR, TARGETID and DLPIDR (10_state.md sections 4 to 6, 30_encoding.md section 6). Positions the spec marks as general
knowledge (93 G1 to G10) stand here as named definitions (log 18). -/

namespace Sys2Proof.Machine

open Sys2Proof

/-! ## DP registers (R33) -/

/-- The 4-bit address of a DP register (R33). -/
def dpAddr : DpReg → RegAddr
  | .dpidr => 0x0
  | .abort => 0x0
  | .ctrlStat => 0x4
  | .targetid => 0x4
  | .dlpidr => 0x4
  | .eventstat => 0x4
  | .dpidr1 => 0x0
  | .select1 => 0x4
  | .select => 0x8
  | .rdbuff => 0xC
  | .targetsel => 0xC

/-- The DP bank of a register, none for "any" (R33; DPIDR's "0 (V3)" is the bank DP_READ selects, R193, R197). -/
def dpBank : DpReg → Option (BitVec 4)
  | .ctrlStat => some 0
  | .targetid => some 2
  | .dlpidr => some 3
  | .eventstat => some 4
  | .dpidr1 => some 1
  | .select1 => some 5
  | .dpidr => none
  | .abort => none
  | .select => none
  | .rdbuff => none
  | .targetsel => none

/-- The register can be read (R33). -/
def dpReadable : DpReg → Bool
  | .dpidr => true
  | .ctrlStat => true
  | .targetid => true
  | .dlpidr => true
  | .eventstat => true
  | .dpidr1 => true
  | .rdbuff => true
  | .abort => false
  | .select => false
  | .select1 => false
  | .targetsel => false

/-- The register can be written (R33). -/
def dpWritable : DpReg → Bool
  | .abort => true
  | .ctrlStat => true
  | .select => true
  | .select1 => true
  | .targetsel => true
  | .dpidr => false
  | .targetid => false
  | .dlpidr => false
  | .eventstat => false
  | .dpidr1 => false
  | .rdbuff => false

/-- The register is valid in version 1 (R33). -/
def dpValidInV1 : DpReg → Bool
  | .dpidr => true
  | .abort => true
  | .ctrlStat => true
  | .select => true
  | .rdbuff => true
  | .targetid => false
  | .dlpidr => false
  | .eventstat => false
  | .targetsel => false
  | .dpidr1 => false
  | .select1 => false

/-- The register is valid in a detected version (R33, R193). -/
def dpValidIn : DpVersion → DpReg → Bool
  | .v1, r => dpValidInV1 r
  | .v2, r => dpValidInV1 r || r == .targetid || r == .dlpidr || r == .eventstat || r == .targetsel
  | .v3, _ => true
  | .undetected, _ => false
  | .absent, _ => false

/-- A version has been detected (R21, R205). -/
def detected : DpVersion → Bool
  | .v1 => true
  | .v2 => true
  | .v3 => true
  | .undetected => false
  | .absent => false

/-- The number DETECT_VERSION returns for a version (R191). -/
def versionNumber : DpVersion → W32
  | .undetected => 0
  | .absent => 0
  | .v1 => 1
  | .v2 => 2
  | .v3 => 3

/-- The content of DPIDR of an absent DP (R34, R191). -/
def dpidrAbsent : W32 := 0xFFFFFFFF

/-- DPIDR.VERSION `[15:12]`, 0 aliased to 1 (R34, R191). -/
def dpidrVersion (id : W32) : Nat :=
  let ver := (id.extractLsb' 12 4).toNat
  if ver = 0 then 1 else ver

/-- The version with a number from 1 to 3 (R191). -/
def versionOf : Nat → DpVersion
  | 1 => .v1
  | 2 => .v2
  | _ => .v3

/-! ## CTRL_STAT and ABORT (R32, R35, R36) -/

/-- STICKYORUN, CTRL_STAT bit 1. -/
def stickyOrun : W32 := 0x00000002

/-- STICKYCMP, CTRL_STAT bit 4. -/
def stickyCmp : W32 := 0x00000010

/-- STICKYERR, CTRL_STAT bit 5. -/
def stickyErr : W32 := 0x00000020

/-- WDATAERR, CTRL_STAT bit 7. -/
def wdataErr : W32 := 0x00000080

/-- `STICKY_MASK`: the four sticky flags (R36). -/
def stickyMask : W32 := 0x000000B2

/-- `PWR_ACK_MASK`: CSYSPWRUPACK and CDBGPWRUPACK (R36). -/
def pwrAckMask : W32 := 0xA0000000

/-- `PWR_REQ_MASK`: CSYSPWRUPREQ and CDBGPWRUPREQ (R36). -/
def pwrReqMask : W32 := 0x50000000

/-- No sticky flag is set (R199). -/
def noSticky (s : W32) : Bool := s &&& stickyMask == 0

/-- Both power acknowledgements are set (R201). -/
def powered (s : W32) : Bool := s &&& pwrAckMask == pwrAckMask

/-- `AbortVal`: STKCMPCLR, STKERRCLR, WDERRCLR, and ORUNERRCLR when overrun detection is enabled (R125, R200). -/
def abortVal (orunDetect : Bool) : W32 := 0x0000000E ||| (if orunDetect then 0x10 else 0)

/-! ## SELECT (R37, R122, R124) -/

/-- `SelVal(ap, addr)` (R122). -/
def selVal (ap : ApIndex) (addr : BitVec 12) : W32 :=
  (ap.setWidth 32 <<< 24) ||| (addr.setWidth 32 &&& 0xFF0)

/-- `SelDp(last, bank)` (R124). -/
def selDp (last : Option W32) (bank : BitVec 4) : W32 :=
  (last.getD 0 &&& 0xFFFFFFF0) ||| bank.setWidth 32

/-! ## MEM-AP registers (R41 to R47) -/

/-- The AP layout base: 0xD00 for ADIv6 (version 3), 0x000 for ADIv5 (R10 `AP_LAYOUT`, R41, R193). -/
def layoutBase : DpVersion → BitVec 12
  | .v3 => 0xD00
  | .v1 => 0x000
  | .v2 => 0x000
  | .undetected => 0x000
  | .absent => 0x000

/-- Offset of CSW from the layout base (R41). -/
def cswOffset : BitVec 12 := 0x00

/-- Offset of TAR from the layout base (R41). -/
def tarOffset : BitVec 12 := 0x04

/-- Offset of DRW from the layout base (R41). -/
def drwOffset : BitVec 12 := 0x0C

/-- Offset of BASE from the layout base (R41). -/
def baseOffset : BitVec 12 := 0xF8

/-- Offset of IDR from the layout base (R41). -/
def idrOffset : BitVec 12 := 0xFC

/-- The part of an AP register address the link carries, bits `[3:0]` (R41, R123). -/
def apLinkAddr (addr : BitVec 12) : RegAddr := addr.extractLsb' 0 4

/-- `CSW_DEVICEEN`, bit 6 (R42). -/
def cswDeviceEn (csw : W32) : Bool := csw.getLsbD 6

/-- `CswVal(shadow, addrinc, size)` for AddrInc off or single and a size code (R125). -/
def cswVal (shadow : W32) (addrinc : Bool) (size : BitVec 3) : W32 :=
  (shadow &&& ~~~0x37#32) ||| (if addrinc then 0x10 else 0) ||| size.setWidth 32

/-- CSW.Size of a 32-bit access (R42). -/
def sizeWord : BitVec 3 := 2

/-- CSW.Size of an 8-bit access (R42). -/
def sizeByte : BitVec 3 := 0

/-- IDR.CLASS `[16:13]` (R45). -/
def idrClass (idr : W32) : BitVec 4 := idr.extractLsb' 13 4

/-- IDR.TYPE `[3:0]` (R45). -/
def idrType (idr : W32) : BitVec 4 := idr.extractLsb' 0 4

/-- IDR.REVISION `[31:28]` (R45). -/
def idrRevision (idr : W32) : BitVec 4 := idr.extractLsb' 28 4

/-- IDR.DESIGNER `[27:17]` (R45). -/
def idrDesigner (idr : W32) : BitVec 11 := idr.extractLsb' 17 11

/-- IDR.VARIANT `[7:4]` (R45). -/
def idrVariant (idr : W32) : BitVec 4 := idr.extractLsb' 4 4

/-- The bus type of a MEM-AP (class 8) by its TYPE (R47). -/
def memApBusType (type : BitVec 4) : BusType :=
  if type = 0x1 ∨ type = 0x5 ∨ type = 0x8 then .ahb
  else if type = 0x2 ∨ type = 0x6 then .apb
  else if type = 0x4 ∨ type = 0x7 then .axi
  else .other

/-- `BusType(idr)` (R47). -/
def busTypeOf (idr : W32) : BusType :=
  if idrClass idr = 0x8 then memApBusType (idrType idr)
  else if idrClass idr = 0x1 then .com
  else if idrClass idr = 0x0 ∧ idrType idr = 0x0 then .jtag
  else .other

/-- TARGETID.TDESIGNER `[11:1]` (R39). -/
def targetidDesigner (t : W32) : BitVec 11 := t.extractLsb' 1 11

/-- TARGETID.TPARTNO `[27:12]` (R39). -/
def targetidPart (t : W32) : BitVec 16 := t.extractLsb' 12 16

/-- TARGETID.TREVISION `[31:28]` (R39). -/
def targetidRevision (t : W32) : BitVec 4 := t.extractLsb' 28 4

/-- DLPIDR.TINSTANCE `[31:28]` (R39). -/
def dlpidrInstance (d : W32) : BitVec 4 := d.extractLsb' 28 4

/-! ## SWD parity (R121, R170) -/

/-- `par32(x)`: the XOR of the 32 bits of `x` (R170). -/
def par32 (x : W32) : Bool := (bitsOf x 32).foldl xor false

end Sys2Proof.Machine
end

