-- ==== Sys2Proof/Machine/Memory.lean ====
section
/-! DEFINITION. Target memory `t_mem` of T0 (R400): a list of (address, byte) pairs in one canonical form. An address
that is not listed reads zero, so no listed byte is zero and equal memories are equal lists. -/

namespace Sys2Proof.Machine

/-- What an unlisted address reads as (R400). -/
def Memory.unlisted : BitVec 8 := 0

/-- Addresses strictly rising and no entry equal to what an unlisted address reads as. -/
def Memory.wf : List Host.Cell → Bool
  | [] => true
  | (a, v) :: m =>
    v != Memory.unlisted && (match m with | [] => true | (b, _) :: _ => decide (a < b)) && Memory.wf m

/-- The byte at an address. -/
def Memory.read : List Host.Cell → Nat → BitVec 8
  | [], _ => Memory.unlisted
  | (b, v) :: m, a => if a = b then v else Memory.read m a

/-- A cell in front of a memory whose addresses are all higher; the unlisted value is not listed. -/
def Memory.cons (a : Nat) (v : BitVec 8) (m : List Host.Cell) : List Host.Cell :=
  if v = Memory.unlisted then m else (a, v) :: m

/-- Write one byte, keeping the canonical form. -/
def Memory.write : List Host.Cell → Nat → BitVec 8 → List Host.Cell
  | [], a, v => Memory.cons a v []
  | (b, w) :: m, a, v =>
    if a < b then Memory.cons a v ((b, w) :: m)
    else if a = b then Memory.cons a v m
    else (b, w) :: Memory.write m a v

/-- The word whose four bytes stand at `a` to `a + 3`, little-endian (R75, R406). -/
def Memory.read32 (m : List Host.Cell) (a : Nat) : BitVec 32 :=
  Memory.read m (a + 3) ++ Memory.read m (a + 2) ++ Memory.read m (a + 1) ++ Memory.read m a

/-- Write the four bytes of a word at `a` to `a + 3`, little-endian (R75, R406). -/
def Memory.write32 (m : List Host.Cell) (a : Nat) (v : BitVec 32) : List Host.Cell :=
  Memory.write
    (Memory.write
      (Memory.write (Memory.write m a (v.extractLsb' 0 8)) (a + 1) (v.extractLsb' 8 8))
      (a + 2) (v.extractLsb' 16 8))
    (a + 3) (v.extractLsb' 24 8)

/-- Store a byte string from an address on. -/
def Memory.fill (m : List Host.Cell) (a : Nat) : List (BitVec 8) → List Host.Cell
  | [] => m
  | b :: bs => Memory.fill (Memory.write m a b) (a + 1) bs

end Sys2Proof.Machine
end

