-- ==== Sys2Proof/Machine/Target.lean ====
section
/-! DEFINITION. The reference target T0 (45_reference_target.md R400 to R410): the deterministic environment the spec
builds for its test programs. It is no claim about a real Debug Port. -/

namespace Sys2Proof.Machine

open Sys2Proof

/-! ## Instances (R401) -/

/-- An AHB AP as in T0-A (R401). -/
def T0.ahbAp (i : ApIndex) : T0Ap where
  index := i
  idr := 0x24770011
  base := 0xE00FF003
  csw0 := 0x23000040
  csw := 0x23000040
  tar := 0

/-- AP 1 of T0-B: an APB AP that is disabled (R401). -/
def T0.apbAp : T0Ap where
  index := 1
  idr := 0x44770002
  base := 0x80000003
  csw0 := 0x00000002
  csw := 0x00000002
  tar := 0

/-- A T0 in its initial state (R400) with the given constants and members (R401). EVENTSTAT and DPIDR1 are 0 where R401
gives them; where it gives none they are 0 by choice (log 5). -/
def T0.initial (dpidr targetid dlpidr : W32) (aps : List T0Ap) : T0 where
  dpidr := dpidr
  targetid := targetid
  dlpidr := dlpidr
  eventstat := 0
  dpidr1 := 0
  aps := aps
  bad := []
  powerDead := false
  select := 0
  ctrl := 0
  sticky := 0
  rdbuff := 0
  ir := 0b1110
  mem := []
  wait := .count 0
  inject := none
  phase := .idle

/-- Instance T0-A (R401). -/
def T0.instA : T0 := T0.initial 0x2BA01477 0 0 [T0.ahbAp 0]

/-- Instance T0-B (R401). -/
def T0.instB : T0 := T0.initial 0x0BC12477 0x01002927 0x10000001 [T0.ahbAp 0, T0.apbAp, T0.ahbAp 3]

/-- Instance T0-C (R401). R401 lists no EVENTSTAT for it, which a version 3 DP reads at bank 4 (R403).
DESIGN CHOICE (log 5): it is 0. -/
def T0.instC : T0 := T0.initial 0x0C013477 0x01002927 0x10000001 [T0.ahbAp 0]

/-! ## Register behaviour -/

/-- The version field of `T0_DPIDR` (R403). -/
def T0.ver (t : T0) : Nat := (t.dpidr.extractLsb' 12 4).toNat

/-- `T0_L` (R401). -/
def T0.layout (t : T0) : BitVec 12 := if t.ver = 3 then 0xD00 else 0x000

/-- `T0.CtrlStat()` (R402). -/
def T0.ctrlStat (t : T0) : W32 :=
  t.ctrl ||| (if t.powerDead then (0 : W32) else (t.ctrl &&& (0x54000000 : W32)) <<< 1) ||| t.sticky

/-- `T0.DpRead(A)` (R403). -/
def T0.dpRead (t : T0) (a : RegAddr) : W32 :=
  let bank := t.select.extractLsb' 0 4
  if a = 0x0 then (if t.ver = 3 ∧ bank = 1 then t.dpidr1 else t.dpidr)
  else if a = 0x4 then
    if bank = 0 then t.ctrlStat
    else if 2 ≤ t.ver then
      if bank = 2 then t.targetid
      else if bank = 3 then t.dlpidr
      else if bank = 4 then t.eventstat
      else 0
    else 0
  else if a = 0xC then t.rdbuff
  else 0

/-- The sticky flags an ABORT write clears (R404). -/
def T0.abortClears (v : W32) : W32 :=
  (if v.getLsbD 1 then stickyCmp else 0) ||| (if v.getLsbD 2 then stickyErr else 0)
    ||| (if v.getLsbD 3 then wdataErr else 0) ||| (if v.getLsbD 4 then stickyOrun else 0)

/-- `T0.DpWrite(A, v)` (R404). -/
def T0.dpWrite (t : T0) (a : RegAddr) (v : W32) : T0 :=
  if a = 0x0 then { t with sticky := t.sticky &&& ~~~(T0.abortClears v) }
  else if a = 0x4 then
    if t.select.extractLsb' 0 4 = 0 then { t with ctrl := v &&& 0x54FFFF0D } else t
  else if a = 0x8 then { t with select := v }
  else t

/-- Replace the member with the same index. -/
def T0.setAp (t : T0) (p : T0Ap) : T0 :=
  { t with aps := t.aps.map fun q => if q.index = p.index then p else q }

/-- TAR after a DRW access of `n` bytes at `a`: only the low ten bits move (R406). -/
def T0.bumpTar (p : T0Ap) (n : Nat) : T0Ap :=
  if p.csw.extractLsb' 4 2 = 1 then
    { p with tar := (p.tar &&& 0xFFFFFC00) ||| ((p.tar + BitVec.ofNat 32 n) &&& 0x3FF) }
  else p

/-- The access faults (R406): disabled AP, size neither byte nor word, misaligned word, or a bad address. -/
def T0.faults (t : T0) (p : T0Ap) : Bool :=
  let a := p.tar.toNat
  let size := p.csw.extractLsb' 0 3
  let n := if size = sizeWord then 4 else 1
  !cswDeviceEn p.csw || !(size == sizeByte || size == sizeWord) || (size == sizeWord && a % 4 != 0)
    || t.bad.any fun x => decide (a ≤ x ∧ x < a + n)

/-- A DRW access that no injected fault takes (R406). -/
def T0.drwAccess (t : T0) (p : T0Ap) (rnw : Bool) (v : W32) : W32 × T0 :=
  let a := p.tar.toNat
  if t.faults p then (0, { t with sticky := t.sticky ||| stickyErr })
  else if p.csw.extractLsb' 0 3 = sizeWord then
    let t' := t.setAp (T0.bumpTar p 4)
    if rnw then (Memory.read32 t.mem a, t') else (0, { t' with mem := Memory.write32 t.mem a v })
  else
    let t' := t.setAp (T0.bumpTar p 1)
    if rnw then ((Memory.read t.mem a).setWidth 32 <<< (8 * (a % 4)), t')
    else (0, { t' with mem := Memory.write t.mem a (v.extractLsb' (8 * (a % 4)) 8) })

/-- DRW with the one-shot fault injector in front (R406, R407). -/
def T0.drw (t : T0) (p : T0Ap) (rnw : Bool) (v : W32) : W32 × T0 :=
  match t.inject with
  | none => t.drwAccess p rnw v
  | some (k, m) =>
    if k = 1 then (0, { t with inject := none, sticky := t.sticky ||| m })
    else ({ t with inject := some (k - 1, m) } : T0).drwAccess p rnw v

/-- `T0.ApAccess(rnw, A, v)` (R405). -/
def T0.apAccess (t : T0) (rnw : Bool) (a : RegAddr) (v : W32) : W32 × T0 :=
  match t.aps.find? fun p => p.index == t.select.extractLsb' 24 8 with
  | none => (0, t)
  | some p =>
    let off := ((t.select.extractLsb' 0 12 &&& 0xFF0) ||| a.setWidth 12) - t.layout
    if off = cswOffset then
      if rnw then (p.csw, t)
      else (0, t.setAp { p with csw := (v &&& 0xFFFFFF3F) ||| (p.csw0 &&& 0x40) })
    else if off = tarOffset then
      if rnw then (p.tar, t) else (0, t.setAp { p with tar := v })
    else if off = drwOffset then t.drw p rnw v
    else if off = baseOffset then (if rnw then p.base else 0, t)
    else if off = idrOffset then (if rnw then p.idr else 0, t)
    else (0, t)

/-! ## Wire behaviour -/

/-- A coming transaction is to be answered WAIT (R400). -/
def T0.waiting (t : T0) : Bool :=
  match t.wait with
  | .forever => true
  | .count n => n != 0

/-- One WAIT answer is used up (R408). -/
def T0.waitOnce (t : T0) : T0 :=
  match t.wait with
  | .forever => t
  | .count n => { t with wait := .count (n - 1) }

/-- `BD.ir_scan` (R408). -/
def T0.irScan (t : T0) (v : BitVec 4) : T0 := { t with ir := v }

/-- What an accepted scan does in T0: the new pending result and registers (R408). -/
def T0.scanEffect (t : T0) (req : Scan) : T0 :=
  let rnw := drRnw req
  let a := drAddr req
  let d := drData req
  if t.ir = IrCode.abort.code then (if !rnw && a == 0 then t.dpWrite 0x0 d else t)
  else if t.ir = IrCode.dpacc.code then
    if rnw then { t with rdbuff := t.dpRead a } else if a = 0 then t else t.dpWrite a d
  else if t.sticky ≠ 0 then (if rnw then { t with rdbuff := 0 } else t)
  else if rnw then { (t.apAccess true a 0).2 with rdbuff := (t.apAccess true a 0).1 }
  else (t.apAccess false a d).2

/-- `BD.dr_scan` (R408): the captured 35 bits and T0 afterwards. -/
def T0.drScan (t : T0) (req : Scan) : Scan × T0 :=
  if (IrCode.ofCode t.ir).isNone then (0, t)
  else if t.waiting then (0b001, t.waitOnce)
  else (t.rdbuff ++ 0b010#3, t.scanEffect req)

/-- The byte whose bits are listed, bit 0 first. -/
def byteOfBits : List Bool → Byte
  | [] => 0
  | b :: bs => ((byteOfBits bs) <<< 1) ||| (if b then 1 else 0)

/-- The word whose bits are listed, bit 0 first (R170). -/
def wordOfBits : List Bool → W32
  | [] => 0
  | b :: bs => ((wordOfBits bs) <<< 1) ||| (if b then 1 else 0)

/-- The request phase of an SWD transaction: the three sampled bits and T0 waiting for the data phase (R409). -/
def T0.swdRequest (t : T0) (req : Byte) : List Bool × T0 :=
  let a := swdAddr req
  if req = 0x99 then ([true, true, true], { t with phase := .idle })
  else if t.waiting then ([false, true, false], { t.waitOnce with phase := .idle })
  else if swdApndp req && t.sticky != 0 then ([false, false, true], { t with phase := .idle })
  else
    let phase : T0Phase :=
      match swdApndp req, swdRnw req with
      | false, true => .dpRead a
      | false, false => .dpWrite a
      | true, true => .apRead a
      | true, false => .apWrite a
    ([true, false, false], { t with phase := phase })

/-- The data word with its parity bit, as sampled (R409, R121). -/
def dataBits (w : W32) : List Bool := bitsOf w 32 ++ [par32 w]

/-- The data phase of a read (R409). A read phase no transaction opened samples zeros (log 5). -/
def T0.swdReadPhase (t : T0) : List Bool × T0 :=
  match t.phase with
  | .dpRead a => (dataBits (t.dpRead a), { t with phase := .idle })
  | .apRead a =>
    (dataBits t.rdbuff, { (t.apAccess true a 0).2 with rdbuff := (t.apAccess true a 0).1, phase := .idle })
  | .idle => (List.replicate 33 false, t)
  | .dpWrite _ => (List.replicate 33 false, { t with phase := .idle })
  | .apWrite _ => (List.replicate 33 false, { t with phase := .idle })

/-- The data phase of a write (R409). -/
def T0.swdWritePhase (t : T0) (w : W32) : T0 :=
  match t.phase with
  | .dpWrite a => { t.dpWrite a w with phase := .idle }
  | .apWrite a => { (t.apAccess false a w).2 with phase := .idle }
  | .idle => t
  | .dpRead _ => { t with phase := .idle }
  | .apRead _ => { t with phase := .idle }

/-- How many bits the `In` segments of a call sample (R114). -/
def sampledBits : List Segment → Nat
  | [] => 0
  | .inp n :: xs => n + sampledBits xs
  | .out _ :: xs => sampledBits xs
  | .trn _ :: xs => sampledBits xs

/-- `BD.drive_line` (R409). Calls that are no phase of a transaction have no effect and sample zeros. -/
def T0.driveLine (t : T0) (segs : List Segment) : List Bool × T0 :=
  match segs with
  | [.out bits, .trn 1, .inp 3] => t.swdRequest (byteOfBits bits)
  | [.inp 33, .trn 1] => t.swdReadPhase
  | [.trn 1, .out bits] => ([], t.swdWritePhase (wordOfBits bits))
  | _ => (List.replicate (sampledBits segs) false, t)

end Sys2Proof.Machine
end

