-- ==== Sys2Proof/Machine/Ops.lean ====
section
/-! DEFINITION. The named operations over the state: its updates, a command's computation and its combinators, the
environment's answers, the BitDriver port and the backend, the abort path of a command (R315) and the retry-once
policy beside it (R270, R316). -/

namespace Sys2Proof.Machine

open Sys2Proof

/-! ## Updates of the state -/

/-- Write `dp_version` (R21). -/
def State.setDpVersion (s : State) (v : DpVersion) : State := { s with dpVersion := v }

/-- Write `select_last` (R22). -/
def State.setSelectLast (s : State) (v : Option W32) : State := { s with selectLast := v }

/-- Write `freeze_depth` and `frozen_valid` (R23). -/
def State.setFreeze (s : State) (depth : Nat) (valid : Bool) : State :=
  { s with freezeDepth := depth, frozenValid := valid }

/-- Write `ap_state[ap]` (R24). -/
def State.setApState (s : State) (ap : ApIndex) (v : ApState) : State :=
  { s with apState := s.apState.set ap.toNat v ap.isLt }

/-- Write `conn[ap]` (R25). -/
def State.setConn (s : State) (ap : ApIndex) (c : Option MemApConnection) : State :=
  { s with conn := s.conn.set ap.toNat c ap.isLt }

/-- Write `jtag_ir` (R26). -/
def State.setJtagIr (s : State) (ir : Option IrCode) : State := { s with jtagIr := ir }

/-- Append a call to the wire trace (R9). -/
def State.pushEvent (s : State) (e : WireEvent) : State := { s with trace := s.trace ++ [e] }

/-- Append a result to the result list (R9). -/
def State.pushResult (s : State) (r : Result) : State := { s with results := s.results ++ [r] }

/-- Write the reference target. -/
def State.setTarget (s : State) (t : Option T0) : State := { s with target := t }

/-- Write the environment's coming answers and the number drawn. -/
def State.setAnswers (s : State) (xs : List (BitVec 35)) (n : Nat) : State := { s with answers := xs, drawn := n }

/-- Go to the next command, whatever the result of this one (R31). -/
def State.advance (s : State) : State := { s with pc := s.pc + 1 }

/-- Every working register at its reset value (R50, R277). The configuration, the host's list and the observation are
no working registers. -/
def State.teardown (s : State) : State :=
  { s with
    dpVersion := State.reset.dpVersion
    selectLast := State.reset.selectLast
    freezeDepth := State.reset.freezeDepth
    frozenValid := State.reset.frozenValid
    apState := State.reset.apState
    conn := State.reset.conn
    jtagIr := State.reset.jtagIr }

/-- `ap_state[ap]` (R24). -/
def State.apStateOf (s : State) (ap : ApIndex) : ApState := s.apState[ap.toNat]'ap.isLt

/-- `conn[ap]` (R25). -/
def State.connOf (s : State) (ap : ApIndex) : Option MemApConnection := s.conn[ap.toNat]'ap.isLt

/-- `csw_shadow` of a connection; the record's own when the AP has none (log 16). -/
def State.shadowOf (s : State) (c : MemApConnection) : W32 :=
  match s.connOf c.ap with
  | some d => d.cswShadow
  | none => c.cswShadow

/-- Write `csw_shadow` of `conn[ap]` (R25). -/
def State.setShadow (s : State) (ap : ApIndex) (w : W32) : State :=
  s.setConn ap ((s.connOf ap).map fun d => { d with cswShadow := w })

/-- Write the sub-word cache of `conn[ap]` (R25). -/
def State.setSubword (s : State) (ap : ApIndex) (b : Bool) : State :=
  s.setConn ap ((s.connOf ap).map fun d => { d with subword := some b })

/-! ## Computations -/

/-- A computation inside a command: it returns a value or raises an error, and in both cases every effect made so far
stays (R315: errors are precise). -/
abbrev Dap (α : Type) : Type := EStateM DapError State α

/-- The state. -/
def getS : Dap State := fun s => .ok s s

/-- Update the state. -/
def upd (f : State → State) : Dap Unit := fun s => .ok () (f s)

/-- Raise an error (R315). -/
def raise {α : Type} (e : DapError) : Dap α := fun s => .error e s

/-- Raise an error unless a check holds (R314). -/
def check (b : Bool) (e : DapError) : Dap Unit := if b then pure () else raise e

/-- Run `m`; on an error run `h` from the state the error left. -/
def onError {α : Type} (m : Dap α) (h : DapError → Dap α) : Dap α := fun s =>
  match m s with
  | .ok a t => .ok a t
  | .error e t => h e t

/-- `try body finally fin`: `fin` runs on both paths, and an error of `body` outranks one of `fin` (R232, R314). -/
def withFinally {α : Type} (body : Dap α) (fin : Dap Unit) : Dap α := fun s =>
  match body s with
  | .ok a t =>
    match fin t with
    | .ok _ u => .ok a u
    | .error e u => .error e u
  | .error e t =>
    match fin t with
    | .ok _ u => .error e u
    | .error _ u => .error e u

/-! ## Taking an error, and the way back (R315, R316)

What the processor world calls taking an exception is the abort path of a command: nothing is saved, no handler runs,
the error is the result and the next command is accepted. -/

/-- The abort path (R315): the error becomes the command's result; everything done before it stays done. -/
def takeError (e : DapError) (s : State) : State := s.pushResult (.error e)

/-- End a command: its value or its error becomes its result (R9, R315). -/
def complete (m : Dap Value) (s : State) : Host.Outcome State Fault Refusal :=
  match m s with
  | .ok v t => .next (t.pushResult (.ok v))
  | .error e t => .next (takeError e t)

/-- One attempt of a wrapped operation: the operation, then CHECK_STICKY (R270). -/
def attempt {α : Type} (checkSticky : Dap Unit) (op : Dap α) : Dap α := do
  let r ← op
  checkSticky
  pure r

/-- `WithStickyRetry(op)` (R270), the only return from an error there is (R316): a StickyProtocolError of the first
attempt is cleared once and the whole operation runs once more; every other error, and every error of CLEAR_STICKY or
of the second attempt, is the result. -/
def withStickyRetry {α : Type} (checkSticky clearSticky : Dap Unit) (op : Dap α) : Dap α :=
  onError (attempt checkSticky op) fun e =>
    match e with
    | .stickyProtocolError _ => do
      clearSticky
      attempt checkSticky op
    | e => raise e

/-! ## The environment (R87) -/

/-- The environment's next answer: a queued one, else the free value (log 4). -/
def State.nextAnswer (s : State) : BitVec 35 :=
  match s.answers with
  | x :: _ => x
  | [] => Config.freeDraw s.drawn

/-- Draw an answer. -/
def draw : Dap (BitVec 35) := fun s => .ok s.nextAnswer (s.setAnswers s.answers.tail (s.drawn + 1))

/-- Draw `n` 32-bit words. -/
def drawWords : Nat → Dap (List W32)
  | 0 => pure []
  | n + 1 => do
    let x ← draw
    let ws ← drawWords n
    pure (x.extractLsb' 0 32 :: ws)

/-! ## The BitDriver port (R112 to R114) -/

/-- `BD.ir_scan(value, 4)` (R112). -/
def bdIrScan (v : BitVec 4) : Dap Unit :=
  upd fun s => (s.setTarget (s.target.map fun t => t.irScan v)).pushEvent (.irScan v)

/-- `BD.dr_scan(out, 35)` (R113). -/
def bdDrScan (req : Scan) : Dap Scan := do
  let s ← getS
  match s.target with
  | some t =>
    upd fun s => (s.setTarget (some (t.drScan req).2)).pushEvent (.drScan req (t.drScan req).1)
    pure (t.drScan req).1
  | none =>
    let rsp ← draw
    upd fun s => s.pushEvent (.drScan req rsp)
    pure rsp

/-- `BD.drive_line(segments)` (R114). A call that samples nothing draws nothing. -/
def bdDriveLine (segs : List Segment) : Dap (List Bool) := do
  let s ← getS
  match s.target with
  | some t =>
    upd fun s => (s.setTarget (some (t.driveLine segs).2)).pushEvent (.driveLine segs (t.driveLine segs).1)
    pure (t.driveLine segs).1
  | none =>
    if sampledBits segs = 0 then
      upd fun s => s.pushEvent (.driveLine segs [])
      pure []
    else
      let x ← draw
      upd fun s => s.pushEvent (.driveLine segs (bitsOf x (sampledBits segs)))
      pure (bitsOf x (sampledBits segs))

/-! ## The vendor backend (R6, R115, R307) -/

/-- A DpOrApAccessError (R306, R307). -/
def accessError {α : Type} (kind : AccessKind) (info : W32) : Dap α := raise (.dpOrApAccessError ⟨kind, info⟩)

/-- A backend call: one drawn status, whose bit 32 says failure and whose low word is then the error code (R307,
log 10); else the words the call delivers. -/
def backendCall (call : BackendCall) (reply : W32 → Dap (List W32)) : Dap (List W32) := do
  let x ← draw
  if x.getLsbD 32 then
    upd fun s => s.pushEvent (.backend call (.failed (x.extractLsb' 0 32)))
    accessError .backend (x.extractLsb' 0 32)
  else
    let ws ← reply (x.extractLsb' 0 32)
    upd fun s => s.pushEvent (.backend call (.ok ws))
    pure ws

/-- A backend call that returns one word. -/
def backendWord (call : BackendCall) : Dap W32 := do
  let ws ← backendCall call fun w => pure [w]
  pure (ws.headD 0)

/-- A backend call that returns nothing. -/
def backendUnit (call : BackendCall) : Dap Unit := do
  let _ ← backendCall call fun _ => pure []
  pure ()

end Sys2Proof.Machine
end

