-- ==== Sys2Proof/Machine/Operands.lean ====
section
/-! DEFINITION. Operand forms: the checks a command makes before any transaction in the order of R314, ranges, runs
and split points (R132, R233, R237), byte strings (R75, R126), and the words of a result (R111, R126, R300, R320). -/

namespace Sys2Proof.Machine

open Sys2Proof

/-! ## Ranges (R132) -/

/-- The number of addresses of the target memory space (R132). -/
def addrLimit : Nat := 2 ^ 32

/-- `a0`: the range's start rounded down to a word (R132). -/
def wordFloor (start : Nat) : Nat := start - start % 4

/-- `a1`: the range's end rounded up to a word (R132). -/
def wordCeil (stop : Nat) : Nat := stop + (4 - stop % 4) % 4

/-- An edge of the range is not word aligned (R234). -/
def unalignedEdge (start stop : Nat) : Bool := start != wordFloor start || stop != wordCeil stop

/-- `0 ≤ start ≤ end ≤ 2^32` (R234). -/
def rangeOk (start stop : Nat) : Bool := decide (start ≤ stop) && decide (stop ≤ addrLimit)

/-- The end of the run that starts at `r` (R233): the range's end or the end of the 1 KiB block. -/
def runEnd (r b : Nat) : Nat := min b (Config.autoincBoundary * (r / Config.autoincBoundary + 1))

/-- The runs from `r` to `b`, at most `fuel` of them (R233, R238). -/
def runsFrom (autoinc : Bool) : Nat → Nat → Nat → List (Nat × Nat)
  | 0, _, _ => []
  | fuel + 1, r, b =>
    if r < b then
      let e := if autoinc then runEnd r b else r + 4
      (r, (e - r) / 4) :: runsFrom autoinc fuel e b
    else []

/-- `Runs(c, a, b)` (R233): every run holds at least one word, so the range's words bound their number. -/
def runs (autoinc : Bool) (a b : Nat) : List (Nat × Nat) := runsFrom autoinc ((b - a) / 4) a b

/-- `h_end` of the native sub-word path (R237). -/
def headEnd (start stop : Nat) : Nat := if start % 4 = 0 then start else min stop (wordCeil start)

/-- `t_start` of the native sub-word path (R237). -/
def tailStart (start stop : Nat) : Nat := if stop % 4 = 0 then stop else max (headEnd start stop) (wordFloor stop)

/-! ## Byte strings (R75) -/

/-- A word from four bytes, the first at the lowest address (R75). -/
def wordOfBytes (b0 b1 b2 b3 : Byte) : W32 := b3 ++ b2 ++ b1 ++ b0

/-- Byte `i` of a word (R75). -/
def byteOf (w : W32) (i : Nat) : Byte := w.extractLsb' (8 * i) 8

/-- The bytes of words, little-endian (R75). -/
def bytesOfWords : List W32 → List Byte
  | [] => []
  | w :: ws => byteOf w 0 :: byteOf w 1 :: byteOf w 2 :: byteOf w 3 :: bytesOfWords ws

/-- The words of a byte string, little-endian, the last zero-padded (R75, R126). -/
def wordsOfBytes : List Byte → List W32
  | [] => []
  | [a] => [wordOfBytes a 0 0 0]
  | [a, b] => [wordOfBytes a b 0 0]
  | [a, b, c] => [wordOfBytes a b c 0]
  | a :: b :: c :: d :: r => wordOfBytes a b c d :: wordsOfBytes r

/-- The byte string a command carries: `len` bytes packed in `ceil(len/4)` words; padding bytes are not looked at
(R126, log 14). -/
def dataBytes (len : Nat) (data : List W32) : List Byte := (bytesOfWords data).take len

/-- The data words match `len` and the range ends by 2^32 (R129, R235). -/
def dataOk (start len : Nat) (data : List W32) : Bool :=
  data.length == (len + 3) / 4 && decide (start + len ≤ addrLimit)

/-- A number as a 32-bit register value. -/
def w32 (n : Nat) : W32 := BitVec.ofNat 32 n

/-! ## Checks (R205, R314, R318) -/

/-- The command exists for the active link (R318). -/
def requireIface (i : Iface) : Dap Unit := do
  let s ← getS
  check (s.cfg.iface == i) .illegalCommand

/-- A Codec is supplied (R278, R318). -/
def requireCodec : Dap Unit := do
  let s ← getS
  check s.cfg.codecPresent .illegalCommand

/-- A version has been detected (R205). -/
def requireDetected : Dap Unit := do
  let s ← getS
  check (detected s.dpVersion) .dpNotReady

/-- Readiness of a raw DP access (R205). -/
def requireDpReg (r : DpReg) : Dap Unit := do
  let s ← getS
  if detected s.dpVersion then check (dpValidIn s.dpVersion r) .registerNotInVersion
  else check (dpValidInV1 r || r == .targetsel) .dpNotReady

/-- An operand is in its range (R318). -/
def requireArg (b : Bool) : Dap Unit := check b .badArgument

/-- `conn[ap]` is present (R234, R318). -/
def requireConn (ap : ApIndex) : Dap MemApConnection := do
  let s ← getS
  match s.connOf ap with
  | some c => pure c
  | none => raise (.noConnection ap)

/-- `addr` is a 12-bit offset (R194). -/
def apOffsetOk (addr : W32) : Bool := decide (addr.toNat ≤ 0xFFF)

/-- `addr` is a 12-bit offset and a multiple of 4 (R129, R202). -/
def apRegOk (addr : W32) : Bool := apOffsetOk addr && decide (addr.toNat % 4 = 0)

/-- The 12-bit offset of an operand word. -/
def apOffset (addr : W32) : BitVec 12 := addr.setWidth 12

/-- A word-aligned address (R239). -/
def wordAligned (a : W32) : Bool := decide (a.toNat % 4 = 0)

/-- The address of an optional busy check is word aligned (R239). -/
def busyOk (b : Option BusyCheck) : Bool :=
  match b with
  | none => true
  | some b => wordAligned b.addr

/-! ## Result words (R111, R126, R300, R320) -/

/-- The status word of an error (R300). -/
def DapError.status : DapError → W32
  | .versionUnsupported _ _ => 1
  | .apNotPresent _ => 2
  | .apDisabled _ => 3
  | .stickyProtocolError _ => 4
  | .waitAckExhausted _ _ _ => 5
  | .dpOrApAccessError _ => 6
  | .apAccessDisabledError _ _ => 7
  | .apBusAccessError _ _ => 8
  | .targetSelectionFailed _ _ => 9
  | .powerUpFailed _ => 10
  | .busyPollTimeout _ _ => 11
  | .illegalCommand => 0x20
  | .badArgument => 0x21
  | .dpNotReady => 0x22
  | .registerNotInVersion => 0x23
  | .noConnection _ => 0x24

/-- The code of an access error's kind (R320). -/
def AccessKind.code : AccessKind → W32
  | .invalidAck => 0
  | .swdAck => 1
  | .readParity => 2
  | .backend => 3

/-- The payload words of an error (R320). -/
def DapError.payload : DapError → List W32
  | .versionUnsupported id ver => [id, ver]
  | .apNotPresent ap => [ap.setWidth 32]
  | .apDisabled ap => [ap.setWidth 32]
  | .stickyProtocolError s => [s]
  | .waitAckExhausted ir rnw a => [ir.code.setWidth 32, if rnw then 1 else 0, a.setWidth 32]
  | .dpOrApAccessError e => [e.kind.code, e.info]
  | .apAccessDisabledError ap e => [ap.setWidth 32, e.kind.code, e.info]
  | .apBusAccessError ap e => [ap.setWidth 32, e.kind.code, e.info]
  | .targetSelectionFailed t n => [t.getD 0, w32 n]
  | .powerUpFailed s => [s]
  | .busyPollTimeout a v => [a, v]
  | .illegalCommand => []
  | .badArgument => []
  | .dpNotReady => []
  | .registerNotInVersion => []
  | .noConnection ap => [ap.setWidth 32]

/-- The code of a bus type in a SCAN_APS row (R126). -/
def BusType.code : BusType → W32
  | .ahb => 0
  | .apb => 1
  | .axi => 2
  | .jtag => 3
  | .com => 4
  | .other => 5

/-- A Boolean as a result word (R126). -/
def flagWord (b : Bool) : W32 := if b then 1 else 0

/-- The seven words of the extra details (R126). -/
def ScanDetails.resultWords (d : ScanDetails) : List W32 :=
  [d.idr, d.csw, d.base, d.revision.setWidth 32, d.designer.setWidth 32, d.variant.setWidth 32, d.type.setWidth 32]

/-- The words of a SCAN_APS row (R126). -/
def ScanRow.resultWords (r : ScanRow) : List W32 :=
  [r.index.setWidth 32, r.cls.setWidth 32, BusType.code r.busType, flagWord r.enabled]
    ++ (match r.details with | none => [] | some d => d.resultWords)

/-- The result words of a value (R126). -/
def Value.resultWords : Value → List W32
  | .unit => []
  | .word w => [w]
  | .power already => [flagWord already]
  | .connection _ => [1]
  | .absent => [0]
  | .bytes bs => wordsOfBytes bs
  | .words ws => ws
  | .table rows => w32 rows.length :: rows.flatMap ScanRow.resultWords
  | .chip designer part revision tinstance =>
    [1, designer.setWidth 32, part.setWidth 32, revision.setWidth 32, tinstance.setWidth 32]

/-- The words of a result: the status word, 0 for Ok, then the result words or the payload (R111, R320). -/
def Result.resultWords : Result → List W32
  | .ok v => 0 :: v.resultWords
  | .error e => e.status :: e.payload

end Sys2Proof.Machine
end

