-- ==== Sys2Proof/Machine/Link.lean ====
section
/-! DEFINITION. The link drivers (40_link_jtag.md, 41_link_swd.md) and the seven link primitives the layers above see
(R115). -/

namespace Sys2Proof.Machine

open Sys2Proof

/-! ## JTAG (R150 to R158) -/

/-- JTAG.IRSEL (R150): reload only on change. -/
def jtagIrsel (ir : IrCode) : Dap Unit := do
  let s ← getS
  if s.jtagIr = some ir then pure ()
  else
    bdIrScan ir.code
    upd fun s => s.setJtagIr (some ir)

/-- One issue of a scan (R151): its data on OK_FAULT, none on WAIT, an error on any other acknowledgement. -/
def jtagIssue (req : Scan) : Dap (Option W32) := do
  let rsp ← bdDrScan req
  if drAck rsp = 0b010 then pure (some (drData rsp))
  else if drAck rsp = 0b001 then pure none
  else accessError .invalidAck ((drAck rsp).setWidth 32)

/-- The scan loop of JTAG.SCAN (R151) with so many re-issues left. -/
def jtagScanLoop (ir : IrCode) (rnw : Bool) (a : RegAddr) (req : Scan) : Nat → Dap W32
  | 0 => do
    match ← jtagIssue req with
    | some d => pure d
    | none => raise (.waitAckExhausted ir rnw a)
  | left + 1 => do
    match ← jtagIssue req with
    | some d => pure d
    | none => jtagScanLoop ir rnw a req left

/-- JTAG.SCAN (R151). -/
def jtagScan (ir : IrCode) (rnw : Bool) (a : RegAddr) (data : W32) : Dap W32 := do
  jtagIrsel ir
  jtagScanLoop ir rnw a (drReq rnw a data) Config.waitThreshold

/-- JTAG.DPACC.RD (R152). -/
def jtagDpaccRd (a : RegAddr) : Dap W32 := do
  let _ ← jtagScan .dpacc true a 0
  jtagScan .dpacc true 0xC 0

/-- JTAG.DPACC.WR (R153). -/
def jtagDpaccWr (a : RegAddr) (v : W32) : Dap Unit := do
  let _ ← jtagScan .dpacc false a v
  pure ()

/-- JTAG.APACC.RD (R154). -/
def jtagApaccRd (a : RegAddr) : Dap W32 := do
  let _ ← jtagScan .apacc true a 0
  jtagScan .dpacc true 0xC 0

/-- JTAG.APACC.WR (R155). -/
def jtagApaccWr (a : RegAddr) (v : W32) : Dap Unit := do
  let _ ← jtagScan .apacc false a v
  pure ()

/-- The captured words of a sequence of read scans, the dummy read of RDBUFF included (R156). -/
def jtagReadScans : List (IrCode × RegAddr) → Dap (List W32)
  | [] => do
    let d ← jtagScan .dpacc true 0xC 0
    pure [d]
  | (ir, a) :: rs => do
    let d ← jtagScan ir true a 0
    let ds ← jtagReadScans rs
    pure (d :: ds)

/-- JTAG.READN (R156): the data of register `i` is captured by scan `i + 1`. -/
def jtagReadn (reads : List (IrCode × RegAddr)) : Dap (List W32) := do
  let ds ← jtagReadScans reads
  pure ds.tail

/-- JTAG.WRITEN (R157). -/
def jtagWriten (a : RegAddr) : List W32 → Dap Unit
  | [] => pure ()
  | w :: ws => do
    let _ ← jtagScan .apacc false a w
    jtagWriten a ws

/-- JTAG.ABORT.WR (R158). -/
def jtagAbortWr (v : W32) : Dap Unit := do
  let _ ← jtagScan .abort false 0x0 v
  pure ()

/-! ## SWD (R170 to R179) -/

/-- The three acknowledgement bits, first sampled bit as bit 0 (R120, R170). -/
def ackOf (bits : List Bool) : BitVec 3 := (wordOfBits bits).setWidth 3

/-- `Idle()` (R170). -/
def swdIdle : Dap Unit := do
  let s ← getS
  if s.cfg.swdIdleCycles = 0 then pure ()
  else
    let _ ← bdDriveLine [.out (List.replicate s.cfg.swdIdleCycles false)]
    pure ()

/-- The data phase of a write: 32 bits and the parity bit (R121, R170). -/
def swdWritePhase (wdata : W32) : Dap Unit := do
  let _ ← bdDriveLine [.trn 1, .out (dataBits wdata)]
  pure ()

/-- The data phase after an acknowledgement OK (R170). -/
def swdDataPhase (rnw : Bool) (wdata : W32) : Dap W32 :=
  if rnw then do
    let t ← bdDriveLine [.inp 33, .trn 1]
    swdIdle
    let d := wordOfBits (t.take 32)
    if t.getD 32 false = par32 d then pure d else accessError .readParity d
  else do
    swdWritePhase wdata
    swdIdle
    pure 0

/-- What follows an acknowledgement that is not OK (R170): with overrun detection the data phase is still clocked. -/
def swdSkipPhase (rnw : Bool) (wdata : W32) : Dap Unit := do
  let s ← getS
  if s.cfg.orunDetect then
    if rnw then
      let _ ← bdDriveLine [.inp 33, .trn 1]
      pure ()
    else swdWritePhase wdata
  else
    let _ ← bdDriveLine [.trn 1]
    pure ()

/-- SWD.XFER (R170). -/
def swdXfer (apndp rnw : Bool) (a : RegAddr) (wdata : W32) : Dap W32 := do
  let bits ← bdDriveLine [.out (bitsOf (swdReqByte apndp rnw a) 8), .trn 1, .inp 3]
  if ackOf bits = 0b001 then swdDataPhase rnw wdata
  else
    swdSkipPhase rnw wdata
    swdIdle
    accessError .swdAck ((ackOf bits).setWidth 32)

/-- SWD.DP.RD (R171). -/
def swdDpRd (a : RegAddr) : Dap W32 := swdXfer false true a 0

/-- SWD.DP.WR (R172). -/
def swdDpWr (a : RegAddr) (v : W32) : Dap Unit := do
  let _ ← swdXfer false false a v
  pure ()

/-- SWD.AP.RD (R173). -/
def swdApRd (a : RegAddr) : Dap W32 := do
  let _ ← swdXfer true true a 0
  swdXfer false true 0xC 0

/-- SWD.AP.WR (R174). -/
def swdApWr (a : RegAddr) (v : W32) : Dap Unit := do
  let _ ← swdXfer true false a v
  pure ()

/-- The words of `n` AP reads and the closing read of RDBUFF (R175). -/
def swdReadXfers (a : RegAddr) : Nat → Dap (List W32)
  | 0 => do
    let d ← swdXfer false true 0xC 0
    pure [d]
  | n + 1 => do
    let d ← swdXfer true true a 0
    let ds ← swdReadXfers a n
    pure (d :: ds)

/-- SWD.READN (R175). -/
def swdReadn (a : RegAddr) (n : Nat) : Dap (List W32) := do
  let ds ← swdReadXfers a n
  pure ds.tail

/-- SWD.WRITEN (R176). -/
def swdWriten (a : RegAddr) : List W32 → Dap Unit
  | [] => pure ()
  | w :: ws => do
    let _ ← swdXfer true false a w
    swdWriten a ws

/-- SWD.ABORT (R177). -/
def swdAbort (v : W32) : Dap Unit := do
  let _ ← swdXfer false false 0x0 v
  pure ()

/-- SWD.LINERESET: the three calls that begin an attempt of SWD_CONNECT (R178); the four fields of bits are those of the
instruction's row in spec/opcode_table.json. -/
def swdLinereset : Dap Unit := do
  let _ ← bdDriveLine [.out (List.replicate 56 true)]
  let _ ← bdDriveLine [.out (bitsOf 0xE79E#16 16)]
  let _ ← bdDriveLine [.out (List.replicate 56 true), .out (List.replicate 8 false)]
  pure ()

/-- SWD.TARGETSEL: the acknowledgement is not looked at (R179). -/
def swdTargetsel (v : W32) : Dap Unit := do
  let _ ← bdDriveLine [.out (bitsOf (0x99#8) 8), .trn 1, .inp 3]
  swdWritePhase v

/-! ## The seven primitives (R115) -/

/-- `n` successive backend reads of one AP register (R115). -/
def backendReadN (a : RegAddr) : Nat → Dap (List W32)
  | 0 => pure []
  | n + 1 => do
    let w ← backendWord (.apRead a)
    let ws ← backendReadN a n
    pure (w :: ws)

/-- Successive backend writes of one AP register (R115). -/
def backendWriteN (a : RegAddr) : List W32 → Dap Unit
  | [] => pure ()
  | w :: ws => do
    backendUnit (.apWrite a w)
    backendWriteN a ws

/-- `Link.DpRead(A)` (R115). -/
def linkDpRead (a : RegAddr) : Dap W32 := do
  let s ← getS
  match s.cfg.iface with
  | .jtag => jtagDpaccRd a
  | .swd => swdDpRd a
  | .vendor => backendWord (.dpRead a)

/-- `Link.DpWrite(A, v)` (R115). -/
def linkDpWrite (a : RegAddr) (v : W32) : Dap Unit := do
  let s ← getS
  match s.cfg.iface with
  | .jtag => jtagDpaccWr a v
  | .swd => swdDpWr a v
  | .vendor => backendUnit (.dpWrite a v)

/-- `Link.ApRead(A)` (R115). -/
def linkApRead (a : RegAddr) : Dap W32 := do
  let s ← getS
  match s.cfg.iface with
  | .jtag => jtagApaccRd a
  | .swd => swdApRd a
  | .vendor => backendWord (.apRead a)

/-- `Link.ApWrite(A, v)` (R115). -/
def linkApWrite (a : RegAddr) (v : W32) : Dap Unit := do
  let s ← getS
  match s.cfg.iface with
  | .jtag => jtagApaccWr a v
  | .swd => swdApWr a v
  | .vendor => backendUnit (.apWrite a v)

/-- `Link.ApReadN(A, n)` (R115). -/
def linkApReadN (a : RegAddr) (n : Nat) : Dap (List W32) := do
  let s ← getS
  match s.cfg.iface with
  | .jtag => jtagReadn (List.replicate n (.apacc, a))
  | .swd => swdReadn a n
  | .vendor => backendReadN a n

/-- `Link.ApWriteN(A, ws)` (R115). -/
def linkApWriteN (a : RegAddr) (ws : List W32) : Dap Unit := do
  let s ← getS
  match s.cfg.iface with
  | .jtag => jtagWriten a ws
  | .swd => swdWriten a ws
  | .vendor => backendWriteN a ws

/-- `Link.Abort(v)` (R115). -/
def linkAbort (v : W32) : Dap Unit := do
  let s ← getS
  match s.cfg.iface with
  | .jtag => jtagAbortWr v
  | .swd => swdAbort v
  | .vendor => backendUnit (.abort v)

end Sys2Proof.Machine
end

