-- ==== Sys2Proof/Machine/JtagLevel.lean ====
section
/-! DEFINITION. The meanings of the level L JTAG transactions given as commands of their own: the command exists on
its own link only, an operand outside what the driver emits (R130) is refused, and the transaction then runs exactly as
in 40_link_jtag.md (log 6). -/

namespace Sys2Proof.Machine

open Sys2Proof

/-- JTAG.IRSEL (R150). -/
def execJtagIrsel (ir : IrCode) (s : State) : Host.Outcome State Fault Refusal :=
  complete (do
    requireIface .jtag
    jtagIrsel ir
    pure .unit) s

/-- JTAG.SCAN (R151). -/
def execJtagScan (ir : IrCode) (rnw : Bool) (a : RegAddr) (data : W32) (s : State) :
    Host.Outcome State Fault Refusal :=
  complete (do
    requireIface .jtag
    requireArg (scanOk ir rnw a data)
    let w ← jtagScan ir rnw a data
    pure (.word w)) s

/-- JTAG.DPACC.RD (R152). -/
def execJtagDpaccRd (a : RegAddr) (s : State) : Host.Outcome State Fault Refusal :=
  complete (do
    requireIface .jtag
    requireArg (scanOk .dpacc true a 0)
    let w ← jtagDpaccRd a
    pure (.word w)) s

/-- JTAG.DPACC.WR (R153). -/
def execJtagDpaccWr (a : RegAddr) (v : W32) (s : State) : Host.Outcome State Fault Refusal :=
  complete (do
    requireIface .jtag
    requireArg (scanOk .dpacc false a v)
    jtagDpaccWr a v
    pure .unit) s

/-- JTAG.APACC.RD (R154). -/
def execJtagApaccRd (a : RegAddr) (s : State) : Host.Outcome State Fault Refusal :=
  complete (do
    requireIface .jtag
    requireArg (scanOk .apacc true a 0)
    let w ← jtagApaccRd a
    pure (.word w)) s

/-- JTAG.APACC.WR (R155). -/
def execJtagApaccWr (a : RegAddr) (v : W32) (s : State) : Host.Outcome State Fault Refusal :=
  complete (do
    requireIface .jtag
    requireArg (scanOk .apacc false a v)
    jtagApaccWr a v
    pure .unit) s

/-- JTAG.READN (R156). -/
def execJtagReadn (reads : List (IrCode × RegAddr)) (s : State) : Host.Outcome State Fault Refusal :=
  complete (do
    requireIface .jtag
    requireArg (!reads.isEmpty && reads.all readScanOk)
    let ws ← jtagReadn reads
    pure (.words ws)) s

/-- JTAG.WRITEN (R157). -/
def execJtagWriten (a : RegAddr) (values : List W32) (s : State) : Host.Outcome State Fault Refusal :=
  complete (do
    requireIface .jtag
    requireArg (a.aligned && !values.isEmpty)
    jtagWriten a values
    pure .unit) s

/-- JTAG.ABORT.WR (R158). -/
def execJtagAbortWr (v : W32) (s : State) : Host.Outcome State Fault Refusal :=
  complete (do
    requireIface .jtag
    jtagAbortWr v
    pure .unit) s

end Sys2Proof.Machine
end

