-- ==== Sys2Proof/Machine/SwdLevel.lean ====
section
/-! DEFINITION. The meanings of the level L SWD transactions given as commands of their own: the command exists on
its own link only, an operand outside what the driver emits (R130) is refused, and the transaction then runs exactly as
in 41_link_swd.md (log 6). -/

namespace Sys2Proof.Machine

open Sys2Proof

/-- SWD.XFER (R170). -/
def execSwdXfer (apndp rnw : Bool) (a : RegAddr) (wdata : W32) (s : State) : Host.Outcome State Fault Refusal :=
  complete (do
    requireIface .swd
    requireArg (packetOk apndp rnw a)
    let w ← swdXfer apndp rnw a wdata
    pure (.word w)) s

/-- SWD.DP.RD (R171). -/
def execSwdDpRd (a : RegAddr) (s : State) : Host.Outcome State Fault Refusal :=
  complete (do
    requireIface .swd
    requireArg (packetOk false true a)
    let w ← swdDpRd a
    pure (.word w)) s

/-- SWD.DP.WR (R172). -/
def execSwdDpWr (a : RegAddr) (v : W32) (s : State) : Host.Outcome State Fault Refusal :=
  complete (do
    requireIface .swd
    requireArg (packetOk false false a)
    swdDpWr a v
    pure .unit) s

/-- SWD.AP.RD (R173). -/
def execSwdApRd (a : RegAddr) (s : State) : Host.Outcome State Fault Refusal :=
  complete (do
    requireIface .swd
    requireArg (packetOk true true a)
    let w ← swdApRd a
    pure (.word w)) s

/-- SWD.AP.WR (R174). -/
def execSwdApWr (a : RegAddr) (v : W32) (s : State) : Host.Outcome State Fault Refusal :=
  complete (do
    requireIface .swd
    requireArg (packetOk true false a)
    swdApWr a v
    pure .unit) s

/-- SWD.READN (R175). -/
def execSwdReadn (a : RegAddr) (n : Nat) (s : State) : Host.Outcome State Fault Refusal :=
  complete (do
    requireIface .swd
    requireArg (a.aligned && n != 0)
    let ws ← swdReadn a n
    pure (.words ws)) s

/-- SWD.WRITEN (R176). -/
def execSwdWriten (a : RegAddr) (values : List W32) (s : State) : Host.Outcome State Fault Refusal :=
  complete (do
    requireIface .swd
    requireArg (a.aligned && !values.isEmpty)
    swdWriten a values
    pure .unit) s

/-- SWD.ABORT (R177). -/
def execSwdAbort (v : W32) (s : State) : Host.Outcome State Fault Refusal :=
  complete (do
    requireIface .swd
    swdAbort v
    pure .unit) s

/-- SWD.LINERESET (R178). -/
def execSwdLinereset (s : State) : Host.Outcome State Fault Refusal :=
  complete (do
    requireIface .swd
    swdLinereset
    pure .unit) s

/-- SWD.TARGETSEL (R179). -/
def execSwdTargetsel (v : W32) (s : State) : Host.Outcome State Fault Refusal :=
  complete (do
    requireIface .swd
    swdTargetsel v
    pure .unit) s

end Sys2Proof.Machine
end

