-- ==== Sys2Proof/Machine/Dp.lean ====
section
/-! DEFINITION. The Debug Port model (42_dp_model.md): SELECT banking and its freeze, version detection, raw register
access, the sticky check, the power handshake, and SWD_CONNECT (41_link_swd.md R178); then the meanings of the level H
commands of that level. -/

namespace Sys2Proof.Machine

open Sys2Proof

/-! ## SELECT (R190 to R196) -/

/-- The write of SELECT is skipped: the selection is frozen and the value is the one last written (R190). -/
def State.selectHeld (s : State) (v : W32) : Bool := s.frozenValid && s.selectLast == some v

/-- The freeze after a write of `v` over `old`: an access to a different bank invalidates it (R190). -/
def freezeAfter (valid : Bool) (old : Option W32) (v : W32) : Bool :=
  valid && (match old with
    | none => true
    | some w => w == v)

/-- `WriteSelect(v)` (R190). -/
def writeSelect (v : W32) : Dap Unit := do
  let s ← getS
  if s.selectHeld v then pure ()
  else
    upd fun t => t.setSelectLast none
    linkDpWrite 0x8 v
    upd fun t => (t.setSelectLast (some v)).setFreeze t.freezeDepth (freezeAfter t.frozenValid s.selectLast v)

/-- `DpSelectBank(bank)` (R193). -/
def dpSelectBank (bank : BitVec 4) : Dap Unit := do
  let s ← getS
  writeSelect (selDp s.selectLast bank)

/-- SELECT_AP (R194). -/
def selectAp (ap : ApIndex) (addr : BitVec 12) : Dap Unit := writeSelect (selVal ap addr)

/-- FREEZE_SELECT on the state (R195). -/
def State.freeze (s : State) : State := s.setFreeze (s.freezeDepth + 1) (s.freezeDepth == 0 || s.frozenValid)

/-- UNFREEZE_SELECT on the state (R196). -/
def State.unfreeze (s : State) : State :=
  if s.freezeDepth = 0 then s
  else s.setFreeze (s.freezeDepth - 1) (s.freezeDepth != 1 && s.frozenValid)

/-- FREEZE_SELECT (R195). -/
def freezeSelect : Dap Unit := upd State.freeze

/-- UNFREEZE_SELECT (R196). -/
def unfreezeSelect : Dap Unit := upd State.unfreeze

/-! ## Register access (R197, R198, R202, R203) -/

/-- DP_READ once it is accepted (R197). -/
def dpRead (r : DpReg) : Dap W32 :=
  if r = .rdbuff then linkDpRead 0xC
  else do
    dpSelectBank ((dpBank r).getD 0)
    linkDpRead (dpAddr r)

/-- DP_WRITE of TARGETSEL (R198): SWD only. -/
def dpWriteTargetsel (v : W32) : Dap Unit := do
  let s ← getS
  check (s.cfg.iface == .swd) .badArgument
  swdTargetsel v

/-- DP_WRITE of a banked register (R198). -/
def dpWriteBanked (r : DpReg) (v : W32) : Dap Unit := do
  dpSelectBank ((dpBank r).getD 0)
  linkDpWrite (dpAddr r) v

/-- DP_WRITE once it is accepted (R198). -/
def dpWrite (r : DpReg) (v : W32) : Dap Unit :=
  match r with
  | .abort => linkAbort v
  | .select => writeSelect v
  | .targetsel => dpWriteTargetsel v
  | .ctrlStat => dpWriteBanked .ctrlStat v
  | .select1 => dpWriteBanked .select1 v
  | .dpidr => raise .badArgument
  | .targetid => raise .badArgument
  | .dlpidr => raise .badArgument
  | .eventstat => raise .badArgument
  | .dpidr1 => raise .badArgument
  | .rdbuff => raise .badArgument

/-- One read of an AP register (R202). -/
def apRead (ap : ApIndex) (addr : BitVec 12) : Dap W32 := do
  writeSelect (selVal ap addr)
  linkApRead (apLinkAddr addr)

/-- One write of an AP register (R203). -/
def apWrite (ap : ApIndex) (addr : BitVec 12) (v : W32) : Dap Unit := do
  writeSelect (selVal ap addr)
  linkApWrite (apLinkAddr addr) v

/-- `ApReadN(ap, addr, n)` (R202). -/
def apReadN (ap : ApIndex) (addr : BitVec 12) (n : Nat) : Dap (List W32) := do
  writeSelect (selVal ap addr)
  linkApReadN (apLinkAddr addr) n

/-- `ApWriteN(ap, addr, ws)` (R202). -/
def apWriteN (ap : ApIndex) (addr : BitVec 12) (ws : List W32) : Dap Unit := do
  writeSelect (selVal ap addr)
  linkApWriteN (apLinkAddr addr) ws

/-- A MEM-AP register's address in the detected layout (R41). -/
def State.apReg (s : State) (offset : BitVec 12) : BitVec 12 := layoutBase s.dpVersion + offset

/-- The state once the host itself has read or written `w` at register `addr` of an AP: where that register is CSW, the
shadow of the AP's connection is `w`, read or written (R25, R86 b). Without a connection there is no shadow. -/
def State.noteCsw (s : State) (ap : ApIndex) (addr : BitVec 12) (w : W32) : State :=
  if addr = s.apReg cswOffset then s.setShadow ap w else s

/-- AP_READ of the host: the access, and the shadow where it read CSW (R202, R86 b). -/
def hostApRead (ap : ApIndex) (addr : BitVec 12) : Dap W32 := do
  let v ← apRead ap addr
  upd fun s => s.noteCsw ap addr v
  pure v

/-- AP_WRITE of the host: the access, and the shadow where it wrote CSW (R203, R86 b). -/
def hostApWrite (ap : ApIndex) (addr : BitVec 12) (v : W32) : Dap Unit := do
  apWrite ap addr v
  upd fun s => s.noteCsw ap addr v

/-! ## Version detection (R191, R192) -/

/-- What DETECT_VERSION makes of the word read from DPIDR (R191, R192). -/
def classifyDpidr (id : W32) : Except DapError DpVersion :=
  if id = dpidrAbsent then .ok .absent
  else if Config.dpVersionMax < dpidrVersion id then .error (.versionUnsupported id (w32 (dpidrVersion id)))
  else .ok (versionOf (dpidrVersion id))

/-- DETECT_VERSION (R191): immutable once detected. -/
def detectVersion : Dap W32 := do
  let s ← getS
  if detected s.dpVersion then pure (versionNumber s.dpVersion)
  else
    let id ← linkDpRead 0x0
    match classifyDpidr id with
    | .ok v =>
      upd fun t => t.setDpVersion v
      pure (versionNumber v)
    | .error e => raise e

/-! ## Sticky errors (R199, R200) -/

/-- The re-reads of CTRL_STAT, so many left, `s` the last word read (R199). -/
def rereadSticky : Nat → W32 → Dap Unit
  | 0, s => raise (.stickyProtocolError s)
  | left + 1, _ => do
    let s ← linkDpRead 0x4
    if noSticky s then pure () else rereadSticky left s

/-- CHECK_STICKY (R199). -/
def checkSticky : Dap Unit := do
  dpSelectBank 0
  let s ← linkDpRead 0x4
  if noSticky s then pure () else rereadSticky Config.stickyRereadMax s

/-- CLEAR_STICKY (R200). -/
def clearSticky : Dap Unit := do
  let s ← getS
  linkAbort (abortVal s.cfg.orunDetect)

/-! ## Power (R201) -/

/-- The polls of CTRL_STAT, `left` of them after this one (R201). -/
def pollPower : Nat → Dap Unit
  | 0 => do
    let s ← linkDpRead 0x4
    if powered s then pure () else raise (.powerUpFailed s)
  | left + 1 => do
    let s ← linkDpRead 0x4
    if powered s then pure () else pollPower left

/-- REASSERT_POWER (R201): true when already powered. -/
def reassertPower : Dap Bool := do
  dpSelectBank 0
  let s ← linkDpRead 0x4
  if powered s then pure true
  else
    linkDpWrite 0x4 (s ||| pwrReqMask)
    pollPower (Config.powerPollLimit - 1)
    pure false

/-! ## SWD_CONNECT (R178) -/

/-- SWD.TARGETSEL when a targetsel is given (R178). -/
def swdSelectTarget : Option W32 → Dap Unit
  | some v => swdTargetsel v
  | none => pure ()

/-- One attempt of SWD_CONNECT (R178): the line reset, the target selection and the read of DPIDR. -/
def swdAttempt (targetsel : Option W32) : Dap W32 := do
  swdLinereset
  upd fun s => s.setSelectLast none
  swdSelectTarget targetsel
  swdXfer false true 0x0 0

/-- The attempts of SWD_CONNECT, `left` of them after this one, `made` before it (R178, R310). -/
def swdConnectLoop (targetsel : Option W32) : Nat → Nat → Dap W32
  | 0, made => onError (swdAttempt targetsel) fun e =>
    match e with
    | .dpOrApAccessError _ => raise (.targetSelectionFailed targetsel (made + 1))
    | e => raise e
  | left + 1, made => onError (swdAttempt targetsel) fun e =>
    match e with
    | .dpOrApAccessError _ => swdConnectLoop targetsel left (made + 1)
    | e => raise e

/-- SWD_CONNECT (R178). A cap of zero acts as one (log 13). -/
def swdConnect (targetsel : Option W32) : Dap W32 := do
  let s ← getS
  swdConnectLoop targetsel (s.cfg.targetselAttempts - 1) 0

/-! ## Meanings -/

/-- DETECT_VERSION (R191). -/
def execDetectVersion (s : State) : Host.Outcome State Fault Refusal :=
  complete (do let v ← detectVersion; pure (.word v)) s

/-- REASSERT_POWER (R201). -/
def execReassertPower (s : State) : Host.Outcome State Fault Refusal :=
  complete (do let already ← reassertPower; pure (.power already)) s

/-- DP_READ (R197, R205). -/
def execDpRead (r : DpReg) (s : State) : Host.Outcome State Fault Refusal :=
  complete (do
    requireDpReg r
    requireArg (dpReadable r)
    let v ← dpRead r
    pure (.word v)) s

/-- DP_WRITE (R198, R205). -/
def execDpWrite (r : DpReg) (v : W32) (s : State) : Host.Outcome State Fault Refusal :=
  complete (do
    requireDpReg r
    requireArg (dpWritable r)
    dpWrite r v
    pure .unit) s

/-- SELECT_AP (R194). -/
def execSelectAp (ap : ApIndex) (addr : W32) (s : State) : Host.Outcome State Fault Refusal :=
  complete (do
    requireDetected
    requireArg (apOffsetOk addr)
    selectAp ap (apOffset addr)
    pure .unit) s

/-- FREEZE_SELECT (R195). -/
def execFreezeSelect (s : State) : Host.Outcome State Fault Refusal :=
  complete (do freezeSelect; pure .unit) s

/-- UNFREEZE_SELECT (R196). -/
def execUnfreezeSelect (s : State) : Host.Outcome State Fault Refusal :=
  complete (do unfreezeSelect; pure .unit) s

/-- CHECK_STICKY (R199). -/
def execCheckSticky (s : State) : Host.Outcome State Fault Refusal :=
  complete (do checkSticky; pure .unit) s

/-- CLEAR_STICKY (R200). -/
def execClearSticky (s : State) : Host.Outcome State Fault Refusal :=
  complete (do clearSticky; pure .unit) s

/-- AP_READ (R202, R86). -/
def execApRead (ap : ApIndex) (addr : W32) (s : State) : Host.Outcome State Fault Refusal :=
  complete (do
    requireDetected
    requireArg (apRegOk addr)
    let v ← hostApRead ap (apOffset addr)
    pure (.word v)) s

/-- AP_WRITE (R203, R86). -/
def execApWrite (ap : ApIndex) (addr v : W32) (s : State) : Host.Outcome State Fault Refusal :=
  complete (do
    requireDetected
    requireArg (apRegOk addr)
    hostApWrite ap (apOffset addr) v
    pure .unit) s

/-- SWD_CONNECT (R178). -/
def execSwdConnect (targetsel : Option W32) (s : State) : Host.Outcome State Fault Refusal :=
  complete (do
    requireIface .swd
    let id ← swdConnect targetsel
    pure (.word id)) s

end Sys2Proof.Machine
end

