-- ==== Sys2Proof/Machine/Engine.lean ====
section
/-! DEFINITION. The MEM-AP engine (43_memap_engine.md): connections, the CSW setting, the failure classification, the
SELECT-freeze batch, runs, memory transfer, the native sub-word path and keyhole polling; then the meanings of the
engine commands. -/

namespace Sys2Proof.Machine

open Sys2Proof

/-! ## MEM-AP registers -/

/-- Read a MEM-AP register by its offset (R41, R202). -/
def apRegRead (ap : ApIndex) (offset : BitVec 12) : Dap W32 := do
  let s ← getS
  apRead ap (s.apReg offset)

/-- Write a MEM-AP register by its offset (R41, R203). -/
def apRegWrite (ap : ApIndex) (offset : BitVec 12) (v : W32) : Dap Unit := do
  let s ← getS
  apWrite ap (s.apReg offset) v

/-! ## Connections (R230, R231) -/

/-- The auto-increment default (R231). -/
def defaultAutoinc (autoinc : Option Bool) (bus : BusType) (peripheral : Bool) : Bool :=
  match autoinc with
  | some b => b
  | none => bus == .ahb && !peripheral

/-- The connection of an AP whose IDR and CSW read as given, with the CSW value it is left with (R25, R230). -/
def newConnection (ap : ApIndex) (idr csw shadow : W32) (autoinc peripheral : Bool) (drw : BitVec 12) :
    MemApConnection where
  ap := ap
  idr := idr
  busType := busTypeOf idr
  enabled := cswDeviceEn csw
  autoinc := autoinc
  peripheral := peripheral
  drwBank := drw &&& 0xFF0
  subword := none
  cswShadow := shadow

/-- The state of an AP whose CSW reads as given (R230). -/
def presentState (csw : W32) : ApState := if cswDeviceEn csw then .presentEnabled else .presentDisabled

/-- Install the default CSW of an enabled AP; a disabled one is not written (R230). -/
def installCsw (ap : ApIndex) (csw w : W32) : Dap Unit :=
  if cswDeviceEn csw then apRegWrite ap cswOffset w else pure ()

/-- The CSW value an AP is left with at creation (R230). -/
def createdShadow (csw : W32) (autoinc : Bool) : W32 :=
  if cswDeviceEn csw then cswVal csw autoinc sizeWord else csw

/-- `CreateConnection` (R230): nothing is committed unless it finishes. None is Absent. -/
def createConnection (ap : ApIndex) (autoinc : Option Bool) (peripheral : Bool) : Dap (Option MemApConnection) := do
  let idr ← apRegRead ap idrOffset
  if idr = 0 then
    upd fun s => s.setApState ap .absent
    pure none
  else
    let csw ← apRegRead ap cswOffset
    let ai := defaultAutoinc autoinc (busTypeOf idr) peripheral
    installCsw ap csw (createdShadow csw ai)
    let s ← getS
    let c := newConnection ap idr csw (createdShadow csw ai) ai peripheral (s.apReg drwOffset)
    upd fun s => (s.setConn ap (some c)).setApState ap (presentState csw)
    pure (some c)

/-! ## Guards (R232, R242, R244) -/

/-- Write CSW and keep its shadow (R232). -/
def writeCsw (ap : ApIndex) (w : W32) : Dap Unit := do
  apRegWrite ap cswOffset w
  upd fun s => s.setShadow ap w

/-- `WithCsw(c, addrinc, size, body)` (R232). -/
def withCsw {α : Type} (c : MemApConnection) (addrinc : Bool) (size : BitVec 3) (body : Dap α) : Dap α := do
  let s ← getS
  if cswVal (s.shadowOf c) addrinc size = s.shadowOf c then body
  else
    writeCsw c.ap (cswVal (s.shadowOf c) addrinc size)
    withFinally body (writeCsw c.ap (s.shadowOf c))

/-- CHECK_STICKY inside the recovery: a sticky error is the result, a link error gives back `e` (R242). -/
def recoverSticky (e : AccessError) : Dap Unit :=
  onError checkSticky fun e' =>
    match e' with
    | .stickyProtocolError s => raise (.stickyProtocolError s)
    | _ => raise (.dpOrApAccessError e)

/-- The error an access error becomes when CSW reads as given (R242, R308, R309). -/
def classifyAccess (ap : ApIndex) (csw : W32) (e : AccessError) : DapError :=
  if cswDeviceEn csw then .apBusAccessError ap e else .apAccessDisabledError ap e

/-- The recovery of EngineGuard (R242). -/
def recoverAccess {α : Type} (ap : ApIndex) (e : AccessError) : Dap α := do
  recoverSticky e
  let csw ← onError (apRegRead ap cswOffset) fun _ => raise (.dpOrApAccessError e)
  upd fun s => s.setShadow ap csw
  raise (classifyAccess ap csw e)

/-- `EngineGuard(c, body)` (R242). -/
def engineGuard {α : Type} (ap : ApIndex) (body : Dap α) : Dap α :=
  onError body fun e =>
    match e with
    | .dpOrApAccessError e => recoverAccess ap e
    | e => raise e

/-- `Batch(c, body)` (R244): select, then freeze; the recovery of a failed select runs outside the freeze, that of a
failed body inside it, and a freeze entered is left on every path. -/
def batch {α : Type} (c : MemApConnection) (body : Dap α) : Dap α := do
  engineGuard c.ap (selectAp c.ap c.drwBank)
  freezeSelect
  withFinally (engineGuard c.ap body) unfreezeSelect

/-! ## Runs (R241) -/

/-- `RunRead(c, ra, n)` without block transfer (R241). -/
def runReadPlain (ap : ApIndex) (ra n : Nat) : Dap (List W32) := do
  apRegWrite ap tarOffset (w32 ra)
  let s ← getS
  apReadN ap (s.apReg drwOffset) n

/-- `RunWrite(c, ra, ws)` without block transfer (R241). -/
def runWritePlain (ap : ApIndex) (ra : Nat) (ws : List W32) : Dap Unit := do
  apRegWrite ap tarOffset (w32 ra)
  let s ← getS
  apWriteN ap (s.apReg drwOffset) ws

/-- A block request: afterwards SELECT is unknown, also when it failed (R241, log 11). -/
def blockTransfer (call : BackendCall) (reply : W32 → Dap (List W32)) : Dap (List W32) :=
  withFinally (backendCall call reply) (upd fun s => s.setSelectLast none)

/-- `RunRead(c, ra, n)` (R241). -/
def runRead (ap : ApIndex) (ra n : Nat) : Dap (List W32) := do
  let s ← getS
  if s.cfg.blocks then blockTransfer (.blockRead ap (w32 ra) n) fun _ => drawWords n
  else runReadPlain ap ra n

/-- `RunWrite(c, ra, ws)` (R241). -/
def runWrite (ap : ApIndex) (ra : Nat) (ws : List W32) : Dap Unit := do
  let s ← getS
  if s.cfg.blocks then
    let _ ← blockTransfer (.blockWrite ap (w32 ra) ws) fun _ => pure []
    pure ()
  else runWritePlain ap ra ws

/-- The words of a list of runs (R234). -/
def readRuns (ap : ApIndex) : List (Nat × Nat) → Dap (List W32)
  | [] => pure []
  | (ra, n) :: rs => do
    let ws ← runRead ap ra n
    let rest ← readRuns ap rs
    pure (ws ++ rest)

/-- Words spread over a list of runs (R235). -/
def writeRuns (ap : ApIndex) : List (Nat × Nat) → List W32 → Dap Unit
  | [], _ => pure ()
  | (ra, n) :: rs, ws => do
    runWrite ap ra (ws.take n)
    writeRuns ap rs (ws.drop n)

/-- Read the words of `[a, b)` with the connection's word setting (R234). -/
def readWords (c : MemApConnection) (a b : Nat) : Dap (List W32) :=
  withCsw c c.autoinc sizeWord (readRuns c.ap (runs c.autoinc a b))

/-- Write the words of `[a, b)` with the connection's word setting (R235). -/
def writeWords (c : MemApConnection) (a b : Nat) (ws : List W32) : Dap Unit :=
  withCsw c c.autoinc sizeWord (writeRuns c.ap (runs c.autoinc a b) ws)

/-! ## The native sub-word path (R237) -/

/-- The cached sub-word capability (R234). -/
def cachedSubword (s : State) (ap : ApIndex) : Option Bool :=
  match s.connOf ap with
  | some c => c.subword
  | none => none

/-- `Subword(c)` (R234): the cache, filled when first needed. -/
def subword (ap : ApIndex) : Dap Bool := do
  let s ← getS
  match cachedSubword s ap with
  | some b => pure b
  | none =>
    upd fun s => s.setSubword ap (s.cfg.subwordOf ap)
    pure (s.cfg.subwordOf ap)

/-- The range takes the native path: an edge is not aligned and the AP has sub-word access (R234). -/
def takesNative (ap : ApIndex) (start stop : Nat) : Dap Bool :=
  if unalignedEdge start stop then subword ap else pure false

/-- The byte lane of an address in a DRW word (R237). -/
def laneOf (w : W32) (a : Nat) : Byte := byteOf w (a % 4)

/-- A byte in the lane of its address, the other lanes zero (R237). -/
def inLane (b : Byte) (a : Nat) : W32 := b.setWidth 32 <<< (8 * (a % 4))

/-- `n` bytes from `a`, one at a time (R237). -/
def readBytes (ap : ApIndex) : Nat → Nat → Dap (List Byte)
  | _, 0 => pure []
  | a, n + 1 => do
    apRegWrite ap tarOffset (w32 a)
    let w ← apRegRead ap drwOffset
    let bs ← readBytes ap (a + 1) n
    pure (laneOf w a :: bs)

/-- Bytes written from `a` on, one at a time (R237). -/
def writeBytes (ap : ApIndex) : Nat → List Byte → Dap Unit
  | _, [] => pure ()
  | a, b :: bs => do
    apRegWrite ap tarOffset (w32 a)
    apRegWrite ap drwOffset (inLane b a)
    writeBytes ap (a + 1) bs

/-- The bytes of `[a, b)` read one at a time, nothing for an empty segment (R237). -/
def readSegment (c : MemApConnection) (a b : Nat) : Dap (List Byte) :=
  if a < b then withCsw c false sizeByte (readBytes c.ap a (b - a)) else pure []

/-- Bytes written one at a time from `a` on, nothing for an empty segment (R237). -/
def writeSegment (c : MemApConnection) (a : Nat) (bs : List Byte) : Dap Unit :=
  if bs.isEmpty then pure () else withCsw c false sizeByte (writeBytes c.ap a bs)

/-- The bytes of the word-aligned range `[a, b)`, nothing for an empty range (R237). -/
def readMiddle (c : MemApConnection) (a b : Nat) : Dap (List Byte) :=
  if a < b then do
    let ws ← readWords c a b
    pure (bytesOfWords ws)
  else pure []

/-- Bytes written to the word-aligned range `[a, b)`, nothing for an empty range (R237). -/
def writeMiddle (c : MemApConnection) (a b : Nat) (bs : List Byte) : Dap Unit :=
  if a < b then writeWords c a b (wordsOfBytes bs) else pure ()

/-- `ReadNative` (R237): head bytes, words, tail bytes. -/
def readNative (c : MemApConnection) (start stop : Nat) : Dap (List Byte) := do
  let head ← readSegment c start (headEnd start stop)
  let mid ← readMiddle c (headEnd start stop) (tailStart start stop)
  let tail ← readSegment c (tailStart start stop) stop
  pure (head ++ mid ++ tail)

/-- `WriteNative` (R237): head bytes, words, tail bytes. -/
def writeNative (c : MemApConnection) (start : Nat) (bs : List Byte) : Dap Unit := do
  let stop := start + bs.length
  let h := headEnd start stop
  let t := tailStart start stop
  writeSegment c start (bs.take (h - start))
  writeMiddle c h t ((bs.drop (h - start)).take (t - h))
  writeSegment c t (bs.drop (t - start))

/-! ## Memory transfer (R234 to R236) -/

/-- READ_MEMORY on a connection once it is accepted (R234). -/
def readMemory (c : MemApConnection) (start stop : Nat) : Dap (List Byte) :=
  if start = stop then pure []
  else batch c (do
    if ← takesNative c.ap start stop then readNative c start stop
    else
      let ws ← readWords c (wordFloor start) (wordCeil stop)
      pure (((bytesOfWords ws).drop (start - wordFloor start)).take (stop - start)))

/-- The words of a byte string with zero padding around it (R235). -/
def paddedWords (start : Nat) (bs : List Byte) : List W32 :=
  let stop := start + bs.length
  wordsOfBytes
    (List.replicate (start - wordFloor start) 0 ++ bs ++ List.replicate (wordCeil stop - stop) 0)

/-- WRITE_MEMORY on a connection once it is accepted (R235). -/
def writeMemory (c : MemApConnection) (start : Nat) (bs : List Byte) : Dap Unit :=
  if bs.isEmpty then pure ()
  else batch c (do
    if ← takesNative c.ap start (start + bs.length) then writeNative c start bs
    else writeWords c (wordFloor start) (wordCeil (start + bs.length)) (paddedWords start bs))

/-- The first word of the range, read when the start is not aligned (R236). -/
def rmwFirst (ap : ApIndex) (start : Nat) : Dap (Option W32) :=
  if start = wordFloor start then pure none
  else do
    let ws ← runRead ap (wordFloor start) 1
    pure (some (ws.headD 0))

/-- The last word of the range, read when the end is not aligned, or the first word when they are the same (R236). -/
def rmwLast (ap : ApIndex) (start stop : Nat) (first : Option W32) : Dap (Option W32) :=
  if stop = wordCeil stop then pure none
  else
    match first, decide (wordCeil stop - 4 = wordFloor start) with
    | some w, true => pure (some w)
    | _, _ => do
      let ws ← runRead ap (wordCeil stop - 4) 1
      pure (some (ws.headD 0))

/-- The bytes before the caller's, from the first word (R236). -/
def headBytes (start : Nat) : Option W32 → List Byte
  | none => []
  | some w => (bytesOfWords [w]).take (start - wordFloor start)

/-- The bytes after the caller's, from the last word (R236). -/
def tailBytes (stop : Nat) : Option W32 → List Byte
  | none => []
  | some w => (bytesOfWords [w]).drop (4 - (wordCeil stop - stop))

/-- The edge reads and the writes of the read-modify-write form (R236). -/
def rmwBody (c : MemApConnection) (start : Nat) (bs : List Byte) : Dap Unit := do
  let stop := start + bs.length
  let first ← rmwFirst c.ap start
  let last ← rmwLast c.ap start stop first
  writeRuns c.ap (runs c.autoinc (wordFloor start) (wordCeil stop))
    (wordsOfBytes (headBytes start first ++ bs ++ tailBytes stop last))

/-- WRITE_MEMORY_RMW on a connection once it is accepted (R236). -/
def writeMemoryRmw (c : MemApConnection) (start : Nat) (bs : List Byte) : Dap Unit :=
  if bs.isEmpty then pure ()
  else batch c (do
    if ← takesNative c.ap start (start + bs.length) then writeNative c start bs
    else withCsw c c.autoinc sizeWord (rmwBody c start bs))

/-! ## Keyhole and busy-polled access (R239, R240) -/

/-- The busy-check polls, so many left after this one (R239). -/
def busyLoop (ap : ApIndex) (b : BusyCheck) : Nat → Dap Unit
  | 0 => do
    let v ← apRegRead ap drwOffset
    if v &&& b.mask = b.expected then pure () else raise (.busyPollTimeout b.addr v)
  | left + 1 => do
    let v ← apRegRead ap drwOffset
    if v &&& b.mask = b.expected then pure () else busyLoop ap b left

/-- Point TAR at the busy check, poll, and point TAR back at the keyhole (R239). A cap of zero acts as one (log 13). -/
def awaitIdle (ap : ApIndex) (b : BusyCheck) (address : W32) : Dap Unit := do
  apRegWrite ap tarOffset b.addr
  let s ← getS
  busyLoop ap b (s.cfg.busyPollLimit - 1)
  apRegWrite ap tarOffset address

/-- `count` busy-checked reads of one address (R239). -/
def pollReads (ap : ApIndex) (b : BusyCheck) (address : W32) : Nat → Dap (List W32)
  | 0 => pure []
  | n + 1 => do
    awaitIdle ap b address
    let v ← apRegRead ap drwOffset
    let vs ← pollReads ap b address n
    pure (v :: vs)

/-- Busy-checked writes of one address (R240). -/
def pollWrites (ap : ApIndex) (b : BusyCheck) (address : W32) : List W32 → Dap Unit
  | [] => pure ()
  | w :: ws => do
    awaitIdle ap b address
    apRegWrite ap drwOffset w
    pollWrites ap b address ws

/-- POLL_READ on a connection once it is accepted (R239). -/
def pollRead (c : MemApConnection) (address : W32) (count : Nat) (busy : Option BusyCheck) : Dap (List W32) :=
  batch c (withCsw c false sizeWord
    (match busy with
     | none => do
       apRegWrite c.ap tarOffset address
       let s ← getS
       apReadN c.ap (s.apReg drwOffset) count
     | some b => pollReads c.ap b address count))

/-- POLL_WRITE on a connection once it is accepted (R240). -/
def pollWrite (c : MemApConnection) (address : W32) (values : List W32) (busy : Option BusyCheck) : Dap Unit :=
  batch c (withCsw c false sizeWord
    (match busy with
     | none => do
       apRegWrite c.ap tarOffset address
       let s ← getS
       apWriteN c.ap (s.apReg drwOffset) values
     | some b => pollWrites c.ap b address values))

/-- The operands of a poll command (R239, R240). -/
def pollOk (address : W32) (count : Nat) (busy : Option BusyCheck) : Bool :=
  wordAligned address && decide (1 ≤ count) && busyOk busy

/-! ## Meanings -/

/-- READ_MEMORY (R234). -/
def execReadMemory (ap : ApIndex) (start stop : Nat) (s : State) : Host.Outcome State Fault Refusal :=
  complete (do
    requireDetected
    requireArg (rangeOk start stop)
    let c ← requireConn ap
    let bs ← readMemory c start stop
    pure (.bytes bs)) s

/-- WRITE_MEMORY (R235). -/
def execWriteMemory (ap : ApIndex) (start len : Nat) (data : List W32) (s : State) :
    Host.Outcome State Fault Refusal :=
  complete (do
    requireDetected
    requireArg (dataOk start len data)
    let c ← requireConn ap
    writeMemory c start (dataBytes len data)
    pure .unit) s

/-- WRITE_MEMORY_RMW (R236). -/
def execWriteMemoryRmw (ap : ApIndex) (start len : Nat) (data : List W32) (s : State) :
    Host.Outcome State Fault Refusal :=
  complete (do
    requireDetected
    requireArg (dataOk start len data)
    let c ← requireConn ap
    writeMemoryRmw c start (dataBytes len data)
    pure .unit) s

/-- POLL_READ (R239). -/
def execPollRead (ap : ApIndex) (address : W32) (count : Nat) (busy : Option BusyCheck) (s : State) :
    Host.Outcome State Fault Refusal :=
  complete (do
    requireDetected
    requireArg (pollOk address count busy)
    let c ← requireConn ap
    let vs ← pollRead c address count busy
    pure (.words vs)) s

/-- POLL_WRITE (R240). -/
def execPollWrite (ap : ApIndex) (address : W32) (count : Nat) (values : List W32) (busy : Option BusyCheck)
    (s : State) : Host.Outcome State Fault Refusal :=
  complete (do
    requireDetected
    requireArg (pollOk address count busy && values.length == count)
    let c ← requireConn ap
    pollWrite c address values busy
    pure .unit) s

end Sys2Proof.Machine
end

