-- ==== Sys2Proof/Machine/Transport.lean ====
section
/-! DEFINITION. The transport (44_transport.md): connection resolution, the wrapped memory operations, enumeration and
identification, teardown and the operations delegated to the Codec; then the meanings of its commands. -/

namespace Sys2Proof.Machine

open Sys2Proof

/-! ## Connections (R270, R272, R273) -/

/-- `WithStickyRetry(op)` with the checks of this machine (R270). -/
def stickyRetry {α : Type} (op : Dap α) : Dap α := withStickyRetry checkSticky clearSticky op

/-- `Resolve(ap, autoinc_arg, peripheral)` (R272). None is Absent. -/
def resolve (ap : ApIndex) (autoinc : Option Bool) (peripheral : Bool) : Dap (Option MemApConnection) := do
  let s ← getS
  match s.apStateOf ap with
  | .unresolved => createConnection ap autoinc peripheral
  | .absent => pure none
  | .presentDisabled => pure (s.connOf ap)
  | .presentEnabled => pure (s.connOf ap)

/-- A connection that is used: a disabled AP raises unless it is allowed (R271, R303). -/
def requireEnabled (ap : ApIndex) (allowDisabled : Bool) : Dap Unit := do
  let s ← getS
  check (allowDisabled || s.apStateOf ap != .presentDisabled) (.apDisabled ap)

/-- The connection an operation of R273 needs: absent and disabled APs are errors (R302, R303). -/
def resolveStrict (ap : ApIndex) : Dap MemApConnection := do
  match ← resolve ap none false with
  | none => raise (.apNotPresent ap)
  | some c =>
    requireEnabled ap false
    pure c

/-- GET_CONNECTION once it is accepted (R271). -/
def getConnection (ap : ApIndex) (autoinc : Option Bool) (peripheral allowDisabled : Bool) : Dap Value := do
  match ← resolve ap autoinc peripheral with
  | none => pure .absent
  | some c =>
    requireEnabled ap allowDisabled
    pure (.connection c)

/-! ## Enumeration and identification (R275, R276) -/

/-- The extra columns of a row (R275). -/
def scanDetails (idr csw base : W32) : ScanDetails where
  idr := idr
  csw := csw
  base := base
  revision := idrRevision idr
  designer := idrDesigner idr
  variant := idrVariant idr
  type := idrType idr

/-- The row of a present AP (R275). -/
def scanRow (i : ApIndex) (idr csw : W32) (details : Option ScanDetails) : ScanRow where
  index := i
  cls := idrClass idr
  busType := busTypeOf idr
  enabled := cswDeviceEn csw
  details := details

/-- BASE is read only for the extra details (R275). -/
def scanExtra (extra : Bool) (i : ApIndex) (idr csw : W32) : Dap (Option ScanDetails) :=
  if extra then do
    let base ← apRegRead i baseOffset
    pure (some (scanDetails idr csw base))
  else pure none

/-- The rows from index `i` on, at most `n` of them, up to the first absent AP (R275). R86 b lets every CSW read of
DAPSEQ refresh `csw_shadow`, R275 says that SCAN_APS does not touch `conn`.
DEDUCED (log 20): R275 is the special rule, and the CSW read here leaves every shadow as it is. -/
def scanFrom (extra : Bool) : Nat → Nat → Dap (List ScanRow)
  | _, 0 => pure []
  | i, n + 1 => do
    let idr ← apRegRead (BitVec.ofNat 8 i) idrOffset
    if idr = 0 then pure []
    else
      let csw ← apRegRead (BitVec.ofNat 8 i) cswOffset
      let details ← scanExtra extra (BitVec.ofNat 8 i) idr csw
      let rows ← scanFrom extra (i + 1) n
      pure (scanRow (BitVec.ofNat 8 i) idr csw details :: rows)

/-- GET_CHIP_VERSION once it is accepted (R276). -/
def chipVersion : Dap Value := do
  let s ← getS
  if s.dpVersion = .v1 then pure .absent
  else
    let t ← dpRead .targetid
    let d ← dpRead .dlpidr
    pure (.chip (targetidDesigner t) (targetidPart t) (targetidRevision t) (dlpidrInstance d))

/-! ## Delegated operations (R278 to R281) -/

/-- An engine command a Codec issues on its connection, with the checks the command makes (R278, R316). -/
def engineCall (c : MemApConnection) : EngineCall → Dap Value
  | .readMemory start stop => do
    requireArg (rangeOk start stop)
    let bs ← readMemory c start stop
    pure (.bytes bs)
  | .writeMemory start bs => do
    requireArg (decide (start + bs.length ≤ addrLimit))
    writeMemory c start bs
    pure .unit
  | .writeMemoryRmw start bs => do
    requireArg (decide (start + bs.length ≤ addrLimit))
    writeMemoryRmw c start bs
    pure .unit
  | .pollRead address count busy => do
    requireArg (pollOk address count busy)
    let vs ← pollRead c address count busy
    pure (.words vs)
  | .pollWrite address values busy => do
    requireArg (pollOk address values.length busy)
    pollWrite c address values busy
    pure .unit

/-- Run a Codec's program on a connection; an error of an engine command ends it (R278, R317, log 12). -/
def runCodec (c : MemApConnection) : CodecProgram → Dap (List W32)
  | .ret ws => pure ws
  | .raise e => Machine.raise e
  | .call call k => do
    let v ← engineCall c call
    runCodec c (k v)

/-- A delegated operation (R278): resolution, then the Codec, inside one retry. -/
def delegate (ap : ApIndex) (op : CodecOp) : Dap (List W32) :=
  stickyRetry (do
    let c ← resolveStrict ap
    runCodec c (Config.codec op c))

/-! ## Meanings -/

/-- GET_CONNECTION (R271). -/
def execGetConnection (ap : ApIndex) (autoinc : Option Bool) (peripheral allowDisabled : Bool) (s : State) :
    Host.Outcome State Fault Refusal :=
  complete (do
    requireDetected
    getConnection ap autoinc peripheral allowDisabled) s

/-- MEMORY_READ (R273). -/
def execMemoryRead (ap : ApIndex) (start stop : Nat) (s : State) : Host.Outcome State Fault Refusal :=
  complete (do
    requireDetected
    requireArg (rangeOk start stop)
    let bs ← stickyRetry (do
      let c ← resolveStrict ap
      readMemory c start stop)
    pure (.bytes bs)) s

/-- MEMORY_WRITE (R274). -/
def execMemoryWrite (ap : ApIndex) (start len : Nat) (data : List W32) (s : State) :
    Host.Outcome State Fault Refusal :=
  complete (do
    requireDetected
    requireArg (dataOk start len data)
    stickyRetry (do
      let c ← resolveStrict ap
      writeMemoryRmw c start (dataBytes len data))
    pure .unit) s

/-- REGISTER_READ (R278). R126 calls the result n values.
DESIGN CHOICE (log 12): a list of another length from the Codec is the result as it is. -/
def execRegisterRead (ap : ApIndex) (n : Nat) (regs : List W32) (s : State) : Host.Outcome State Fault Refusal :=
  complete (do
    requireCodec
    requireDetected
    requireArg (regs.length == n)
    let ws ← delegate ap (.registerRead regs)
    pure (.words ws)) s

/-- REGISTER_WRITE (R279). -/
def execRegisterWrite (ap : ApIndex) (n : Nat) (regs values : List W32) (s : State) :
    Host.Outcome State Fault Refusal :=
  complete (do
    requireCodec
    requireDetected
    requireArg (regs.length == n && values.length == n)
    let _ ← delegate ap (.registerWrite regs values)
    pure .unit) s

/-- RUN_CTRL_READ (R280). -/
def execRunCtrlRead (ap : ApIndex) (ctrl : List W32) (s : State) : Host.Outcome State Fault Refusal :=
  complete (do
    requireCodec
    requireDetected
    let ws ← delegate ap (.runCtrlRead ctrl)
    pure (.words ws)) s

/-- RUN_CTRL_WRITE (R281). -/
def execRunCtrlWrite (ap : ApIndex) (ctrl : List W32) (s : State) : Host.Outcome State Fault Refusal :=
  complete (do
    requireCodec
    requireDetected
    let _ ← delegate ap (.runCtrlWrite ctrl)
    pure .unit) s

/-- SCAN_APS (R275). -/
def execScanAps (extra : Bool) (s : State) : Host.Outcome State Fault Refusal :=
  complete (do
    requireDetected
    let rows ← scanFrom extra 0 Config.apCount
    pure (.table rows)) s

/-- GET_CHIP_VERSION (R276). -/
def execGetChipVersion (s : State) : Host.Outcome State Fault Refusal :=
  complete (do
    requireDetected
    chipVersion) s

/-- TEARDOWN (R277). -/
def execTeardown (s : State) : Host.Outcome State Fault Refusal :=
  complete (do upd State.teardown; pure .unit) s

end Sys2Proof.Machine
end

