-- ==== Sys2Proof/Machine/Dispatch.lean ====
section
/-! DEFINITION. The dispatch: one arm per constructor of Instr, each one direct call of that instruction's meaning. -/

namespace Sys2Proof.Machine

open Sys2Proof

/-- The meaning of an instruction: how the command ends from a state (R8, R300). -/
def exec (i : Instr) (s : State) : Host.Outcome State Fault Refusal :=
  match i with
  | .detectVersion => Sys2Proof.Machine.execDetectVersion s
  | .reassertPower => Sys2Proof.Machine.execReassertPower s
  | .dpRead reg => Sys2Proof.Machine.execDpRead reg s
  | .dpWrite reg value => Sys2Proof.Machine.execDpWrite reg value s
  | .selectAp ap addr => Sys2Proof.Machine.execSelectAp ap addr s
  | .freezeSelect => Sys2Proof.Machine.execFreezeSelect s
  | .unfreezeSelect => Sys2Proof.Machine.execUnfreezeSelect s
  | .checkSticky => Sys2Proof.Machine.execCheckSticky s
  | .clearSticky => Sys2Proof.Machine.execClearSticky s
  | .apRead ap addr => Sys2Proof.Machine.execApRead ap addr s
  | .apWrite ap addr value => Sys2Proof.Machine.execApWrite ap addr value s
  | .swdConnect targetsel => Sys2Proof.Machine.execSwdConnect targetsel s
  | .getConnection ap autoinc peripheral allowDisabled => Sys2Proof.Machine.execGetConnection ap autoinc peripheral allowDisabled s
  | .memoryRead ap start stop => Sys2Proof.Machine.execMemoryRead ap start stop s
  | .memoryWrite ap start len data => Sys2Proof.Machine.execMemoryWrite ap start len data s
  | .registerRead ap n regs => Sys2Proof.Machine.execRegisterRead ap n regs s
  | .registerWrite ap n regs values => Sys2Proof.Machine.execRegisterWrite ap n regs values s
  | .runCtrlRead ap ctrl => Sys2Proof.Machine.execRunCtrlRead ap ctrl s
  | .runCtrlWrite ap ctrl => Sys2Proof.Machine.execRunCtrlWrite ap ctrl s
  | .scanAps extraDetails => Sys2Proof.Machine.execScanAps extraDetails s
  | .getChipVersion => Sys2Proof.Machine.execGetChipVersion s
  | .teardown => Sys2Proof.Machine.execTeardown s
  | .readMemory ap start stop => Sys2Proof.Machine.execReadMemory ap start stop s
  | .writeMemory ap start len data => Sys2Proof.Machine.execWriteMemory ap start len data s
  | .writeMemoryRmw ap start len data => Sys2Proof.Machine.execWriteMemoryRmw ap start len data s
  | .pollRead ap address count busy => Sys2Proof.Machine.execPollRead ap address count busy s
  | .pollWrite ap address count values busy => Sys2Proof.Machine.execPollWrite ap address count values busy s
  | .jtagIrsel ir => Sys2Proof.Machine.execJtagIrsel ir s
  | .jtagScan ir rnw a data => Sys2Proof.Machine.execJtagScan ir rnw a data s
  | .jtagDpaccRd a => Sys2Proof.Machine.execJtagDpaccRd a s
  | .jtagDpaccWr a value => Sys2Proof.Machine.execJtagDpaccWr a value s
  | .jtagApaccRd a => Sys2Proof.Machine.execJtagApaccRd a s
  | .jtagApaccWr a value => Sys2Proof.Machine.execJtagApaccWr a value s
  | .jtagReadn reads => Sys2Proof.Machine.execJtagReadn reads s
  | .jtagWriten a values => Sys2Proof.Machine.execJtagWriten a values s
  | .jtagAbortWr value => Sys2Proof.Machine.execJtagAbortWr value s
  | .swdXfer apndp rnw a wdata => Sys2Proof.Machine.execSwdXfer apndp rnw a wdata s
  | .swdDpRd a => Sys2Proof.Machine.execSwdDpRd a s
  | .swdDpWr a value => Sys2Proof.Machine.execSwdDpWr a value s
  | .swdApRd a => Sys2Proof.Machine.execSwdApRd a s
  | .swdApWr a value => Sys2Proof.Machine.execSwdApWr a value s
  | .swdReadn a n => Sys2Proof.Machine.execSwdReadn a n s
  | .swdWriten a values => Sys2Proof.Machine.execSwdWriten a values s
  | .swdAbort value => Sys2Proof.Machine.execSwdAbort value s
  | .swdLinereset => Sys2Proof.Machine.execSwdLinereset s
  | .swdTargetsel value => Sys2Proof.Machine.execSwdTargetsel value s

end Sys2Proof.Machine
end

