-- ==== Sys2Proof/Machine/Fetch.lean ====
section
/-! DEFINITION. Which command is next. DAPSEQ has no fetch: the host hands over its commands one at a time (R31); the
index of the current command stands for the pc, and a command in binary form is decoded here (log 2). -/

namespace Sys2Proof.Machine

open Sys2Proof

/-- What the host hands over next. -/
inductive Fetched where
  /-- The list is exhausted: no command arrives (R31). -/
  | idle
  /-- The header or frame does not decode: IllegalCommand (R129, R318). -/
  | illegal
  | instr (i : Instr)
deriving DecidableEq, Repr

/-- The instruction of a command. -/
def fetchCommand : Command → Fetched
  | .abstract i => .instr i
  | .frame f =>
    match decode f with
    | .ok i => .instr i
    | .error _ => .illegal

/-- The command at the pc. -/
def fetch (s : State) : Fetched :=
  match s.commands[s.pc]? with
  | none => .idle
  | some c => fetchCommand c

/-- The refusal of a frame that does not decode (R129, R318): no BitDriver call, no change of a working register. -/
def refuseFrame (s : State) : State := takeError .illegalCommand s

/-- A list with an entry at an index, padded with TEARDOWN commands when it is shorter. -/
def placeAt (cs : List Command) (n : Nat) (c : Command) : List Command :=
  cs.take n ++ List.replicate (n - cs.length) (.abstract .teardown) ++ [c] ++ cs.drop (n + 1)

end Sys2Proof.Machine
end

