-- ==== Sys2Proof/Machine/Step.lean ====
section
/-! DEFINITION. One step: the next command of the host runs to completion (R8, R31). -/

namespace Sys2Proof.Machine

open Sys2Proof

/-- The machine after a command: the index goes to the next command whatever the result (R31). -/
def afterCommand (o : Host.Outcome State Fault Refusal) : Host.Outcome State Fault Refusal :=
  match o with
  | .next t => .next t.advance
  | .fault f => .fault f
  | .refused r => .refused r

/-- One step. With no command left the machine waits unchanged (log 2). -/
def step (s : State) : Host.Outcome State Fault Refusal :=
  match fetch s with
  | .idle => .next s
  | .illegal => .next (refuseFrame s).advance
  | .instr i => afterCommand (exec i s)

/-- The state with the instruction of the table bits `w` as the command the next step takes: the frame that
`decodeTableWord` reads, placed at the pc of the host's command list (log 2). -/
def State.withFetchWord (s : State) (nbits w : Nat) : State :=
  { s with commands := placeAt s.commands s.pc (.frame (tableFrame nbits w)) }

end Sys2Proof.Machine
end

