-- ==== Sys2Proof/Safety.lean ====
section
/-! DEFINITION. The terms statements about the machine use: what a command may change (frames), the invariant of the
state, the closed loop with the reference target, and the kinds of calls in a wire trace. -/

namespace Sys2Proof.Machine

open Sys2Proof

/-! ## Frames -/

/-- Nothing of the working registers, the configuration and the host's list changes; the wire trace only grows. -/
structure FrameQuiet (s t : State) : Prop where
  dpVersion : t.dpVersion = s.dpVersion
  selectLast : t.selectLast = s.selectLast
  freezeDepth : t.freezeDepth = s.freezeDepth
  frozenValid : t.frozenValid = s.frozenValid
  apState : t.apState = s.apState
  conn : t.conn = s.conn
  jtagIr : t.jtagIr = s.jtagIr
  cfg : t.cfg = s.cfg
  commands : t.commands = s.commands
  pc : t.pc = s.pc
  results : t.results = s.results
  trace : s.trace <+: t.trace

/-- What a link transaction may change: `jtag_ir` on JTAG, the wire trace, the environment and the target. -/
structure FrameLink (s t : State) : Prop where
  dpVersion : t.dpVersion = s.dpVersion
  selectLast : t.selectLast = s.selectLast
  freezeDepth : t.freezeDepth = s.freezeDepth
  frozenValid : t.frozenValid = s.frozenValid
  apState : t.apState = s.apState
  conn : t.conn = s.conn
  jtagIr : s.cfg.iface ≠ .jtag → t.jtagIr = s.jtagIr
  cfg : t.cfg = s.cfg
  commands : t.commands = s.commands
  pc : t.pc = s.pc
  results : t.results = s.results
  trace : s.trace <+: t.trace

/-- What an access that selects may change: also `select_last`, and `frozen_valid` from true to false (R190). -/
structure FrameSelect (s t : State) : Prop where
  dpVersion : t.dpVersion = s.dpVersion
  freezeDepth : t.freezeDepth = s.freezeDepth
  frozenValid : t.frozenValid = true → s.frozenValid = true
  apState : t.apState = s.apState
  conn : t.conn = s.conn
  jtagIr : s.cfg.iface ≠ .jtag → t.jtagIr = s.jtagIr
  cfg : t.cfg = s.cfg
  commands : t.commands = s.commands
  pc : t.pc = s.pc
  results : t.results = s.results
  trace : s.trace <+: t.trace

/-- What any command may change that detects no version, freezes or unfreezes nothing and tears nothing down: neither
`dp_version` nor the freeze depth, and `frozen_valid` from true to false only (R190, R315). -/
structure FrameCommand (s t : State) : Prop where
  dpVersion : t.dpVersion = s.dpVersion
  freezeDepth : t.freezeDepth = s.freezeDepth
  frozenValid : t.frozenValid = true → s.frozenValid = true
  jtagIr : s.cfg.iface ≠ .jtag → t.jtagIr = s.jtagIr
  cfg : t.cfg = s.cfg
  commands : t.commands = s.commands
  pc : t.pc = s.pc
  results : t.results = s.results
  trace : s.trace <+: t.trace

/-- Two connections of one AP that differ in the sub-word cache and the CSW shadow at most (R25). -/
def SameConnection (c d : MemApConnection) : Prop :=
  { d with subword := c.subword, cswShadow := c.cswShadow } = c

/-- A connection cache entry that differs in the sub-word cache and the CSW shadow at most. -/
def SameEntry (a b : Option MemApConnection) : Prop :=
  match a, b with
  | none, none => True
  | some c, some d => SameConnection c d
  | none, some _ => False
  | some _, none => False

/-- What an engine command on AP `ap` may change: also the sub-word cache and the CSW shadow of its connection. -/
structure FrameEngine (ap : ApIndex) (s t : State) : Prop extends FrameCommand s t where
  apState : t.apState = s.apState
  others : ∀ j, j ≠ ap → t.connOf j = s.connOf j
  entry : SameEntry (s.connOf ap) (t.connOf ap)

/-- What a command that resolves AP `ap` may change: also the entry of `ap` in `ap_state` and `conn`, and a probed AP
keeps its state (R24). -/
structure FrameResolve (ap : ApIndex) (s t : State) : Prop extends FrameCommand s t where
  apStates : ∀ j, j ≠ ap → t.apStateOf j = s.apStateOf j
  probed : s.apStateOf ap ≠ .unresolved → t.apStateOf ap = s.apStateOf ap
  conns : ∀ j, j ≠ ap → t.connOf j = s.connOf j

/-! ## The invariant -/

/-- `conn[ap]` is what `ap_state[ap]` says (R25), and was made for the detected layout (R41, R47, R230). -/
def ConnInv (s : State) (ap : ApIndex) : Prop :=
  match s.apStateOf ap, s.connOf ap with
  | .unresolved, none => True
  | .absent, none => True
  | .presentDisabled, some c =>
    c.ap = ap ∧ c.enabled = false ∧ c.busType = busTypeOf c.idr ∧ c.idr ≠ 0 ∧ c.drwBank = s.apReg drwOffset &&& 0xFF0
  | .presentEnabled, some c =>
    c.ap = ap ∧ c.enabled = true ∧ c.busType = busTypeOf c.idr ∧ c.idr ≠ 0 ∧ c.drwBank = s.apReg drwOffset &&& 0xFF0
  | .unresolved, some _ => False
  | .absent, some _ => False
  | .presentDisabled, none => False
  | .presentEnabled, none => False

/-- An injected fault sets sticky flags only (R407). -/
def injectOk : Option (Nat × W32) → Prop
  | none => True
  | some (_, m) => m &&& ~~~stickyMask = 0

/-- What holds of T0 whatever is done to it: its memory is canonical (R400), its control bits are those a write can set
(R404), its flags are sticky flags (R407), and DeviceEn of every AP is as configured (R401). -/
structure T0Inv (t : T0) : Prop where
  mem : Memory.wf t.mem = true
  ctrl : t.ctrl &&& ~~~0x54FFFF0D#32 = 0
  sticky : t.sticky &&& ~~~stickyMask = 0
  inject : injectOk t.inject
  deviceEn : ∀ p ∈ t.aps, cswDeviceEn p.csw = cswDeviceEn p.csw0

/-- `jtag_ir` is the code in the target's instruction register (R26, R344). -/
def IrCoherent (s : State) : Prop :=
  ∀ t, s.target = some t → ∀ ir, s.jtagIr = some ir → t.ir = ir.code

/-- The invariant every step keeps. -/
structure Inv (s : State) : Prop where
  /-- R23: `frozen_valid` implies `freeze_depth > 0`. -/
  freeze : s.frozenValid = true → 0 < s.freezeDepth
  /-- R25: `conn[i]` is present exactly when AP `i` is. -/
  conns : ∀ ap, ConnInv s ap
  /-- R205: nothing is resolved before a version is detected. -/
  unready : detected s.dpVersion = false → ∀ ap, s.apStateOf ap = .unresolved
  /-- R26: `jtag_ir` exists only on JTAG. -/
  jtagIr : s.jtagIr ≠ none → s.cfg.iface = .jtag
  /-- R344 (d). -/
  coherent : IrCoherent s
  /-- R31: one result for each command up to the pc. -/
  results : s.results.length = s.pc
  /-- R400 to R407. -/
  target : ∀ t, s.target = some t → T0Inv t

/-! ## The closed loop (R344, R410) -/

/-- T0 up to its wire registers: the pending read result, the instruction register and the SWD phase. -/
def T0.settled (t : T0) : T0 := { t with rdbuff := 0, ir := 0, phase := .idle }

/-- The loop is closed with T0 in `t` over one of the two wires: T0 answers no WAIT, and `jtag_ir` is what DAPSEQ
loaded (R344). -/
structure Loop (s : State) (t : T0) : Prop where
  iface : s.cfg.iface = .jtag ∨ s.cfg.iface = .swd
  target : s.target = some t
  noWait : t.wait = .count 0
  ir : ∀ ir, s.jtagIr = some ir → t.ir = ir.code

/-- A closed loop in which a write of SELECT that DAPSEQ skips is one T0 already has (R190, R344). -/
structure Closed (s : State) (t : T0) : Prop extends Loop s t where
  select : s.frozenValid = true → ∀ v, s.selectLast = some v → t.select = v

/-- `n` successive reads of one AP register of T0: the words and T0 afterwards (R405). -/
def T0.apReads (t : T0) (a : RegAddr) : Nat → List W32 × T0
  | 0 => ([], t)
  | n + 1 =>
    ((t.apAccess true a 0).1 :: ((t.apAccess true a 0).2.apReads a n).1, ((t.apAccess true a 0).2.apReads a n).2)

/-- Successive writes of one AP register of T0 (R405). -/
def T0.apWrites (t : T0) (a : RegAddr) : List W32 → T0
  | [] => t
  | w :: ws => (t.apAccess false a w).2.apWrites a ws

/-- T0 with a value in SELECT (R404). -/
def T0.withSelect (t : T0) (v : W32) : T0 := { t with select := v }

/-- What a read of a DP register delivers once its bank is selected (R403). -/
def T0.register (t : T0) (r : DpReg) : W32 :=
  match r with
  | .dpidr => t.dpidr
  | .ctrlStat => t.ctrlStat
  | .targetid => if 2 ≤ t.ver then t.targetid else 0
  | .dlpidr => if 2 ≤ t.ver then t.dlpidr else 0
  | .eventstat => if 2 ≤ t.ver then t.eventstat else 0
  | .dpidr1 => if t.ver = 3 then t.dpidr1 else t.dpidr
  | .rdbuff => t.rdbuff
  | .abort => t.dpidr
  | .select => 0
  | .targetsel => t.rdbuff
  | .select1 => 0

/-- What an SWD transaction does in T0 that it acknowledges OK, and the word it delivers (R409): a DP read delivers the
register, an AP read the pending result. -/
def T0.xferEffect (t : T0) (apndp rnw : Bool) (a : RegAddr) (w : W32) : T0 :=
  match apndp, rnw with
  | false, true => t
  | false, false => t.dpWrite a w
  | true, true => { (t.apAccess true a 0).2 with rdbuff := (t.apAccess true a 0).1 }
  | true, false => (t.apAccess false a w).2

/-- The word an SWD transaction delivers (R409); a write delivers 0. -/
def T0.xferValue (t : T0) (apndp rnw : Bool) (a : RegAddr) : W32 :=
  if rnw then (if apndp then t.rdbuff else t.dpRead a) else 0

/-- T0 acknowledges the SWD transaction OK (R409): no sticky flag bars an AP access, and it is not TARGETSEL. -/
def T0.xferOk (t : T0) (apndp rnw : Bool) (a : RegAddr) : Bool :=
  (!apndp || t.sticky == 0) && (apndp || rnw || a != 0xC#4)

/-! ## A memory AP that serves a connection (R405, R406) -/

/-- The member of T0 with an index (R405). -/
def T0.apOf (t : T0) (ap : ApIndex) : Option T0Ap := t.aps.find? fun p => p.index == ap

/-- No bad address in a range (R406). -/
abbrev T0.goodRange (t : T0) (a b : Nat) : Prop := ∀ x ∈ t.bad, x < a ∨ b ≤ x

/-- What a memory command on AP `ap` leaves of T0: all but SELECT, the registers of that AP, the memory and the wire
registers. -/
structure T0Frame (ap : ApIndex) (t u : T0) : Prop where
  dpidr : u.dpidr = t.dpidr
  targetid : u.targetid = t.targetid
  dlpidr : u.dlpidr = t.dlpidr
  eventstat : u.eventstat = t.eventstat
  dpidr1 : u.dpidr1 = t.dpidr1
  bad : u.bad = t.bad
  powerDead : u.powerDead = t.powerDead
  ctrl : u.ctrl = t.ctrl
  sticky : u.sticky = t.sticky
  inject : u.inject = t.inject
  wait : u.wait = t.wait
  aps : u.aps.filter (fun q => q.index != ap) = t.aps.filter (fun q => q.index != ap)

/-- The closed loop with a T0 whose enabled AP `c.ap` the connection `c` was made for: its layout is the detected one,
its CSW agrees with the shadow in size and increment mode, and no flag is set or about to be. -/
structure Served (s : State) (t : T0) (c : MemApConnection) : Prop where
  closed : Closed s t
  detected : detected s.dpVersion = true
  conn : s.connOf c.ap = some c
  layout : layoutBase s.dpVersion = t.layout
  inv : T0Inv t
  sticky : t.sticky = 0
  inject : t.inject = none
  member : ∃ p, t.apOf c.ap = some p ∧ cswDeviceEn p.csw = true ∧
    p.csw.extractLsb' 0 6 = c.cswShadow.extractLsb' 0 6

/-- The CSW a write leaves in a member of T0: DeviceEn stays as configured (R405). -/
def T0Ap.writtenCsw (p : T0Ap) (w : W32) : W32 := (w &&& 0xFFFFFF3F) ||| (p.csw0 &&& 0x40)

/-- What a memory command may leave of the AP it acts on: any TAR, and CSW as it was or as writing `shadow` back leaves
it (R232); the AP's constants stay. -/
def T0Ap.Restored (shadow : W32) (p q : T0Ap) : Prop :=
  ∃ csw tar, q = { p with csw := csw, tar := tar } ∧ (csw = p.csw ∨ csw = p.writtenCsw shadow)

/-- After a command: a T0 that differs as `T0Frame` says serves the connection still, with no more than the sub-word
cache changed, and CSW of the AP is as before or the shadow written back, so that it is as before where the two are
the same CSW. -/
def ServedAfter (u : State) (t : T0) (c : MemApConnection) (mem : List Host.Cell) : Prop :=
  ∃ t' b, T0Frame c.ap t t' ∧ t'.mem = mem ∧ Served u t' { c with subword := b } ∧
    ∀ p, t.apOf c.ap = some p → ∃ q, t'.apOf c.ap = some q ∧ p.Restored c.cswShadow q

/-- The bytes of a memory from an address on. -/
def Memory.bytes (m : List Host.Cell) (a : Nat) : Nat → List Byte
  | 0 => []
  | n + 1 => Memory.read m a :: Memory.bytes m (a + 1) n

/-! ## Results on T0 -/

/-- The word at an address is aligned and none of its bytes is bad (R406). -/
structure GoodWord (t : T0) (a : W32) : Prop where
  aligned : a.toNat % 4 = 0
  good : t.goodRange a.toNat (a.toNat + 4)

/-- The busy check is satisfied by what stands in memory (R239). -/
def BusyIdle (m : List Host.Cell) (b : BusyCheck) : Prop := Memory.read32 m b.addr.toNat &&& b.mask = b.expected

/-- The memory after successive writes of one word address (R240). -/
def Memory.keyhole (m : List Host.Cell) (a : Nat) : List W32 → List Host.Cell
  | [] => m
  | w :: ws => Memory.keyhole (Memory.write32 m a w) a ws

/-- Whether the sub-word path is open for a connection (R234). -/
def subwordOf (s : State) (c : MemApConnection) : Bool :=
  match cachedSubword s c.ap with
  | some b => b
  | none => s.cfg.subwordOf c.ap

/-- The memory after WRITE_MEMORY of a byte string (R235): the bytes alone when the edges are aligned or the sub-word
path is open, else also zeros up to the word boundaries. -/
def Memory.padFill (native : Bool) (m : List Host.Cell) (a : Nat) (bs : List Byte) : List Host.Cell :=
  if bs = [] then m
  else if unalignedEdge a (a + bs.length) && native then Memory.fill m a bs
  else Memory.fill m (wordFloor a)
    (List.replicate (a - wordFloor a) 0 ++ bs ++ List.replicate (wordCeil (a + bs.length) - (a + bs.length)) 0)

/-- What T0 holds after a scan (R408). -/
def T0.afterScan (t : T0) (ir : IrCode) (rnw : Bool) (a : RegAddr) (d : W32) : T0 :=
  (t.irScan ir.code).scanEffect (drReq rnw a d)

/-- T0 with so many WAIT answers to come (R400). -/
def T0.withWait (t : T0) (w : T0Wait) : T0 := { t with wait := w }

/-- Successive read scans of T0: the result each one leaves pending, and T0 afterwards (R408). -/
def T0.scanReads (t : T0) : List (IrCode × RegAddr) → List W32 × T0
  | [] => ([], t)
  | r :: rs =>
    ((t.afterScan r.1 true r.2 0).rdbuff :: ((t.afterScan r.1 true r.2 0).scanReads rs).1,
      ((t.afterScan r.1 true r.2 0).scanReads rs).2)

/-- T0 after successive write scans of one AP register (R408). -/
def T0.scanWrites (t : T0) (a : RegAddr) : List W32 → T0
  | [] => t
  | w :: ws => (t.afterScan .apacc false a w).scanWrites a ws

/-- The IDR an AP index reads as: zero where no AP is (R405). -/
def T0.idrOf (t : T0) (ap : ApIndex) : W32 :=
  match t.apOf ap with
  | some p => p.idr
  | none => 0

/-- The row of a member of T0 (R275). -/
def T0Ap.row (extra : Bool) (i : ApIndex) (p : T0Ap) : ScanRow :=
  scanRow i p.idr p.csw (if extra then some (scanDetails p.idr p.csw p.base) else none)

/-- The rows SCAN_APS finds on T0 from index `i` on, at most so many: up to the first index whose IDR reads zero
(R275). -/
def T0.scanRows (t : T0) (extra : Bool) : Nat → Nat → List ScanRow
  | _, 0 => []
  | i, n + 1 =>
    match t.apOf (BitVec.ofNat 8 i) with
    | none => []
    | some p => if p.idr = 0 then [] else p.row extra (BitVec.ofNat 8 i) :: t.scanRows extra (i + 1) n

/-- The connection of a member of T0 whose CSW reads as it stands (R230, R231). -/
def T0Ap.connection (p : T0Ap) (ap : ApIndex) (autoinc : Option Bool) (peripheral : Bool) (base : BitVec 12) :
    MemApConnection :=
  newConnection ap p.idr p.csw (createdShadow p.csw (defaultAutoinc autoinc (busTypeOf p.idr) peripheral))
    (defaultAutoinc autoinc (busTypeOf p.idr) peripheral) peripheral (base + drwOffset)

/-- The busy check of a command is at a good word and satisfied. -/
def busyQuiet (t : T0) (m : List Host.Cell) : Option BusyCheck → Bool
  | none => true
  | some b => decide (b.addr.toNat % 4 = 0 ∧ t.goodRange b.addr.toNat (b.addr.toNat + 4) ∧
      Memory.read32 m b.addr.toNat &&& b.mask = b.expected)

/-- What an engine command of a Codec delivers on a T0 that serves its connection, and the memory afterwards; none
where the command is refused or T0 faults, where a busy check must wait, and for a WRITE_MEMORY with an unaligned edge. -/
def callMeaning (t : T0) (m : List Host.Cell) : EngineCall → Option (Value × List Host.Cell)
  | .readMemory a b =>
    if a ≤ b ∧ b ≤ addrLimit ∧ t.goodRange (wordFloor a) (wordCeil b) then
      some (.bytes (Memory.bytes m a (b - a)), m)
    else none
  | .writeMemory a bs =>
    if a % 4 = 0 ∧ bs.length % 4 = 0 ∧ a + bs.length ≤ addrLimit ∧ t.goodRange a (a + bs.length) then
      some (.unit, Memory.fill m a bs)
    else none
  | .writeMemoryRmw a bs =>
    if a + bs.length ≤ addrLimit ∧ t.goodRange (wordFloor a) (wordCeil (a + bs.length)) then
      some (.unit, Memory.fill m a bs)
    else none
  | .pollRead a n busy =>
    if a.toNat % 4 = 0 ∧ 1 ≤ n ∧ t.goodRange a.toNat (a.toNat + 4) ∧ busyQuiet t m busy = true then
      some (.words (List.replicate n (Memory.read32 m a.toNat)), m)
    else none
  | .pollWrite a ws busy =>
    if a.toNat % 4 = 0 ∧ 1 ≤ ws.length ∧ t.goodRange a.toNat (a.toNat + 4) ∧
        (List.range ws.length).all (fun k => busyQuiet t (Memory.keyhole m a.toNat (ws.take k)) busy) = true then
      some (.unit, Memory.keyhole m a.toNat ws)
    else none

/-- An error the retry-once policy catches (R270). -/
def isSticky : DapError → Bool
  | .stickyProtocolError _ => true
  | _ => false

/-- What a Codec's program returns or raises on a T0 that serves its connection, and the memory afterwards; none where
one of its engine commands has no meaning here or it raises the error that is retried (R270). -/
def codecMeaning (t : T0) (m : List Host.Cell) : CodecProgram → Option (Except DapError (List W32) × List Host.Cell)
  | .ret ws => some (.ok ws, m)
  | .raise e => if isSticky e then none else some (.error e, m)
  | .call c k =>
    match callMeaning t m c with
    | none => none
    | some (v, m') => codecMeaning t m' (k v)

/-- How a delegated operation ends on a T0 that serves connection `c`: as the Codec's program says, for every Codec. -/
def DelegatedEnds (s : State) (t : T0) (c : MemApConnection) (i : Instr) (op : CodecOp) (value : List W32 → Value) :
    Prop :=
  match codecMeaning t t.mem (Config.codec op c) with
  | some (.ok ws, m) =>
    ∃ u, exec i s = .next (u.pushResult (.ok (value ws))) ∧ FrameResolve c.ap s u ∧ ServedAfter u t c m
  | some (.error e, m) =>
    ∃ u, exec i s = .next (u.pushResult (.error e)) ∧ FrameResolve c.ap s u ∧ ServedAfter u t c m
  | none => ∃ u r, exec i s = .next (u.pushResult r) ∧ FrameResolve c.ap s u

/-! ## Calls in a trace -/

/-- The call begins an ABORT write: the ABORT instruction is loaded, the request byte 0x81 is sent, or the backend is
asked for it (R158, R177). -/
def isAbortCall : WireEvent → Bool
  | .irScan v => v == IrCode.abort.code
  | .drScan _ _ => false
  | .driveLine (.out bits :: _) _ => bits == bitsOf (0x81#8) 8
  | .driveLine _ _ => false
  | .backend (.abort _) _ => true
  | .backend _ _ => false

/-- The calls a command added to the trace. -/
def newCalls (s t : State) : List WireEvent := t.trace.drop s.trace.length

/-- The number of calls of a command that begin an ABORT write. -/
def abortCalls (s t : State) : Nat := (newCalls s t).countP isAbortCall

/-- The ABORT writes among some calls: the scans made under ABORT that repeat no scan answered WAIT, the request bytes
0x81 and the backend's ABORT calls (R151, R158, R177). `under` says that ABORT is the instruction loaded, `waits` how
many WAIT answers in a row the scan in progress has had; the fourth ends it. -/
def abortWritesIn (under : Bool) (waits : Nat) : List WireEvent → Nat
  | [] => 0
  | .irScan v :: es => abortWritesIn (v == IrCode.abort.code) 0 es
  | .drScan _ rsp :: es =>
    (if under && waits == 0 then 1 else 0) +
      abortWritesIn under (if drAck rsp = 0b001#3 ∧ waits < Config.waitThreshold then waits + 1 else 0) es
  | .driveLine segs bits :: es =>
    (if isAbortCall (.driveLine segs bits) then 1 else 0) + abortWritesIn under 0 es
  | .backend c reply :: es => (if isAbortCall (.backend c reply) then 1 else 0) + abortWritesIn under 0 es

/-- The number of ABORT writes a command made. -/
def abortWrites (s t : State) : Nat := abortWritesIn (s.jtagIr == some .abort) 0 (newCalls s t)

/-- A data-register scan (R113). -/
def isDrScan : WireEvent → Bool
  | .irScan _ => false
  | .drScan _ _ => true
  | .driveLine _ _ => false
  | .backend _ _ => false

/-- The number of data-register scans of a command. -/
def drScans (s t : State) : Nat := (newCalls s t).countP isDrScan

/-- The call writes DP address 0x8, or begins to: SELECT, when no AP is accessed (R117, R119). -/
def isSelectWrite : WireEvent → Bool
  | .irScan _ => false
  | .drScan req _ => !drRnw req && drAddr req == 0x8#4
  | .driveLine (.out bits :: _) _ => bits == bitsOf (0xB1#8) 8
  | .driveLine _ _ => false
  | .backend (.dpWrite a _) _ => a == 0x8#4
  | .backend _ _ => false

/-- The number of writes of DP address 0x8 between two states. -/
def selectWrites (s t : State) : Nat := (newCalls s t).countP isSelectWrite

/-- The two calls of an SWD write packet of a DP register, `bits` what is sampled for the acknowledgement (R170, R179). -/
def swdDpWriteCalls (a : RegAddr) (v : W32) (bits : List Bool) : List WireEvent :=
  [.driveLine [.out (bitsOf (swdReqByte false false a) 8), .trn 1, .inp 3] bits,
   .driveLine [.trn 1, .out (dataBits v)] []]

/-- The call that clocks the idle cycles after a transaction, if there are any (R170). -/
def swdIdleCalls : Nat → List WireEvent
  | 0 => []
  | n + 1 => [.driveLine [.out (List.replicate (n + 1) false)] []]

/-- The last thing a command sent is an acknowledged write of `v` to DP address `a`: one scan under DPACC on JTAG, one
packet and its idle cycles on SWD. -/
structure EndsInDpWrite (s u : State) (a : RegAddr) (v : W32) : Prop where
  jtag : s.cfg.iface = .jtag → u.jtagIr = some .dpacc ∧
    ∃ rsp, drAck rsp = 0b010#3 ∧ (newCalls s u).getLast? = some (.drScan (drReq false a v) rsp)
  swd : s.cfg.iface = .swd →
    swdDpWriteCalls a v [true, false, false] ++ swdIdleCalls s.cfg.swdIdleCycles <:+ newCalls s u

/-- How many ABORT writes a command may make: one for a transaction that is one, one for a command of the retry-once
policy (R270, R316), else none. -/
def abortBudget : Instr → Nat
  | .dpWrite r _ => if r = .abort then 1 else 0
  | .clearSticky => 1
  | .memoryRead _ _ _ => 1
  | .memoryWrite _ _ _ _ => 1
  | .registerRead _ _ _ => 1
  | .registerWrite _ _ _ _ => 1
  | .runCtrlRead _ _ => 1
  | .runCtrlWrite _ _ => 1
  | .jtagIrsel ir => if ir = .abort then 1 else 0
  | .jtagScan ir _ _ _ => if ir = .abort then 1 else 0
  | .jtagAbortWr _ => 1
  | .swdXfer apndp rnw a _ => if apndp = false ∧ rnw = false ∧ a = 0x0 then 1 else 0
  | .swdDpWr a _ => if a = 0x0 then 1 else 0
  | .swdAbort _ => 1
  | _ => 0

/-! ## Classes of commands -/

/-- A refusal (R318), as against an error of a command that ran. -/
def isRefusal : DapError → Bool
  | .illegalCommand => true
  | .badArgument => true
  | .dpNotReady => true
  | .registerNotInVersion => true
  | .noConnection _ => true
  | .versionUnsupported _ _ => false
  | .apNotPresent _ => false
  | .apDisabled _ => false
  | .stickyProtocolError _ => false
  | .waitAckExhausted _ _ _ => false
  | .dpOrApAccessError _ => false
  | .apAccessDisabledError _ _ => false
  | .apBusAccessError _ _ => false
  | .targetSelectionFailed _ _ => false
  | .powerUpFailed _ => false
  | .busyPollTimeout _ _ => false

/-- A command handed to the Codec (R278 to R281). -/
def isDelegated : Instr → Bool
  | .registerRead _ _ _ => true
  | .registerWrite _ _ _ _ => true
  | .runCtrlRead _ _ => true
  | .runCtrlWrite _ _ => true
  | _ => false

/-- A command that is refused until a version is detected (R205). -/
def needsVersion : Instr → Bool
  | .selectAp _ _ => true
  | .apRead _ _ => true
  | .apWrite _ _ _ => true
  | .getConnection _ _ _ _ => true
  | .memoryRead _ _ _ => true
  | .memoryWrite _ _ _ _ => true
  | .registerRead _ _ _ => true
  | .registerWrite _ _ _ _ => true
  | .runCtrlRead _ _ => true
  | .runCtrlWrite _ _ => true
  | .scanAps _ => true
  | .getChipVersion => true
  | .readMemory _ _ _ => true
  | .writeMemory _ _ _ _ => true
  | .writeMemoryRmw _ _ _ _ => true
  | .pollRead _ _ _ _ => true
  | .pollWrite _ _ _ _ _ => true
  | _ => false

/-- A raw access to a DP register is accepted (R205). -/
def State.accepts (s : State) (r : DpReg) : Bool :=
  if detected s.dpVersion then dpValidIn s.dpVersion r else dpValidInV1 r || r == .targetsel

/-- What each command may change, whatever its result (R315): the whole of the state outside it stays. A raw access
may also leave the shadow of its AP at a CSW value (R86 b). -/
def FrameOf (i : Instr) (s t : State) : Prop :=
  match i with
  | .detectVersion =>
    FrameLink (s.setDpVersion t.dpVersion) t ∧ (detected s.dpVersion = true → t.dpVersion = s.dpVersion)
  | .reassertPower => FrameSelect s t
  | .dpRead _ => FrameSelect s t
  | .dpWrite _ _ => FrameSelect s t
  | .selectAp _ _ => FrameSelect s t
  | .freezeSelect => t = s.freeze
  | .unfreezeSelect => t = s.unfreeze
  | .checkSticky => FrameSelect s t
  | .clearSticky => FrameLink s t
  | .apRead ap addr => FrameSelect s t ∨ ∃ w, FrameSelect (s.noteCsw ap (apOffset addr) w) t
  | .apWrite ap addr v => FrameSelect s t ∨ FrameSelect (s.noteCsw ap (apOffset addr) v) t
  | .swdConnect _ => FrameSelect s t
  | .getConnection ap _ _ _ => FrameResolve ap s t
  | .memoryRead ap _ _ => FrameResolve ap s t
  | .memoryWrite ap _ _ _ => FrameResolve ap s t
  | .registerRead ap _ _ => FrameResolve ap s t
  | .registerWrite ap _ _ _ => FrameResolve ap s t
  | .runCtrlRead ap _ => FrameResolve ap s t
  | .runCtrlWrite ap _ => FrameResolve ap s t
  | .scanAps _ => FrameSelect s t
  | .getChipVersion => FrameSelect s t
  | .teardown => t = s.teardown
  | .readMemory ap _ _ => FrameEngine ap s t
  | .writeMemory ap _ _ _ => FrameEngine ap s t
  | .writeMemoryRmw ap _ _ _ => FrameEngine ap s t
  | .pollRead ap _ _ _ => FrameEngine ap s t
  | .pollWrite ap _ _ _ _ => FrameEngine ap s t
  | .jtagIrsel _ => FrameLink s t
  | .jtagScan _ _ _ _ => FrameLink s t
  | .jtagDpaccRd _ => FrameLink s t
  | .jtagDpaccWr _ _ => FrameLink s t
  | .jtagApaccRd _ => FrameLink s t
  | .jtagApaccWr _ _ => FrameLink s t
  | .jtagReadn _ => FrameLink s t
  | .jtagWriten _ _ => FrameLink s t
  | .jtagAbortWr _ => FrameLink s t
  | .swdXfer _ _ _ _ => FrameLink s t
  | .swdDpRd _ => FrameLink s t
  | .swdDpWr _ _ => FrameLink s t
  | .swdApRd _ => FrameLink s t
  | .swdApWr _ _ => FrameLink s t
  | .swdReadn _ _ => FrameLink s t
  | .swdWriten _ _ => FrameLink s t
  | .swdAbort _ => FrameLink s t
  | .swdLinereset => FrameLink s t
  | .swdTargetsel _ => FrameLink s t

/-- A list of commands run one after the other: none if one of them stops. -/
def runAll (s : State) : List Instr → Option State
  | [] => some s
  | i :: is =>
    match exec i s with
    | .next t => runAll t is
    | .fault _ => none
    | .refused _ => none

end Sys2Proof.Machine
end

