-- ==== Sys2Proof/Certificates/Slice0/Obligations.lean ====
section
/-! DEFINITION. The statements for the provers. Their form: a command ends `next (u.pushResult r)`, where `u` is the
state the command leaves and `r` its result; the frame on `u` says what it leaves unchanged. "T0" is the reference
target the spec builds (R400 to R410); statements over every state say nothing of a target. -/

open Sys2Proof Sys2Proof.Machine

/-! ## The whole machine -/

/-- R50: every working register has its initial value after reset, and TEARDOWN gives it that value again. -/
def Obligations.ResetRegisterValues : Prop :=
  State.reset.dpVersion = .undetected ∧ State.reset.selectLast = none ∧ State.reset.freezeDepth = 0 ∧
    State.reset.frozenValid = false ∧ State.reset.jtagIr = none ∧
    (∀ ap, State.reset.apStateOf ap = .unresolved ∧ State.reset.connOf ap = none) ∧
    ∀ s : State, ∃ u : State, exec .teardown s = .next (u.pushResult (.ok .unit)) ∧
      u.dpVersion = State.reset.dpVersion ∧ u.selectLast = State.reset.selectLast ∧
      u.freezeDepth = State.reset.freezeDepth ∧ u.frozenValid = State.reset.frozenValid ∧
      u.apState = State.reset.apState ∧ u.conn = State.reset.conn ∧ u.jtagIr = State.reset.jtagIr

/-- The invariant holds after reset. -/
def Obligations.ResetMeetsInvariant : Prop := Machine.Inv State.reset

/-- Every step is taken, and keeps the invariant (R20 to R26, R205, R31, R344, R400 to R407). -/
def Obligations.StepKeepsInvariant : Prop := ∀ s, Machine.Inv s → ∃ t, step s = .next t ∧ Machine.Inv t

/-- A step runs the command at the pc and goes to the next one (R31); a frame that does not decode is refused (R129,
R318); without a command the machine waits (the model's choice, log 2). That a frame with a wrong number of operand
words and a frame of a link transaction that does not decode are refused in the same way is the model's choice (log 8
and log 7). -/
def Obligations.StepRunsDecodedCommand : Prop :=
  ∀ s,
    (∀ f i t, s.commands[s.pc]? = some (.frame f) → decode f = .ok i → exec i s = .next t →
      step s = .next { t with pc := t.pc + 1 }) ∧
    (∀ i t, s.commands[s.pc]? = some (.abstract i) → exec i s = .next t → step s = .next { t with pc := t.pc + 1 }) ∧
    (∀ f e, s.commands[s.pc]? = some (.frame f) → decode f = .error e →
      step s = .next { s with results := s.results ++ [.error .illegalCommand], pc := s.pc + 1 }) ∧
    (s.commands[s.pc]? = none → step s = .next s)

/-- Each command adds exactly one result and may only extend the wire trace; the host's list and the parameters stay
(R9, R28, R31). -/
def Obligations.StepAppendsOneResult : Prop :=
  ∀ s c, s.commands[s.pc]? = some c →
    ∃ t r, step s = .next t ∧ t.results = s.results ++ [r] ∧ t.pc = s.pc + 1 ∧ t.commands = s.commands ∧
      t.cfg = s.cfg ∧ s.trace <+: t.trace

/-- Words written out bit by bit from 30_encoding.md decode to the instruction they stand for. -/
def Obligations.DecodesWrittenWords : Prop :=
  decode (.host [0b00000000000000100000000000000011#32]) = .ok (.dpRead .ctrlStat) ∧
    decode (.host [0b00000000000000000000001000001010#32, 0xFC]) = .ok (.apRead 2 0xFC) ∧
    decode (.host [0b00000000000001110000000100010000#32]) = .ok (.getConnection 1 (some true) false true) ∧
    decode (.ir4 0b1011#4) = .ok (.jtagIrsel .apacc) ∧
    decode (.dr35 0b1011#4 0b00100000000000000000000000000000010#35) = .ok (.jtagApaccWr 0x4 0x20000000) ∧
    decode (.swdReq 0b10001101#8 0) = .ok (.swdDpRd 0x4)

/-- Every well-formed instruction is what its binary form decodes to (R111, R116, R117, R119, R126).
The frames of link transactions are the model's choice (log 7). -/
def Obligations.DecodeInvertsEncode : Prop := ∀ i : Instr, i.WellFormed = true → decode (encode i) = .ok i

/-- Reserved bits, unknown opcodes, undefined flags of any row of R126 and DP register codes above 10 do not decode
(R127, R129, R130). -/
def Obligations.ReservedEncodingsRefused : Prop :=
  (∀ w ops, hRsv w ≠ 0 → decode (.host (w :: ops)) = .error .reservedBits) ∧
    (∀ w ops, hRsv w = 0 → (hOpcode w = 0 ∨ 0x0C < (hOpcode w).toNat ∧ (hOpcode w).toNat < 0x10 ∨
      0x19 < (hOpcode w).toNat ∧ (hOpcode w).toNat < 0x20 ∨ 0x24 < (hOpcode w).toNat) →
        decode (.host (w :: ops)) = .error .unknownOpcode) ∧
    (∀ w ops, hRsv w = 0 → (hOpcode w = 0x03 ∨ hOpcode w = 0x04) → 10 < (hFlags w).toNat →
      decode (.host (w :: ops)) = .error .dpRegisterCode) ∧
    (∀ w ops, hRsv w = 0 → hOpcode w = 0x10 → 0x0F < (hFlags w).toNat →
      decode (.host (w :: ops)) = .error .undefinedFlag) ∧
    (∀ w ops, hRsv w = 0 → (hOpcode w = 0x0C ∨ hOpcode w = 0x17 ∨ hOpcode w = 0x23 ∨ hOpcode w = 0x24) →
      0x01 < (hFlags w).toNat → decode (.host (w :: ops)) = .error .undefinedFlag) ∧
    (∀ w ops, hRsv w = 0 → hFlags w ≠ 0 → (0x01 ≤ (hOpcode w).toNat ∧ (hOpcode w).toNat ≤ 0x02 ∨
      0x05 ≤ (hOpcode w).toNat ∧ (hOpcode w).toNat ≤ 0x0B ∨ 0x11 ≤ (hOpcode w).toNat ∧ (hOpcode w).toNat ≤ 0x16 ∨
      0x18 ≤ (hOpcode w).toNat ∧ (hOpcode w).toNat ≤ 0x19 ∨ 0x20 ≤ (hOpcode w).toNat ∧ (hOpcode w).toNat ≤ 0x22) →
        decode (.host (w :: ops)) = .error .undefinedFlag) ∧
    (∀ c r, c ≠ 0b1000#4 → c ≠ 0b1010#4 → c ≠ 0b1011#4 → decode (.ir4 c) = .error .irCode ∧
      decode (.dr35 c r) = .error .irCode) ∧
    ∀ b w, swdReqValid b = false → decode (.swdReq b w) = .error .swdRequest

/-- Whatever a command's result is, what it may change is what `FrameOf` names (R21 to R26, R86, R315).
That an error may leave a freeze invalid, and that SCAN_APS and the link transactions refresh no shadow, is the model's
reading (log 15, log 20, log 6). -/
def Obligations.CommandsKeepTheirFrame : Prop :=
  ∀ i s, Machine.Inv s → ∃ u r, exec i s = .next (u.pushResult r) ∧ FrameOf i s u

/-- A refusal leaves the state as it was but for the result (R318); an error a Codec names itself is no refusal of
DAPSEQ, so the delegated commands are not meant. -/
def Obligations.RefusalChangesNothing : Prop :=
  ∀ i s u e, isDelegated i = false → exec i s = .next (u.pushResult (.error e)) → isRefusal e = true → u = s

/-- Without a detected version the commands that need a layout are refused (R205). -/
def Obligations.VersionIsNeeded : Prop :=
  ∀ i s, needsVersion i = true → detected s.dpVersion = false → (isDelegated i = true → s.cfg.codecPresent = true) →
    exec i s = .next (s.pushResult (.error .dpNotReady))

/-- Readiness and direction of raw DP accesses (R205). -/
def Obligations.RawAccessReadiness : Prop :=
  ∀ s r v,
    (detected s.dpVersion = false → dpValidInV1 r = false → r ≠ .targetsel →
      exec (.dpRead r) s = .next (s.pushResult (.error .dpNotReady)) ∧
        exec (.dpWrite r v) s = .next (s.pushResult (.error .dpNotReady))) ∧
    (detected s.dpVersion = true → dpValidIn s.dpVersion r = false →
      exec (.dpRead r) s = .next (s.pushResult (.error .registerNotInVersion)) ∧
        exec (.dpWrite r v) s = .next (s.pushResult (.error .registerNotInVersion))) ∧
    (s.accepts r = true → dpReadable r = false → exec (.dpRead r) s = .next (s.pushResult (.error .badArgument))) ∧
    (s.accepts r = true → dpWritable r = false → exec (.dpWrite r v) s = .next (s.pushResult (.error .badArgument)))

/-- A command makes at most the ABORT writes its kind allows, on every link and whatever is answered: the retry-once
policy at most one, a command outside it none that is not one itself (R270, R316). On JTAG both the loads of the ABORT
instruction and the scans under it are counted; a scan repeated after a WAIT answer counts once (R151). -/
def Obligations.AbortBudgetHolds : Prop :=
  ∀ i s u r, exec i s = .next (u.pushResult r) → abortCalls s u ≤ abortBudget i ∧ abortWrites s u ≤ abortBudget i

/-! ## JTAG (40_link_jtag.md)

The opcode table lists link transactions as instructions; how a host issues one alone, and that `select_last` is then
left alone, is log 6, in this section and the next. -/

/-- The instruction register is loaded only on change, JTAG.IRSEL always ends without an error (R150), and T0 takes the
code (R408). That the host may issue it alone, in every state and without a version, is the model's choice (log 6). -/
def Obligations.IrselLoadsOnChange : Prop :=
  ∀ s ir, s.cfg.iface = .jtag →
    ∃ u, exec (.jtagIrsel ir) s = .next (u.pushResult (.ok .unit)) ∧ FrameLink s u ∧ u.jtagIr = some ir ∧
      newCalls s u = (if s.jtagIr = some ir then [] else [.irScan ir.code]) ∧
      u.target = (if s.jtagIr = some ir then s.target else s.target.map fun t => t.irScan ir.code) ∧
      u.answers = s.answers

/-- R151 over every environment: WAIT answers are re-issued, at most three of them, OK_FAULT delivers its data, any
other acknowledgement is an error at once, and the fourth WAIT in a row is the error WaitAckExhausted.
That answers come from a list is the model's choice (log 4). -/
def Obligations.ScanAcknowledgements : Prop :=
  ∀ s ir rnw a d (ws : List Scan), s.cfg.iface = .jtag → s.target = none → scanOk ir rnw a d = true →
    (∀ w ∈ ws, drAck w = 0b001#3) →
    (∀ y rest, ws.length ≤ 3 → s.answers = ws ++ y :: rest → drAck y ≠ 0b001#3 →
      ∃ u, exec (.jtagScan ir rnw a d) s = .next (u.pushResult
          (if drAck y = 0b010#3 then .ok (.word (drData y))
           else .error (.dpOrApAccessError ⟨.invalidAck, (drAck y).setWidth 32⟩))) ∧
        FrameLink s u ∧ u.jtagIr = some ir ∧ u.answers = rest ∧ u.target = none ∧
        newCalls s u = (if s.jtagIr = some ir then [] else [.irScan ir.code]) ++
          (ws ++ [y]).map (.drScan (drReq rnw a d))) ∧
    (∀ rest, ws.length = 4 → s.answers = ws ++ rest →
      ∃ u, exec (.jtagScan ir rnw a d) s = .next (u.pushResult (.error (.waitAckExhausted ir rnw a))) ∧
        FrameLink s u ∧ u.jtagIr = some ir ∧ u.answers = rest ∧ u.target = none ∧
        newCalls s u = (if s.jtagIr = some ir then [] else [.irScan ir.code]) ++ ws.map (.drScan (drReq rnw a d)))

/-- JTAG.SCAN on T0 (R151, R408): it delivers the pending result and T0 does what the request asks; up to three WAIT
answers are waited for, and after four the scan ends in WaitAckExhausted with nothing done. -/
def Obligations.ScanOnTarget : Prop :=
  ∀ s t ir rnw a d, s.cfg.iface = .jtag → s.target = some t → (∀ x, s.jtagIr = some x → t.ir = x.code) →
    scanOk ir rnw a d = true →
    (∀ n, n ≤ 3 → t.wait = .count n →
      ∃ u, exec (.jtagScan ir rnw a d) s = .next (u.pushResult (.ok (.word t.rdbuff))) ∧ FrameLink s u ∧
        u.jtagIr = some ir ∧ u.target = some ((t.withWait (.count 0)).afterScan ir rnw a d) ∧
        drScans s u = n + 1) ∧
    (∀ n, 4 ≤ n → t.wait = .count n →
      ∃ u, exec (.jtagScan ir rnw a d) s = .next (u.pushResult (.error (.waitAckExhausted ir rnw a))) ∧
        FrameLink s u ∧ u.jtagIr = some ir ∧ u.target = some ((t.withWait (.count (n - 4))).irScan ir.code) ∧
        drScans s u = 4) ∧
    (t.wait = .forever →
      ∃ u, exec (.jtagScan ir rnw a d) s = .next (u.pushResult (.error (.waitAckExhausted ir rnw a))) ∧
        FrameLink s u ∧ u.jtagIr = some ir ∧ u.target = some (t.irScan ir.code) ∧ drScans s u = 4)

/-- JTAG.DPACC.RD and JTAG.DPACC.WR on T0 (R152, R153): the value is the register's, read in two scans; a write is one
scan. T0 keeps all but the register written and its wire registers, its memory included. -/
def Obligations.JtagDpTransactions : Prop :=
  ∀ s t a, Loop s t → s.cfg.iface = .jtag →
    (scanOk .dpacc true a 0 = true →
      ∃ u t', exec (.jtagDpaccRd a) s = .next (u.pushResult (.ok (.word (t.dpRead a)))) ∧ FrameLink s u ∧ Loop u t' ∧
        t'.settled = t.settled ∧ drScans s u = 2) ∧
    (∀ v, scanOk .dpacc false a v = true →
      ∃ u t', exec (.jtagDpaccWr a v) s = .next (u.pushResult (.ok .unit)) ∧ FrameLink s u ∧ Loop u t' ∧
        t'.settled = (t.dpWrite a v).settled ∧ drScans s u = 1)

/-- JTAG.APACC.RD and JTAG.APACC.WR on T0 (R154, R155): with no sticky flag set they read and write the register that
SELECT names; with one set a read delivers zero and a write does nothing, both without an error (R408). -/
def Obligations.JtagApTransactions : Prop :=
  ∀ s t a, Loop s t → s.cfg.iface = .jtag →
    (scanOk .apacc true a 0 = true →
      ∃ u t', exec (.jtagApaccRd a) s =
          .next (u.pushResult (.ok (.word (if t.sticky = 0 then (t.apAccess true a 0).1 else 0)))) ∧
        FrameLink s u ∧ Loop u t' ∧
        t'.settled = (if t.sticky = 0 then (t.apAccess true a 0).2 else t).settled ∧ drScans s u = 2) ∧
    (∀ v, scanOk .apacc false a v = true →
      ∃ u t', exec (.jtagApaccWr a v) s = .next (u.pushResult (.ok .unit)) ∧ FrameLink s u ∧ Loop u t' ∧
        t'.settled = (if t.sticky = 0 then (t.apAccess false a v).2 else t).settled ∧ drScans s u = 1)

/-- JTAG.READN and JTAG.WRITEN on T0 (R156, R157): value `i` is what scan `i` left pending, which scan `i + 1`
captures; N reads are N + 1 scans and N writes are N scans. -/
def Obligations.JtagSequences : Prop :=
  ∀ s t, Loop s t → s.cfg.iface = .jtag →
    (∀ reads, reads ≠ [] → reads.all readScanOk = true →
      ∃ u, exec (.jtagReadn reads) s = .next (u.pushResult (.ok (.words (t.scanReads reads).1))) ∧ FrameLink s u ∧
        u.target = some ((t.scanReads reads).2.afterScan .dpacc true 0xC 0) ∧ drScans s u = reads.length + 1) ∧
    (∀ a values, a.aligned = true → values ≠ [] →
      ∃ u, exec (.jtagWriten a values) s = .next (u.pushResult (.ok .unit)) ∧ FrameLink s u ∧
        u.target = some (t.scanWrites a values) ∧ drScans s u = values.length)

/-- JTAG.ABORT.WR, SWD.ABORT and CLEAR_STICKY on T0 (R158, R177, R200, R404): the flags the value names are cleared,
also while flags are set; CLEAR_STICKY writes 0x0E, or 0x1E with overrun detection. SELECT, the freeze and the
connections stay. -/
def Obligations.AbortClearsFlags : Prop :=
  ∀ s t v, Loop s t →
    (s.cfg.iface = .jtag →
      ∃ u t', exec (.jtagAbortWr v) s = .next (u.pushResult (.ok .unit)) ∧ FrameLink s u ∧ Loop u t' ∧
        t'.settled = (t.dpWrite 0x0 v).settled) ∧
    (s.cfg.iface = .swd →
      ∃ u t', exec (.swdAbort v) s = .next (u.pushResult (.ok .unit)) ∧ FrameLink s u ∧ Loop u t' ∧
        t'.settled = (t.dpWrite 0x0 v).settled) ∧
    (∃ u t', exec .clearSticky s = .next (u.pushResult (.ok .unit)) ∧ FrameLink s u ∧ Loop u t' ∧
      t'.settled = (t.dpWrite 0x0 (if s.cfg.orunDetect then 0x1E else 0x0E)).settled)

/-! ## SWD (41_link_swd.md) -/

/-- R170 over every environment: a good acknowledgement delivers the word whose parity agrees, a bad parity and every
other acknowledgement, WAIT included, are errors at once; with overrun detection the data phase of a read that was
not acknowledged is still clocked. That answers come from a list is the model's choice (log 4). -/
def Obligations.XferAcknowledgements : Prop :=
  ∀ s apndp a w (x : BitVec 35) rest, s.cfg.iface = .swd → s.target = none → s.answers = x :: rest →
    (∀ y rest', rest = y :: rest' → packetOk apndp true a = true → x.extractLsb' 0 3 = 0b001#3 →
      ∃ u, exec (.swdXfer apndp true a w) s = .next (u.pushResult
          (if y.getLsbD 32 = par32 (y.extractLsb' 0 32) then .ok (.word (y.extractLsb' 0 32))
           else .error (.dpOrApAccessError ⟨.readParity, y.extractLsb' 0 32⟩))) ∧
        FrameLink s u ∧ u.answers = rest') ∧
    (packetOk apndp false a = true → x.extractLsb' 0 3 = 0b001#3 →
      ∃ u, exec (.swdXfer apndp false a w) s = .next (u.pushResult (.ok (.word 0))) ∧ FrameLink s u ∧
        u.answers = rest) ∧
    (∀ rnw, packetOk apndp rnw a = true → x.extractLsb' 0 3 ≠ 0b001#3 →
      ∃ u, exec (.swdXfer apndp rnw a w) s = .next (u.pushResult
          (.error (.dpOrApAccessError ⟨.swdAck, (x.extractLsb' 0 3).setWidth 32⟩))) ∧
        FrameLink s u ∧ u.answers = (if s.cfg.orunDetect && rnw then rest.drop 1 else rest))

/-- SWD.XFER on T0 (R170, R409): a transaction T0 acknowledges delivers its word and does what it asks; a WAIT, a
FAULT (a sticky flag bars the AP) and the missing acknowledgement of TARGETSEL are errors that leave T0's registers. -/
def Obligations.XferOnTarget : Prop :=
  ∀ s t apndp rnw a w, s.cfg.iface = .swd → s.target = some t → packetOk apndp rnw a = true →
    (t.wait = .count 0 → t.xferOk apndp rnw a = true →
      ∃ u, exec (.swdXfer apndp rnw a w) s = .next (u.pushResult (.ok (.word (t.xferValue apndp rnw a)))) ∧
        FrameLink s u ∧ u.target = some { t.xferEffect apndp rnw a w with phase := .idle }) ∧
    (t.waiting = true → (apndp = true ∨ rnw = true ∨ a ≠ 0xC) →
      ∃ u, exec (.swdXfer apndp rnw a w) s = .next (u.pushResult (.error (.dpOrApAccessError ⟨.swdAck, 2⟩))) ∧
        FrameLink s u ∧ u.target = some { t.waitOnce with phase := .idle }) ∧
    (t.wait = .count 0 → t.sticky ≠ 0 → apndp = true →
      ∃ u, exec (.swdXfer apndp rnw a w) s = .next (u.pushResult (.error (.dpOrApAccessError ⟨.swdAck, 4⟩))) ∧
        FrameLink s u ∧ u.target = some { t with phase := .idle }) ∧
    (apndp = false → rnw = false → a = 0xC →
      ∃ u, exec (.swdXfer apndp rnw a w) s = .next (u.pushResult (.error (.dpOrApAccessError ⟨.swdAck, 7⟩))) ∧
        FrameLink s u ∧ u.target = some { t with phase := .idle })

/-- SWD.DP.RD and SWD.DP.WR on T0 (R171, R172): one transaction, the value the register's; a write of 0xC, which is
TARGETSEL's packet, is not acknowledged (log 7). -/
def Obligations.SwdDpTransactions : Prop :=
  ∀ s t a, Loop s t → s.cfg.iface = .swd →
    (packetOk false true a = true →
      ∃ u t', exec (.swdDpRd a) s = .next (u.pushResult (.ok (.word (t.dpRead a)))) ∧ FrameLink s u ∧ Loop u t' ∧
        t'.settled = t.settled) ∧
    (∀ v, packetOk false false a = true → a ≠ 0xC →
      ∃ u t', exec (.swdDpWr a v) s = .next (u.pushResult (.ok .unit)) ∧ FrameLink s u ∧ Loop u t' ∧
        t'.settled = (t.dpWrite a v).settled) ∧
    (∀ v, a = 0xC →
      ∃ u t', exec (.swdDpWr a v) s = .next (u.pushResult (.error (.dpOrApAccessError ⟨.swdAck, 7⟩))) ∧ FrameLink s u ∧
        Loop u t' ∧ t'.settled = t.settled)

/-- SWD.AP.RD and SWD.AP.WR on T0 (R173, R174): a read delivers through RDBUFF; with a sticky flag set the packet is
answered FAULT and nothing is done. -/
def Obligations.SwdApTransactions : Prop :=
  ∀ s t a, Loop s t → s.cfg.iface = .swd → a.aligned = true →
    (t.sticky = 0 →
      ∃ u t', exec (.swdApRd a) s = .next (u.pushResult (.ok (.word (t.apAccess true a 0).1))) ∧ FrameLink s u ∧
        Loop u t' ∧ t'.settled = (t.apAccess true a 0).2.settled) ∧
    (∀ v, t.sticky = 0 →
      ∃ u t', exec (.swdApWr a v) s = .next (u.pushResult (.ok .unit)) ∧ FrameLink s u ∧ Loop u t' ∧
        t'.settled = (t.apAccess false a v).2.settled) ∧
    (∀ v, t.sticky ≠ 0 →
      (∃ u t', exec (.swdApRd a) s = .next (u.pushResult (.error (.dpOrApAccessError ⟨.swdAck, 4⟩))) ∧
        FrameLink s u ∧ Loop u t' ∧ t'.settled = t.settled) ∧
      ∃ u t', exec (.swdApWr a v) s = .next (u.pushResult (.error (.dpOrApAccessError ⟨.swdAck, 4⟩))) ∧
        FrameLink s u ∧ Loop u t' ∧ t'.settled = t.settled)

/-- SWD.READN and SWD.WRITEN on T0 (R175, R176), when no access of the sequence sets a sticky flag: the words are those
of as many single accesses, in order. -/
def Obligations.SwdSequences : Prop :=
  ∀ s t a, Loop s t → s.cfg.iface = .swd → a.aligned = true →
    (∀ n, 1 ≤ n → (t.apReads a n).2.sticky = 0 →
      ∃ u t', exec (.swdReadn a n) s = .next (u.pushResult (.ok (.words (t.apReads a n).1))) ∧ FrameLink s u ∧
        Loop u t' ∧ t'.settled = (t.apReads a n).2.settled) ∧
    (∀ values, values ≠ [] → (t.apWrites a values).sticky = 0 →
      ∃ u t', exec (.swdWriten a values) s = .next (u.pushResult (.ok .unit)) ∧ FrameLink s u ∧
        Loop u t' ∧ t'.settled = (t.apWrites a values).settled)

/-- SWD.LINERESET (R178): three calls that drive the line reset and sample nothing, whatever the environment. -/
def Obligations.LineresetDrivesTheLine : Prop :=
  ∀ s, s.cfg.iface = .swd →
    ∃ u, exec .swdLinereset s = .next (u.pushResult (.ok .unit)) ∧ FrameQuiet s u ∧
      newCalls s u =
        [.driveLine [.out (List.replicate 56 true)] [], .driveLine [.out (bitsOf 0xE79E#16 16)] [],
         .driveLine [.out (List.replicate 56 true), .out (List.replicate 8 false)] []] ∧
      u.target = s.target ∧ u.answers = s.answers

/-- SWD.TARGETSEL (R179): the request 0x99 and the data phase, whatever is sampled for the acknowledgement; T0 keeps
everything but its wire registers. That the host may issue it alone, in every state, before a version is detected and
on version 1 too, is the model's choice (log 6). -/
def Obligations.TargetselIgnoresAck : Prop :=
  ∀ s v, s.cfg.iface = .swd →
    ∃ u bits, exec (.swdTargetsel v) s = .next (u.pushResult (.ok .unit)) ∧ FrameQuiet s u ∧
      newCalls s u =
        [.driveLine [.out (bitsOf (0x99#8) 8), .trn 1, .inp 3] bits, .driveLine [.trn 1, .out (dataBits v)] []] ∧
      u.target.map T0.settled = s.target.map T0.settled

/-- SWD_CONNECT on T0 (R178) succeeds with the word T0 gives at DP address 0x0: DPIDR, or DPIDR1 on a version 3 T0 whose
SELECT holds DP bank 1 (R403). SELECT is unknown afterwards, and neither the version nor the freeze is touched. -/
def Obligations.SwdConnectReadsDpidr : Prop :=
  ∀ s t targetsel, Loop s t → s.cfg.iface = .swd →
    ∃ u t', exec (.swdConnect targetsel) s = .next (u.pushResult (.ok (.word (t.dpRead 0x0)))) ∧ FrameSelect s u ∧
      u.selectLast = none ∧ u.frozenValid = s.frozenValid ∧ Loop u t' ∧ t'.settled = t.settled

/-- SWD_CONNECT against a target that answers WAIT for ever (R178, R310): so many attempts as are allowed, then
TargetSelectionFailed. A cap of zero acts as one (log 13). -/
def Obligations.SwdConnectGivesUp : Prop :=
  ∀ s t targetsel, s.cfg.iface = .swd → s.target = some t → t.wait = .forever →
    ∃ u t', exec (.swdConnect targetsel) s =
        .next (u.pushResult (.error (.targetSelectionFailed targetsel (max 1 s.cfg.targetselAttempts)))) ∧
      FrameSelect s u ∧ u.selectLast = none ∧ u.frozenValid = s.frozenValid ∧ u.target = some t' ∧
      t'.settled = t.settled

/-! ## The Debug Port model (42_dp_model.md) -/

/-- DETECT_VERSION (R191, R192) on T0: the version field of DPIDR, 0 read as 1; all-ones is an absent DP; a version
above 3 is an error and detects nothing. Nothing else changes, and no SELECT is written. -/
def Obligations.DetectVersionOnTarget : Prop :=
  ∀ s t, Closed s t → detected s.dpVersion = false → t.dpRead 0x0 = t.dpidr →
    (t.dpidr = 0xFFFFFFFF →
      ∃ u t', exec .detectVersion s = .next (u.pushResult (.ok (.word 0))) ∧
        FrameLink (s.setDpVersion .absent) u ∧ Closed u t' ∧ t'.settled = t.settled) ∧
    (t.dpidr ≠ 0xFFFFFFFF → t.ver ≤ 3 →
      ∃ u t', exec .detectVersion s = .next (u.pushResult (.ok (.word (if t.ver = 0 then 1 else w32 t.ver)))) ∧
        FrameLink (s.setDpVersion (if t.ver = 2 then .v2 else if t.ver = 3 then .v3 else .v1)) u ∧ Closed u t' ∧
        t'.settled = t.settled) ∧
    (t.dpidr ≠ 0xFFFFFFFF → 3 < t.ver →
      ∃ u t', exec .detectVersion s = .next (u.pushResult (.error (.versionUnsupported t.dpidr (w32 t.ver)))) ∧
        FrameLink s u ∧ Closed u t' ∧ t'.settled = t.settled)

/-- A detected version is returned again with no traffic: it is immutable (R191). -/
def Obligations.DetectedVersionIsImmutable : Prop :=
  ∀ s, (s.dpVersion = .v1 → exec .detectVersion s = .next (s.pushResult (.ok (.word 1)))) ∧
    (s.dpVersion = .v2 → exec .detectVersion s = .next (s.pushResult (.ok (.word 2)))) ∧
    (s.dpVersion = .v3 → exec .detectVersion s = .next (s.pushResult (.ok (.word 3))))

/-- SELECT_AP on T0 (R190, R194): SELECT holds the AP and bank afterwards, written or already there; a write of a
different value ends the validity of a freeze, and the write is skipped, with nothing changed, exactly when the
selection is frozen at that value. An `addr` above 0xFFF is refused.
That an unaligned `addr` is accepted is the model's reading (log 9). -/
def Obligations.SelectApSelects : Prop :=
  ∀ s ap addr, detected s.dpVersion = true →
    (∀ t, Closed s t → addr.toNat ≤ 0xFFF →
      ∃ u t', exec (.selectAp ap addr) s = .next (u.pushResult (.ok .unit)) ∧ FrameSelect s u ∧ Closed u t' ∧
        u.selectLast = some (selVal ap (apOffset addr)) ∧
        u.frozenValid = freezeAfter s.frozenValid s.selectLast (selVal ap (apOffset addr)) ∧
        t'.settled = (t.withSelect (selVal ap (apOffset addr))).settled ∧
        selectWrites s u = (if s.selectHeld (selVal ap (apOffset addr)) then 0 else 1)) ∧
    (addr.toNat ≤ 0xFFF → s.selectHeld (selVal ap (apOffset addr)) = true →
      exec (.selectAp ap addr) s = .next (s.pushResult (.ok .unit))) ∧
    (0xFFF < addr.toNat → exec (.selectAp ap addr) s = .next (s.pushResult (.error .badArgument)))

/-- The SELECT count law (R206) for `n` SELECT_AP of one bank: `n` writes outside a freeze, none under a freeze of that
selection, one under a freeze of an unknown selection, `n` under a freeze of another.
That an unaligned `addr` is accepted is the model's reading (log 9). -/
def Obligations.SelectCountLaw : Prop :=
  ∀ s t ap addr n, Closed s t → detected s.dpVersion = true → addr.toNat ≤ 0xFFF → 1 ≤ n →
    ∃ u, runAll s (List.replicate n (.selectAp ap addr)) = some u ∧
      u.results = s.results ++ List.replicate n (.ok .unit) ∧
      selectWrites s u =
        (if s.frozenValid = false then n
         else match s.selectLast with
           | none => 1
           | some w => if w = selVal ap (apOffset addr) then 0 else n)

/-- FREEZE_SELECT (R195): the depth rises, the first freeze makes the selection valid and a nested one does not; there
is no link traffic. -/
def Obligations.FreezeSelectNests : Prop :=
  ∀ s : State, ∃ u : State, exec .freezeSelect s = .next (u.pushResult (.ok .unit)) ∧ u.freezeDepth = s.freezeDepth + 1 ∧
    u.frozenValid = (if s.freezeDepth = 0 then true else s.frozenValid) ∧
    u = { s with freezeDepth := u.freezeDepth, frozenValid := u.frozenValid }

/-- UNFREEZE_SELECT (R196): the depth falls, the last one ends the freeze, at depth 0 it changes nothing; there is no
link traffic. Every command that freezes also unfreezes, however it ends: only FREEZE_SELECT, UNFREEZE_SELECT and
TEARDOWN leave another depth. -/
def Obligations.UnfreezeSelectUnwinds : Prop :=
  (∀ s : State, ∃ u : State, exec .unfreezeSelect s = .next (u.pushResult (.ok .unit)) ∧
    u.freezeDepth = s.freezeDepth - 1 ∧ u.frozenValid = (if s.freezeDepth = 1 then false else s.frozenValid) ∧
    u = { s with freezeDepth := u.freezeDepth, frozenValid := u.frozenValid }) ∧
  ∀ i s t, Machine.Inv s → i ≠ .freezeSelect → i ≠ .unfreezeSelect → i ≠ .teardown → exec i s = .next t →
    t.freezeDepth = s.freezeDepth

/-- DP_READ on T0 (R193, R197): the register's value, through the bank its row of R33 names; RDBUFF without a bank. -/
def Obligations.DpReadOnTarget : Prop :=
  ∀ s t r, Closed s t → s.accepts r = true → dpReadable r = true →
    ∃ u t', exec (.dpRead r) s = .next (u.pushResult (.ok (.word (t.register r)))) ∧ FrameSelect s u ∧ Closed u t' ∧
      u.selectLast = (if r = .rdbuff then s.selectLast else some (selDp s.selectLast ((dpBank r).getD 0))) ∧
      t'.settled = (if r = .rdbuff then t else t.withSelect (selDp s.selectLast ((dpBank r).getD 0))).settled

/-- DP_WRITE on T0 (R198), register by register: ABORT clears flags; SELECT selects; CTRL_STAT writes the control bits;
SELECT1 is written to DP address 0x4 under bank 5, a register T0 does not have; TARGETSEL (SWD only) is the packet 0x99
with the value and leaves T0. -/
def Obligations.DpWriteOnTarget : Prop :=
  ∀ s t v, Closed s t →
    (∃ u t', exec (.dpWrite .abort v) s = .next (u.pushResult (.ok .unit)) ∧ FrameLink s u ∧ Closed u t' ∧
      t'.settled = (t.dpWrite 0x0 v).settled) ∧
    (∃ u t', exec (.dpWrite .select v) s = .next (u.pushResult (.ok .unit)) ∧ FrameSelect s u ∧ Closed u t' ∧
      u.selectLast = some v ∧ u.frozenValid = freezeAfter s.frozenValid s.selectLast v ∧
      t'.settled = (t.withSelect v).settled) ∧
    (∃ u t', exec (.dpWrite .ctrlStat v) s = .next (u.pushResult (.ok .unit)) ∧ FrameSelect s u ∧ Closed u t' ∧
      u.selectLast = some (selDp s.selectLast 0) ∧ EndsInDpWrite s u 0x4 v ∧
      t'.settled = ({ t.withSelect (selDp s.selectLast 0) with ctrl := v &&& 0x54FFFF0D } : T0).settled) ∧
    (s.dpVersion = .v3 →
      ∃ u t', exec (.dpWrite .select1 v) s = .next (u.pushResult (.ok .unit)) ∧ FrameSelect s u ∧ Closed u t' ∧
        u.selectLast = some (selDp s.selectLast 5) ∧ EndsInDpWrite s u 0x4 v ∧
        t'.settled = (t.withSelect (selDp s.selectLast 5)).settled) ∧
    (s.accepts .targetsel = true → s.cfg.iface = .swd →
      ∃ u t' bits, exec (.dpWrite .targetsel v) s = .next (u.pushResult (.ok .unit)) ∧ FrameLink s u ∧ Closed u t' ∧
        newCalls s u = swdDpWriteCalls 0xC v bits ∧
        t'.settled = t.settled) ∧
    (s.accepts .targetsel = true → s.cfg.iface = .jtag →
      exec (.dpWrite .targetsel v) s = .next (s.pushResult (.error .badArgument)))

/-- CHECK_STICKY on T0 (R199): it succeeds when no sticky flag is set, and otherwise raises StickyProtocolError with
CTRL_STAT as read; it clears nothing. -/
def Obligations.CheckStickyOnTarget : Prop :=
  ∀ s t, Closed s t → T0Inv t →
    ∃ u t', exec .checkSticky s =
        .next (u.pushResult (if t.sticky = 0 then .ok .unit else .error (.stickyProtocolError t.ctrlStat))) ∧
      FrameSelect s u ∧ Closed u t' ∧ u.selectLast = some (selDp s.selectLast 0) ∧
      t'.settled = (t.withSelect (selDp s.selectLast 0)).settled

/-- CHECK_STICKY over a backend that answers what it likes (R199): it leaves at the first clean read, and raises
StickyProtocolError with the last word after eleven reads that each show a flag.
The backend's answers are the model's choice (log 10). -/
def Obligations.CheckStickyRereads : Prop :=
  ∀ s x (ws : List (BitVec 35)) rest, s.cfg.iface = .vendor → s.frozenValid = false → x.getLsbD 32 = false →
    (∀ w ∈ ws, w.getLsbD 32 = false ∧ noSticky (w.extractLsb' 0 32) = false) →
    (∀ y rest', ws.length ≤ 10 → rest = y :: rest' → y.getLsbD 32 = false → noSticky (y.extractLsb' 0 32) = true →
      s.answers = x :: ws ++ rest →
      ∃ u, exec .checkSticky s = .next (u.pushResult (.ok .unit)) ∧ FrameSelect s u ∧ u.answers = rest') ∧
    (∀ vs y, ws = vs ++ [y] → vs.length = 10 → s.answers = x :: ws ++ rest →
      ∃ u, exec .checkSticky s = .next (u.pushResult (.error (.stickyProtocolError (y.extractLsb' 0 32)))) ∧
        FrameSelect s u ∧ u.answers = rest)

/-- REASSERT_POWER on T0 (R201): already powered, powered now by the two request bits, or PowerUpFailed where the
acknowledgements never come. -/
def Obligations.ReassertPowerOnTarget : Prop :=
  ∀ s t, Closed s t → T0Inv t →
    (powered t.ctrlStat = true →
      ∃ u t', exec .reassertPower s = .next (u.pushResult (.ok (.power true))) ∧ FrameSelect s u ∧ Closed u t' ∧
        t'.settled = (t.withSelect (selDp s.selectLast 0)).settled) ∧
    (powered t.ctrlStat = false → t.powerDead = false →
      ∃ u t', exec .reassertPower s = .next (u.pushResult (.ok (.power false))) ∧ FrameSelect s u ∧ Closed u t' ∧
        t'.settled = ({ t.withSelect (selDp s.selectLast 0) with
          ctrl := (t.ctrlStat ||| 0x50000000) &&& 0x54FFFF0D } : T0).settled ∧ powered t'.ctrlStat = true) ∧
    (t.powerDead = true →
      ∃ u t', exec .reassertPower s = .next (u.pushResult (.error (.powerUpFailed t'.ctrlStat))) ∧ FrameSelect s u ∧
        Closed u t' ∧ t'.settled = ({ t.withSelect (selDp s.selectLast 0) with
          ctrl := (t.ctrlStat ||| 0x50000000) &&& 0x54FFFF0D } : T0).settled)

/-- AP_READ and AP_WRITE on T0 with no sticky flag set (R202, R203, R405): the bank is selected, then the register is
read or written; every AP register but the one written stays, and all of memory unless the register is DRW. At the CSW
of the detected layout the word read or written is the AP's shadow afterwards (R86 b), and no other address touches it.
An address that is no multiple of 4 up to 0xFFC is refused. -/
def Obligations.ApAccessOnTarget : Prop :=
  ∀ s ap addr v, detected s.dpVersion = true →
    (∀ t, Closed s t → t.sticky = 0 → addr.toNat ≤ 0xFFF → addr.toNat % 4 = 0 →
      (∃ u t', exec (.apRead ap addr) s = .next (u.pushResult (.ok (.word
            ((t.withSelect (selVal ap (apOffset addr))).apAccess true (apLinkAddr (apOffset addr)) 0).1))) ∧
        FrameSelect (s.noteCsw ap (apOffset addr)
          ((t.withSelect (selVal ap (apOffset addr))).apAccess true (apLinkAddr (apOffset addr)) 0).1) u ∧
        (apOffset addr = s.apReg cswOffset → u.connOf ap = (s.connOf ap).map fun c => { c with cswShadow :=
          ((t.withSelect (selVal ap (apOffset addr))).apAccess true (apLinkAddr (apOffset addr)) 0).1 }) ∧
        (apOffset addr ≠ s.apReg cswOffset → u.conn = s.conn) ∧ Closed u t' ∧
        u.selectLast = some (selVal ap (apOffset addr)) ∧
        t'.settled =
          ((t.withSelect (selVal ap (apOffset addr))).apAccess true (apLinkAddr (apOffset addr)) 0).2.settled) ∧
      ∃ u t', exec (.apWrite ap addr v) s = .next (u.pushResult (.ok .unit)) ∧
        FrameSelect (s.noteCsw ap (apOffset addr) v) u ∧
        (apOffset addr = s.apReg cswOffset → u.connOf ap = (s.connOf ap).map fun c => { c with cswShadow := v }) ∧
        (apOffset addr ≠ s.apReg cswOffset → u.conn = s.conn) ∧ Closed u t' ∧
        u.selectLast = some (selVal ap (apOffset addr)) ∧
        t'.settled =
          ((t.withSelect (selVal ap (apOffset addr))).apAccess false (apLinkAddr (apOffset addr)) v).2.settled ∧
        (apOffset addr ≠ t.layout + drwOffset → ∀ x, Memory.read t'.mem x = Memory.read t.mem x)) ∧
    ((0xFFF < addr.toNat ∨ addr.toNat % 4 ≠ 0) →
      exec (.apRead ap addr) s = .next (s.pushResult (.error .badArgument)) ∧
        exec (.apWrite ap addr v) s = .next (s.pushResult (.error .badArgument)))

/-- AP_READ and AP_WRITE through a vendor's backend (R115, R202, R203, R307): the SELECT write and the access are one
call each; the word it delivers is the result, its error code is an error at once, and SELECT is unknown when the
write of SELECT failed. An access of CSW leaves the shadow at the word read or written (R86 b).
The calls and their answers are the model's choice (log 10). -/
def Obligations.VendorApAccess : Prop :=
  ∀ s ap addr v (x : BitVec 35) rest, s.cfg.iface = .vendor → detected s.dpVersion = true → addr.toNat ≤ 0xFFF →
    addr.toNat % 4 = 0 → s.frozenValid = false → s.answers = x :: rest →
    (∀ y rest', x.getLsbD 32 = false → rest = y :: rest' → y.getLsbD 32 = false →
      (∃ u, exec (.apRead ap addr) s = .next (u.pushResult (.ok (.word (y.extractLsb' 0 32)))) ∧
        FrameSelect (s.noteCsw ap (apOffset addr) (y.extractLsb' 0 32)) u ∧
        u.selectLast = some (selVal ap (apOffset addr)) ∧ u.answers = rest' ∧
        newCalls s u = [.backend (.dpWrite 0x8 (selVal ap (apOffset addr))) (.ok []),
          .backend (.apRead (apLinkAddr (apOffset addr))) (.ok [y.extractLsb' 0 32])]) ∧
      ∃ u, exec (.apWrite ap addr v) s = .next (u.pushResult (.ok .unit)) ∧
        FrameSelect (s.noteCsw ap (apOffset addr) v) u ∧ u.selectLast = some (selVal ap (apOffset addr)) ∧ u.answers = rest' ∧
        newCalls s u = [.backend (.dpWrite 0x8 (selVal ap (apOffset addr))) (.ok []),
          .backend (.apWrite (apLinkAddr (apOffset addr)) v) (.ok [])]) ∧
    (x.getLsbD 32 = true →
      ∃ u, exec (.apRead ap addr) s =
          .next (u.pushResult (.error (.dpOrApAccessError ⟨.backend, x.extractLsb' 0 32⟩))) ∧
        FrameSelect s u ∧ u.selectLast = none ∧ u.answers = rest ∧
        newCalls s u = [.backend (.dpWrite 0x8 (selVal ap (apOffset addr))) (.failed (x.extractLsb' 0 32))])

/-! ## The MEM-AP engine (43_memap_engine.md) -/

/-- READ_MEMORY and MEMORY_READ on a T0 that serves the connection (R234, R237, R273): the bytes of the range, any
alignment, word or sub-word path. Memory and the shadow are as before, CSW of the AP as before or the shadow written
back, so the same where they agree (R42, R232). -/
def Obligations.ReadMemoryDeliversBytes : Prop :=
  ∀ s t c a b, Served s t c → a ≤ b → b ≤ 2 ^ 32 → t.goodRange (wordFloor a) (wordCeil b) →
    (∃ u, exec (.readMemory c.ap a b) s = .next (u.pushResult (.ok (.bytes (Memory.bytes t.mem a (b - a))))) ∧
      FrameEngine c.ap s u ∧ ServedAfter u t c t.mem) ∧
    (s.apStateOf c.ap = .presentEnabled →
      ∃ u, exec (.memoryRead c.ap a b) s = .next (u.pushResult (.ok (.bytes (Memory.bytes t.mem a (b - a))))) ∧
        FrameResolve c.ap s u ∧ ServedAfter u t c t.mem)

/-- WRITE_MEMORY (R235): the bytes are stored, on the word path with zeros up to the word boundaries; no byte outside
the words of the range changes. That padding bits of the data words are ignored is the model's reading (log 14). -/
def Obligations.WriteMemoryStoresBytes : Prop :=
  ∀ s t c a len data, Served s t c → data.length = (len + 3) / 4 → a + len ≤ 2 ^ 32 →
    t.goodRange (wordFloor a) (wordCeil (a + len)) →
    ∃ u m, exec (.writeMemory c.ap a len data) s = .next (u.pushResult (.ok .unit)) ∧ FrameEngine c.ap s u ∧
      ServedAfter u t c m ∧ m = Memory.padFill (subwordOf s c) t.mem a (dataBytes len data) ∧
      Memory.bytes m a len = dataBytes len data ∧
      ∀ x, x < wordFloor a ∨ wordCeil (a + len) ≤ x → Memory.read m x = Memory.read t.mem x

/-- WRITE_MEMORY_RMW and MEMORY_WRITE (R236, R274): exactly the bytes of the range change, also when its edges are not
aligned and there is no sub-word access.
That padding bits of the data words are ignored is the model's reading (log 14). -/
def Obligations.RmwWriteStoresExactly : Prop :=
  ∀ s t c a len data, Served s t c → data.length = (len + 3) / 4 → a + len ≤ 2 ^ 32 →
    t.goodRange (wordFloor a) (wordCeil (a + len)) →
    (∃ u m, exec (.writeMemoryRmw c.ap a len data) s = .next (u.pushResult (.ok .unit)) ∧ FrameEngine c.ap s u ∧
      ServedAfter u t c m ∧ Memory.bytes m a len = dataBytes len data ∧
      ∀ x, x < a ∨ a + len ≤ x → Memory.read m x = Memory.read t.mem x) ∧
    (s.apStateOf c.ap = .presentEnabled →
      ∃ u m, exec (.memoryWrite c.ap a len data) s = .next (u.pushResult (.ok .unit)) ∧ FrameResolve c.ap s u ∧
        ServedAfter u t c m ∧ Memory.bytes m a len = dataBytes len data ∧
        ∀ x, x < a ∨ a + len ≤ x → Memory.read m x = Memory.read t.mem x)

/-- The round trip of R274: what MEMORY_WRITE stores, MEMORY_READ of the same range returns, at any alignment.
That padding bits of the data words are ignored is the model's reading (log 14). -/
def Obligations.MemoryRoundTrip : Prop :=
  ∀ s t c a len data, Served s t c → s.apStateOf c.ap = .presentEnabled → data.length = (len + 3) / 4 →
    a + len ≤ 2 ^ 32 → t.goodRange (wordFloor a) (wordCeil (a + len)) →
    ∃ u v : State, exec (.memoryWrite c.ap a len data) s = .next (u.pushResult (.ok .unit)) ∧
      exec (.memoryRead c.ap a (a + len)) (u.pushResult (.ok .unit)) =
        .next (v.pushResult (.ok (.bytes (dataBytes len data)))) ∧
      v.results = s.results ++ [.ok .unit] ∧ ∃ m, ServedAfter v t c m

/-- The retry-once policy on T0 (R270, R407), for MEMORY_READ of one aligned word whose CSW needs no write: a fault
injected into its one access is cleared by exactly one ABORT write, and the second attempt returns the bytes. -/
def Obligations.RetryOnceRecovers : Prop :=
  ∀ s t c a m, Served s t c → s.apStateOf c.ap = .presentEnabled → a % 4 = 0 → a + 4 ≤ 2 ^ 32 →
    t.goodRange a (a + 4) → cswVal c.cswShadow c.autoinc sizeWord = c.cswShadow → m ≠ 0 →
    m &&& ~~~(if s.cfg.orunDetect then 0xB2#32 else 0xB0#32) = 0 →
    ∃ u, exec (.memoryRead c.ap a (a + 4)) (s.setTarget (some { t with inject := some (1, m) })) =
        .next (u.pushResult (.ok (.bytes (Memory.bytes t.mem a 4)))) ∧
      FrameResolve c.ap s u ∧ ServedAfter u t c t.mem ∧ abortCalls s u = 1 ∧ abortWrites s u = 1

/-- POLL_READ on T0 (R239): the word at the keyhole, `count` times, without auto-increment; with a busy check, when it
is satisfied. Memory and the shadow are as before, CSW of the AP as before or the shadow written back (R42, R232). -/
def Obligations.PollReadDeliversWords : Prop :=
  ∀ s t c a n busy, Served s t c → GoodWord t a → 1 ≤ n →
    (∀ b, busy = some b → GoodWord t b.addr ∧ BusyIdle t.mem b) →
    ∃ u, exec (.pollRead c.ap a n busy) s =
        .next (u.pushResult (.ok (.words (List.replicate n (Memory.read32 t.mem a.toNat))))) ∧
      FrameEngine c.ap s u ∧ ServedAfter u t c t.mem

/-- POLL_WRITE on T0 (R240): every value goes to the keyhole, so the last one stands there; with a busy check, when it
is satisfied before each value. No other byte changes; CSW of the AP is as before or the shadow written back (R42,
R232). -/
def Obligations.PollWriteStoresWords : Prop :=
  ∀ s t c a values busy, Served s t c → GoodWord t a → 1 ≤ values.length →
    (∀ b, busy = some b →
      GoodWord t b.addr ∧ ∀ k, k < values.length → BusyIdle (Memory.keyhole t.mem a.toNat (values.take k)) b) →
    ∃ u m, exec (.pollWrite c.ap a values.length values busy) s = .next (u.pushResult (.ok .unit)) ∧
      FrameEngine c.ap s u ∧ ServedAfter u t c m ∧ m = Memory.keyhole t.mem a.toNat values ∧
      (∀ w, values.getLast? = some w → Memory.read32 m a.toNat = w) ∧
      ∀ x, x < a.toNat ∨ a.toNat + 4 ≤ x → Memory.read m x = Memory.read t.mem x

/-- A busy check that is not satisfied (R239, R240): POLL_READ and POLL_WRITE end in BusyPollTimeout with the address and
the last value, nothing is stored, CSW of the AP is as before or the shadow written back (R42, R232), and the freeze
depth is as before. That a freeze may have lost its validity is the model's reading (log 15), that a cap of zero polls
once its choice (log 13). -/
def Obligations.BusyPollTimesOut : Prop :=
  ∀ s t c a b, Served s t c → GoodWord t a → GoodWord t b.addr → ¬ BusyIdle t.mem b →
    (∀ n, 1 ≤ n →
      ∃ u, exec (.pollRead c.ap a n (some b)) s =
          .next (u.pushResult (.error (.busyPollTimeout b.addr (Memory.read32 t.mem b.addr.toNat)))) ∧
        FrameEngine c.ap s u ∧ ServedAfter u t c t.mem) ∧
    ∀ values, 1 ≤ values.length →
      ∃ u, exec (.pollWrite c.ap a values.length values (some b)) s =
          .next (u.pushResult (.error (.busyPollTimeout b.addr (Memory.read32 t.mem b.addr.toNat)))) ∧
        FrameEngine c.ap s u ∧ ServedAfter u t c t.mem

/-- The operand checks of the engine commands come before any transaction (R234, R235, R239, R314), the alignment of a
busy check among them, and a command on an AP without a connection is NoConnection. -/
def Obligations.EngineOperandChecks : Prop :=
  ∀ s ap, detected s.dpVersion = true →
    (∀ a b, (b < a ∨ 2 ^ 32 < b) →
      exec (.readMemory ap a b) s = .next (s.pushResult (.error .badArgument)) ∧
        exec (.memoryRead ap a b) s = .next (s.pushResult (.error .badArgument))) ∧
    (∀ a len data, (data.length ≠ (len + 3) / 4 ∨ 2 ^ 32 < a + len) →
      exec (.writeMemory ap a len data) s = .next (s.pushResult (.error .badArgument)) ∧
        exec (.writeMemoryRmw ap a len data) s = .next (s.pushResult (.error .badArgument)) ∧
        exec (.memoryWrite ap a len data) s = .next (s.pushResult (.error .badArgument))) ∧
    (∀ a n busy, (a.toNat % 4 ≠ 0 ∨ n = 0) →
      exec (.pollRead ap a n busy) s = .next (s.pushResult (.error .badArgument)) ∧
        ∀ values, exec (.pollWrite ap a n values busy) s = .next (s.pushResult (.error .badArgument))) ∧
    (∀ a n (b : BusyCheck), b.addr.toNat % 4 ≠ 0 →
      exec (.pollRead ap a n (some b)) s = .next (s.pushResult (.error .badArgument)) ∧
        ∀ values, exec (.pollWrite ap a n values (some b)) s = .next (s.pushResult (.error .badArgument))) ∧
    (s.connOf ap = none →
      (∀ a b, a ≤ b → b ≤ 2 ^ 32 → exec (.readMemory ap a b) s = .next (s.pushResult (.error (.noConnection ap)))) ∧
      (∀ a len data, data.length = (len + 3) / 4 → a + len ≤ 2 ^ 32 →
        exec (.writeMemory ap a len data) s = .next (s.pushResult (.error (.noConnection ap))) ∧
          exec (.writeMemoryRmw ap a len data) s = .next (s.pushResult (.error (.noConnection ap)))) ∧
      ∀ a n busy, a.toNat % 4 = 0 → 1 ≤ n → (∀ b : BusyCheck, busy = some b → b.addr.toNat % 4 = 0) →
        exec (.pollRead ap a n busy) s = .next (s.pushResult (.error (.noConnection ap))) ∧
          ∀ values, values.length = n →
            exec (.pollWrite ap a n values busy) s = .next (s.pushResult (.error (.noConnection ap))))

/-- The failure classification (R242, R308, R309), seen through a backend: a failed block read is followed by one
CHECK_STICKY; a lasting sticky flag is the result, else CSW is read and its DeviceEn bit chooses between
ApBusAccessError and ApAccessDisabledError. The shadow is the CSW as read. (The bank of CSW is selected unless it is the
one the sticky check left selected, under the freeze of the batch.)
The backend is the model's choice (log 10, log 11). -/
def Obligations.AccessErrorClassified : Prop :=
  ∀ s c a b (x0 x1 x2 : BitVec 35) rest, s.cfg.iface = .vendor → s.cfg.blockSupport = true →
    detected s.dpVersion = true → s.connOf c.ap = some c → s.frozenValid = false → s.freezeDepth = 0 →
    cswVal c.cswShadow c.autoinc sizeWord = c.cswShadow → a % 4 = 0 → b % 4 = 0 → a < b → b ≤ 2 ^ 32 →
    x0.getLsbD 32 = false → x1.getLsbD 32 = true → x2.getLsbD 32 = false →
    (∀ x3 sel x5 rest', rest = x3 :: sel ++ x5 :: rest' → x3.getLsbD 32 = false → x5.getLsbD 32 = false →
      (∀ w ∈ sel, w.getLsbD 32 = false) →
      sel.length = (if selVal c.ap (s.apReg cswOffset) = 0 then 0 else 1) →
      noSticky (x3.extractLsb' 0 32) = true → s.answers = x0 :: x1 :: x2 :: rest →
      ∃ u, exec (.readMemory c.ap a b) s = .next (u.pushResult (.error
          (if (x5.extractLsb' 0 32).getLsbD 6 then .apBusAccessError c.ap ⟨.backend, x1.extractLsb' 0 32⟩
           else .apAccessDisabledError c.ap ⟨.backend, x1.extractLsb' 0 32⟩))) ∧
        FrameEngine c.ap s u ∧ u.answers = rest' ∧
        u.connOf c.ap = some { c with cswShadow := x5.extractLsb' 0 32 }) ∧
    (∀ vs y rest', rest = vs ++ y :: rest' → vs.length = 10 →
      (∀ w ∈ vs ++ [y], w.getLsbD 32 = false ∧ noSticky (w.extractLsb' 0 32) = false) →
      s.answers = x0 :: x1 :: x2 :: rest →
      ∃ u, exec (.readMemory c.ap a b) s =
          .next (u.pushResult (.error (.stickyProtocolError (y.extractLsb' 0 32)))) ∧
        FrameEngine c.ap s u ∧ u.answers = rest')

/-! ## The transport (44_transport.md) -/

/-- GET_CONNECTION of a probed AP (R271, R272): the cached answer, with no link traffic; a disabled AP is an error
unless it is allowed. -/
def Obligations.GetConnectionCached : Prop :=
  ∀ s ap autoinc peripheral allowed, Machine.Inv s → detected s.dpVersion = true →
    (s.apStateOf ap = .absent →
      exec (.getConnection ap autoinc peripheral allowed) s = .next (s.pushResult (.ok .absent))) ∧
    (s.apStateOf ap = .presentEnabled →
      ∃ c, s.connOf ap = some c ∧
        exec (.getConnection ap autoinc peripheral allowed) s = .next (s.pushResult (.ok (.connection c)))) ∧
    (s.apStateOf ap = .presentDisabled →
      ∃ c, s.connOf ap = some c ∧ exec (.getConnection ap autoinc peripheral allowed) s =
        .next (s.pushResult (if allowed then .ok (.connection c) else .error (.apDisabled ap))))

/-- GET_CONNECTION of an AP that is not yet resolved, on T0 (R230, R231, R271): an IDR of zero is cached as Absent; an
enabled AP is connected with its default CSW written; a disabled AP is cached as such, its CSW not written. -/
def Obligations.GetConnectionCreates : Prop :=
  ∀ s t ap autoinc peripheral allowed, Closed s t → detected s.dpVersion = true →
    layoutBase s.dpVersion = t.layout → t.sticky = 0 → s.apStateOf ap = .unresolved →
    (t.idrOf ap = 0 →
      ∃ u t', exec (.getConnection ap autoinc peripheral allowed) s = .next (u.pushResult (.ok .absent)) ∧
        FrameResolve ap s u ∧ u.apStateOf ap = .absent ∧ u.connOf ap = s.connOf ap ∧ Closed u t' ∧
        T0Frame ap t t' ∧ t'.mem = t.mem ∧ t'.aps = t.aps) ∧
    (∀ p, t.apOf ap = some p → p.idr ≠ 0 → cswDeviceEn p.csw = true →
      ∃ u t', exec (.getConnection ap autoinc peripheral allowed) s =
          .next (u.pushResult (.ok (.connection (p.connection ap autoinc peripheral t.layout)))) ∧
        FrameResolve ap s u ∧ u.apStateOf ap = .presentEnabled ∧
        u.connOf ap = some (p.connection ap autoinc peripheral t.layout) ∧ Closed u t' ∧ T0Frame ap t t' ∧
        t'.mem = t.mem ∧
        t'.apOf ap = some { p with csw := p.writtenCsw (p.connection ap autoinc peripheral t.layout).cswShadow }) ∧
    (∀ p, t.apOf ap = some p → p.idr ≠ 0 → cswDeviceEn p.csw = false →
      ∃ u t', exec (.getConnection ap autoinc peripheral allowed) s = .next (u.pushResult
          (if allowed then .ok (.connection (p.connection ap autoinc peripheral t.layout))
           else .error (.apDisabled ap))) ∧
        FrameResolve ap s u ∧ u.apStateOf ap = .presentDisabled ∧
        u.connOf ap = some (p.connection ap autoinc peripheral t.layout) ∧ Closed u t' ∧ T0Frame ap t t' ∧
        t'.mem = t.mem ∧ t'.aps = t.aps)

/-- The six wrapped commands on a probed AP that is absent or disabled (R273, R302, R303): ApNotPresent or ApDisabled,
with no link traffic and no retry. -/
def Obligations.WrappedCommandsNeedEnabledAp : Prop :=
  ∀ s ap e, Machine.Inv s → detected s.dpVersion = true → s.cfg.codecPresent = true →
    (s.apStateOf ap = .absent ∧ e = .apNotPresent ap ∨ s.apStateOf ap = .presentDisabled ∧ e = .apDisabled ap) →
    (∀ a b, a ≤ b → b ≤ 2 ^ 32 → exec (.memoryRead ap a b) s = .next (s.pushResult (.error e))) ∧
    (∀ a len data, data.length = (len + 3) / 4 → a + len ≤ 2 ^ 32 →
      exec (.memoryWrite ap a len data) s = .next (s.pushResult (.error e))) ∧
    (∀ regs, exec (.registerRead ap regs.length regs) s = .next (s.pushResult (.error e))) ∧
    (∀ regs values, values.length = regs.length →
      exec (.registerWrite ap regs.length regs values) s = .next (s.pushResult (.error e))) ∧
    (∀ ctrl, exec (.runCtrlRead ap ctrl) s = .next (s.pushResult (.error e))) ∧
    ∀ ctrl, exec (.runCtrlWrite ap ctrl) s = .next (s.pushResult (.error e))

/-- The delegated commands on a T0 that serves the connection (R278 to R281), for every Codec: the operation ends as
the Codec's program says, its engine commands doing what they do alone, and with as many words as the program returns.
The form of a Codec is the model's choice (log 12). -/
def Obligations.DelegatedCommandsRunCodec : Prop :=
  ∀ s t c, Served s t c → s.apStateOf c.ap = .presentEnabled → s.cfg.codecPresent = true →
    (∀ regs, DelegatedEnds s t c (.registerRead c.ap regs.length regs) (.registerRead regs) .words) ∧
    (∀ regs values, values.length = regs.length →
      DelegatedEnds s t c (.registerWrite c.ap regs.length regs values) (.registerWrite regs values) fun _ => .unit) ∧
    (∀ ctrl, DelegatedEnds s t c (.runCtrlRead c.ap ctrl) (.runCtrlRead ctrl) .words) ∧
    ∀ ctrl, DelegatedEnds s t c (.runCtrlWrite c.ap ctrl) (.runCtrlWrite ctrl) fun _ => .unit

/-- Without a Codec the delegated commands are refused, and a value list of another length than the register list is a
bad argument (R278, R279, R318). -/
def Obligations.DelegatedCommandsRefused : Prop :=
  ∀ s ap n regs values ctrl,
    (s.cfg.codecPresent = false →
      exec (.registerRead ap n regs) s = .next (s.pushResult (.error .illegalCommand)) ∧
        exec (.registerWrite ap n regs values) s = .next (s.pushResult (.error .illegalCommand)) ∧
        exec (.runCtrlRead ap ctrl) s = .next (s.pushResult (.error .illegalCommand)) ∧
        exec (.runCtrlWrite ap ctrl) s = .next (s.pushResult (.error .illegalCommand))) ∧
    (s.cfg.codecPresent = true → detected s.dpVersion = true → values.length ≠ regs.length →
      exec (.registerWrite ap n regs values) s = .next (s.pushResult (.error .badArgument)))

/-- SCAN_APS on T0 (R275): one row for each AP from index 0 up to the first whose IDR reads zero; no AP register, no
`ap_state` and no connection is touched. That its CSW read refreshes no shadow, against R86 b, is the model's reading
(log 20). -/
def Obligations.ScanApsListsAps : Prop :=
  ∀ s t extra, Closed s t → detected s.dpVersion = true → layoutBase s.dpVersion = t.layout → t.sticky = 0 →
    ∃ u t' v, exec (.scanAps extra) s = .next (u.pushResult (.ok (.table (t.scanRows extra 0 256)))) ∧
      FrameSelect s u ∧ Closed u t' ∧ t'.settled = (t.withSelect v).settled

/-- GET_CHIP_VERSION (R276): absent on version 1, with no traffic; else the fields of TARGETID and DLPIDR. -/
def Obligations.ChipVersionFields : Prop :=
  ∀ s, (s.dpVersion = .v1 → exec .getChipVersion s = .next (s.pushResult (.ok .absent))) ∧
    ∀ t, Closed s t → (s.dpVersion = .v2 ∨ s.dpVersion = .v3) → 2 ≤ t.ver →
      ∃ u t', exec .getChipVersion s = .next (u.pushResult (.ok (.chip (t.targetid.extractLsb' 1 11)
          (t.targetid.extractLsb' 12 16) (t.targetid.extractLsb' 28 4) (t.dlpidr.extractLsb' 28 4)))) ∧
        FrameSelect s u ∧ Closed u t' ∧ u.selectLast = some (selDp s.selectLast 3) ∧
        t'.settled = (t.withSelect (selDp s.selectLast 3)).settled

/-- TEARDOWN (R277): every working register at its reset value, no link traffic, the target as it is. -/
def Obligations.TeardownResets : Prop :=
  ∀ s : State, ∃ u : State, exec .teardown s = .next (u.pushResult (.ok .unit)) ∧
    u.dpVersion = .undetected ∧ u.selectLast = none ∧ u.freezeDepth = 0 ∧ u.frozenValid = false ∧ u.jtagIr = none ∧
    (∀ ap, u.apStateOf ap = .unresolved ∧ u.connOf ap = none) ∧ u.cfg = s.cfg ∧ u.trace = s.trace ∧
    u.target = s.target ∧ u.commands = s.commands ∧ u.pc = s.pc ∧ u.results = s.results ∧ u.answers = s.answers
end

