-- ==== Sys2Proof/Laws/State.lean ====
section
/-! SUPPORT. One lemma per field per update of the state, so that no proof unfolds a record update. -/

namespace Sys2Proof.Machine

open Sys2Proof

/-! ### setDpVersion -/

@[simp] theorem setDpVersion_dpVersion (s : State) (v : DpVersion) :
    (s.setDpVersion v).dpVersion = v := rfl

@[simp] theorem setDpVersion_selectLast (s : State) (v : DpVersion) :
    (s.setDpVersion v).selectLast = s.selectLast := rfl

@[simp] theorem setDpVersion_freezeDepth (s : State) (v : DpVersion) :
    (s.setDpVersion v).freezeDepth = s.freezeDepth := rfl

@[simp] theorem setDpVersion_frozenValid (s : State) (v : DpVersion) :
    (s.setDpVersion v).frozenValid = s.frozenValid := rfl

@[simp] theorem setDpVersion_apState (s : State) (v : DpVersion) :
    (s.setDpVersion v).apState = s.apState := rfl

@[simp] theorem setDpVersion_conn (s : State) (v : DpVersion) :
    (s.setDpVersion v).conn = s.conn := rfl

@[simp] theorem setDpVersion_jtagIr (s : State) (v : DpVersion) :
    (s.setDpVersion v).jtagIr = s.jtagIr := rfl

@[simp] theorem setDpVersion_cfg (s : State) (v : DpVersion) :
    (s.setDpVersion v).cfg = s.cfg := rfl

@[simp] theorem setDpVersion_commands (s : State) (v : DpVersion) :
    (s.setDpVersion v).commands = s.commands := rfl

@[simp] theorem setDpVersion_pc (s : State) (v : DpVersion) :
    (s.setDpVersion v).pc = s.pc := rfl

@[simp] theorem setDpVersion_results (s : State) (v : DpVersion) :
    (s.setDpVersion v).results = s.results := rfl

@[simp] theorem setDpVersion_trace (s : State) (v : DpVersion) :
    (s.setDpVersion v).trace = s.trace := rfl

@[simp] theorem setDpVersion_answers (s : State) (v : DpVersion) :
    (s.setDpVersion v).answers = s.answers := rfl

@[simp] theorem setDpVersion_drawn (s : State) (v : DpVersion) :
    (s.setDpVersion v).drawn = s.drawn := rfl

@[simp] theorem setDpVersion_target (s : State) (v : DpVersion) :
    (s.setDpVersion v).target = s.target := rfl


/-! ### setSelectLast -/

@[simp] theorem setSelectLast_dpVersion (s : State) (v : Option W32) :
    (s.setSelectLast v).dpVersion = s.dpVersion := rfl

@[simp] theorem setSelectLast_selectLast (s : State) (v : Option W32) :
    (s.setSelectLast v).selectLast = v := rfl

@[simp] theorem setSelectLast_freezeDepth (s : State) (v : Option W32) :
    (s.setSelectLast v).freezeDepth = s.freezeDepth := rfl

@[simp] theorem setSelectLast_frozenValid (s : State) (v : Option W32) :
    (s.setSelectLast v).frozenValid = s.frozenValid := rfl

@[simp] theorem setSelectLast_apState (s : State) (v : Option W32) :
    (s.setSelectLast v).apState = s.apState := rfl

@[simp] theorem setSelectLast_conn (s : State) (v : Option W32) :
    (s.setSelectLast v).conn = s.conn := rfl

@[simp] theorem setSelectLast_jtagIr (s : State) (v : Option W32) :
    (s.setSelectLast v).jtagIr = s.jtagIr := rfl

@[simp] theorem setSelectLast_cfg (s : State) (v : Option W32) :
    (s.setSelectLast v).cfg = s.cfg := rfl

@[simp] theorem setSelectLast_commands (s : State) (v : Option W32) :
    (s.setSelectLast v).commands = s.commands := rfl

@[simp] theorem setSelectLast_pc (s : State) (v : Option W32) :
    (s.setSelectLast v).pc = s.pc := rfl

@[simp] theorem setSelectLast_results (s : State) (v : Option W32) :
    (s.setSelectLast v).results = s.results := rfl

@[simp] theorem setSelectLast_trace (s : State) (v : Option W32) :
    (s.setSelectLast v).trace = s.trace := rfl

@[simp] theorem setSelectLast_answers (s : State) (v : Option W32) :
    (s.setSelectLast v).answers = s.answers := rfl

@[simp] theorem setSelectLast_drawn (s : State) (v : Option W32) :
    (s.setSelectLast v).drawn = s.drawn := rfl

@[simp] theorem setSelectLast_target (s : State) (v : Option W32) :
    (s.setSelectLast v).target = s.target := rfl


/-! ### setFreeze -/

@[simp] theorem setFreeze_dpVersion (s : State) (d : Nat) (b : Bool) :
    (s.setFreeze d b).dpVersion = s.dpVersion := rfl

@[simp] theorem setFreeze_selectLast (s : State) (d : Nat) (b : Bool) :
    (s.setFreeze d b).selectLast = s.selectLast := rfl

@[simp] theorem setFreeze_freezeDepth (s : State) (d : Nat) (b : Bool) :
    (s.setFreeze d b).freezeDepth = d := rfl

@[simp] theorem setFreeze_frozenValid (s : State) (d : Nat) (b : Bool) :
    (s.setFreeze d b).frozenValid = b := rfl

@[simp] theorem setFreeze_apState (s : State) (d : Nat) (b : Bool) :
    (s.setFreeze d b).apState = s.apState := rfl

@[simp] theorem setFreeze_conn (s : State) (d : Nat) (b : Bool) :
    (s.setFreeze d b).conn = s.conn := rfl

@[simp] theorem setFreeze_jtagIr (s : State) (d : Nat) (b : Bool) :
    (s.setFreeze d b).jtagIr = s.jtagIr := rfl

@[simp] theorem setFreeze_cfg (s : State) (d : Nat) (b : Bool) :
    (s.setFreeze d b).cfg = s.cfg := rfl

@[simp] theorem setFreeze_commands (s : State) (d : Nat) (b : Bool) :
    (s.setFreeze d b).commands = s.commands := rfl

@[simp] theorem setFreeze_pc (s : State) (d : Nat) (b : Bool) :
    (s.setFreeze d b).pc = s.pc := rfl

@[simp] theorem setFreeze_results (s : State) (d : Nat) (b : Bool) :
    (s.setFreeze d b).results = s.results := rfl

@[simp] theorem setFreeze_trace (s : State) (d : Nat) (b : Bool) :
    (s.setFreeze d b).trace = s.trace := rfl

@[simp] theorem setFreeze_answers (s : State) (d : Nat) (b : Bool) :
    (s.setFreeze d b).answers = s.answers := rfl

@[simp] theorem setFreeze_drawn (s : State) (d : Nat) (b : Bool) :
    (s.setFreeze d b).drawn = s.drawn := rfl

@[simp] theorem setFreeze_target (s : State) (d : Nat) (b : Bool) :
    (s.setFreeze d b).target = s.target := rfl


/-! ### setApState -/

@[simp] theorem setApState_dpVersion (s : State) (ap : ApIndex) (v : ApState) :
    (s.setApState ap v).dpVersion = s.dpVersion := rfl

@[simp] theorem setApState_selectLast (s : State) (ap : ApIndex) (v : ApState) :
    (s.setApState ap v).selectLast = s.selectLast := rfl

@[simp] theorem setApState_freezeDepth (s : State) (ap : ApIndex) (v : ApState) :
    (s.setApState ap v).freezeDepth = s.freezeDepth := rfl

@[simp] theorem setApState_frozenValid (s : State) (ap : ApIndex) (v : ApState) :
    (s.setApState ap v).frozenValid = s.frozenValid := rfl

@[simp] theorem setApState_apState (s : State) (ap : ApIndex) (v : ApState) :
    (s.setApState ap v).apState = s.apState.set ap.toNat v ap.isLt := rfl

@[simp] theorem setApState_conn (s : State) (ap : ApIndex) (v : ApState) :
    (s.setApState ap v).conn = s.conn := rfl

@[simp] theorem setApState_jtagIr (s : State) (ap : ApIndex) (v : ApState) :
    (s.setApState ap v).jtagIr = s.jtagIr := rfl

@[simp] theorem setApState_cfg (s : State) (ap : ApIndex) (v : ApState) :
    (s.setApState ap v).cfg = s.cfg := rfl

@[simp] theorem setApState_commands (s : State) (ap : ApIndex) (v : ApState) :
    (s.setApState ap v).commands = s.commands := rfl

@[simp] theorem setApState_pc (s : State) (ap : ApIndex) (v : ApState) :
    (s.setApState ap v).pc = s.pc := rfl

@[simp] theorem setApState_results (s : State) (ap : ApIndex) (v : ApState) :
    (s.setApState ap v).results = s.results := rfl

@[simp] theorem setApState_trace (s : State) (ap : ApIndex) (v : ApState) :
    (s.setApState ap v).trace = s.trace := rfl

@[simp] theorem setApState_answers (s : State) (ap : ApIndex) (v : ApState) :
    (s.setApState ap v).answers = s.answers := rfl

@[simp] theorem setApState_drawn (s : State) (ap : ApIndex) (v : ApState) :
    (s.setApState ap v).drawn = s.drawn := rfl

@[simp] theorem setApState_target (s : State) (ap : ApIndex) (v : ApState) :
    (s.setApState ap v).target = s.target := rfl


/-! ### setConn -/

@[simp] theorem setConn_dpVersion (s : State) (ap : ApIndex) (c : Option MemApConnection) :
    (s.setConn ap c).dpVersion = s.dpVersion := rfl

@[simp] theorem setConn_selectLast (s : State) (ap : ApIndex) (c : Option MemApConnection) :
    (s.setConn ap c).selectLast = s.selectLast := rfl

@[simp] theorem setConn_freezeDepth (s : State) (ap : ApIndex) (c : Option MemApConnection) :
    (s.setConn ap c).freezeDepth = s.freezeDepth := rfl

@[simp] theorem setConn_frozenValid (s : State) (ap : ApIndex) (c : Option MemApConnection) :
    (s.setConn ap c).frozenValid = s.frozenValid := rfl

@[simp] theorem setConn_apState (s : State) (ap : ApIndex) (c : Option MemApConnection) :
    (s.setConn ap c).apState = s.apState := rfl

@[simp] theorem setConn_conn (s : State) (ap : ApIndex) (c : Option MemApConnection) :
    (s.setConn ap c).conn = s.conn.set ap.toNat c ap.isLt := rfl

@[simp] theorem setConn_jtagIr (s : State) (ap : ApIndex) (c : Option MemApConnection) :
    (s.setConn ap c).jtagIr = s.jtagIr := rfl

@[simp] theorem setConn_cfg (s : State) (ap : ApIndex) (c : Option MemApConnection) :
    (s.setConn ap c).cfg = s.cfg := rfl

@[simp] theorem setConn_commands (s : State) (ap : ApIndex) (c : Option MemApConnection) :
    (s.setConn ap c).commands = s.commands := rfl

@[simp] theorem setConn_pc (s : State) (ap : ApIndex) (c : Option MemApConnection) :
    (s.setConn ap c).pc = s.pc := rfl

@[simp] theorem setConn_results (s : State) (ap : ApIndex) (c : Option MemApConnection) :
    (s.setConn ap c).results = s.results := rfl

@[simp] theorem setConn_trace (s : State) (ap : ApIndex) (c : Option MemApConnection) :
    (s.setConn ap c).trace = s.trace := rfl

@[simp] theorem setConn_answers (s : State) (ap : ApIndex) (c : Option MemApConnection) :
    (s.setConn ap c).answers = s.answers := rfl

@[simp] theorem setConn_drawn (s : State) (ap : ApIndex) (c : Option MemApConnection) :
    (s.setConn ap c).drawn = s.drawn := rfl

@[simp] theorem setConn_target (s : State) (ap : ApIndex) (c : Option MemApConnection) :
    (s.setConn ap c).target = s.target := rfl


/-! ### setJtagIr -/

@[simp] theorem setJtagIr_dpVersion (s : State) (ir : Option IrCode) :
    (s.setJtagIr ir).dpVersion = s.dpVersion := rfl

@[simp] theorem setJtagIr_selectLast (s : State) (ir : Option IrCode) :
    (s.setJtagIr ir).selectLast = s.selectLast := rfl

@[simp] theorem setJtagIr_freezeDepth (s : State) (ir : Option IrCode) :
    (s.setJtagIr ir).freezeDepth = s.freezeDepth := rfl

@[simp] theorem setJtagIr_frozenValid (s : State) (ir : Option IrCode) :
    (s.setJtagIr ir).frozenValid = s.frozenValid := rfl

@[simp] theorem setJtagIr_apState (s : State) (ir : Option IrCode) :
    (s.setJtagIr ir).apState = s.apState := rfl

@[simp] theorem setJtagIr_conn (s : State) (ir : Option IrCode) :
    (s.setJtagIr ir).conn = s.conn := rfl

@[simp] theorem setJtagIr_jtagIr (s : State) (ir : Option IrCode) :
    (s.setJtagIr ir).jtagIr = ir := rfl

@[simp] theorem setJtagIr_cfg (s : State) (ir : Option IrCode) :
    (s.setJtagIr ir).cfg = s.cfg := rfl

@[simp] theorem setJtagIr_commands (s : State) (ir : Option IrCode) :
    (s.setJtagIr ir).commands = s.commands := rfl

@[simp] theorem setJtagIr_pc (s : State) (ir : Option IrCode) :
    (s.setJtagIr ir).pc = s.pc := rfl

@[simp] theorem setJtagIr_results (s : State) (ir : Option IrCode) :
    (s.setJtagIr ir).results = s.results := rfl

@[simp] theorem setJtagIr_trace (s : State) (ir : Option IrCode) :
    (s.setJtagIr ir).trace = s.trace := rfl

@[simp] theorem setJtagIr_answers (s : State) (ir : Option IrCode) :
    (s.setJtagIr ir).answers = s.answers := rfl

@[simp] theorem setJtagIr_drawn (s : State) (ir : Option IrCode) :
    (s.setJtagIr ir).drawn = s.drawn := rfl

@[simp] theorem setJtagIr_target (s : State) (ir : Option IrCode) :
    (s.setJtagIr ir).target = s.target := rfl


/-! ### pushEvent -/

@[simp] theorem pushEvent_dpVersion (s : State) (e : WireEvent) :
    (s.pushEvent e).dpVersion = s.dpVersion := rfl

@[simp] theorem pushEvent_selectLast (s : State) (e : WireEvent) :
    (s.pushEvent e).selectLast = s.selectLast := rfl

@[simp] theorem pushEvent_freezeDepth (s : State) (e : WireEvent) :
    (s.pushEvent e).freezeDepth = s.freezeDepth := rfl

@[simp] theorem pushEvent_frozenValid (s : State) (e : WireEvent) :
    (s.pushEvent e).frozenValid = s.frozenValid := rfl

@[simp] theorem pushEvent_apState (s : State) (e : WireEvent) :
    (s.pushEvent e).apState = s.apState := rfl

@[simp] theorem pushEvent_conn (s : State) (e : WireEvent) :
    (s.pushEvent e).conn = s.conn := rfl

@[simp] theorem pushEvent_jtagIr (s : State) (e : WireEvent) :
    (s.pushEvent e).jtagIr = s.jtagIr := rfl

@[simp] theorem pushEvent_cfg (s : State) (e : WireEvent) :
    (s.pushEvent e).cfg = s.cfg := rfl

@[simp] theorem pushEvent_commands (s : State) (e : WireEvent) :
    (s.pushEvent e).commands = s.commands := rfl

@[simp] theorem pushEvent_pc (s : State) (e : WireEvent) :
    (s.pushEvent e).pc = s.pc := rfl

@[simp] theorem pushEvent_results (s : State) (e : WireEvent) :
    (s.pushEvent e).results = s.results := rfl

@[simp] theorem pushEvent_trace (s : State) (e : WireEvent) :
    (s.pushEvent e).trace = s.trace ++ [e] := rfl

@[simp] theorem pushEvent_answers (s : State) (e : WireEvent) :
    (s.pushEvent e).answers = s.answers := rfl

@[simp] theorem pushEvent_drawn (s : State) (e : WireEvent) :
    (s.pushEvent e).drawn = s.drawn := rfl

@[simp] theorem pushEvent_target (s : State) (e : WireEvent) :
    (s.pushEvent e).target = s.target := rfl


/-! ### pushResult -/

@[simp] theorem pushResult_dpVersion (s : State) (r : Result) :
    (s.pushResult r).dpVersion = s.dpVersion := rfl

@[simp] theorem pushResult_selectLast (s : State) (r : Result) :
    (s.pushResult r).selectLast = s.selectLast := rfl

@[simp] theorem pushResult_freezeDepth (s : State) (r : Result) :
    (s.pushResult r).freezeDepth = s.freezeDepth := rfl

@[simp] theorem pushResult_frozenValid (s : State) (r : Result) :
    (s.pushResult r).frozenValid = s.frozenValid := rfl

@[simp] theorem pushResult_apState (s : State) (r : Result) :
    (s.pushResult r).apState = s.apState := rfl

@[simp] theorem pushResult_conn (s : State) (r : Result) :
    (s.pushResult r).conn = s.conn := rfl

@[simp] theorem pushResult_jtagIr (s : State) (r : Result) :
    (s.pushResult r).jtagIr = s.jtagIr := rfl

@[simp] theorem pushResult_cfg (s : State) (r : Result) :
    (s.pushResult r).cfg = s.cfg := rfl

@[simp] theorem pushResult_commands (s : State) (r : Result) :
    (s.pushResult r).commands = s.commands := rfl

@[simp] theorem pushResult_pc (s : State) (r : Result) :
    (s.pushResult r).pc = s.pc := rfl

@[simp] theorem pushResult_results (s : State) (r : Result) :
    (s.pushResult r).results = s.results ++ [r] := rfl

@[simp] theorem pushResult_trace (s : State) (r : Result) :
    (s.pushResult r).trace = s.trace := rfl

@[simp] theorem pushResult_answers (s : State) (r : Result) :
    (s.pushResult r).answers = s.answers := rfl

@[simp] theorem pushResult_drawn (s : State) (r : Result) :
    (s.pushResult r).drawn = s.drawn := rfl

@[simp] theorem pushResult_target (s : State) (r : Result) :
    (s.pushResult r).target = s.target := rfl


/-! ### setTarget -/

@[simp] theorem setTarget_dpVersion (s : State) (t : Option T0) :
    (s.setTarget t).dpVersion = s.dpVersion := rfl

@[simp] theorem setTarget_selectLast (s : State) (t : Option T0) :
    (s.setTarget t).selectLast = s.selectLast := rfl

@[simp] theorem setTarget_freezeDepth (s : State) (t : Option T0) :
    (s.setTarget t).freezeDepth = s.freezeDepth := rfl

@[simp] theorem setTarget_frozenValid (s : State) (t : Option T0) :
    (s.setTarget t).frozenValid = s.frozenValid := rfl

@[simp] theorem setTarget_apState (s : State) (t : Option T0) :
    (s.setTarget t).apState = s.apState := rfl

@[simp] theorem setTarget_conn (s : State) (t : Option T0) :
    (s.setTarget t).conn = s.conn := rfl

@[simp] theorem setTarget_jtagIr (s : State) (t : Option T0) :
    (s.setTarget t).jtagIr = s.jtagIr := rfl

@[simp] theorem setTarget_cfg (s : State) (t : Option T0) :
    (s.setTarget t).cfg = s.cfg := rfl

@[simp] theorem setTarget_commands (s : State) (t : Option T0) :
    (s.setTarget t).commands = s.commands := rfl

@[simp] theorem setTarget_pc (s : State) (t : Option T0) :
    (s.setTarget t).pc = s.pc := rfl

@[simp] theorem setTarget_results (s : State) (t : Option T0) :
    (s.setTarget t).results = s.results := rfl

@[simp] theorem setTarget_trace (s : State) (t : Option T0) :
    (s.setTarget t).trace = s.trace := rfl

@[simp] theorem setTarget_answers (s : State) (t : Option T0) :
    (s.setTarget t).answers = s.answers := rfl

@[simp] theorem setTarget_drawn (s : State) (t : Option T0) :
    (s.setTarget t).drawn = s.drawn := rfl

@[simp] theorem setTarget_target (s : State) (t : Option T0) :
    (s.setTarget t).target = t := rfl


/-! ### setAnswers -/

@[simp] theorem setAnswers_dpVersion (s : State) (xs : List (BitVec 35)) (n : Nat) :
    (s.setAnswers xs n).dpVersion = s.dpVersion := rfl

@[simp] theorem setAnswers_selectLast (s : State) (xs : List (BitVec 35)) (n : Nat) :
    (s.setAnswers xs n).selectLast = s.selectLast := rfl

@[simp] theorem setAnswers_freezeDepth (s : State) (xs : List (BitVec 35)) (n : Nat) :
    (s.setAnswers xs n).freezeDepth = s.freezeDepth := rfl

@[simp] theorem setAnswers_frozenValid (s : State) (xs : List (BitVec 35)) (n : Nat) :
    (s.setAnswers xs n).frozenValid = s.frozenValid := rfl

@[simp] theorem setAnswers_apState (s : State) (xs : List (BitVec 35)) (n : Nat) :
    (s.setAnswers xs n).apState = s.apState := rfl

@[simp] theorem setAnswers_conn (s : State) (xs : List (BitVec 35)) (n : Nat) :
    (s.setAnswers xs n).conn = s.conn := rfl

@[simp] theorem setAnswers_jtagIr (s : State) (xs : List (BitVec 35)) (n : Nat) :
    (s.setAnswers xs n).jtagIr = s.jtagIr := rfl

@[simp] theorem setAnswers_cfg (s : State) (xs : List (BitVec 35)) (n : Nat) :
    (s.setAnswers xs n).cfg = s.cfg := rfl

@[simp] theorem setAnswers_commands (s : State) (xs : List (BitVec 35)) (n : Nat) :
    (s.setAnswers xs n).commands = s.commands := rfl

@[simp] theorem setAnswers_pc (s : State) (xs : List (BitVec 35)) (n : Nat) :
    (s.setAnswers xs n).pc = s.pc := rfl

@[simp] theorem setAnswers_results (s : State) (xs : List (BitVec 35)) (n : Nat) :
    (s.setAnswers xs n).results = s.results := rfl

@[simp] theorem setAnswers_trace (s : State) (xs : List (BitVec 35)) (n : Nat) :
    (s.setAnswers xs n).trace = s.trace := rfl

@[simp] theorem setAnswers_answers (s : State) (xs : List (BitVec 35)) (n : Nat) :
    (s.setAnswers xs n).answers = xs := rfl

@[simp] theorem setAnswers_drawn (s : State) (xs : List (BitVec 35)) (n : Nat) :
    (s.setAnswers xs n).drawn = n := rfl

@[simp] theorem setAnswers_target (s : State) (xs : List (BitVec 35)) (n : Nat) :
    (s.setAnswers xs n).target = s.target := rfl


/-! ### advance -/

@[simp] theorem advance_dpVersion (s : State) :
    (s.advance).dpVersion = s.dpVersion := rfl

@[simp] theorem advance_selectLast (s : State) :
    (s.advance).selectLast = s.selectLast := rfl

@[simp] theorem advance_freezeDepth (s : State) :
    (s.advance).freezeDepth = s.freezeDepth := rfl

@[simp] theorem advance_frozenValid (s : State) :
    (s.advance).frozenValid = s.frozenValid := rfl

@[simp] theorem advance_apState (s : State) :
    (s.advance).apState = s.apState := rfl

@[simp] theorem advance_conn (s : State) :
    (s.advance).conn = s.conn := rfl

@[simp] theorem advance_jtagIr (s : State) :
    (s.advance).jtagIr = s.jtagIr := rfl

@[simp] theorem advance_cfg (s : State) :
    (s.advance).cfg = s.cfg := rfl

@[simp] theorem advance_commands (s : State) :
    (s.advance).commands = s.commands := rfl

@[simp] theorem advance_pc (s : State) :
    (s.advance).pc = s.pc + 1 := rfl

@[simp] theorem advance_results (s : State) :
    (s.advance).results = s.results := rfl

@[simp] theorem advance_trace (s : State) :
    (s.advance).trace = s.trace := rfl

@[simp] theorem advance_answers (s : State) :
    (s.advance).answers = s.answers := rfl

@[simp] theorem advance_drawn (s : State) :
    (s.advance).drawn = s.drawn := rfl

@[simp] theorem advance_target (s : State) :
    (s.advance).target = s.target := rfl


/-! ### teardown -/

@[simp] theorem teardown_dpVersion (s : State) :
    (s.teardown).dpVersion = .undetected := rfl

@[simp] theorem teardown_selectLast (s : State) :
    (s.teardown).selectLast = none := rfl

@[simp] theorem teardown_freezeDepth (s : State) :
    (s.teardown).freezeDepth = 0 := rfl

@[simp] theorem teardown_frozenValid (s : State) :
    (s.teardown).frozenValid = false := rfl

@[simp] theorem teardown_apState (s : State) :
    (s.teardown).apState = Vector.replicate 256 .unresolved := rfl

@[simp] theorem teardown_conn (s : State) :
    (s.teardown).conn = Vector.replicate 256 none := rfl

@[simp] theorem teardown_jtagIr (s : State) :
    (s.teardown).jtagIr = none := rfl

@[simp] theorem teardown_cfg (s : State) :
    (s.teardown).cfg = s.cfg := rfl

@[simp] theorem teardown_commands (s : State) :
    (s.teardown).commands = s.commands := rfl

@[simp] theorem teardown_pc (s : State) :
    (s.teardown).pc = s.pc := rfl

@[simp] theorem teardown_results (s : State) :
    (s.teardown).results = s.results := rfl

@[simp] theorem teardown_trace (s : State) :
    (s.teardown).trace = s.trace := rfl

@[simp] theorem teardown_answers (s : State) :
    (s.teardown).answers = s.answers := rfl

@[simp] theorem teardown_drawn (s : State) :
    (s.teardown).drawn = s.drawn := rfl

@[simp] theorem teardown_target (s : State) :
    (s.teardown).target = s.target := rfl


/-! ### setShadow -/

@[simp] theorem setShadow_dpVersion (s : State) (ap : ApIndex) (w : W32) :
    (s.setShadow ap w).dpVersion = s.dpVersion := rfl

@[simp] theorem setShadow_selectLast (s : State) (ap : ApIndex) (w : W32) :
    (s.setShadow ap w).selectLast = s.selectLast := rfl

@[simp] theorem setShadow_freezeDepth (s : State) (ap : ApIndex) (w : W32) :
    (s.setShadow ap w).freezeDepth = s.freezeDepth := rfl

@[simp] theorem setShadow_frozenValid (s : State) (ap : ApIndex) (w : W32) :
    (s.setShadow ap w).frozenValid = s.frozenValid := rfl

@[simp] theorem setShadow_apState (s : State) (ap : ApIndex) (w : W32) :
    (s.setShadow ap w).apState = s.apState := rfl

@[simp] theorem setShadow_jtagIr (s : State) (ap : ApIndex) (w : W32) :
    (s.setShadow ap w).jtagIr = s.jtagIr := rfl

@[simp] theorem setShadow_cfg (s : State) (ap : ApIndex) (w : W32) :
    (s.setShadow ap w).cfg = s.cfg := rfl

@[simp] theorem setShadow_commands (s : State) (ap : ApIndex) (w : W32) :
    (s.setShadow ap w).commands = s.commands := rfl

@[simp] theorem setShadow_pc (s : State) (ap : ApIndex) (w : W32) :
    (s.setShadow ap w).pc = s.pc := rfl

@[simp] theorem setShadow_results (s : State) (ap : ApIndex) (w : W32) :
    (s.setShadow ap w).results = s.results := rfl

@[simp] theorem setShadow_trace (s : State) (ap : ApIndex) (w : W32) :
    (s.setShadow ap w).trace = s.trace := rfl

@[simp] theorem setShadow_answers (s : State) (ap : ApIndex) (w : W32) :
    (s.setShadow ap w).answers = s.answers := rfl

@[simp] theorem setShadow_drawn (s : State) (ap : ApIndex) (w : W32) :
    (s.setShadow ap w).drawn = s.drawn := rfl

@[simp] theorem setShadow_target (s : State) (ap : ApIndex) (w : W32) :
    (s.setShadow ap w).target = s.target := rfl


/-! ### noteCsw -/

@[simp] theorem noteCsw_dpVersion (s : State) (ap : ApIndex) (addr : BitVec 12) (w : W32) :
    (s.noteCsw ap addr w).dpVersion = s.dpVersion := by
  unfold State.noteCsw; split <;> rfl

@[simp] theorem noteCsw_selectLast (s : State) (ap : ApIndex) (addr : BitVec 12) (w : W32) :
    (s.noteCsw ap addr w).selectLast = s.selectLast := by
  unfold State.noteCsw; split <;> rfl

@[simp] theorem noteCsw_freezeDepth (s : State) (ap : ApIndex) (addr : BitVec 12) (w : W32) :
    (s.noteCsw ap addr w).freezeDepth = s.freezeDepth := by
  unfold State.noteCsw; split <;> rfl

@[simp] theorem noteCsw_frozenValid (s : State) (ap : ApIndex) (addr : BitVec 12) (w : W32) :
    (s.noteCsw ap addr w).frozenValid = s.frozenValid := by
  unfold State.noteCsw; split <;> rfl

@[simp] theorem noteCsw_apState (s : State) (ap : ApIndex) (addr : BitVec 12) (w : W32) :
    (s.noteCsw ap addr w).apState = s.apState := by
  unfold State.noteCsw; split <;> rfl

@[simp] theorem noteCsw_jtagIr (s : State) (ap : ApIndex) (addr : BitVec 12) (w : W32) :
    (s.noteCsw ap addr w).jtagIr = s.jtagIr := by
  unfold State.noteCsw; split <;> rfl

@[simp] theorem noteCsw_cfg (s : State) (ap : ApIndex) (addr : BitVec 12) (w : W32) :
    (s.noteCsw ap addr w).cfg = s.cfg := by
  unfold State.noteCsw; split <;> rfl

@[simp] theorem noteCsw_commands (s : State) (ap : ApIndex) (addr : BitVec 12) (w : W32) :
    (s.noteCsw ap addr w).commands = s.commands := by
  unfold State.noteCsw; split <;> rfl

@[simp] theorem noteCsw_pc (s : State) (ap : ApIndex) (addr : BitVec 12) (w : W32) :
    (s.noteCsw ap addr w).pc = s.pc := by
  unfold State.noteCsw; split <;> rfl

@[simp] theorem noteCsw_results (s : State) (ap : ApIndex) (addr : BitVec 12) (w : W32) :
    (s.noteCsw ap addr w).results = s.results := by
  unfold State.noteCsw; split <;> rfl

@[simp] theorem noteCsw_trace (s : State) (ap : ApIndex) (addr : BitVec 12) (w : W32) :
    (s.noteCsw ap addr w).trace = s.trace := by
  unfold State.noteCsw; split <;> rfl

@[simp] theorem noteCsw_answers (s : State) (ap : ApIndex) (addr : BitVec 12) (w : W32) :
    (s.noteCsw ap addr w).answers = s.answers := by
  unfold State.noteCsw; split <;> rfl

@[simp] theorem noteCsw_drawn (s : State) (ap : ApIndex) (addr : BitVec 12) (w : W32) :
    (s.noteCsw ap addr w).drawn = s.drawn := by
  unfold State.noteCsw; split <;> rfl

@[simp] theorem noteCsw_target (s : State) (ap : ApIndex) (addr : BitVec 12) (w : W32) :
    (s.noteCsw ap addr w).target = s.target := by
  unfold State.noteCsw; split <;> rfl

/-! ### setSubword -/

@[simp] theorem setSubword_dpVersion (s : State) (ap : ApIndex) (b : Bool) :
    (s.setSubword ap b).dpVersion = s.dpVersion := rfl

@[simp] theorem setSubword_selectLast (s : State) (ap : ApIndex) (b : Bool) :
    (s.setSubword ap b).selectLast = s.selectLast := rfl

@[simp] theorem setSubword_freezeDepth (s : State) (ap : ApIndex) (b : Bool) :
    (s.setSubword ap b).freezeDepth = s.freezeDepth := rfl

@[simp] theorem setSubword_frozenValid (s : State) (ap : ApIndex) (b : Bool) :
    (s.setSubword ap b).frozenValid = s.frozenValid := rfl

@[simp] theorem setSubword_apState (s : State) (ap : ApIndex) (b : Bool) :
    (s.setSubword ap b).apState = s.apState := rfl

@[simp] theorem setSubword_jtagIr (s : State) (ap : ApIndex) (b : Bool) :
    (s.setSubword ap b).jtagIr = s.jtagIr := rfl

@[simp] theorem setSubword_cfg (s : State) (ap : ApIndex) (b : Bool) :
    (s.setSubword ap b).cfg = s.cfg := rfl

@[simp] theorem setSubword_commands (s : State) (ap : ApIndex) (b : Bool) :
    (s.setSubword ap b).commands = s.commands := rfl

@[simp] theorem setSubword_pc (s : State) (ap : ApIndex) (b : Bool) :
    (s.setSubword ap b).pc = s.pc := rfl

@[simp] theorem setSubword_results (s : State) (ap : ApIndex) (b : Bool) :
    (s.setSubword ap b).results = s.results := rfl

@[simp] theorem setSubword_trace (s : State) (ap : ApIndex) (b : Bool) :
    (s.setSubword ap b).trace = s.trace := rfl

@[simp] theorem setSubword_answers (s : State) (ap : ApIndex) (b : Bool) :
    (s.setSubword ap b).answers = s.answers := rfl

@[simp] theorem setSubword_drawn (s : State) (ap : ApIndex) (b : Bool) :
    (s.setSubword ap b).drawn = s.drawn := rfl

@[simp] theorem setSubword_target (s : State) (ap : ApIndex) (b : Bool) :
    (s.setSubword ap b).target = s.target := rfl


/-! ### freeze -/

@[simp] theorem freeze_dpVersion (s : State) :
    (s.freeze).dpVersion = s.dpVersion := rfl

@[simp] theorem freeze_selectLast (s : State) :
    (s.freeze).selectLast = s.selectLast := rfl

@[simp] theorem freeze_freezeDepth (s : State) :
    (s.freeze).freezeDepth = s.freezeDepth + 1 := rfl

@[simp] theorem freeze_frozenValid (s : State) :
    (s.freeze).frozenValid = (s.freezeDepth == 0 || s.frozenValid) := rfl

@[simp] theorem freeze_apState (s : State) :
    (s.freeze).apState = s.apState := rfl

@[simp] theorem freeze_conn (s : State) :
    (s.freeze).conn = s.conn := rfl

@[simp] theorem freeze_jtagIr (s : State) :
    (s.freeze).jtagIr = s.jtagIr := rfl

@[simp] theorem freeze_cfg (s : State) :
    (s.freeze).cfg = s.cfg := rfl

@[simp] theorem freeze_commands (s : State) :
    (s.freeze).commands = s.commands := rfl

@[simp] theorem freeze_pc (s : State) :
    (s.freeze).pc = s.pc := rfl

@[simp] theorem freeze_results (s : State) :
    (s.freeze).results = s.results := rfl

@[simp] theorem freeze_trace (s : State) :
    (s.freeze).trace = s.trace := rfl

@[simp] theorem freeze_answers (s : State) :
    (s.freeze).answers = s.answers := rfl

@[simp] theorem freeze_drawn (s : State) :
    (s.freeze).drawn = s.drawn := rfl

@[simp] theorem freeze_target (s : State) :
    (s.freeze).target = s.target := rfl

/-! ### unfreeze -/

@[simp] theorem unfreeze_dpVersion (s : State) : s.unfreeze.dpVersion = s.dpVersion := by
  unfold State.unfreeze; split <;> rfl

@[simp] theorem unfreeze_selectLast (s : State) : s.unfreeze.selectLast = s.selectLast := by
  unfold State.unfreeze; split <;> rfl

@[simp] theorem unfreeze_apState (s : State) : s.unfreeze.apState = s.apState := by
  unfold State.unfreeze; split <;> rfl

@[simp] theorem unfreeze_conn (s : State) : s.unfreeze.conn = s.conn := by
  unfold State.unfreeze; split <;> rfl

@[simp] theorem unfreeze_jtagIr (s : State) : s.unfreeze.jtagIr = s.jtagIr := by
  unfold State.unfreeze; split <;> rfl

@[simp] theorem unfreeze_cfg (s : State) : s.unfreeze.cfg = s.cfg := by
  unfold State.unfreeze; split <;> rfl

@[simp] theorem unfreeze_commands (s : State) : s.unfreeze.commands = s.commands := by
  unfold State.unfreeze; split <;> rfl

@[simp] theorem unfreeze_pc (s : State) : s.unfreeze.pc = s.pc := by
  unfold State.unfreeze; split <;> rfl

@[simp] theorem unfreeze_results (s : State) : s.unfreeze.results = s.results := by
  unfold State.unfreeze; split <;> rfl

@[simp] theorem unfreeze_trace (s : State) : s.unfreeze.trace = s.trace := by
  unfold State.unfreeze; split <;> rfl

@[simp] theorem unfreeze_answers (s : State) : s.unfreeze.answers = s.answers := by
  unfold State.unfreeze; split <;> rfl

@[simp] theorem unfreeze_drawn (s : State) : s.unfreeze.drawn = s.drawn := by
  unfold State.unfreeze; split <;> rfl

@[simp] theorem unfreeze_target (s : State) : s.unfreeze.target = s.target := by
  unfold State.unfreeze; split <;> rfl

theorem unfreeze_freezeDepth (s : State) : s.unfreeze.freezeDepth = s.freezeDepth - 1 := by
  unfold State.unfreeze; split <;> simp_all

theorem unfreeze_frozenValid (s : State) (h : s.freezeDepth ≠ 0) :
    s.unfreeze.frozenValid = (s.freezeDepth != 1 && s.frozenValid) := by
  unfold State.unfreeze; rw [if_neg h]; rfl

/-! ### The per-AP views -/

@[simp] theorem apStateOf_setApState_same (s : State) (ap : ApIndex) (v : ApState) :
    (s.setApState ap v).apStateOf ap = v := by
  simp [State.apStateOf]

theorem apStateOf_setApState_ne (s : State) (ap j : ApIndex) (v : ApState) (h : j ≠ ap) :
    (s.setApState ap v).apStateOf j = s.apStateOf j := by
  have hj : ap.toNat ≠ j.toNat := fun e => h (BitVec.eq_of_toNat_eq e.symm)
  simp [State.apStateOf, hj]

@[simp] theorem connOf_setConn_same (s : State) (ap : ApIndex) (c : Option MemApConnection) :
    (s.setConn ap c).connOf ap = c := by
  simp [State.connOf]

theorem connOf_setConn_ne (s : State) (ap j : ApIndex) (c : Option MemApConnection) (h : j ≠ ap) :
    (s.setConn ap c).connOf j = s.connOf j := by
  have hj : ap.toNat ≠ j.toNat := fun e => h (BitVec.eq_of_toNat_eq e.symm)
  simp [State.connOf, hj]

@[simp] theorem connOf_setShadow_same (s : State) (ap : ApIndex) (w : W32) :
    (s.setShadow ap w).connOf ap = (s.connOf ap).map fun d => { d with cswShadow := w } :=
  connOf_setConn_same s ap _

theorem connOf_setShadow_ne (s : State) (ap j : ApIndex) (w : W32) (h : j ≠ ap) :
    (s.setShadow ap w).connOf j = s.connOf j :=
  connOf_setConn_ne s ap j _ h

/-- Only the CSW address of the detected layout touches a shadow (R86 b). -/
theorem noteCsw_other {s : State} {ap : ApIndex} {addr : BitVec 12} (h : addr ≠ s.apReg cswOffset) (w : W32) :
    s.noteCsw ap addr w = s := if_neg h

theorem noteCsw_csw (s : State) (ap : ApIndex) (w : W32) : s.noteCsw ap (s.apReg cswOffset) w = s.setShadow ap w :=
  if_pos rfl

theorem connOf_noteCsw_csw (s : State) (ap : ApIndex) (w : W32) :
    (s.noteCsw ap (s.apReg cswOffset) w).connOf ap = (s.connOf ap).map fun d => { d with cswShadow := w } := by
  rw [noteCsw_csw, connOf_setShadow_same]

theorem connOf_noteCsw_ne (s : State) (ap j : ApIndex) (addr : BitVec 12) (w : W32) (h : j ≠ ap) :
    (s.noteCsw ap addr w).connOf j = s.connOf j := by
  unfold State.noteCsw
  split
  · exact connOf_setShadow_ne s ap j w h
  · rfl

@[simp] theorem noteCsw_apStateOf (s : State) (ap j : ApIndex) (addr : BitVec 12) (w : W32) :
    (s.noteCsw ap addr w).apStateOf j = s.apStateOf j := by
  unfold State.apStateOf; rw [noteCsw_apState]

@[simp] theorem connOf_setSubword_same (s : State) (ap : ApIndex) (b : Bool) :
    (s.setSubword ap b).connOf ap = (s.connOf ap).map fun d => { d with subword := some b } :=
  connOf_setConn_same s ap _

theorem connOf_setSubword_ne (s : State) (ap j : ApIndex) (b : Bool) (h : j ≠ ap) :
    (s.setSubword ap b).connOf j = s.connOf j :=
  connOf_setConn_ne s ap j _ h

theorem apStateOf_congr {s t : State} (h : t.apState = s.apState) (ap : ApIndex) : t.apStateOf ap = s.apStateOf ap := by
  unfold State.apStateOf; rw [h]

theorem connOf_congr {s t : State} (h : t.conn = s.conn) (ap : ApIndex) : t.connOf ap = s.connOf ap := by
  unfold State.connOf; rw [h]

@[simp] theorem reset_apStateOf (ap : ApIndex) : State.reset.apStateOf ap = .unresolved := by
  simp [State.apStateOf, State.reset]

@[simp] theorem reset_connOf (ap : ApIndex) : State.reset.connOf ap = none := by
  simp [State.connOf, State.reset]

@[simp] theorem teardown_apStateOf (s : State) (ap : ApIndex) : s.teardown.apStateOf ap = .unresolved := by
  simp [State.apStateOf]

@[simp] theorem teardown_connOf (s : State) (ap : ApIndex) : s.teardown.connOf ap = none := by
  simp [State.connOf]

end Sys2Proof.Machine
end

