-- ==== Sys2Proof/Laws/Monad.lean ====
section
/-! SUPPORT. Running a computation: one equation per combinator, and how a relation between the state before and the
state after passes through each of them. -/

namespace Sys2Proof.Machine

open Sys2Proof

/-! ## Equations -/

/-- The state a computation ends in, whatever it ends with. -/
def endState {α : Type} (r : EStateM.Result DapError State α) : State :=
  match r with
  | .ok _ t => t
  | .error _ t => t

@[simp] theorem endState_ok {α : Type} (a : α) (t : State) :
    endState (.ok a t : EStateM.Result DapError State α) = t := rfl

@[simp] theorem endState_error {α : Type} (e : DapError) (t : State) :
    endState (.error e t : EStateM.Result DapError State α) = t := rfl

theorem run_bind {α β : Type} (m : Dap α) (f : α → Dap β) (s : State) :
    (m >>= f) s = match m s with
      | .ok a t => f a t
      | .error e t => .error e t := by
  show EStateM.bind m f s = _
  unfold EStateM.bind
  cases m s <;> rfl

theorem run_bind_ok {α β : Type} {m : Dap α} {f : α → Dap β} {s t : State} {a : α} (h : m s = .ok a t) :
    (m >>= f) s = f a t := by
  rw [run_bind, h]

theorem run_bind_error {α β : Type} {m : Dap α} {f : α → Dap β} {s t : State} {e : DapError} (h : m s = .error e t) :
    (m >>= f) s = .error e t := by
  rw [run_bind, h]

@[simp] theorem run_pure {α : Type} (a : α) (s : State) : (pure a : Dap α) s = .ok a s := rfl

@[simp] theorem run_getS (s : State) : getS s = .ok s s := rfl

@[simp] theorem run_upd (f : State → State) (s : State) : upd f s = .ok () (f s) := rfl

@[simp] theorem run_raise {α : Type} (e : DapError) (s : State) : (raise e : Dap α) s = .error e s := rfl

@[simp] theorem run_getS_bind {β : Type} (f : State → Dap β) (s : State) : (getS >>= f) s = f s s := by
  rw [run_bind, run_getS]

@[simp] theorem run_upd_bind {β : Type} (g : State → State) (f : Unit → Dap β) (s : State) :
    (upd g >>= f) s = f () (g s) := by
  rw [run_bind, run_upd]

@[simp] theorem run_raise_bind {α β : Type} (e : DapError) (f : α → Dap β) (s : State) :
    (raise e >>= f) s = .error e s := by
  rw [run_bind, run_raise]

@[simp] theorem check_true (e : DapError) : check true e = pure () := rfl

@[simp] theorem check_false (e : DapError) : check false e = raise e := rfl

theorem run_onError {α : Type} (m : Dap α) (h : DapError → Dap α) (s : State) :
    onError m h s = match m s with
      | .ok a t => .ok a t
      | .error e t => h e t := rfl

theorem run_withFinally {α : Type} (m : Dap α) (fin : Dap Unit) (s : State) :
    withFinally m fin s = match m s with
      | .ok a t =>
        match fin t with
        | .ok _ u => .ok a u
        | .error e u => .error e u
      | .error e t =>
        match fin t with
        | .ok _ u => .error e u
        | .error _ u => .error e u := rfl

theorem complete_ok {m : Dap Value} {s t : State} {v : Value} (h : m s = .ok v t) :
    complete m s = .next (t.pushResult (.ok v)) := by
  unfold complete; rw [h]

theorem complete_error {m : Dap Value} {s t : State} {e : DapError} (h : m s = .error e t) :
    complete m s = .next (t.pushResult (.error e)) := by
  unfold complete; rw [h]; rfl

/-- A command always ends in a next state, and that state has exactly one result more than the body left. -/
theorem complete_next (m : Dap Value) (s : State) :
    ∃ r, complete m s = .next ((endState (m s)).pushResult r) := by
  cases h : m s with
  | ok v t => exact ⟨_, complete_ok h⟩
  | error e t => exact ⟨_, complete_error h⟩

/-! ## Relations between the state before and the state after -/

/-- Whatever `m` ends with, `R` holds between the state before and the state after. -/
def Keeps {α : Type} (R : State → State → Prop) (m : Dap α) : Prop := ∀ s, R s (endState (m s))

/-- `R` can be chained. -/
structure Chain (R : State → State → Prop) : Prop where
  refl : ∀ s, R s s
  trans : ∀ {s t u}, R s t → R t u → R s u

section

variable {α β : Type} {R : State → State → Prop}

theorem keeps_pure (h : Chain R) (a : α) : Keeps R (pure a : Dap α) := fun s => h.refl s

theorem keeps_raise (h : Chain R) (e : DapError) : Keeps R (raise e : Dap α) := fun s => h.refl s

theorem keeps_getS (h : Chain R) : Keeps R getS := fun s => h.refl s

theorem keeps_check (h : Chain R) (b : Bool) (e : DapError) : Keeps R (check b e) := by
  cases b
  · exact keeps_raise h e
  · exact keeps_pure h ()

theorem keeps_upd {f : State → State} (h : ∀ s, R s (f s)) : Keeps R (upd f) := h

theorem keeps_bind (h : Chain R) {m : Dap α} {f : α → Dap β} (hm : Keeps R m) (hf : ∀ a, Keeps R (f a)) :
    Keeps R (m >>= f) := by
  intro s
  have h1 := hm s
  rw [run_bind]
  cases e : m s with
  | ok a t =>
    rw [e] at h1
    exact h.trans h1 (hf a t)
  | error x t =>
    rw [e] at h1
    exact h1

/-- After `getS` the rest may use that it runs from the state read. -/
theorem keeps_getS_bind {f : State → Dap β} (hf : ∀ s, R s (endState (f s s))) : Keeps R (getS >>= f) := by
  intro s
  rw [run_getS_bind]
  exact hf s

theorem keeps_ite {c : Prop} [Decidable c] {m n : Dap α} (hm : Keeps R m) (hn : Keeps R n) :
    Keeps R (if c then m else n) := by
  split
  · exact hm
  · exact hn

theorem keeps_onError (h : Chain R) {m : Dap α} {k : DapError → Dap α} (hm : Keeps R m) (hk : ∀ e, Keeps R (k e)) :
    Keeps R (onError m k) := by
  intro s
  have h1 := hm s
  rw [run_onError]
  cases e : m s with
  | ok a t => rw [e] at h1; exact h1
  | error x t => rw [e] at h1; exact h.trans h1 (hk x t)

theorem keeps_withFinally (h : Chain R) {m : Dap α} {fin : Dap Unit} (hm : Keeps R m) (hf : Keeps R fin) :
    Keeps R (withFinally m fin) := by
  intro s
  have h1 := hm s
  rw [run_withFinally]
  cases e : m s with
  | ok a t =>
    rw [e] at h1
    have h2 := hf t
    cases e2 : fin t with
    | ok _ u => rw [e2] at h2; simp only [e2]; exact h.trans h1 h2
    | error _ u => rw [e2] at h2; simp only [e2]; exact h.trans h1 h2
  | error x t =>
    rw [e] at h1
    have h2 := hf t
    cases e2 : fin t with
    | ok _ u => rw [e2] at h2; simp only [e2]; exact h.trans h1 h2
    | error _ u => rw [e2] at h2; simp only [e2]; exact h.trans h1 h2

end

end Sys2Proof.Machine
end

