-- ==== Sys2Proof/Laws/Stable.lean ====
section
/-! SUPPORT. What every operation does to the state, said once for any relation `R` between the state before and the
state after: if `R` survives the few primitive effects of a layer, it survives every operation of that layer. The
frames and the invariant are instances. -/

namespace Sys2Proof.Machine

open Sys2Proof

/-! ## The link layer -/

/-- Whatever `m` ends with, `R` holds, when the active link is `i`. -/
def KeepsOn {α : Type} (i : Iface) (R : State → State → Prop) (m : Dap α) : Prop :=
  ∀ s, s.cfg.iface = i → R s (endState (m s))

/-- `R` survives the effects of link transactions that write no ABORT; it fixes the configuration unless it says nothing
of the state. -/
structure LinkStable (R : State → State → Prop) : Prop extends Chain R where
  cfg : ∀ {s t}, R s t → t.cfg = s.cfg ∨ ∀ u, R s u
  irsel : ∀ ir, ir ≠ .abort → KeepsOn .jtag R (jtagIrsel ir)
  scan : ∀ ir rnw a d, ir ≠ .abort → KeepsOn .jtag R (jtagScan ir rnw a d)
  driveLine : ∀ segs, isAbortCall (.driveLine segs []) = false → Keeps R (bdDriveLine segs)
  draw : Keeps R draw
  backend : ∀ s call reply, isAbortCall (.backend call reply) = false → R s (s.pushEvent (.backend call reply))

section

variable {α β : Type} {R : State → State → Prop} {i : Iface}

theorem keepsOn_of_keeps {m : Dap α} (h : Keeps R m) : KeepsOn i R m := fun s _ => h s

theorem keepsOn_bind (h : LinkStable R) {m : Dap α} {f : α → Dap β} (hm : KeepsOn i R m)
    (hf : ∀ a, KeepsOn i R (f a)) : KeepsOn i R (m >>= f) := by
  intro s hs
  have h1 := hm s hs
  rw [run_bind]
  cases e : m s with
  | ok a t =>
    rw [e] at h1
    rcases h.cfg h1 with hc | hall
    · have hc : t.cfg = s.cfg := hc
      exact h.trans h1 (hf a t (hc ▸ hs))
    · exact hall _
  | error x t =>
    rw [e] at h1
    exact h1

theorem keepsOn_pure (h : LinkStable R) (a : α) : KeepsOn i R (pure a : Dap α) :=
  keepsOn_of_keeps (keeps_pure h.toChain a)

/-! ### JTAG -/

theorem keeps_jtagIssue (h : Chain R) {req : Scan} (hd : Keeps R (bdDrScan req)) : Keeps R (jtagIssue req) :=
  keeps_bind h hd fun _ => keeps_ite (keeps_pure h _) (keeps_ite (keeps_pure h _) (keeps_raise h _))

theorem keeps_jtagScanLoop (h : Chain R) (ir : IrCode) (rnw : Bool) (a : RegAddr) {req : Scan}
    (hd : Keeps R (bdDrScan req)) (n : Nat) : Keeps R (jtagScanLoop ir rnw a req n) := by
  induction n with
  | zero =>
    refine keeps_bind h (keeps_jtagIssue h hd) fun o => ?_
    cases o with
    | some d => exact keeps_pure h d
    | none => exact keeps_raise h _
  | succ n ih =>
    refine keeps_bind h (keeps_jtagIssue h hd) fun o => ?_
    cases o with
    | some d => exact keeps_pure h d
    | none => exact ih

/-- A scan keeps what the load of its instruction and each of its issues keep. -/
theorem keepsOn_jtagScan_of (h : Chain R) {ir : IrCode} (hi : KeepsOn .jtag R (jtagIrsel ir)) {rnw : Bool}
    {a : RegAddr} {d : W32} (hd : Keeps R (bdDrScan (drReq rnw a d))) : KeepsOn .jtag R (jtagScan ir rnw a d) := by
  intro s hs
  have h1 := hi s hs
  unfold jtagScan
  rw [run_bind]
  cases e : jtagIrsel ir s with
  | ok _ t =>
    rw [e] at h1
    exact h.trans h1 (keeps_jtagScanLoop h ir rnw a hd _ t)
  | error x t =>
    rw [e] at h1
    exact h1

theorem keepsOn_jtagScan (h : LinkStable R) {ir : IrCode} (hir : ir ≠ .abort) (rnw : Bool) (a : RegAddr) (d : W32) :
    KeepsOn .jtag R (jtagScan ir rnw a d) := h.scan ir rnw a d hir

theorem keepsOn_jtagDpaccRd (h : LinkStable R) (a : RegAddr) : KeepsOn .jtag R (jtagDpaccRd a) :=
  keepsOn_bind h (keepsOn_jtagScan h (by decide) _ _ _) fun _ => keepsOn_jtagScan h (by decide) _ _ _

theorem keepsOn_jtagDpaccWr (h : LinkStable R) (a : RegAddr) (v : W32) : KeepsOn .jtag R (jtagDpaccWr a v) :=
  keepsOn_bind h (keepsOn_jtagScan h (by decide) _ _ _) fun _ => keepsOn_pure h _

theorem keepsOn_jtagApaccRd (h : LinkStable R) (a : RegAddr) : KeepsOn .jtag R (jtagApaccRd a) :=
  keepsOn_bind h (keepsOn_jtagScan h (by decide) _ _ _) fun _ => keepsOn_jtagScan h (by decide) _ _ _

theorem keepsOn_jtagApaccWr (h : LinkStable R) (a : RegAddr) (v : W32) : KeepsOn .jtag R (jtagApaccWr a v) :=
  keepsOn_bind h (keepsOn_jtagScan h (by decide) _ _ _) fun _ => keepsOn_pure h _

theorem keepsOn_jtagReadScans (h : LinkStable R) (rs : List (IrCode × RegAddr)) (hr : ∀ r ∈ rs, r.1 ≠ .abort) :
    KeepsOn .jtag R (jtagReadScans rs) := by
  induction rs with
  | nil => exact keepsOn_bind h (keepsOn_jtagScan h (by decide) _ _ _) fun _ => keepsOn_pure h _
  | cons r rs ih =>
    obtain ⟨ir, a⟩ := r
    exact keepsOn_bind h (keepsOn_jtagScan h (hr (ir, a) (by simp)) _ _ _) fun _ =>
      keepsOn_bind h (ih fun x hx => hr x (List.mem_cons_of_mem _ hx)) fun _ => keepsOn_pure h _

theorem keepsOn_jtagReadn (h : LinkStable R) (rs : List (IrCode × RegAddr)) (hr : ∀ r ∈ rs, r.1 ≠ .abort) :
    KeepsOn .jtag R (jtagReadn rs) :=
  keepsOn_bind h (keepsOn_jtagReadScans h rs hr) fun _ => keepsOn_pure h _

theorem keepsOn_jtagWriten (h : LinkStable R) (a : RegAddr) (ws : List W32) : KeepsOn .jtag R (jtagWriten a ws) := by
  induction ws with
  | nil => exact keepsOn_pure h _
  | cons w ws ih => exact keepsOn_bind h (keepsOn_jtagScan h (by decide) _ _ _) fun _ => ih

/-! ### SWD -/

theorem keeps_swdIdle (h : LinkStable R) : Keeps R swdIdle := by
  refine keeps_getS_bind fun s => ?_
  split
  · exact h.refl s
  · refine keeps_bind h.toChain (h.driveLine _ ?_) (fun _ => keeps_pure h.toChain _) s
    cases hn : s.cfg.swdIdleCycles with
    | zero => contradiction
    | succ n =>
      have : (false :: List.replicate n false == bitsOf (0x81#8) 8) = false := rfl
      simpa [isAbortCall, List.replicate_succ] using this

theorem keeps_swdWritePhase (h : LinkStable R) (w : W32) : Keeps R (swdWritePhase w) :=
  keeps_bind h.toChain (h.driveLine _ rfl) fun _ => keeps_pure h.toChain _

theorem keeps_swdDataPhase (h : LinkStable R) (rnw : Bool) (w : W32) : Keeps R (swdDataPhase rnw w) := by
  cases rnw
  · exact keeps_bind h.toChain (keeps_swdWritePhase h w) fun _ =>
      keeps_bind h.toChain (keeps_swdIdle h) fun _ => keeps_pure h.toChain _
  · exact keeps_bind h.toChain (h.driveLine _ rfl) fun _ =>
      keeps_bind h.toChain (keeps_swdIdle h) fun _ =>
        keeps_ite (keeps_pure h.toChain _) (keeps_raise h.toChain _)

theorem keeps_swdSkipPhase (h : LinkStable R) (rnw : Bool) (w : W32) : Keeps R (swdSkipPhase rnw w) := by
  refine keeps_getS_bind fun s => ?_
  split
  · split
    · exact keeps_bind h.toChain (h.driveLine _ rfl) (fun _ => keeps_pure h.toChain _) s
    · exact keeps_swdWritePhase h w s
  · exact keeps_bind h.toChain (h.driveLine _ rfl) (fun _ => keeps_pure h.toChain _) s

/-- Only the write of DP address 0 is an ABORT write (R177). -/
theorem swdReq_not_abort (apndp rnw : Bool) (a : RegAddr) (h : apndp = true ∨ rnw = true ∨ a.extractLsb' 2 2 ≠ 0) :
    (bitsOf (swdReqByte apndp rnw a) 8 == bitsOf (0x81#8) 8) = false := by
  revert apndp rnw a
  decide

theorem keeps_swdXfer (h : LinkStable R) (apndp rnw : Bool) (a : RegAddr) (w : W32)
    (ha : apndp = true ∨ rnw = true ∨ a.extractLsb' 2 2 ≠ 0) : Keeps R (swdXfer apndp rnw a w) :=
  keeps_bind h.toChain (h.driveLine _ (swdReq_not_abort apndp rnw a ha)) fun _ =>
    keeps_ite (keeps_swdDataPhase h rnw w)
      (keeps_bind h.toChain (keeps_swdSkipPhase h rnw w) fun _ =>
        keeps_bind h.toChain (keeps_swdIdle h) fun _ => keeps_raise h.toChain _)

theorem keeps_swdDpRd (h : LinkStable R) (a : RegAddr) : Keeps R (swdDpRd a) :=
  keeps_swdXfer h false true a 0 (.inr (.inl rfl))

theorem keeps_swdDpWr (h : LinkStable R) (a : RegAddr) (v : W32) (ha : a.extractLsb' 2 2 ≠ 0) :
    Keeps R (swdDpWr a v) :=
  keeps_bind h.toChain (keeps_swdXfer h false false a v (.inr (.inr ha))) fun _ => keeps_pure h.toChain _

theorem keeps_swdApRd (h : LinkStable R) (a : RegAddr) : Keeps R (swdApRd a) :=
  keeps_bind h.toChain (keeps_swdXfer h true true a 0 (.inl rfl)) fun _ =>
    keeps_swdXfer h false true 0xC 0 (.inr (.inl rfl))

theorem keeps_swdApWr (h : LinkStable R) (a : RegAddr) (v : W32) : Keeps R (swdApWr a v) :=
  keeps_bind h.toChain (keeps_swdXfer h true false a v (.inl rfl)) fun _ => keeps_pure h.toChain _

theorem keeps_swdReadXfers (h : LinkStable R) (a : RegAddr) (n : Nat) : Keeps R (swdReadXfers a n) := by
  induction n with
  | zero =>
    exact keeps_bind h.toChain (keeps_swdXfer h false true 0xC 0 (.inr (.inl rfl))) fun _ => keeps_pure h.toChain _
  | succ n ih =>
    exact keeps_bind h.toChain (keeps_swdXfer h true true a 0 (.inl rfl)) fun _ =>
      keeps_bind h.toChain ih fun _ => keeps_pure h.toChain _

theorem keeps_swdReadn (h : LinkStable R) (a : RegAddr) (n : Nat) : Keeps R (swdReadn a n) :=
  keeps_bind h.toChain (keeps_swdReadXfers h a n) fun _ => keeps_pure h.toChain _

theorem keeps_swdWriten (h : LinkStable R) (a : RegAddr) (ws : List W32) : Keeps R (swdWriten a ws) := by
  induction ws with
  | nil => exact keeps_pure h.toChain _
  | cons w ws ih => exact keeps_bind h.toChain (keeps_swdXfer h true false a w (.inl rfl)) fun _ => ih

theorem keeps_swdLinereset (h : LinkStable R) : Keeps R swdLinereset :=
  keeps_bind h.toChain (h.driveLine _ (by decide)) fun _ =>
    keeps_bind h.toChain (h.driveLine _ (by decide)) fun _ =>
      keeps_bind h.toChain (h.driveLine _ (by decide)) fun _ => keeps_pure h.toChain _

theorem keeps_swdTargetsel (h : LinkStable R) (v : W32) : Keeps R (swdTargetsel v) :=
  keeps_bind h.toChain (h.driveLine _ (by decide)) fun _ => keeps_swdWritePhase h v

/-! ### The vendor backend -/

/-- The call does not write ABORT. -/
def BackendCall.notAbort (call : BackendCall) : Prop := ∀ reply, isAbortCall (.backend call reply) = false

theorem keeps_backendCall (h : LinkStable R) {call : BackendCall} (hc : call.notAbort) {reply : W32 → Dap (List W32)}
    (hr : ∀ w, Keeps R (reply w)) : Keeps R (backendCall call reply) :=
  keeps_bind h.toChain h.draw fun _ =>
    keeps_ite
      (keeps_bind h.toChain (keeps_upd fun s => h.backend s _ _ (hc _)) fun _ => keeps_raise h.toChain _)
      (keeps_bind h.toChain (hr _) fun _ =>
        keeps_bind h.toChain (keeps_upd fun s => h.backend s _ _ (hc _)) fun _ => keeps_pure h.toChain _)

theorem keeps_backendWord (h : LinkStable R) {call : BackendCall} (hc : call.notAbort) : Keeps R (backendWord call) :=
  keeps_bind h.toChain (keeps_backendCall h hc fun _ => keeps_pure h.toChain _) fun _ => keeps_pure h.toChain _

theorem keeps_backendUnit (h : LinkStable R) {call : BackendCall} (hc : call.notAbort) : Keeps R (backendUnit call) :=
  keeps_bind h.toChain (keeps_backendCall h hc fun _ => keeps_pure h.toChain _) fun _ => keeps_pure h.toChain _

theorem keeps_backendReadN (h : LinkStable R) (a : RegAddr) (n : Nat) : Keeps R (backendReadN a n) := by
  induction n with
  | zero => exact keeps_pure h.toChain _
  | succ n ih =>
    exact keeps_bind h.toChain (keeps_backendWord h fun _ => rfl) fun _ =>
      keeps_bind h.toChain ih fun _ => keeps_pure h.toChain _

theorem keeps_backendWriteN (h : LinkStable R) (a : RegAddr) (ws : List W32) : Keeps R (backendWriteN a ws) := by
  induction ws with
  | nil => exact keeps_pure h.toChain _
  | cons w ws ih => exact keeps_bind h.toChain (keeps_backendUnit h fun _ => rfl) fun _ => ih

theorem keeps_drawWords (h : LinkStable R) (n : Nat) : Keeps R (drawWords n) := by
  induction n with
  | zero => exact keeps_pure h.toChain _
  | succ n ih =>
    exact keeps_bind h.toChain h.draw fun _ => keeps_bind h.toChain ih fun _ => keeps_pure h.toChain _

/-! ### The seven primitives -/

theorem keeps_linkDpRead (h : LinkStable R) (a : RegAddr) : Keeps R (linkDpRead a) := by
  refine keeps_getS_bind fun s => ?_
  cases hi : s.cfg.iface with
  | jtag => exact keepsOn_jtagDpaccRd h a s hi
  | swd => exact keeps_swdDpRd h a s
  | vendor => exact keeps_backendWord h (fun _ => rfl) s

theorem keeps_linkDpWrite (h : LinkStable R) (a : RegAddr) (v : W32) (ha : a.extractLsb' 2 2 ≠ 0) :
    Keeps R (linkDpWrite a v) := by
  refine keeps_getS_bind fun s => ?_
  cases hi : s.cfg.iface with
  | jtag => exact keepsOn_jtagDpaccWr h a v s hi
  | swd => exact keeps_swdDpWr h a v ha s
  | vendor => exact keeps_backendUnit h (fun _ => rfl) s

theorem keeps_linkApRead (h : LinkStable R) (a : RegAddr) : Keeps R (linkApRead a) := by
  refine keeps_getS_bind fun s => ?_
  cases hi : s.cfg.iface with
  | jtag => exact keepsOn_jtagApaccRd h a s hi
  | swd => exact keeps_swdApRd h a s
  | vendor => exact keeps_backendWord h (fun _ => rfl) s

theorem keeps_linkApWrite (h : LinkStable R) (a : RegAddr) (v : W32) : Keeps R (linkApWrite a v) := by
  refine keeps_getS_bind fun s => ?_
  cases hi : s.cfg.iface with
  | jtag => exact keepsOn_jtagApaccWr h a v s hi
  | swd => exact keeps_swdApWr h a v s
  | vendor => exact keeps_backendUnit h (fun _ => rfl) s

theorem keeps_linkApReadN (h : LinkStable R) (a : RegAddr) (n : Nat) : Keeps R (linkApReadN a n) := by
  refine keeps_getS_bind fun s => ?_
  cases hi : s.cfg.iface with
  | jtag =>
    exact keepsOn_jtagReadn h _ (fun r hr => by rw [List.eq_of_mem_replicate hr]; exact IrCode.noConfusion) s hi
  | swd => exact keeps_swdReadn h a n s
  | vendor => exact keeps_backendReadN h a n s

theorem keeps_linkApWriteN (h : LinkStable R) (a : RegAddr) (ws : List W32) : Keeps R (linkApWriteN a ws) := by
  refine keeps_getS_bind fun s => ?_
  cases hi : s.cfg.iface with
  | jtag => exact keepsOn_jtagWriten h a ws s hi
  | swd => exact keeps_swdWriten h a ws s
  | vendor => exact keeps_backendWriteN h a ws s

/-! ### ABORT -/

/-- `R` also survives an ABORT write. -/
structure AbortStable (R : State → State → Prop) : Prop extends LinkStable R where
  irselAbort : KeepsOn .jtag R (jtagIrsel .abort)
  scanAbort : ∀ rnw a d, KeepsOn .jtag R (jtagScan .abort rnw a d)
  driveAny : ∀ segs, Keeps R (bdDriveLine segs)
  backendAny : ∀ s call reply, R s (s.pushEvent (.backend call reply))

theorem keepsOn_jtagAbortWr (h : AbortStable R) (v : W32) : KeepsOn .jtag R (jtagAbortWr v) :=
  keepsOn_bind h.toLinkStable (h.scanAbort _ _ _) fun _ => keepsOn_pure h.toLinkStable _

/-- Every request, the ABORT write included. -/
theorem keeps_swdXferAny (h : AbortStable R) (apndp rnw : Bool) (a : RegAddr) (w : W32) :
    Keeps R (swdXfer apndp rnw a w) :=
  keeps_bind h.toChain (h.driveAny _) fun _ =>
    keeps_ite (keeps_swdDataPhase h.toLinkStable rnw w)
      (keeps_bind h.toChain (keeps_swdSkipPhase h.toLinkStable rnw w) fun _ =>
        keeps_bind h.toChain (keeps_swdIdle h.toLinkStable) fun _ => keeps_raise h.toChain _)

theorem keepsOn_jtagScanAny (h : AbortStable R) (ir : IrCode) (rnw : Bool) (a : RegAddr) (d : W32) :
    KeepsOn .jtag R (jtagScan ir rnw a d) := by
  cases ir with
  | abort => exact h.scanAbort _ _ _
  | dpacc => exact keepsOn_jtagScan h.toLinkStable (by decide) _ _ _
  | apacc => exact keepsOn_jtagScan h.toLinkStable (by decide) _ _ _

theorem keepsOn_jtagReadnAny (h : AbortStable R) (rs : List (IrCode × RegAddr)) :
    KeepsOn .jtag R (jtagReadn rs) := by
  refine keepsOn_bind h.toLinkStable ?_ fun _ => keepsOn_pure h.toLinkStable _
  induction rs with
  | nil => exact keepsOn_bind h.toLinkStable (keepsOn_jtagScanAny h _ _ _ _) fun _ => keepsOn_pure h.toLinkStable _
  | cons r rs ih =>
    exact keepsOn_bind h.toLinkStable (keepsOn_jtagScanAny h _ _ _ _) fun _ =>
      keepsOn_bind h.toLinkStable ih fun _ => keepsOn_pure h.toLinkStable _

theorem keeps_linkAbort (h : AbortStable R) (v : W32) : Keeps R (linkAbort v) := by
  refine keeps_getS_bind fun s => ?_
  cases hi : s.cfg.iface with
  | jtag => exact keepsOn_jtagAbortWr h v s hi
  | swd => exact keeps_bind h.toChain (keeps_swdXferAny h _ _ _ _) (fun _ => keeps_pure h.toChain _) s
  | vendor =>
    have hp : ∀ e r, Keeps R (upd fun s => s.pushEvent (.backend e r)) := fun e r =>
      keeps_upd fun s => h.backendAny s e r
    exact keeps_bind h.toChain (keeps_bind h.toChain h.draw fun _ =>
      keeps_ite (keeps_bind h.toChain (hp _ _) fun _ => keeps_raise h.toChain _)
        (keeps_bind h.toChain (keeps_pure h.toChain _) fun _ =>
          keeps_bind h.toChain (hp _ _) fun _ => keeps_pure h.toChain _))
      (fun _ => keeps_pure h.toChain _) s

theorem keeps_clearSticky (h : AbortStable R) : Keeps R clearSticky :=
  keeps_getS_bind fun s => keeps_linkAbort h _ s

end

/-! ## The DP layer -/

/-- `R` also survives what WriteSelect writes (R190). -/
structure SelectStable (R : State → State → Prop) : Prop extends LinkStable R where
  lose : ∀ s, R s (s.setSelectLast none)
  gain : ∀ s v old,
    R s ((s.setSelectLast (some v)).setFreeze s.freezeDepth (freezeAfter s.frozenValid old v))

section

variable {R : State → State → Prop}

theorem keeps_writeSelect (h : SelectStable R) (v : W32) : Keeps R (writeSelect v) := by
  refine keeps_getS_bind fun s => ?_
  split
  · exact h.refl s
  · exact keeps_bind h.toChain (keeps_upd h.lose)
      (fun _ => keeps_bind h.toChain (keeps_linkDpWrite h.toLinkStable 0x8 v (by decide)) fun _ =>
        keeps_upd fun t => h.gain t v _) s

theorem keeps_dpSelectBank (h : SelectStable R) (bank : BitVec 4) : Keeps R (dpSelectBank bank) :=
  keeps_getS_bind fun s => keeps_writeSelect h _ s

theorem keeps_selectAp (h : SelectStable R) (ap : ApIndex) (addr : BitVec 12) : Keeps R (selectAp ap addr) :=
  keeps_writeSelect h _

theorem keeps_dpRead (h : SelectStable R) (r : DpReg) : Keeps R (dpRead r) :=
  keeps_ite (keeps_linkDpRead h.toLinkStable _)
    (keeps_bind h.toChain (keeps_dpSelectBank h _) fun _ => keeps_linkDpRead h.toLinkStable _)

theorem keeps_dpWriteTargetsel (h : SelectStable R) (v : W32) : Keeps R (dpWriteTargetsel v) :=
  keeps_bind h.toChain (keeps_getS h.toChain) fun _ =>
    keeps_bind h.toChain (keeps_check h.toChain _ _) fun _ => keeps_swdTargetsel h.toLinkStable v

/-- Every register but ABORT. -/
theorem keeps_dpWrite (h : SelectStable R) {r : DpReg} (hr : r ≠ .abort) (v : W32) : Keeps R (dpWrite r v) := by
  have banked : ∀ r, (dpAddr r).extractLsb' 2 2 ≠ 0 → Keeps R (dpWriteBanked r v) := fun r ha =>
    keeps_bind h.toChain (keeps_dpSelectBank h _) fun _ => keeps_linkDpWrite h.toLinkStable _ v ha
  cases r with
  | abort => exact absurd rfl hr
  | select => exact keeps_writeSelect h v
  | targetsel => exact keeps_dpWriteTargetsel h v
  | ctrlStat => exact banked .ctrlStat (by decide)
  | select1 => exact banked .select1 (by decide)
  | dpidr => exact keeps_raise h.toChain _
  | targetid => exact keeps_raise h.toChain _
  | dlpidr => exact keeps_raise h.toChain _
  | eventstat => exact keeps_raise h.toChain _
  | dpidr1 => exact keeps_raise h.toChain _
  | rdbuff => exact keeps_raise h.toChain _

theorem keeps_apRead (h : SelectStable R) (ap : ApIndex) (addr : BitVec 12) : Keeps R (apRead ap addr) :=
  keeps_bind h.toChain (keeps_writeSelect h _) fun _ => keeps_linkApRead h.toLinkStable _

theorem keeps_apWrite (h : SelectStable R) (ap : ApIndex) (addr : BitVec 12) (v : W32) : Keeps R (apWrite ap addr v) :=
  keeps_bind h.toChain (keeps_writeSelect h _) fun _ => keeps_linkApWrite h.toLinkStable _ v

theorem keeps_apReadN (h : SelectStable R) (ap : ApIndex) (addr : BitVec 12) (n : Nat) : Keeps R (apReadN ap addr n) :=
  keeps_bind h.toChain (keeps_writeSelect h _) fun _ => keeps_linkApReadN h.toLinkStable _ n

theorem keeps_apWriteN (h : SelectStable R) (ap : ApIndex) (addr : BitVec 12) (ws : List W32) :
    Keeps R (apWriteN ap addr ws) :=
  keeps_bind h.toChain (keeps_writeSelect h _) fun _ => keeps_linkApWriteN h.toLinkStable _ ws

theorem keeps_rereadSticky (h : SelectStable R) (n : Nat) (w : W32) : Keeps R (rereadSticky n w) := by
  induction n generalizing w with
  | zero => exact keeps_raise h.toChain _
  | succ n ih =>
    exact keeps_bind h.toChain (keeps_linkDpRead h.toLinkStable _) fun v =>
      keeps_ite (keeps_pure h.toChain _) (ih v)

theorem keeps_checkSticky (h : SelectStable R) : Keeps R checkSticky :=
  keeps_bind h.toChain (keeps_dpSelectBank h 0) fun _ =>
    keeps_bind h.toChain (keeps_linkDpRead h.toLinkStable _) fun _ =>
      keeps_ite (keeps_pure h.toChain _) (keeps_rereadSticky h _ _)

theorem keeps_pollPower (h : SelectStable R) (n : Nat) : Keeps R (pollPower n) := by
  induction n with
  | zero =>
    exact keeps_bind h.toChain (keeps_linkDpRead h.toLinkStable _) fun _ =>
      keeps_ite (keeps_pure h.toChain _) (keeps_raise h.toChain _)
  | succ n ih =>
    exact keeps_bind h.toChain (keeps_linkDpRead h.toLinkStable _) fun _ => keeps_ite (keeps_pure h.toChain _) ih

theorem keeps_reassertPower (h : SelectStable R) : Keeps R reassertPower :=
  keeps_bind h.toChain (keeps_dpSelectBank h 0) fun _ =>
    keeps_bind h.toChain (keeps_linkDpRead h.toLinkStable _) fun _ =>
      keeps_ite (keeps_pure h.toChain _)
        (keeps_bind h.toChain (keeps_linkDpWrite h.toLinkStable _ _ (by decide)) fun _ =>
          keeps_bind h.toChain (keeps_pollPower h _) fun _ => keeps_pure h.toChain _)

theorem keeps_swdAttempt (h : SelectStable R) (t : Option W32) : Keeps R (swdAttempt t) := by
  refine keeps_bind h.toChain (keeps_swdLinereset h.toLinkStable) fun _ =>
    keeps_bind h.toChain (keeps_upd h.lose) fun _ =>
      keeps_bind h.toChain ?_ fun _ => keeps_swdXfer h.toLinkStable _ _ _ _ (.inr (.inl rfl))
  cases t with
  | none => exact keeps_pure h.toChain _
  | some v => exact keeps_swdTargetsel h.toLinkStable v

theorem keeps_swdConnectLoop (h : SelectStable R) (t : Option W32) (n made : Nat) :
    Keeps R (swdConnectLoop t n made) := by
  induction n generalizing made with
  | zero =>
    refine keeps_onError h.toChain (keeps_swdAttempt h t) fun e => ?_
    cases e <;> exact keeps_raise h.toChain _
  | succ n ih =>
    refine keeps_onError h.toChain (keeps_swdAttempt h t) fun e => ?_
    cases e <;> first | exact ih _ | exact keeps_raise h.toChain _

theorem keeps_swdConnect (h : SelectStable R) (t : Option W32) : Keeps R (swdConnect t) :=
  keeps_getS_bind fun s => keeps_swdConnectLoop h t _ _ s

theorem keeps_apRegRead (h : SelectStable R) (ap : ApIndex) (off : BitVec 12) : Keeps R (apRegRead ap off) :=
  keeps_getS_bind fun s => keeps_apRead h ap _ s

theorem keeps_apRegWrite (h : SelectStable R) (ap : ApIndex) (off : BitVec 12) (v : W32) :
    Keeps R (apRegWrite ap off v) :=
  keeps_getS_bind fun s => keeps_apWrite h ap _ v s

end

end Sys2Proof.Machine
end

