-- ==== Sys2Proof/Laws/Port.lean ====
section
/-! SUPPORT. What each call beyond the port does, said once, and the frames of the link and of the DP layer. -/

namespace Sys2Proof.Machine

open Sys2Proof

/-! ## The BitDriver calls -/

theorem draw_run (s : State) :
    draw s = .ok s.nextAnswer (s.setAnswers s.answers.tail (s.drawn + 1)) := rfl

theorem bdIrScan_run (v : BitVec 4) (s : State) :
    bdIrScan v s = .ok () ((s.setTarget (s.target.map fun t => t.irScan v)).pushEvent (.irScan v)) := rfl

/-- With no target a scan captures one draw. -/
theorem bdDrScan_free (req : Scan) {s : State} (h : s.target = none) :
    bdDrScan req s =
      .ok s.nextAnswer ((s.setAnswers s.answers.tail (s.drawn + 1)).pushEvent (.drScan req s.nextAnswer)) := by
  unfold bdDrScan
  rw [run_getS_bind, h]
  rfl

/-- With T0 a scan captures what T0 answers. -/
theorem bdDrScan_target (req : Scan) {s : State} {t : T0} (h : s.target = some t) :
    bdDrScan req s =
      .ok (t.drScan req).1
        ((s.setTarget (some (t.drScan req).2)).pushEvent (.drScan req (t.drScan req).1)) := by
  unfold bdDrScan
  rw [run_getS_bind, h]
  rfl

/-- With no target a call that samples nothing draws nothing. -/
theorem bdDriveLine_silent {segs : List Segment} {s : State} (h : s.target = none) (hn : sampledBits segs = 0) :
    bdDriveLine segs s = .ok [] (s.pushEvent (.driveLine segs [])) := by
  unfold bdDriveLine
  rw [run_getS_bind, h]
  simp only [hn, if_pos]
  rfl

/-- With no target a call that samples takes the low bits of one draw. -/
theorem bdDriveLine_free {segs : List Segment} {s : State} (h : s.target = none) (hn : sampledBits segs ≠ 0) :
    bdDriveLine segs s =
      .ok (bitsOf s.nextAnswer (sampledBits segs))
        ((s.setAnswers s.answers.tail (s.drawn + 1)).pushEvent
          (.driveLine segs (bitsOf s.nextAnswer (sampledBits segs)))) := by
  unfold bdDriveLine
  rw [run_getS_bind, h]
  simp only [if_neg hn]
  rfl

/-- With T0 a call samples what T0 drives. -/
theorem bdDriveLine_target (segs : List Segment) {s : State} {t : T0} (h : s.target = some t) :
    bdDriveLine segs s =
      .ok (t.driveLine segs).1
        ((s.setTarget (some (t.driveLine segs).2)).pushEvent (.driveLine segs (t.driveLine segs).1)) := by
  unfold bdDriveLine
  rw [run_getS_bind, h]
  rfl

/-- The whole of what `bdDrScan` does to the state. -/
theorem keeps_bdDrScan {R : State → State → Prop} (req : Scan)
    (hf : ∀ s, s.target = none → R s
      ((s.setAnswers s.answers.tail (s.drawn + 1)).pushEvent (.drScan req s.nextAnswer)))
    (ht : ∀ s t, s.target = some t → R s
      ((s.setTarget (some (t.drScan req).2)).pushEvent (.drScan req (t.drScan req).1))) :
    Keeps R (bdDrScan req) := by
  intro s
  cases h : s.target with
  | none => rw [bdDrScan_free req h]; exact hf s h
  | some t => rw [bdDrScan_target req h]; exact ht s t h

/-- The whole of what `bdDriveLine` does to the state. -/
theorem keeps_bdDriveLine {R : State → State → Prop} (segs : List Segment)
    (hf : ∀ s xs n bits, s.target = none → R s ((s.setAnswers xs n).pushEvent (.driveLine segs bits)))
    (ht : ∀ s t, s.target = some t → R s
      ((s.setTarget (some (t.driveLine segs).2)).pushEvent (.driveLine segs (t.driveLine segs).1))) :
    Keeps R (bdDriveLine segs) := by
  intro s
  cases h : s.target with
  | none =>
    by_cases hn : sampledBits segs = 0
    · rw [bdDriveLine_silent h hn]; exact hf s s.answers s.drawn _ h
    · rw [bdDriveLine_free h hn]; exact hf s _ _ _ h
  | some t => rw [bdDriveLine_target segs h]; exact ht s t h

/-! ## JTAG.IRSEL (R150) -/

theorem jtagIrsel_same {ir : IrCode} {s : State} (h : s.jtagIr = some ir) : jtagIrsel ir s = .ok () s := by
  unfold jtagIrsel
  rw [run_getS_bind, if_pos h]
  rfl

theorem jtagIrsel_change {ir : IrCode} {s : State} (h : s.jtagIr ≠ some ir) :
    jtagIrsel ir s =
      .ok () (((s.setTarget (s.target.map fun t => t.irScan ir.code)).pushEvent (.irScan ir.code)).setJtagIr
        (some ir)) := by
  unfold jtagIrsel
  rw [run_getS_bind, if_neg h]
  rfl

theorem keepsOn_jtagIrsel {R : State → State → Prop} {i : Iface} (hr : ∀ s, R s s) (ir : IrCode)
    (h : ∀ s, s.cfg.iface = i → s.jtagIr ≠ some ir → R s
      (((s.setTarget (s.target.map fun t => t.irScan ir.code)).pushEvent (.irScan ir.code)).setJtagIr (some ir))) :
    KeepsOn i R (jtagIrsel ir) := by
  intro s hs
  by_cases hi : s.jtagIr = some ir
  · rw [jtagIrsel_same hi]; exact hr s
  · rw [jtagIrsel_change hi]; exact h s hs hi

/-! ## Pairs of relations -/

theorem LinkStable.and {R Q : State → State → Prop} (h : LinkStable R) (k : LinkStable Q)
    (hq : ∀ {s t}, Q s t → t.cfg = s.cfg) : LinkStable fun s t => R s t ∧ Q s t where
  refl := fun s => ⟨h.refl s, k.refl s⟩
  trans := fun a b => ⟨h.trans a.1 b.1, k.trans a.2 b.2⟩
  cfg := fun a => .inl (hq a.2)
  irsel := fun ir hir s hs => ⟨h.irsel ir hir s hs, k.irsel ir hir s hs⟩
  scan := fun ir rnw a d hir s hs => ⟨h.scan ir rnw a d hir s hs, k.scan ir rnw a d hir s hs⟩
  driveLine := fun segs hn s => ⟨h.driveLine segs hn s, k.driveLine segs hn s⟩
  draw := fun s => ⟨h.draw s, k.draw s⟩
  backend := fun s c r hn => ⟨h.backend s c r hn, k.backend s c r hn⟩

theorem SelectStable.and {R Q : State → State → Prop} (h : SelectStable R) (k : SelectStable Q)
    (hq : ∀ {s t}, Q s t → t.cfg = s.cfg) : SelectStable fun s t => R s t ∧ Q s t where
  toLinkStable := h.toLinkStable.and k.toLinkStable hq
  lose := fun s => ⟨h.lose s, k.lose s⟩
  gain := fun s v old => ⟨h.gain s v old, k.gain s v old⟩

/-! ## Frames -/

theorem FrameLink.refl (s : State) : FrameLink s s :=
  ⟨rfl, rfl, rfl, rfl, rfl, rfl, fun _ => rfl, rfl, rfl, rfl, rfl, List.prefix_rfl⟩

theorem FrameLink.trans {s t u : State} (h : FrameLink s t) (k : FrameLink t u) : FrameLink s u where
  dpVersion := k.dpVersion.trans h.dpVersion
  selectLast := k.selectLast.trans h.selectLast
  freezeDepth := k.freezeDepth.trans h.freezeDepth
  frozenValid := k.frozenValid.trans h.frozenValid
  apState := k.apState.trans h.apState
  conn := k.conn.trans h.conn
  jtagIr := fun hi => (k.jtagIr (h.cfg ▸ hi)).trans (h.jtagIr hi)
  cfg := k.cfg.trans h.cfg
  commands := k.commands.trans h.commands
  pc := k.pc.trans h.pc
  results := k.results.trans h.results
  trace := h.trace.trans k.trace

/-- A step that appends one call and touches only the environment and the target. -/
theorem FrameLink.call {s t : State} (e : WireEvent) (hv : t.dpVersion = s.dpVersion) (hl : t.selectLast = s.selectLast)
    (hd : t.freezeDepth = s.freezeDepth) (hf : t.frozenValid = s.frozenValid) (ha : t.apState = s.apState)
    (hc : t.conn = s.conn) (hj : s.cfg.iface ≠ .jtag → t.jtagIr = s.jtagIr) (hg : t.cfg = s.cfg)
    (hm : t.commands = s.commands) (hp : t.pc = s.pc) (hr : t.results = s.results) (ht : t.trace = s.trace ++ [e]) :
    FrameLink s t :=
  ⟨hv, hl, hd, hf, ha, hc, hj, hg, hm, hp, hr, ht ▸ List.prefix_append _ _⟩

theorem frameLink_irsel (ir : IrCode) : KeepsOn .jtag FrameLink (jtagIrsel ir) :=
  keepsOn_jtagIrsel FrameLink.refl ir fun _ hs _ =>
    FrameLink.call _ rfl rfl rfl rfl rfl rfl (fun h => absurd hs h) rfl rfl rfl rfl rfl

theorem frameLink_drScan (req : Scan) : Keeps FrameLink (bdDrScan req) :=
  keeps_bdDrScan req
    (fun _ _ => FrameLink.call _ rfl rfl rfl rfl rfl rfl (fun _ => rfl) rfl rfl rfl rfl rfl)
    (fun _ _ _ => FrameLink.call _ rfl rfl rfl rfl rfl rfl (fun _ => rfl) rfl rfl rfl rfl rfl)

theorem frameLink_scan (ir : IrCode) (rnw : Bool) (a : RegAddr) (d : W32) :
    KeepsOn .jtag FrameLink (jtagScan ir rnw a d) :=
  keepsOn_jtagScan_of ⟨FrameLink.refl, FrameLink.trans⟩ (frameLink_irsel ir) (frameLink_drScan _)

theorem frameLink_stable : LinkStable FrameLink where
  refl := FrameLink.refl
  trans := FrameLink.trans
  cfg := fun h => .inl h.cfg
  irsel := fun ir _ => frameLink_irsel ir
  scan := fun ir rnw a d _ => frameLink_scan ir rnw a d
  driveLine := fun segs _ => keeps_bdDriveLine segs
    (fun _ _ _ _ _ => FrameLink.call _ rfl rfl rfl rfl rfl rfl (fun _ => rfl) rfl rfl rfl rfl rfl)
    (fun _ _ _ => FrameLink.call _ rfl rfl rfl rfl rfl rfl (fun _ => rfl) rfl rfl rfl rfl rfl)
  draw := fun _ =>
    ⟨rfl, rfl, rfl, rfl, rfl, rfl, fun _ => rfl, rfl, rfl, rfl, rfl, List.prefix_rfl⟩
  backend := fun _ _ _ _ => FrameLink.call _ rfl rfl rfl rfl rfl rfl (fun _ => rfl) rfl rfl rfl rfl rfl

theorem FrameSelect.refl (s : State) : FrameSelect s s :=
  ⟨rfl, rfl, id, rfl, rfl, fun _ => rfl, rfl, rfl, rfl, rfl, List.prefix_rfl⟩

theorem FrameSelect.trans {s t u : State} (h : FrameSelect s t) (k : FrameSelect t u) : FrameSelect s u where
  dpVersion := k.dpVersion.trans h.dpVersion
  freezeDepth := k.freezeDepth.trans h.freezeDepth
  frozenValid := fun hv => h.frozenValid (k.frozenValid hv)
  apState := k.apState.trans h.apState
  conn := k.conn.trans h.conn
  jtagIr := fun hi => (k.jtagIr (h.cfg ▸ hi)).trans (h.jtagIr hi)
  cfg := k.cfg.trans h.cfg
  commands := k.commands.trans h.commands
  pc := k.pc.trans h.pc
  results := k.results.trans h.results
  trace := h.trace.trans k.trace

theorem FrameLink.toSelect {s t : State} (h : FrameLink s t) : FrameSelect s t :=
  ⟨h.dpVersion, h.freezeDepth, fun hv => h.frozenValid ▸ hv, h.apState, h.conn, h.jtagIr, h.cfg, h.commands, h.pc,
    h.results, h.trace⟩

/-- The shadow after a raw access depends on the version and the connections alone (R86 b). -/
theorem noteCsw_conn {s t : State} (hv : t.dpVersion = s.dpVersion) (hc : t.conn = s.conn) (ap : ApIndex)
    (addr : BitVec 12) (w : W32) : (t.noteCsw ap addr w).conn = (s.noteCsw ap addr w).conn := by
  unfold State.noteCsw State.apReg State.setShadow
  rw [hv, connOf_congr hc]
  split
  · simp [State.setConn, hc]
  · exact hc

theorem FrameSelect.noteCsw {s t : State} (h : FrameSelect s t) (ap : ApIndex) (addr : BitVec 12) (w : W32) :
    FrameSelect (s.noteCsw ap addr w) (t.noteCsw ap addr w) := by
  constructor
  case conn => exact noteCsw_conn h.dpVersion h.conn ap addr w
  all_goals simp only [noteCsw_dpVersion, noteCsw_freezeDepth, noteCsw_frozenValid, noteCsw_apState, noteCsw_jtagIr,
    noteCsw_cfg, noteCsw_commands, noteCsw_pc, noteCsw_results, noteCsw_trace]
  · exact h.dpVersion
  · exact h.freezeDepth
  · exact h.frozenValid
  · exact h.apState
  · exact h.jtagIr
  · exact h.cfg
  · exact h.commands
  · exact h.pc
  · exact h.results
  · exact h.trace

/-- A chained relation that every link effect keeps within `FrameLink`. -/
theorem linkStable_of_frameLink {R : State → State → Prop} (hc : Chain R) (hcfg : ∀ {s t}, R s t → t.cfg = s.cfg ∨ ∀ u, R s u)
    (h : ∀ {s t}, FrameLink s t → R s t) : LinkStable R where
  toChain := hc
  cfg := hcfg
  irsel := fun ir hir s hs => h (frameLink_stable.irsel ir hir s hs)
  scan := fun ir rnw a d hir s hs => h (frameLink_stable.scan ir rnw a d hir s hs)
  driveLine := fun segs hn s => h (frameLink_stable.driveLine segs hn s)
  draw := fun s => h (frameLink_stable.draw s)
  backend := fun s c r hn => h (frameLink_stable.backend s c r hn)

theorem freezeAfter_valid {valid : Bool} {old : Option W32} {v : W32} (h : freezeAfter valid old v = true) :
    valid = true := by
  unfold freezeAfter at h
  exact (Bool.and_eq_true _ _ ▸ h).1

theorem frameSelect_stable : SelectStable FrameSelect where
  toLinkStable := linkStable_of_frameLink ⟨FrameSelect.refl, FrameSelect.trans⟩ (fun h => .inl h.cfg)
    FrameLink.toSelect
  lose := fun _ => ⟨rfl, rfl, id, rfl, rfl, fun _ => rfl, rfl, rfl, rfl, rfl, List.prefix_rfl⟩
  gain := fun _ _ _ =>
    ⟨rfl, rfl, freezeAfter_valid, rfl, rfl, fun _ => rfl, rfl, rfl, rfl, rfl, List.prefix_rfl⟩

theorem frameLink_abortStable : AbortStable FrameLink where
  toLinkStable := frameLink_stable
  irselAbort := frameLink_irsel .abort
  scanAbort := frameLink_scan .abort
  driveAny := fun segs => keeps_bdDriveLine segs
    (fun _ _ _ _ _ => FrameLink.call _ rfl rfl rfl rfl rfl rfl (fun _ => rfl) rfl rfl rfl rfl rfl)
    (fun _ _ _ => FrameLink.call _ rfl rfl rfl rfl rfl rfl (fun _ => rfl) rfl rfl rfl rfl rfl)
  backendAny := fun _ _ _ => FrameLink.call _ rfl rfl rfl rfl rfl rfl (fun _ => rfl) rfl rfl rfl rfl rfl

/-- What the host's AP_READ may change: with the word read, the shadow where that was CSW; an error leaves it. -/
theorem frameSelect_hostApRead (ap : ApIndex) (addr : BitVec 12) (s : State) :
    (∃ v u, hostApRead ap addr s = .ok v u ∧ FrameSelect (s.noteCsw ap addr v) u) ∨
      ∃ e u, hostApRead ap addr s = .error e u ∧ FrameSelect s u := by
  have k := keeps_apRead frameSelect_stable ap addr s
  unfold hostApRead
  rw [run_bind]
  cases e : apRead ap addr s with
  | ok v t =>
    rw [e] at k
    exact .inl ⟨v, _, rfl, FrameSelect.noteCsw k ap addr v⟩
  | error x t =>
    rw [e] at k
    exact .inr ⟨x, t, rfl, k⟩

/-- What the host's AP_WRITE may change: the shadow where it wrote CSW; an error leaves it. -/
theorem frameSelect_hostApWrite (ap : ApIndex) (addr : BitVec 12) (v : W32) (s : State) :
    (∃ u, hostApWrite ap addr v s = .ok () u ∧ FrameSelect (s.noteCsw ap addr v) u) ∨
      ∃ e u, hostApWrite ap addr v s = .error e u ∧ FrameSelect s u := by
  have k := keeps_apWrite frameSelect_stable ap addr v s
  unfold hostApWrite
  rw [run_bind]
  cases e : apWrite ap addr v s with
  | ok _ t =>
    rw [e] at k
    exact .inl ⟨_, rfl, FrameSelect.noteCsw k ap addr v⟩
  | error x t =>
    rw [e] at k
    exact .inr ⟨x, t, rfl, k⟩

/-- `Link.Abort(v)` changes what a link transaction may change. -/
theorem frameLink_linkAbort (v : W32) : Keeps FrameLink (linkAbort v) := keeps_linkAbort frameLink_abortStable v

theorem frameSelect_linkAbort (v : W32) : Keeps FrameSelect (linkAbort v) := fun s => (frameLink_linkAbort v s).toSelect

theorem frameLink_clearSticky : Keeps FrameLink clearSticky :=
  keeps_getS_bind fun s => frameLink_linkAbort _ s

end Sys2Proof.Machine
end

