-- ==== Sys2Proof/Laws/Engine.lean ====
section
/-! SUPPORT. The engine and transport layers: a relation that survives the few primitive effects of a layer survives
every operation of it (see Laws/Stable.lean). -/

namespace Sys2Proof.Machine

open Sys2Proof

/-! ## The engine -/

/-- `R` also survives the effects of an engine command on the APs in `A`: the two cached fields of a connection, and a
freeze around it. -/
structure EngineStable (A : ApIndex → Prop) (R : State → State → Prop) : Prop extends SelectStable R where
  shadow : ∀ s ap w, A ap → R s (s.setShadow ap w)
  subword : ∀ s ap b, A ap → R s (s.setSubword ap b)
  frozen : ∀ s t, R s.freeze t → R s t.unfreeze

section

variable {α : Type} {A : ApIndex → Prop} {R : State → State → Prop}

theorem keeps_noteCsw (h : EngineStable A R) {ap : ApIndex} (ha : A ap) (addr : BitVec 12) (w : W32) :
    Keeps R (upd fun s => s.noteCsw ap addr w) :=
  keeps_upd fun s => by
    unfold State.noteCsw
    split
    · exact h.shadow s ap w ha
    · exact h.refl s

theorem keeps_hostApRead (h : EngineStable A R) {ap : ApIndex} (ha : A ap) (addr : BitVec 12) :
    Keeps R (hostApRead ap addr) :=
  keeps_bind h.toChain (keeps_apRead h.toSelectStable _ _) fun v =>
    keeps_bind h.toChain (keeps_noteCsw h ha addr v) fun _ => keeps_pure h.toChain _

theorem keeps_hostApWrite (h : EngineStable A R) {ap : ApIndex} (ha : A ap) (addr : BitVec 12) (v : W32) :
    Keeps R (hostApWrite ap addr v) :=
  keeps_bind h.toChain (keeps_apWrite h.toSelectStable _ _ _) fun _ => keeps_noteCsw h ha addr v

theorem keeps_writeCsw (h : EngineStable A R) {ap : ApIndex} (ha : A ap) (w : W32) : Keeps R (writeCsw ap w) :=
  keeps_bind h.toChain (keeps_apRegWrite h.toSelectStable _ _ _) fun _ => keeps_upd fun s => h.shadow s ap w ha

theorem keeps_withCsw (h : EngineStable A R) {c : MemApConnection} (ha : A c.ap) (inc : Bool) (size : BitVec 3)
    {m : Dap α} (hm : Keeps R m) : Keeps R (withCsw c inc size m) := by
  refine keeps_getS_bind fun s => ?_
  split
  · exact hm s
  · exact keeps_bind h.toChain (keeps_writeCsw h ha _)
      (fun _ => keeps_withFinally h.toChain hm (keeps_writeCsw h ha _)) s

theorem keeps_recoverSticky (h : EngineStable A R) (e : AccessError) : Keeps R (recoverSticky e) := by
  refine keeps_onError h.toChain (keeps_checkSticky h.toSelectStable) fun e' => ?_
  cases e' <;> exact keeps_raise h.toChain _

theorem keeps_recoverAccess (h : EngineStable A R) {ap : ApIndex} (ha : A ap) (e : AccessError) :
    Keeps R (recoverAccess ap e : Dap α) :=
  keeps_bind h.toChain (keeps_recoverSticky h e) fun _ =>
    keeps_bind h.toChain
      (keeps_onError h.toChain (keeps_apRegRead h.toSelectStable _ _) fun _ => keeps_raise h.toChain _) fun _ =>
      keeps_bind h.toChain (keeps_upd fun s => h.shadow s ap _ ha) fun _ => keeps_raise h.toChain _

theorem keeps_engineGuard (h : EngineStable A R) {ap : ApIndex} (ha : A ap) {m : Dap α} (hm : Keeps R m) :
    Keeps R (engineGuard ap m) := by
  refine keeps_onError h.toChain hm fun e => ?_
  cases e <;> first | exact keeps_recoverAccess h ha _ | exact keeps_raise h.toChain _

/-- Unfreezing never fails, so `finally` adds it to whatever the body ended with. -/
theorem endState_unfreeze (m : Dap α) (s : State) :
    endState (withFinally m unfreezeSelect s) = (endState (m s)).unfreeze := by
  rw [run_withFinally]
  cases m s <;> rfl

theorem keeps_batch (h : EngineStable A R) {c : MemApConnection} (ha : A c.ap) {m : Dap α} (hm : Keeps R m) :
    Keeps R (batch c m) := by
  refine keeps_bind h.toChain (keeps_engineGuard h ha (keeps_selectAp h.toSelectStable _ _)) fun _ s => ?_
  show R s (endState ((upd State.freeze >>= fun _ => withFinally (engineGuard c.ap m) unfreezeSelect) s))
  rw [run_upd_bind, endState_unfreeze]
  exact h.frozen s _ (keeps_engineGuard h ha hm s.freeze)

theorem keeps_blockTransfer (h : EngineStable A R) {call : BackendCall} (hc : call.notAbort)
    {reply : W32 → Dap (List W32)} (hr : ∀ w, Keeps R (reply w)) : Keeps R (blockTransfer call reply) :=
  keeps_withFinally h.toChain (keeps_backendCall h.toLinkStable hc hr) (keeps_upd h.lose)

theorem keeps_runRead (h : EngineStable A R) (ap : ApIndex) (ra n : Nat) : Keeps R (runRead ap ra n) := by
  refine keeps_getS_bind fun s => ?_
  split
  · exact keeps_blockTransfer h (fun _ => rfl) (fun _ => keeps_drawWords h.toLinkStable n) s
  · exact keeps_bind h.toChain (keeps_apRegWrite h.toSelectStable _ _ _)
      (fun _ => keeps_getS_bind fun t => keeps_apReadN h.toSelectStable _ _ _ t) s

theorem keeps_runWrite (h : EngineStable A R) (ap : ApIndex) (ra : Nat) (ws : List W32) :
    Keeps R (runWrite ap ra ws) := by
  refine keeps_getS_bind fun s => ?_
  split
  · exact keeps_bind h.toChain (keeps_blockTransfer h (fun _ => rfl) fun _ => keeps_pure h.toChain _)
      (fun _ => keeps_pure h.toChain _) s
  · exact keeps_bind h.toChain (keeps_apRegWrite h.toSelectStable _ _ _)
      (fun _ => keeps_getS_bind fun t => keeps_apWriteN h.toSelectStable _ _ _ t) s

theorem keeps_readRuns (h : EngineStable A R) (ap : ApIndex) (rs : List (Nat × Nat)) : Keeps R (readRuns ap rs) := by
  induction rs with
  | nil => exact keeps_pure h.toChain _
  | cons r rs ih =>
    obtain ⟨ra, n⟩ := r
    exact keeps_bind h.toChain (keeps_runRead h ap ra n) fun _ =>
      keeps_bind h.toChain ih fun _ => keeps_pure h.toChain _

theorem keeps_writeRuns (h : EngineStable A R) (ap : ApIndex) (rs : List (Nat × Nat)) (ws : List W32) :
    Keeps R (writeRuns ap rs ws) := by
  induction rs generalizing ws with
  | nil => exact keeps_pure h.toChain _
  | cons r rs ih =>
    obtain ⟨ra, n⟩ := r
    exact keeps_bind h.toChain (keeps_runWrite h ap ra _) fun _ => ih _

theorem keeps_readWords (h : EngineStable A R) {c : MemApConnection} (ha : A c.ap) (a b : Nat) :
    Keeps R (readWords c a b) :=
  keeps_withCsw h ha _ _ (keeps_readRuns h _ _)

theorem keeps_writeWords (h : EngineStable A R) {c : MemApConnection} (ha : A c.ap) (a b : Nat) (ws : List W32) :
    Keeps R (writeWords c a b ws) :=
  keeps_withCsw h ha _ _ (keeps_writeRuns h _ _ _)

theorem keeps_subword (h : EngineStable A R) {ap : ApIndex} (ha : A ap) : Keeps R (subword ap) := by
  refine keeps_getS_bind fun s => ?_
  cases cachedSubword s ap with
  | some b => exact h.refl s
  | none => exact h.subword s ap _ ha

theorem keeps_takesNative (h : EngineStable A R) {ap : ApIndex} (ha : A ap) (a b : Nat) :
    Keeps R (takesNative ap a b) :=
  keeps_ite (keeps_subword h ha) (keeps_pure h.toChain _)

theorem keeps_readBytes (h : EngineStable A R) (ap : ApIndex) (a n : Nat) : Keeps R (readBytes ap a n) := by
  induction n generalizing a with
  | zero => exact keeps_pure h.toChain _
  | succ n ih =>
    exact keeps_bind h.toChain (keeps_apRegWrite h.toSelectStable _ _ _) fun _ =>
      keeps_bind h.toChain (keeps_apRegRead h.toSelectStable _ _) fun _ =>
        keeps_bind h.toChain (ih _) fun _ => keeps_pure h.toChain _

theorem keeps_writeBytes (h : EngineStable A R) (ap : ApIndex) (a : Nat) (bs : List Byte) :
    Keeps R (writeBytes ap a bs) := by
  induction bs generalizing a with
  | nil => exact keeps_pure h.toChain _
  | cons b bs ih =>
    exact keeps_bind h.toChain (keeps_apRegWrite h.toSelectStable _ _ _) fun _ =>
      keeps_bind h.toChain (keeps_apRegWrite h.toSelectStable _ _ _) fun _ => ih _

theorem keeps_readSegment (h : EngineStable A R) {c : MemApConnection} (ha : A c.ap) (a b : Nat) :
    Keeps R (readSegment c a b) :=
  keeps_ite (keeps_withCsw h ha _ _ (keeps_readBytes h _ _ _)) (keeps_pure h.toChain _)

theorem keeps_writeSegment (h : EngineStable A R) {c : MemApConnection} (ha : A c.ap) (a : Nat) (bs : List Byte) :
    Keeps R (writeSegment c a bs) :=
  keeps_ite (keeps_pure h.toChain _) (keeps_withCsw h ha _ _ (keeps_writeBytes h _ _ _))

theorem keeps_readMiddle (h : EngineStable A R) {c : MemApConnection} (ha : A c.ap) (a b : Nat) :
    Keeps R (readMiddle c a b) :=
  keeps_ite (keeps_bind h.toChain (keeps_readWords h ha _ _) fun _ => keeps_pure h.toChain _) (keeps_pure h.toChain _)

theorem keeps_writeMiddle (h : EngineStable A R) {c : MemApConnection} (ha : A c.ap) (a b : Nat) (bs : List Byte) :
    Keeps R (writeMiddle c a b bs) :=
  keeps_ite (keeps_writeWords h ha _ _ _) (keeps_pure h.toChain _)

theorem keeps_readNative (h : EngineStable A R) {c : MemApConnection} (ha : A c.ap) (a b : Nat) :
    Keeps R (readNative c a b) :=
  keeps_bind h.toChain (keeps_readSegment h ha _ _) fun _ =>
    keeps_bind h.toChain (keeps_readMiddle h ha _ _) fun _ =>
      keeps_bind h.toChain (keeps_readSegment h ha _ _) fun _ => keeps_pure h.toChain _

theorem keeps_writeNative (h : EngineStable A R) {c : MemApConnection} (ha : A c.ap) (a : Nat) (bs : List Byte) :
    Keeps R (writeNative c a bs) :=
  keeps_bind h.toChain (keeps_writeSegment h ha _ _) fun _ =>
    keeps_bind h.toChain (keeps_writeMiddle h ha _ _ _) fun _ => keeps_writeSegment h ha _ _

theorem keeps_readMemory (h : EngineStable A R) {c : MemApConnection} (ha : A c.ap) (a b : Nat) :
    Keeps R (readMemory c a b) :=
  keeps_ite (keeps_pure h.toChain _)
    (keeps_batch h ha (keeps_bind h.toChain (keeps_takesNative h ha _ _) fun _ =>
      keeps_ite (keeps_readNative h ha _ _)
        (keeps_bind h.toChain (keeps_readWords h ha _ _) fun _ => keeps_pure h.toChain _)))

theorem keeps_writeMemory (h : EngineStable A R) {c : MemApConnection} (ha : A c.ap) (a : Nat) (bs : List Byte) :
    Keeps R (writeMemory c a bs) :=
  keeps_ite (keeps_pure h.toChain _)
    (keeps_batch h ha (keeps_bind h.toChain (keeps_takesNative h ha _ _) fun _ =>
      keeps_ite (keeps_writeNative h ha _ _) (keeps_writeWords h ha _ _ _)))

theorem keeps_rmwFirst (h : EngineStable A R) (ap : ApIndex) (a : Nat) : Keeps R (rmwFirst ap a) :=
  keeps_ite (keeps_pure h.toChain _)
    (keeps_bind h.toChain (keeps_runRead h _ _ _) fun _ => keeps_pure h.toChain _)

theorem keeps_rmwLast (h : EngineStable A R) (ap : ApIndex) (a b : Nat) (w : Option W32) :
    Keeps R (rmwLast ap a b w) := by
  refine keeps_ite (keeps_pure h.toChain _) ?_
  split
  · exact keeps_pure h.toChain _
  · exact keeps_bind h.toChain (keeps_runRead h _ _ _) fun _ => keeps_pure h.toChain _

theorem keeps_rmwBody (h : EngineStable A R) (c : MemApConnection) (a : Nat) (bs : List Byte) :
    Keeps R (rmwBody c a bs) :=
  keeps_bind h.toChain (keeps_rmwFirst h _ _) fun _ =>
    keeps_bind h.toChain (keeps_rmwLast h _ _ _ _) fun _ => keeps_writeRuns h _ _ _

theorem keeps_writeMemoryRmw (h : EngineStable A R) {c : MemApConnection} (ha : A c.ap) (a : Nat) (bs : List Byte) :
    Keeps R (writeMemoryRmw c a bs) :=
  keeps_ite (keeps_pure h.toChain _)
    (keeps_batch h ha (keeps_bind h.toChain (keeps_takesNative h ha _ _) fun _ =>
      keeps_ite (keeps_writeNative h ha _ _) (keeps_withCsw h ha _ _ (keeps_rmwBody h _ _ _))))

theorem keeps_busyLoop (h : EngineStable A R) (ap : ApIndex) (b : BusyCheck) (n : Nat) : Keeps R (busyLoop ap b n) := by
  induction n with
  | zero =>
    exact keeps_bind h.toChain (keeps_apRegRead h.toSelectStable _ _) fun _ =>
      keeps_ite (keeps_pure h.toChain _) (keeps_raise h.toChain _)
  | succ n ih =>
    exact keeps_bind h.toChain (keeps_apRegRead h.toSelectStable _ _) fun _ => keeps_ite (keeps_pure h.toChain _) ih

theorem keeps_awaitIdle (h : EngineStable A R) (ap : ApIndex) (b : BusyCheck) (a : W32) :
    Keeps R (awaitIdle ap b a) :=
  keeps_bind h.toChain (keeps_apRegWrite h.toSelectStable _ _ _) fun _ =>
    keeps_getS_bind fun s => keeps_bind h.toChain (keeps_busyLoop h ap b _)
      (fun _ => keeps_apRegWrite h.toSelectStable _ _ _) s

theorem keeps_pollReads (h : EngineStable A R) (ap : ApIndex) (b : BusyCheck) (a : W32) (n : Nat) :
    Keeps R (pollReads ap b a n) := by
  induction n with
  | zero => exact keeps_pure h.toChain _
  | succ n ih =>
    exact keeps_bind h.toChain (keeps_awaitIdle h ap b a) fun _ =>
      keeps_bind h.toChain (keeps_apRegRead h.toSelectStable _ _) fun _ =>
        keeps_bind h.toChain ih fun _ => keeps_pure h.toChain _

theorem keeps_pollWrites (h : EngineStable A R) (ap : ApIndex) (b : BusyCheck) (a : W32) (ws : List W32) :
    Keeps R (pollWrites ap b a ws) := by
  induction ws with
  | nil => exact keeps_pure h.toChain _
  | cons w ws ih =>
    exact keeps_bind h.toChain (keeps_awaitIdle h ap b a) fun _ =>
      keeps_bind h.toChain (keeps_apRegWrite h.toSelectStable _ _ _) fun _ => ih

theorem keeps_pollRead (h : EngineStable A R) {c : MemApConnection} (ha : A c.ap) (a : W32) (n : Nat)
    (b : Option BusyCheck) : Keeps R (pollRead c a n b) := by
  refine keeps_batch h ha (keeps_withCsw h ha _ _ ?_)
  cases b with
  | none =>
    exact keeps_bind h.toChain (keeps_apRegWrite h.toSelectStable _ _ _) fun _ =>
      keeps_getS_bind fun s => keeps_apReadN h.toSelectStable _ _ _ s
  | some b => exact keeps_pollReads h _ _ _ _

theorem keeps_pollWrite (h : EngineStable A R) {c : MemApConnection} (ha : A c.ap) (a : W32) (ws : List W32)
    (b : Option BusyCheck) : Keeps R (pollWrite c a ws b) := by
  refine keeps_batch h ha (keeps_withCsw h ha _ _ ?_)
  cases b with
  | none =>
    exact keeps_bind h.toChain (keeps_apRegWrite h.toSelectStable _ _ _) fun _ =>
      keeps_getS_bind fun s => keeps_apWriteN h.toSelectStable _ _ _ s
  | some b => exact keeps_pollWrites h _ _ _ _

end

/-! ## The transport -/

/-- What a creation commits: the connection made from the words read, in the detected layout (R230). -/
def Created (s : State) (ap : ApIndex) (c : MemApConnection) (v : ApState) : Prop :=
  ∃ idr csw shadow ai per, idr ≠ 0 ∧ c = newConnection ap idr csw shadow ai per (s.apReg drwOffset) ∧
    v = presentState csw

/-- `R` also survives what resolving an AP in `A` commits (R230), and a cached connection of such an AP is of an AP in
`A` (or `R` says nothing about the state). -/
structure ResolveStable (A : ApIndex → Prop) (R : State → State → Prop) : Prop extends EngineStable A R where
  absent : ∀ s ap, A ap → s.apStateOf ap = .unresolved → detected s.dpVersion = true → R s (s.setApState ap .absent)
  commit : ∀ s ap c v, A ap → s.apStateOf ap = .unresolved → detected s.dpVersion = true → Created s ap c v →
    R s ((s.setConn ap (some c)).setApState ap v)
  own : ∀ s ap c, A ap → s.connOf ap = some c → A c.ap ∨ ∀ t, R s t

section

variable {α : Type} {A : ApIndex → Prop} {R : State → State → Prop}

/-- `createConnection` from a state where the AP is unresolved and a version is detected. -/
theorem keeps_createConnection (h : ResolveStable A R) {ap : ApIndex} (ha : A ap) (ai : Option Bool) (per : Bool)
    {s : State} (hu : s.apStateOf ap = .unresolved) (hd : detected s.dpVersion = true) :
    R s (endState (createConnection ap ai per s)) := by
  have k := h.toSelectStable.and frameSelect_stable fun hf => hf.cfg
  unfold createConnection
  have h1 := keeps_apRegRead k ap idrOffset s
  rw [run_bind]
  cases e1 : apRegRead ap idrOffset s with
  | error x t => rw [e1] at h1; exact h1.1
  | ok idr t =>
    rw [e1] at h1
    obtain ⟨r1, f1⟩ := h1
    simp only [endState_ok] at r1 f1
    have hu1 : t.apStateOf ap = .unresolved := (apStateOf_congr f1.apState ap).trans hu
    have hd1 : detected t.dpVersion = true := by rw [f1.dpVersion]; exact hd
    by_cases hz : idr = 0
    · simp only [hz, if_true, run_upd_bind, run_pure, endState_ok]
      exact h.trans r1 (h.absent t ap ha hu1 hd1)
    · simp only [hz, if_false]
      have h2 := keeps_apRegRead k ap cswOffset t
      rw [run_bind]
      cases e2 : apRegRead ap cswOffset t with
      | error x u => rw [e2] at h2; exact h.trans r1 h2.1
      | ok csw u =>
        rw [e2] at h2
        obtain ⟨r2, f2⟩ := h2
        simp only [endState_ok] at r2 f2
        have kin : Keeps (fun s t => R s t ∧ FrameSelect s t)
            (installCsw ap csw (createdShadow csw (defaultAutoinc ai (busTypeOf idr) per))) :=
          keeps_ite (keeps_apRegWrite k _ _ _) (keeps_pure k.toChain _)
        have h3 := kin u
        simp only
        rw [run_bind]
        cases e3 : installCsw ap csw (createdShadow csw (defaultAutoinc ai (busTypeOf idr) per)) u with
        | error x w => rw [e3] at h3; exact h.trans r1 (h.trans r2 h3.1)
        | ok _ w =>
          rw [e3] at h3
          obtain ⟨r3, f3⟩ := h3
          simp only [endState_ok] at r3 f3
          have hu3 : w.apStateOf ap = .unresolved :=
            (apStateOf_congr (f3.apState.trans f2.apState) ap).trans hu1
          have hd3 : detected w.dpVersion = true := by rw [f3.dpVersion, f2.dpVersion]; exact hd1
          refine h.trans r1 (h.trans r2 (h.trans r3 ?_))
          exact h.commit w ap _ _ ha hu3 hd3 ⟨idr, csw, _, _, _, hz, rfl, rfl⟩

theorem keeps_resolve (h : ResolveStable A R) {ap : ApIndex} (ha : A ap) (ai : Option Bool) (per : Bool)
    {s : State} (hd : detected s.dpVersion = true) : R s (endState (resolve ap ai per s)) := by
  unfold resolve
  rw [run_getS_bind]
  cases hs : s.apStateOf ap with
  | unresolved => exact keeps_createConnection h ha ai per hs hd
  | absent => exact h.refl s
  | presentDisabled => exact h.refl s
  | presentEnabled => exact h.refl s

/-- A connection `createConnection` returns is of the AP asked for. -/
theorem createConnection_ap {ap : ApIndex} {ai : Option Bool} {per : Bool} {s t : State} {c : MemApConnection}
    (h : createConnection ap ai per s = .ok (some c) t) : c.ap = ap := by
  unfold createConnection at h
  rw [run_bind] at h
  cases e1 : apRegRead ap idrOffset s with
  | error x t => rw [e1] at h; cases h
  | ok idr t1 =>
    rw [e1] at h
    by_cases hz : idr = 0
    · simp only [hz, if_true, run_upd_bind, run_pure] at h
      cases h
    · simp only [hz, if_false] at h
      rw [run_bind] at h
      cases e2 : apRegRead ap cswOffset t1 with
      | error x u => rw [e2] at h; cases h
      | ok csw u =>
        rw [e2] at h
        simp only at h
        rw [run_bind] at h
        cases e3 : installCsw ap csw (createdShadow csw (defaultAutoinc ai (busTypeOf idr) per)) u with
        | error x w => rw [e3] at h; cases h
        | ok _ w =>
          rw [e3] at h
          simp only [run_getS_bind, run_upd_bind, run_pure] at h
          cases h
          rfl

/-- A connection `resolve` returns is of an AP in `A`, unless `R` says nothing of the state. -/
theorem resolve_own (h : ResolveStable A R) {ap : ApIndex} (ha : A ap) {ai : Option Bool} {per : Bool} {s t : State}
    {c : MemApConnection} (e : resolve ap ai per s = .ok (some c) t) : A c.ap ∨ ∀ u, R s u := by
  unfold resolve at e
  rw [run_getS_bind] at e
  cases hs : s.apStateOf ap with
  | unresolved =>
    rw [hs] at e
    exact .inl (createConnection_ap e ▸ ha)
  | absent => rw [hs] at e; cases e
  | presentDisabled =>
    rw [hs] at e
    have : s.connOf ap = some c := by
      simp only [run_pure] at e
      injection e
    exact h.own s ap c ha this
  | presentEnabled =>
    rw [hs] at e
    have : s.connOf ap = some c := by
      simp only [run_pure] at e
      injection e
    exact h.own s ap c ha this

theorem requireEnabled_run (ap : ApIndex) (allow : Bool) (s : State) :
    requireEnabled ap allow s =
      if (allow || s.apStateOf ap != .presentDisabled) = true then .ok () s else .error (.apDisabled ap) s := by
  unfold requireEnabled
  rw [run_getS_bind]
  cases (allow || s.apStateOf ap != .presentDisabled) <;> rfl

/-- Resolution and then an operation on the connection. -/
theorem keeps_resolveStrict_then (h : ResolveStable A R) {ap : ApIndex} (ha : A ap) {k : MemApConnection → Dap α}
    (hk : ∀ c, A c.ap → Keeps R (k c)) {s : State} (hd : detected s.dpVersion = true) :
    R s (endState ((resolveStrict ap >>= k) s)) := by
  have hr := keeps_resolve h ha none false hd
  unfold resolveStrict
  rw [run_bind, run_bind]
  cases e : resolve ap none false s with
  | error x t => rw [e] at hr; exact hr
  | ok o t =>
    rw [e] at hr
    cases o with
    | none => exact hr
    | some c =>
      rcases resolve_own h ha e with hc | hall
      · simp only
        rw [run_bind, requireEnabled_run]
        by_cases hx : (false || t.apStateOf ap != .presentDisabled) = true
        · rw [if_pos hx]
          exact h.trans hr (hk c hc t)
        · rw [if_neg hx]
          exact hr
      · exact hall _

theorem keeps_engineCall (h : EngineStable A R) {c : MemApConnection} (ha : A c.ap) (call : EngineCall) :
    Keeps R (engineCall c call) := by
  cases call with
  | readMemory a b =>
    exact keeps_bind h.toChain (keeps_check h.toChain _ _) fun _ =>
      keeps_bind h.toChain (keeps_readMemory h ha _ _) fun _ => keeps_pure h.toChain _
  | writeMemory a bs =>
    exact keeps_bind h.toChain (keeps_check h.toChain _ _) fun _ =>
      keeps_bind h.toChain (keeps_writeMemory h ha _ _) fun _ => keeps_pure h.toChain _
  | writeMemoryRmw a bs =>
    exact keeps_bind h.toChain (keeps_check h.toChain _ _) fun _ =>
      keeps_bind h.toChain (keeps_writeMemoryRmw h ha _ _) fun _ => keeps_pure h.toChain _
  | pollRead a n b =>
    exact keeps_bind h.toChain (keeps_check h.toChain _ _) fun _ =>
      keeps_bind h.toChain (keeps_pollRead h ha _ _ _) fun _ => keeps_pure h.toChain _
  | pollWrite a ws b =>
    exact keeps_bind h.toChain (keeps_check h.toChain _ _) fun _ =>
      keeps_bind h.toChain (keeps_pollWrite h ha _ _ _) fun _ => keeps_pure h.toChain _

theorem keeps_runCodec (h : EngineStable A R) {c : MemApConnection} (ha : A c.ap) (p : CodecProgram) :
    Keeps R (runCodec c p) := by
  induction p with
  | ret ws => exact keeps_pure h.toChain _
  | raise e => exact keeps_raise h.toChain _
  | call call k ih => exact keeps_bind h.toChain (keeps_engineCall h ha call) fun v => ih v

/-- What a wrapped operation can do (R270): one attempt, or one attempt, one CLEAR_STICKY, and then at most one more
attempt. `P` is what the attempts need of the state they start from. -/
theorem stickyRetry_cases {P : State → Prop} {Q C : State → State → Prop} {op : Dap α} {s : State} (hs : P s)
    (hop : ∀ t, P t → Q t (endState (attempt checkSticky op t)))
    (hclear : ∀ t, P t → C t (endState (clearSticky t)))
    (hQ : ∀ {s t}, P s → Q s t → P t) (hC : ∀ {s t}, P s → C s t → P t) :
    Q s (endState (stickyRetry op s)) ∨
      ∃ t u, Q s t ∧ C t u ∧ (endState (stickyRetry op s) = u ∨ Q u (endState (stickyRetry op s))) := by
  unfold stickyRetry withStickyRetry
  rw [run_onError]
  have h1 := hop s hs
  cases e : attempt checkSticky op s with
  | ok a t => rw [e] at h1; exact .inl h1
  | error x t =>
    rw [e] at h1
    simp only [endState_error] at h1
    cases x with
    | stickyProtocolError w =>
      refine .inr ⟨t, endState (clearSticky t), h1, hclear t (hQ hs h1), ?_⟩
      simp only [run_bind]
      cases e2 : clearSticky t with
      | error y u => exact .inl rfl
      | ok _ u =>
        have h2 := hclear t (hQ hs h1)
        rw [e2] at h2
        exact .inr (hop u (hC (hQ hs h1) h2))
    | versionUnsupported _ _ => exact .inl h1
    | apNotPresent _ => exact .inl h1
    | apDisabled _ => exact .inl h1
    | waitAckExhausted _ _ _ => exact .inl h1
    | dpOrApAccessError _ => exact .inl h1
    | apAccessDisabledError _ _ => exact .inl h1
    | apBusAccessError _ _ => exact .inl h1
    | targetSelectionFailed _ _ => exact .inl h1
    | powerUpFailed _ => exact .inl h1
    | busyPollTimeout _ _ => exact .inl h1
    | illegalCommand => exact .inl h1
    | badArgument => exact .inl h1
    | dpNotReady => exact .inl h1
    | registerNotInVersion => exact .inl h1
    | noConnection _ => exact .inl h1

/-- One attempt on a resolved connection. -/
theorem keeps_attempt (h : ResolveStable A R) {ap : ApIndex} (ha : A ap) {k : MemApConnection → Dap α}
    (hk : ∀ c, A c.ap → Keeps R (k c)) {s : State} (hd : detected s.dpVersion = true) :
    R s (endState (attempt checkSticky (resolveStrict ap >>= k) s)) := by
  have h1 := keeps_resolveStrict_then h ha hk hd
  unfold attempt
  rw [run_bind]
  cases e : (resolveStrict ap >>= k) s with
  | error x t => rw [e] at h1; exact h1
  | ok a t =>
    rw [e] at h1
    exact h.trans h1
      (keeps_bind h.toChain (keeps_checkSticky h.toSelectStable) (fun _ => keeps_pure h.toChain a) t)

/-- A wrapped operation on a resolved connection, for a relation that also survives the ABORT write. -/
theorem keeps_stickyRetry (h : ResolveStable A R)
    (hdv : ∀ {s t}, R s t → t.dpVersion = s.dpVersion ∨ ∀ u, R s u)
    (hclear : Keeps R clearSticky) {ap : ApIndex} (ha : A ap) {k : MemApConnection → Dap α}
    (hk : ∀ c, A c.ap → Keeps R (k c)) {s : State} (hd : detected s.dpVersion = true) :
    R s (endState (stickyRetry (resolveStrict ap >>= k) s)) := by
  rcases stickyRetry_cases (P := fun _ => True) (Q := fun s t => (detected s.dpVersion = true → R s t))
    (C := R) trivial (fun t _ ht => keeps_attempt h ha hk ht) (fun t _ => hclear t) (fun _ _ => trivial)
    (fun _ _ => trivial) with h1 | ⟨t, u, h1, h2, h3⟩
  · exact h1 hd
  · have k1 := h1 hd
    have k2 := h.trans k1 h2
    rcases h3 with h3 | h3
    · rw [h3]; exact k2
    · rcases hdv k2 with e | e
      · exact h.trans k2 (h3 (e ▸ hd))
      · exact e _

theorem keeps_scanFrom (h : SelectStable R) (extra : Bool) (i n : Nat) : Keeps R (scanFrom extra i n) := by
  induction n generalizing i with
  | zero => exact keeps_pure h.toChain _
  | succ n ih =>
    exact keeps_bind h.toChain (keeps_apRegRead h _ _) fun _ =>
      keeps_ite (keeps_pure h.toChain _)
        (keeps_bind h.toChain (keeps_apRegRead h _ _) fun _ =>
          keeps_bind h.toChain
            (keeps_ite (keeps_bind h.toChain (keeps_apRegRead h _ _) fun _ => keeps_pure h.toChain _)
              (keeps_pure h.toChain _)) fun _ =>
            keeps_bind h.toChain (ih _) fun _ => keeps_pure h.toChain _)

theorem keeps_chipVersion (h : SelectStable R) : Keeps R chipVersion :=
  keeps_getS_bind fun s => keeps_ite (keeps_pure h.toChain _)
    (keeps_bind h.toChain (keeps_dpRead h _) fun _ =>
      keeps_bind h.toChain (keeps_dpRead h _) fun _ => keeps_pure h.toChain _) s

end

end Sys2Proof.Machine
end

