-- ==== Sys2Proof/Laws/Commands.lean ====
section
/-! SUPPORT. The frames of whole commands: every command ends in a next state with one more result, and a relation that
survives the primitive effects of every layer survives every command. -/

namespace Sys2Proof.Machine

open Sys2Proof

/-! ## The frame of the transport -/

theorem FrameCommand.refl (s : State) : FrameCommand s s :=
  ⟨rfl, rfl, id, fun _ => rfl, rfl, rfl, rfl, rfl, List.prefix_rfl⟩

theorem FrameCommand.trans {s t u : State} (h : FrameCommand s t) (k : FrameCommand t u) : FrameCommand s u where
  dpVersion := k.dpVersion.trans h.dpVersion
  freezeDepth := k.freezeDepth.trans h.freezeDepth
  frozenValid := fun hv => h.frozenValid (k.frozenValid hv)
  jtagIr := fun hi => (k.jtagIr (h.cfg ▸ hi)).trans (h.jtagIr hi)
  cfg := k.cfg.trans h.cfg
  commands := k.commands.trans h.commands
  pc := k.pc.trans h.pc
  results := k.results.trans h.results
  trace := h.trace.trans k.trace

theorem FrameSelect.toCommand {s t : State} (h : FrameSelect s t) : FrameCommand s t :=
  ⟨h.dpVersion, h.freezeDepth, h.frozenValid, h.jtagIr, h.cfg, h.commands, h.pc, h.results, h.trace⟩

/-- A freeze around a body, whatever the frame of the body (R195, R196). -/
theorem FrameCommand.unfreeze {s t : State} (h : FrameCommand s.freeze t) : FrameCommand s t.unfreeze where
  dpVersion := by rw [unfreeze_dpVersion]; exact h.dpVersion
  freezeDepth := by
    have e : t.freezeDepth = s.freezeDepth + 1 := h.freezeDepth
    rw [unfreeze_freezeDepth, e]
    rfl
  frozenValid := by
    have e : t.freezeDepth = s.freezeDepth + 1 := h.freezeDepth
    intro hv
    rw [unfreeze_frozenValid t (by omega), e] at hv
    simp only [Bool.and_eq_true, bne_iff_ne, ne_eq] at hv
    have h1 : (s.freezeDepth == 0 || s.frozenValid) = true := h.frozenValid hv.2
    simp only [Bool.or_eq_true, beq_iff_eq] at h1
    rcases h1 with h1 | h1
    · omega
    · exact h1
  jtagIr := fun hi => by rw [unfreeze_jtagIr]; exact h.jtagIr hi
  cfg := by rw [unfreeze_cfg]; exact h.cfg
  commands := by rw [unfreeze_commands]; exact h.commands
  pc := by rw [unfreeze_pc]; exact h.pc
  results := by rw [unfreeze_results]; exact h.results
  trace := by rw [unfreeze_trace]; exact h.trace

/-- A chained relation that contains `FrameSelect`. -/
theorem selectStable_of_frameSelect {R : State → State → Prop} (hc : Chain R)
    (hcfg : ∀ {s t}, R s t → t.cfg = s.cfg ∨ ∀ u, R s u) (h : ∀ {s t}, FrameSelect s t → R s t) :
    SelectStable R where
  toLinkStable := linkStable_of_frameLink hc hcfg fun k => h k.toSelect
  lose := fun s => h (frameSelect_stable.lose s)
  gain := fun s v old => h (frameSelect_stable.gain s v old)

theorem frameCommand_stable : ResolveStable (fun _ => True) FrameCommand where
  toSelectStable := selectStable_of_frameSelect ⟨FrameCommand.refl, FrameCommand.trans⟩ (fun h => .inl h.cfg)
    FrameSelect.toCommand
  shadow := fun _ _ _ _ => ⟨rfl, rfl, id, fun _ => rfl, rfl, rfl, rfl, rfl, List.prefix_rfl⟩
  subword := fun _ _ _ _ => ⟨rfl, rfl, id, fun _ => rfl, rfl, rfl, rfl, rfl, List.prefix_rfl⟩
  frozen := fun _ _ h => h.unfreeze
  absent := fun _ _ _ _ _ => ⟨rfl, rfl, id, fun _ => rfl, rfl, rfl, rfl, rfl, List.prefix_rfl⟩
  commit := fun _ _ _ _ _ _ _ _ => ⟨rfl, rfl, id, fun _ => rfl, rfl, rfl, rfl, rfl, List.prefix_rfl⟩
  own := fun _ _ _ _ _ => .inl trivial

theorem frameCommand_clearSticky : Keeps FrameCommand clearSticky := fun s =>
  (frameLink_clearSticky s).toSelect.toCommand

/-! ## The frame of an engine command -/

theorem SameEntry.refl (a : Option MemApConnection) : SameEntry a a := by
  cases a
  · trivial
  · rfl

theorem SameEntry.trans {a b c : Option MemApConnection} (h : SameEntry a b) (k : SameEntry b c) : SameEntry a c := by
  cases a <;> cases b <;> cases c <;> first | trivial | exact h.elim | exact k.elim | skip
  rename_i x y z
  unfold SameEntry SameConnection at *
  rw [← h, ← k]

theorem SameEntry.map_shadow (a : Option MemApConnection) (w : W32) :
    SameEntry a (a.map fun d => { d with cswShadow := w }) := by
  cases a
  · trivial
  · rfl

theorem SameEntry.map_subword (a : Option MemApConnection) (b : Bool) :
    SameEntry a (a.map fun d => { d with subword := some b }) := by
  cases a
  · trivial
  · rfl

theorem FrameEngine.refl (ap : ApIndex) (s : State) : FrameEngine ap s s :=
  ⟨FrameCommand.refl s, rfl, fun _ _ => rfl, SameEntry.refl _⟩

theorem FrameEngine.trans {ap : ApIndex} {s t u : State} (h : FrameEngine ap s t) (k : FrameEngine ap t u) :
    FrameEngine ap s u :=
  ⟨h.toFrameCommand.trans k.toFrameCommand, k.apState.trans h.apState,
    fun j hj => (k.others j hj).trans (h.others j hj), h.entry.trans k.entry⟩

theorem FrameSelect.toEngine {s t : State} (ap : ApIndex) (h : FrameSelect s t) : FrameEngine ap s t :=
  ⟨h.toCommand, h.apState, fun j _ => connOf_congr h.conn j, by rw [connOf_congr h.conn]; exact SameEntry.refl _⟩

theorem frameEngine_stable (ap : ApIndex) : EngineStable (fun j => j = ap) (FrameEngine ap) where
  toSelectStable := selectStable_of_frameSelect ⟨FrameEngine.refl ap, FrameEngine.trans⟩
    (fun h => .inl h.cfg) (FrameSelect.toEngine ap)
  shadow := fun s j w hj => by
    subst hj
    exact ⟨frameCommand_stable.shadow s j w trivial, rfl, fun k hk => connOf_setShadow_ne s j k w hk,
      by rw [connOf_setShadow_same]; exact SameEntry.map_shadow _ _⟩
  subword := fun s j b hj => by
    subst hj
    exact ⟨frameCommand_stable.subword s j b trivial, rfl, fun k hk => connOf_setSubword_ne s j k b hk,
      by rw [connOf_setSubword_same]; exact SameEntry.map_subword _ _⟩
  frozen := fun s t h =>
    ⟨h.toFrameCommand.unfreeze, by rw [unfreeze_apState]; exact h.apState,
      fun j hj => (connOf_congr (unfreeze_conn t) j).trans (h.others j hj),
      by rw [connOf_congr (unfreeze_conn t)]; exact h.entry⟩

/-! ## The frame of a command that resolves -/

/-- The cached connection of AP `ap`, if any, is a connection of `ap`. -/
def Owned (ap : ApIndex) (s : State) : Prop := ∀ c, s.connOf ap = some c → c.ap = ap

/-- `FrameResolve` for states in which the cache entry of `ap` is a connection of `ap`. -/
def OwnedFrame (ap : ApIndex) (s t : State) : Prop := Owned ap s → FrameResolve ap s t ∧ Owned ap t

theorem FrameEngine.toResolve {ap : ApIndex} {s t : State} (h : FrameEngine ap s t) : FrameResolve ap s t :=
  ⟨h.toFrameCommand, fun j _ => apStateOf_congr h.apState j, fun _ => apStateOf_congr h.apState ap, h.others⟩

theorem FrameEngine.toOwned {ap : ApIndex} {s t : State} (h : FrameEngine ap s t) : OwnedFrame ap s t := by
  refine fun ho => ⟨h.toResolve, fun d hd => ?_⟩
  have he := h.entry
  rw [hd] at he
  cases hc : s.connOf ap with
  | none => rw [hc] at he; exact he.elim
  | some c =>
    rw [hc] at he
    have hca := ho c hc
    unfold SameEntry SameConnection at he
    rw [← hca, ← he]

theorem FrameResolve.trans {ap : ApIndex} {s t u : State} (h : FrameResolve ap s t) (k : FrameResolve ap t u) :
    FrameResolve ap s u :=
  ⟨h.toFrameCommand.trans k.toFrameCommand, fun j hj => (k.apStates j hj).trans (h.apStates j hj),
    fun hp => (k.probed (by rw [h.probed hp]; exact hp)).trans (h.probed hp),
    fun j hj => (k.conns j hj).trans (h.conns j hj)⟩

theorem ownedFrame_stable (ap : ApIndex) : ResolveStable (fun j => j = ap) (OwnedFrame ap) where
  toSelectStable := selectStable_of_frameSelect
    ⟨fun s => (FrameEngine.refl ap s).toOwned, fun h k ho =>
      ⟨(h ho).1.trans (k (h ho).2).1, (k (h ho).2).2⟩⟩
    (fun {s t} h => by
      by_cases ho : Owned ap s
      · exact .inl (h ho).1.cfg
      · exact .inr fun u hs => absurd hs ho)
    (fun h => (h.toEngine ap).toOwned)
  shadow := fun s j w hj => ((frameEngine_stable ap).shadow s j w hj).toOwned
  subword := fun s j b hj => ((frameEngine_stable ap).subword s j b hj).toOwned
  frozen := fun s t h ho => by
    obtain ⟨h1, h2⟩ := h ho
    refine ⟨⟨h1.toFrameCommand.unfreeze, fun j hj => ?_, fun hp => ?_, fun j hj => ?_⟩, fun c hc => ?_⟩
    · exact (apStateOf_congr (unfreeze_apState t) j).trans (h1.apStates j hj)
    · exact (apStateOf_congr (unfreeze_apState t) ap).trans (h1.probed hp)
    · exact (connOf_congr (unfreeze_conn t) j).trans (h1.conns j hj)
    · exact h2 c ((connOf_congr (unfreeze_conn t) ap).symm.trans hc)
  absent := fun s j hj hu hd ho => by
    subst hj
    refine ⟨⟨frameCommand_stable.absent s j trivial hu hd, fun k hk => apStateOf_setApState_ne s j k _ hk,
      fun hp => absurd hu hp, fun _ _ => rfl⟩, ho⟩
  commit := fun s j c v hj hu hd hc ho => by
    subst hj
    refine ⟨⟨frameCommand_stable.commit s j c v trivial hu hd hc, fun k hk => ?_, fun hp => absurd hu hp,
      fun k hk => ?_⟩, fun d hd' => ?_⟩
    · exact (apStateOf_setApState_ne _ j k v hk)
    · exact connOf_setConn_ne s j k _ hk
    · have e : ((s.setConn j (some c)).setApState j v).connOf j = some c := connOf_setConn_same s j _
      rw [e] at hd'
      obtain ⟨_, _, _, _, _, _, hcc, _⟩ := hc
      cases hd'
      rw [hcc]
      rfl
  own := fun s j c hj hc => by
    subst hj
    by_cases ho : Owned j s
    · exact .inl (ho c hc)
    · exact .inr fun t hs => absurd hs ho

theorem ownedFrame_clearSticky (ap : ApIndex) : Keeps (OwnedFrame ap) clearSticky := fun s =>
  ((frameLink_clearSticky s).toSelect.toEngine ap).toOwned

/-! ## Every command -/

/-- `R` survives the primitive effects of every command. -/
structure CommandStable (R : State → State → Prop) : Prop extends ResolveStable (fun _ => True) R where
  irselAbort : KeepsOn .jtag R (jtagIrsel .abort)
  scanAbort : ∀ rnw a d, KeepsOn .jtag R (jtagScan .abort rnw a d)
  driveAny : ∀ segs, Keeps R (bdDriveLine segs)
  backendAny : ∀ s call reply, R s (s.pushEvent (.backend call reply))
  version : ∀ s v, detected s.dpVersion = false → R s (s.setDpVersion v)
  freeze : ∀ s, R s s.freeze
  unfreeze : ∀ s, R s s.unfreeze
  teardown : ∀ s, R s s.teardown

theorem CommandStable.toAbort {R : State → State → Prop} (h : CommandStable R) : AbortStable R where
  toLinkStable := h.toLinkStable
  irselAbort := h.irselAbort
  scanAbort := h.scanAbort
  driveAny := h.driveAny
  backendAny := h.backendAny

theorem ResolveStable.andCommand {A : ApIndex → Prop} {R : State → State → Prop} (h : ResolveStable A R)
    (hown : ∀ (s : State) (ap : ApIndex) (c : MemApConnection), A ap → s.connOf ap = some c → A c.ap) :
    ResolveStable A fun s t => R s t ∧ FrameCommand s t where
  toSelectStable := h.toSelectStable.and frameCommand_stable.toSelectStable fun k => k.cfg
  shadow := fun s ap w ha => ⟨h.shadow s ap w ha, frameCommand_stable.shadow s ap w trivial⟩
  subword := fun s ap b ha => ⟨h.subword s ap b ha, frameCommand_stable.subword s ap b trivial⟩
  frozen := fun s t k => ⟨h.frozen s t k.1, frameCommand_stable.frozen s t k.2⟩
  absent := fun s ap ha hu hd => ⟨h.absent s ap ha hu hd, frameCommand_stable.absent s ap trivial hu hd⟩
  commit := fun s ap c v ha hu hd hc =>
    ⟨h.commit s ap c v ha hu hd hc, frameCommand_stable.commit s ap c v trivial hu hd hc⟩
  own := fun s ap c ha hc => .inl (hown s ap c ha hc)

section

variable {R : State → State → Prop}

/-- A check that passes or ends the command without an effect, then the rest. -/
theorem keeps_check_then {β : Type} (h : Chain R) (b : Bool) (e : DapError) {m : Dap β} {s : State}
    (hm : b = true → R s (endState (m s))) : R s (endState ((check b e >>= fun _ => m) s)) := by
  cases b
  · exact h.refl s
  · exact hm rfl

/-- What a check of the version leaves to prove: the rest, from a state with a version detected. -/
theorem keeps_detected_then {β : Type} (h : Chain R) {m : Dap β} {s : State}
    (hm : detected s.dpVersion = true → R s (endState (m s))) :
    R s (endState ((requireDetected >>= fun _ => m) s)) := by
  unfold requireDetected
  rw [run_bind, run_getS_bind]
  cases hd : detected s.dpVersion
  · exact h.refl s
  · exact hm hd

/-- The value of a computation is packed without an effect. -/
theorem keeps_map_from {α β : Type} {m : Dap α} (f : α → β) {s : State} (hm : R s (endState (m s))) :
    R s (endState ((m >>= fun a => pure (f a)) s)) := by
  rw [run_bind]
  cases e : m s with
  | ok a t => rw [e] at hm; exact hm
  | error x t => rw [e] at hm; exact hm

theorem keeps_requireIface_then {β : Type} (h : Chain R) {i : Iface} {m : Dap β} (hm : KeepsOn i R m) (s : State) :
    R s (endState ((requireIface i >>= fun _ => m) s)) := by
  unfold requireIface
  rw [run_bind, run_getS_bind]
  cases hi : (s.cfg.iface == i)
  · exact h.refl s
  · exact hm s (by simpa using hi)

theorem keeps_requireIface (h : Chain R) (i : Iface) : Keeps R (requireIface i) :=
  keeps_getS_bind fun s => keeps_check h _ _ s

theorem keeps_requireCodec (h : Chain R) : Keeps R requireCodec :=
  keeps_getS_bind fun s => keeps_check h _ _ s

theorem keeps_requireDpReg (h : Chain R) (r : DpReg) : Keeps R (requireDpReg r) :=
  keeps_getS_bind fun s => keeps_ite (keeps_check h _ _) (keeps_check h _ _) s

theorem keeps_requireConn (h : Chain R) (ap : ApIndex) : Keeps R (requireConn ap) := by
  refine keeps_getS_bind fun s => ?_
  cases s.connOf ap <;> exact h.refl s

/-- A command whose body keeps `R` ends in a state that differs from one `R` reaches by one result more. -/
theorem complete_keeps {m : Dap Value} {s : State} (h : R s (endState (m s))) :
    ∃ r u, complete m s = .next (u.pushResult r) ∧ R s u := by
  obtain ⟨r, hr⟩ := complete_next m s
  exact ⟨r, _, hr, h⟩

theorem keeps_detectVersion (h : CommandStable R) : Keeps R detectVersion := by
  refine keeps_getS_bind fun s => ?_
  cases hd : detected s.dpVersion
  · have k := keeps_linkDpRead (h.toLinkStable.and frameLink_stable fun f => f.cfg) 0x0 s
    simp only [Bool.false_eq_true, if_false]
    rw [run_bind]
    cases e : linkDpRead 0x0 s with
    | error x t => rw [e] at k; exact k.1
    | ok id t =>
      rw [e] at k
      obtain ⟨k1, k2⟩ := k
      have hd1 : detected t.dpVersion = false := by
        have : t.dpVersion = s.dpVersion := k2.dpVersion
        rw [this]; exact hd
      simp only
      cases classifyDpidr id with
      | ok v => exact h.trans k1 (h.version t v hd1)
      | error x => exact k1
  · exact h.refl s

/-- One instruction at a time: the command ends in a next state that `R` reaches, with one result more. -/
theorem exec_keeps (h : CommandStable R) (i : Instr) (s : State) :
    ∃ r u, exec i s = .next (u.pushResult r) ∧ R s u := by
  have hc := h.toChain
  have hl := h.toLinkStable
  have ha := h.toAbort
  have hs := h.toSelectStable
  have he := h.toEngineStable
  have hp := h.toResolveStable.andCommand fun _ _ _ _ _ => trivial
  have hcl : Keeps (fun s t => R s t ∧ FrameCommand s t) clearSticky := fun s =>
    ⟨keeps_clearSticky ha s, frameCommand_clearSticky s⟩
  have arg : ∀ {β : Type} {b : Bool} {m : Dap β}, Keeps R m → Keeps R (requireArg b >>= fun _ => m) := fun hm =>
    keeps_bind hc (keeps_check hc _ _) fun _ => hm
  have argOn : ∀ {i : Iface} {β : Type} {b : Bool} {m : Dap β}, KeepsOn i R m →
      KeepsOn i R (requireArg b >>= fun _ => m) := fun hm =>
    keepsOn_bind hl (keepsOn_of_keeps (keeps_check hc _ _)) fun _ => hm
  have unit : ∀ {m : Dap Unit}, Keeps R m → Keeps R (m >>= fun _ => pure Value.unit) := fun hm =>
    keeps_bind hc hm fun _ => keeps_pure hc _
  have unitOn : ∀ {i : Iface} {m : Dap Unit}, KeepsOn i R m → KeepsOn i R (m >>= fun _ => pure Value.unit) := fun hm =>
    keepsOn_bind hl hm fun _ => keepsOn_pure hl _
  have val : ∀ {β : Type} {m : Dap β} {f : β → Value}, Keeps R m → Keeps R (m >>= fun x => pure (f x)) := fun hm =>
    keeps_bind hc hm fun _ => keeps_pure hc _
  have valOn : ∀ {i : Iface} {β : Type} {m : Dap β} {f : β → Value}, KeepsOn i R m →
      KeepsOn i R (m >>= fun x => pure (f x)) := fun hm => keepsOn_bind hl hm fun _ => keepsOn_pure hl _
  have conn : ∀ {β : Type} {ap : ApIndex} {m : MemApConnection → Dap β}, (∀ c, Keeps R (m c)) →
      Keeps R (requireConn ap >>= m) := fun hm => keeps_bind hc (keeps_requireConn hc _) hm
  have det : ∀ {m : Dap Value}, Keeps R m → Keeps R (requireDetected >>= fun _ => m) := fun hm s =>
    keeps_detected_then hc fun _ => hm s
  have op : ∀ {β : Type} {ap : ApIndex} {k : MemApConnection → Dap β} {s : State},
      (∀ c, Keeps (fun s t => R s t ∧ FrameCommand s t) (k c)) → detected s.dpVersion = true →
      R s (endState (stickyRetry (resolveStrict ap >>= k) s)) := fun hk hd =>
    (keeps_stickyRetry hp (fun k => .inl k.2.dpVersion) hcl trivial (fun c _ => hk c) hd).1
  have codec : ∀ {ap : ApIndex} {o : CodecOp} {s : State}, detected s.dpVersion = true →
      R s (endState (delegate ap o s)) := fun hd => op (fun c => keeps_runCodec hp.toEngineStable trivial _) hd
  have pre : ∀ {m : Dap Value} {s : State}, (detected s.dpVersion = true → R s (endState (m s))) →
      R s (endState ((requireCodec >>= fun _ => requireDetected >>= fun _ => m) s)) := by
    intro m s hm
    unfold requireCodec
    rw [run_bind, run_getS_bind]
    cases s.cfg.codecPresent
    · exact hc.refl s
    · exact keeps_detected_then hc hm
  have jtag : ∀ {m : Dap Value}, KeepsOn .jtag R m → R s (endState ((requireIface .jtag >>= fun _ => m) s)) :=
    fun hm => keeps_requireIface_then hc hm s
  have swd : ∀ {m : Dap Value}, Keeps R m → R s (endState ((requireIface .swd >>= fun _ => m) s)) :=
    fun hm => keeps_requireIface_then hc (keepsOn_of_keeps hm) s
  cases i with
  | detectVersion => exact complete_keeps (val (keeps_detectVersion h) s)
  | reassertPower => exact complete_keeps (val (keeps_reassertPower hs) s)
  | dpRead r =>
    exact complete_keeps (keeps_bind hc (keeps_requireDpReg hc r) (fun _ => arg (val (keeps_dpRead hs r))) s)
  | dpWrite r v =>
    refine complete_keeps (keeps_bind hc (keeps_requireDpReg hc r) (fun _ => arg (unit ?_)) s)
    by_cases hr : r = .abort
    · subst hr; exact keeps_linkAbort ha v
    · exact keeps_dpWrite hs hr v
  | selectAp ap addr => exact complete_keeps (det (arg (unit (keeps_selectAp hs _ _))) s)
  | freezeSelect => exact complete_keeps (unit (keeps_upd h.freeze) s)
  | unfreezeSelect => exact complete_keeps (unit (keeps_upd h.unfreeze) s)
  | checkSticky => exact complete_keeps (unit (keeps_checkSticky hs) s)
  | clearSticky => exact complete_keeps (unit (keeps_clearSticky ha) s)
  | apRead ap addr => exact complete_keeps (det (arg (val (keeps_hostApRead he trivial _))) s)
  | apWrite ap addr v => exact complete_keeps (det (arg (unit (keeps_hostApWrite he trivial _ _))) s)
  | swdConnect t => exact complete_keeps (swd (val (keeps_swdConnect hs t)))
  | getConnection ap ai per dis =>
    refine complete_keeps (keeps_detected_then hc fun hd => ?_)
    have hr := keeps_resolve h.toResolveStable (ap := ap) trivial ai per hd
    unfold getConnection
    rw [run_bind]
    cases e : resolve ap ai per s with
    | error x t => rw [e] at hr; exact hr
    | ok o t =>
      rw [e] at hr
      cases o with
      | none => exact hr
      | some c =>
        exact h.trans hr (keeps_bind hc (keeps_getS_bind fun s => keeps_check hc _ _ s) (fun _ => keeps_pure hc _) t)
  | memoryRead ap a b =>
    exact complete_keeps (keeps_detected_then hc fun hd => keeps_check_then hc _ _ fun _ =>
      keeps_map_from _ (op (fun c => keeps_readMemory hp.toEngineStable trivial _ _) hd))
  | memoryWrite ap a n d =>
    exact complete_keeps (keeps_detected_then hc fun hd => keeps_check_then hc _ _ fun _ =>
      keeps_map_from _ (op (fun c => keeps_writeMemoryRmw hp.toEngineStable trivial _ _) hd))
  | registerRead ap n rs =>
    exact complete_keeps (pre fun hd => keeps_check_then hc _ _ fun _ => keeps_map_from _ (codec hd))
  | registerWrite ap n rs vs =>
    exact complete_keeps (pre fun hd => keeps_check_then hc _ _ fun _ => keeps_map_from _ (codec hd))
  | runCtrlRead ap d => exact complete_keeps (pre fun hd => keeps_map_from _ (codec hd))
  | runCtrlWrite ap d => exact complete_keeps (pre fun hd => keeps_map_from _ (codec hd))
  | scanAps x => exact complete_keeps (det (val (keeps_scanFrom hs _ _ _)) s)
  | getChipVersion => exact complete_keeps (det (keeps_chipVersion hs) s)
  | teardown => exact complete_keeps (unit (keeps_upd h.teardown) s)
  | readMemory ap a b => exact complete_keeps (det (arg (conn fun c => val (keeps_readMemory he trivial _ _))) s)
  | writeMemory ap a n d => exact complete_keeps (det (arg (conn fun c => unit (keeps_writeMemory he trivial _ _))) s)
  | writeMemoryRmw ap a n d =>
    exact complete_keeps (det (arg (conn fun c => unit (keeps_writeMemoryRmw he trivial _ _))) s)
  | pollRead ap x n b => exact complete_keeps (det (arg (conn fun c => val (keeps_pollRead he trivial _ _ _))) s)
  | pollWrite ap x n vs b => exact complete_keeps (det (arg (conn fun c => unit (keeps_pollWrite he trivial _ _ _))) s)
  | jtagIrsel ir =>
    refine complete_keeps (jtag (unitOn ?_))
    cases ir with
    | abort => exact h.irselAbort
    | dpacc => exact h.irsel _ (by decide)
    | apacc => exact h.irsel _ (by decide)
  | jtagScan ir rnw a d => exact complete_keeps (jtag (argOn (valOn (keepsOn_jtagScanAny ha _ _ _ _))))
  | jtagDpaccRd a => exact complete_keeps (jtag (argOn (valOn (keepsOn_jtagDpaccRd hl a))))
  | jtagDpaccWr a v => exact complete_keeps (jtag (argOn (unitOn (keepsOn_jtagDpaccWr hl a v))))
  | jtagApaccRd a => exact complete_keeps (jtag (argOn (valOn (keepsOn_jtagApaccRd hl a))))
  | jtagApaccWr a v => exact complete_keeps (jtag (argOn (unitOn (keepsOn_jtagApaccWr hl a v))))
  | jtagReadn rs => exact complete_keeps (jtag (argOn (valOn (keepsOn_jtagReadnAny ha rs))))
  | jtagWriten a ws => exact complete_keeps (jtag (argOn (unitOn (keepsOn_jtagWriten hl a ws))))
  | jtagAbortWr v => exact complete_keeps (jtag (unitOn (keepsOn_jtagAbortWr ha v)))
  | swdXfer p q a w => exact complete_keeps (swd (arg (val (keeps_swdXferAny ha _ _ _ _))))
  | swdDpRd a => exact complete_keeps (swd (arg (val (keeps_swdXferAny ha _ _ _ _))))
  | swdDpWr a v => exact complete_keeps (swd (arg (unit (keeps_bind hc (keeps_swdXferAny ha _ _ _ _) fun _ => keeps_pure hc _))))
  | swdApRd a => exact complete_keeps (swd (arg (val (keeps_swdApRd hl a))))
  | swdApWr a v => exact complete_keeps (swd (arg (unit (keeps_swdApWr hl a v))))
  | swdReadn a n => exact complete_keeps (swd (arg (val (keeps_swdReadn hl a n))))
  | swdWriten a ws => exact complete_keeps (swd (arg (unit (keeps_swdWriten hl a ws))))
  | swdAbort v => exact complete_keeps (swd (unit (keeps_bind hc (keeps_swdXferAny ha _ _ _ _) fun _ => keeps_pure hc _)))
  | swdLinereset => exact complete_keeps (swd (unit (keeps_swdLinereset hl)))
  | swdTargetsel v => exact complete_keeps (swd (unit (keeps_swdTargetsel hl v)))

end

end Sys2Proof.Machine
end

