-- ==== Sys2Proof/Laws/Memory.lean ====
section
/-! SUPPORT. The laws of target memory: read after write, a write leaves every other address alone, and every operation
keeps the canonical form. -/

namespace Sys2Proof.Machine

theorem Memory.read_cons (a : Nat) (v : BitVec 8) (m : List Host.Cell) (x : Nat) (h : x = a → Memory.read m a = Memory.unlisted) :
    Memory.read (Memory.cons a v m) x = if x = a then v else Memory.read m x := by
  unfold Memory.cons
  by_cases hv : v = Memory.unlisted
  · rw [if_pos hv]
    by_cases hx : x = a
    · rw [if_pos hx, hx, h hx, hv]
    · rw [if_neg hx]
  · rw [if_neg hv]
    rfl

/-- The tail of a canonical memory is canonical. -/
theorem Memory.wf_tail {c : Host.Cell} {m : List Host.Cell} (h : Memory.wf (c :: m) = true) : Memory.wf m = true := by
  obtain ⟨a, v⟩ := c
  unfold Memory.wf at h
  simp only [Bool.and_eq_true] at h
  exact h.2

/-- The first address of a canonical memory is below every later one. -/
theorem Memory.wf_head {a b : Nat} {v w : BitVec 8} {m : List Host.Cell}
    (h : Memory.wf ((a, v) :: m) = true) (hb : (b, w) ∈ m) : a < b := by
  induction m generalizing a v with
  | nil => simp at hb
  | cons c m ih =>
    obtain ⟨c, x⟩ := c
    have hac : a < c := by
      unfold Memory.wf at h
      simp only [Bool.and_eq_true, decide_eq_true_eq] at h
      exact h.1.2
    rcases List.mem_cons.mp hb with e | hm
    · cases e; exact hac
    · exact hac.trans (ih (Memory.wf_tail h) hm)

/-- An address below every listed one reads as unlisted. -/
theorem Memory.read_below {a : Nat} {m : List Host.Cell} (h : ∀ b w, (b, w) ∈ m → a < b) :
    Memory.read m a = Memory.unlisted := by
  induction m with
  | nil => rfl
  | cons c m ih =>
    obtain ⟨b, w⟩ := c
    have : a ≠ b := (h b w (by simp)).ne
    unfold Memory.read
    rw [if_neg this]
    exact ih fun b w hb => h b w (List.mem_cons_of_mem _ hb)

/-- READ AFTER WRITE, and everything else reads as before. -/
theorem Memory.read_write {m : List Host.Cell} (hm : Memory.wf m = true) (a : Nat) (v : BitVec 8) (x : Nat) :
    Memory.read (Memory.write m a v) x = if x = a then v else Memory.read m x := by
  induction m with
  | nil => exact Memory.read_cons a v [] x fun _ => rfl
  | cons c m ih =>
    obtain ⟨b, w⟩ := c
    unfold Memory.write
    by_cases h1 : a < b
    · rw [if_pos h1]
      refine Memory.read_cons a v _ x fun _ => Memory.read_below ?_
      intro c y hc
      rcases List.mem_cons.mp hc with e | hc
      · cases e; exact h1
      · exact h1.trans (Memory.wf_head hm hc)
    · rw [if_neg h1]
      by_cases h2 : a = b
      · rw [if_pos h2]
        subst h2
        rw [Memory.read_cons a v m x fun _ => Memory.read_below fun c y hc => Memory.wf_head hm hc]
        by_cases hx : x = a
        · rw [if_pos hx, if_pos hx]
        · rw [if_neg hx, if_neg hx]
          conv_rhs => unfold Memory.read
          rw [if_neg hx]
      · rw [if_neg h2]
        have h := ih (Memory.wf_tail hm)
        conv_lhs => unfold Memory.read
        conv_rhs => unfold Memory.read
        by_cases hx : x = b
        · have : x ≠ a := fun e => h2 (e.symm.trans hx)
          rw [if_pos hx, if_neg this, if_pos hx]
        · rw [if_neg hx, if_neg hx]
          exact h

/-- A cell in front keeps the canonical form. -/
theorem Memory.wf_cons {a : Nat} {v : BitVec 8} {m : List Host.Cell} (hm : Memory.wf m = true)
    (h : ∀ b w, (b, w) ∈ m → a < b) : Memory.wf (Memory.cons a v m) = true := by
  unfold Memory.cons
  by_cases hv : v = Memory.unlisted
  · rw [if_pos hv]; exact hm
  · rw [if_neg hv]
    unfold Memory.wf
    simp only [Bool.and_eq_true, bne_iff_ne, ne_eq]
    refine ⟨⟨hv, ?_⟩, hm⟩
    cases m with
    | nil => rfl
    | cons c m =>
      obtain ⟨b, w⟩ := c
      simpa using h b w (by simp)

/-- Every address listed after a write was listed before or is the one written. -/
theorem Memory.mem_write {m : List Host.Cell} {a b : Nat} {v w : BitVec 8}
    (h : (b, w) ∈ Memory.write m a v) : b = a ∨ ∃ x, (b, x) ∈ m := by
  have hcons : ∀ m', (b, w) ∈ Memory.cons a v m' → b = a ∨ (b, w) ∈ m' := by
    intro m' hb
    unfold Memory.cons at hb
    split at hb
    · exact .inr hb
    · rcases List.mem_cons.mp hb with e | hb
      · cases e; exact .inl rfl
      · exact .inr hb
  induction m with
  | nil =>
    rcases hcons [] h with e | hb
    · exact .inl e
    · simp at hb
  | cons c m ih =>
    obtain ⟨c, x⟩ := c
    unfold Memory.write at h
    split at h
    · rcases hcons _ h with e | hb
      · exact .inl e
      · exact .inr ⟨w, hb⟩
    · split at h
      · rcases hcons _ h with e | hb
        · exact .inl e
        · exact .inr ⟨w, List.mem_cons_of_mem _ hb⟩
      · rcases List.mem_cons.mp h with e | hb
        · cases e; exact .inr ⟨w, by simp⟩
        · rcases ih hb with e | ⟨y, hy⟩
          · exact .inl e
          · exact .inr ⟨y, List.mem_cons_of_mem _ hy⟩

/-- A write keeps the canonical form. -/
theorem Memory.wf_write {m : List Host.Cell} (hm : Memory.wf m = true) (a : Nat) (v : BitVec 8) :
    Memory.wf (Memory.write m a v) = true := by
  induction m with
  | nil => exact Memory.wf_cons rfl fun b w hb => by simp at hb
  | cons c m ih =>
    obtain ⟨b, w⟩ := c
    unfold Memory.write
    split
    · rename_i h1
      refine Memory.wf_cons hm fun c y hc => ?_
      rcases List.mem_cons.mp hc with e | hc
      · cases e; exact h1
      · exact h1.trans (Memory.wf_head hm hc)
    · rename_i h1
      split
      · rename_i h2
        subst h2
        exact Memory.wf_cons (Memory.wf_tail hm) fun c y hc => Memory.wf_head hm hc
      · rename_i h2
        have hw : w ≠ Memory.unlisted := by
          unfold Memory.wf at hm
          simp only [Bool.and_eq_true, bne_iff_ne, ne_eq] at hm
          exact hm.1.1
        have hlt : ∀ c y, (c, y) ∈ Memory.write m a v → b < c := by
          intro c y hc
          rcases Memory.mem_write hc with e | ⟨x, hx⟩
          · omega
          · exact Memory.wf_head hm hx
        have hrest := ih (Memory.wf_tail hm)
        have := Memory.wf_cons (a := b) (v := w) hrest hlt
        unfold Memory.cons at this
        rwa [if_neg hw] at this

/-- A word write keeps the canonical form. -/
theorem Memory.wf_write32 {m : List Host.Cell} (hm : Memory.wf m = true) (a : Nat) (v : BitVec 32) :
    Memory.wf (Memory.write32 m a v) = true :=
  Memory.wf_write (Memory.wf_write (Memory.wf_write (Memory.wf_write hm _ _) _ _) _ _) _ _

/-- Storing a byte string keeps the canonical form. -/
theorem Memory.wf_fill {m : List Host.Cell} (hm : Memory.wf m = true) (a : Nat) (bs : List (BitVec 8)) :
    Memory.wf (Memory.fill m a bs) = true := by
  induction bs generalizing m a with
  | nil => exact hm
  | cons b bs ih => exact ih (Memory.wf_write hm a b) (a + 1)

/-- What each address reads after a byte string is stored. -/
theorem Memory.read_fill {m : List Host.Cell} (hm : Memory.wf m = true) (a : Nat) (bs : List (BitVec 8)) (x : Nat) :
    Memory.read (Memory.fill m a bs) x = if a ≤ x then (bs[x - a]?).getD (Memory.read m x) else Memory.read m x := by
  induction bs generalizing m a with
  | nil => simp [Memory.fill]
  | cons b bs ih =>
    rw [Memory.fill, ih (Memory.wf_write hm a b), Memory.read_write hm]
    by_cases h : a + 1 ≤ x
    · have e : x - a = (x - (a + 1)) + 1 := by omega
      rw [if_pos h, if_neg (by omega), if_pos (by omega), e]
      simp
    · rw [if_neg h]
      by_cases hx : x = a
      · subst hx; simp
      · rw [if_neg hx, if_neg (by omega)]

/-- What each address reads after a word write. -/
theorem Memory.read_write32 {m : List Host.Cell} (hm : Memory.wf m = true) (a : Nat) (v : BitVec 32) (x : Nat) :
    Memory.read (Memory.write32 m a v) x =
      if x = a then v.extractLsb' 0 8 else if x = a + 1 then v.extractLsb' 8 8
      else if x = a + 2 then v.extractLsb' 16 8 else if x = a + 3 then v.extractLsb' 24 8 else Memory.read m x := by
  unfold Memory.write32
  have h0 := Memory.wf_write hm a (v.extractLsb' 0 8)
  have h1 := Memory.wf_write h0 (a + 1) (v.extractLsb' 8 8)
  have h2 := Memory.wf_write h1 (a + 2) (v.extractLsb' 16 8)
  rw [Memory.read_write h2, Memory.read_write h1, Memory.read_write h0, Memory.read_write hm]
  by_cases e0 : x = a
  · subst e0; simp
  · by_cases e1 : x = a + 1
    · subst e1; simp
    · by_cases e2 : x = a + 2
      · subst e2; simp
      · simp [e0, e1, e2]

end Sys2Proof.Machine
end

