-- ==== Sys2Proof/Laws/Target.lean ====
section
/-! SUPPORT. The reference target: bits and words, what the wire registers do not enter, and each link primitive
against T0. -/

namespace Sys2Proof.Machine

open Sys2Proof

/-! ## Bits and words -/

theorem wordOfBits_getLsbD (bits : List Bool) (i : Nat) :
    (wordOfBits bits).getLsbD i = (decide (i < 32) && bits.getD i false) := by
  induction bits generalizing i with
  | nil => simp [wordOfBits]
  | cons b bs ih =>
    cases i with
    | zero => cases b <;> simp [wordOfBits]
    | succ i =>
      have : ((if b = true then 1 else 0 : W32)).getLsbD (i + 1) = false := by cases b <;> simp
      simp only [wordOfBits, BitVec.getLsbD_or, this, BitVec.getLsbD_shiftLeft, Bool.or_false]
      rw [show i + 1 - 1 = i by omega, ih]
      by_cases h : i + 1 < 32
      · simp [h, show i < 32 by omega]
      · simp [h]

theorem bitsOf_getD {w : Nat} (x : BitVec w) (n i : Nat) :
    (bitsOf x n).getD i false = (decide (i < n) && x.getLsbD i) := by
  unfold bitsOf
  by_cases h : i < n
  · simp [List.getD_eq_getElem?_getD, h]
  · simp [List.getD_eq_getElem?_getD, h]

@[simp] theorem bitsOf_length {w : Nat} (x : BitVec w) (n : Nat) : (bitsOf x n).length = n := by simp [bitsOf]

/-- The 32 bits of a word, whatever follows them, are the word (R121). -/
theorem wordOfBits_bitsOf (w : W32) (rest : List Bool) : wordOfBits (bitsOf w 32 ++ rest) = w := by
  apply BitVec.eq_of_getLsbD_eq
  intro i hi
  rw [wordOfBits_getLsbD]
  simp only [hi, decide_true, Bool.true_and]
  rw [List.getD_append _ _ _ _ (by simpa using hi), bitsOf_getD]
  simp [hi]

theorem wordOfBits_dataBits (w : W32) : wordOfBits (dataBits w) = w := wordOfBits_bitsOf w _

theorem wordOfBits_take_dataBits (w : W32) : wordOfBits ((dataBits w).take 32) = w := by
  have : (dataBits w).take 32 = bitsOf w 32 ++ [] := by
    unfold dataBits
    rw [List.take_left' (by simp), List.append_nil]
  rw [this, wordOfBits_bitsOf]

theorem dataBits_parity (w : W32) : (dataBits w).getD 32 false = par32 w := by
  unfold dataBits
  rw [List.getD_append_right _ _ _ _ (by simp)]
  simp

/-- A request byte sent bit by bit arrives (R119). -/
theorem byteOfBits_bitsOf (b : Byte) : byteOfBits (bitsOf b 8) = b := by
  revert b
  decide

theorem swdReq_fields (apndp rnw : Bool) (a : RegAddr) (h : a.aligned = true) :
    swdApndp (swdReqByte apndp rnw a) = apndp ∧ swdRnw (swdReqByte apndp rnw a) = rnw ∧
      swdAddr (swdReqByte apndp rnw a) = a := by
  revert apndp rnw a
  decide

/-- Only the DP write of address 0xC is TARGETSEL (R179). -/
theorem swdReq_targetsel (apndp rnw : Bool) (a : RegAddr) (h : apndp = true ∨ rnw = true ∨ a ≠ 0xC)
    (ha : a.aligned = true) : swdReqByte apndp rnw a ≠ 0x99 := by
  revert apndp rnw a
  decide

/-- The bits of a captured scan (R118). -/
theorem scan_getLsbD (d : W32) (k : BitVec 3) (i : Nat) :
    BitVec.getLsbD (d ++ k : Scan) i = if i < 3 then k.getLsbD i else d.getLsbD (i - 3) :=
  BitVec.getLsbD_append

/-- The bits of a request (R117). -/
theorem drReq_getLsbD (rnw : Bool) (a : RegAddr) (d : W32) (i : Nat) :
    BitVec.getLsbD (drReq rnw a d) i =
      if i < 1 then (BitVec.ofBool rnw).getLsbD i
      else if i - 1 < 2 then (a.extractLsb' 2 2).getLsbD (i - 1) else d.getLsbD (i - 1 - 2) := by
  refine (BitVec.getLsbD_append (x := d ++ a.extractLsb' 2 2) (y := BitVec.ofBool rnw) (i := i)).trans ?_
  rw [BitVec.getLsbD_append]

/-- An aligned register address is its two upper bits (R123). -/
theorem aligned_addr (a : RegAddr) (h : a.aligned = true) : a.extractLsb' 2 2 ++ 0#2 = a := by
  revert a
  decide

theorem drReq_fields (rnw : Bool) (a : RegAddr) (d : W32) (h : a.aligned = true) :
    drRnw (drReq rnw a d) = rnw ∧ drAddr (drReq rnw a d) = a ∧ drData (drReq rnw a d) = d := by
  refine ⟨?_, ?_, ?_⟩
  · unfold drRnw
    rw [drReq_getLsbD, if_pos (by omega)]
    cases rnw <;> rfl
  · rw [← aligned_addr a h]
    unfold drAddr
    congr 1
    rw [aligned_addr a h]
    apply BitVec.eq_of_getLsbD_eq
    intro i hi
    rw [BitVec.getLsbD_extractLsb', drReq_getLsbD, if_neg (by omega), if_pos (by omega),
      show 1 + i - 1 = i by omega]
    simp [hi]
  · unfold drData
    apply BitVec.eq_of_getLsbD_eq
    intro i hi
    rw [BitVec.getLsbD_extractLsb', drReq_getLsbD, if_neg (by omega), if_neg (by omega),
      show 3 + i - 1 - 2 = i by omega]
    simp [hi]

/-- A captured scan is its acknowledgement and its data (R118). -/
theorem drAck_append (d : W32) (k : BitVec 3) : drAck (d ++ k) = k := by
  unfold drAck
  apply BitVec.eq_of_getLsbD_eq
  intro i hi
  rw [BitVec.getLsbD_extractLsb', scan_getLsbD, if_pos (by omega), show 0 + i = i by omega]
  simp [hi]

theorem drData_append (d : W32) (k : BitVec 3) : drData (d ++ k) = d := by
  unfold drData
  apply BitVec.eq_of_getLsbD_eq
  intro i hi
  rw [BitVec.getLsbD_extractLsb', scan_getLsbD, if_neg (by omega), show 3 + i - 3 = i by omega]
  simp [hi]

theorem ofCode_code (ir : IrCode) : IrCode.ofCode ir.code = some ir := by
  cases ir <;> decide

end Sys2Proof.Machine
end

