-- ==== Sys2Proof/Laws/Loop.lean ====
section
/-! SUPPORT. The closed loop with the reference target: what T0's registers keep, each link transaction against T0, and
each of the link primitives (R408 to R410). -/

namespace Sys2Proof.Machine

open Sys2Proof

/-! ## What T0 keeps -/

/-- The part of T0 no register access of DAPSEQ changes: its constants and the wait counter, and `t_phase`. -/
structure T0Kept (t u : T0) : Prop where
  dpidr : u.dpidr = t.dpidr
  targetid : u.targetid = t.targetid
  dlpidr : u.dlpidr = t.dlpidr
  eventstat : u.eventstat = t.eventstat
  dpidr1 : u.dpidr1 = t.dpidr1
  bad : u.bad = t.bad
  powerDead : u.powerDead = t.powerDead
  ir : u.ir = t.ir
  wait : u.wait = t.wait
  phase : u.phase = t.phase

theorem T0Kept.refl (t : T0) : T0Kept t t := ⟨rfl, rfl, rfl, rfl, rfl, rfl, rfl, rfl, rfl, rfl⟩

/-- What an access of an AP register keeps: also SELECT, CTRL_STAT's control bits and the pending result. -/
structure ApKept (t u : T0) : Prop extends T0Kept t u where
  select : u.select = t.select
  ctrl : u.ctrl = t.ctrl
  rdbuff : u.rdbuff = t.rdbuff

theorem ApKept.refl (t : T0) : ApKept t t := ⟨T0Kept.refl t, rfl, rfl, rfl⟩

theorem drwAccess_kept (t : T0) (p : T0Ap) (rnw : Bool) (v : W32) : ApKept t (t.drwAccess p rnw v).2 := by
  unfold T0.drwAccess
  simp only
  split
  · exact ⟨⟨rfl, rfl, rfl, rfl, rfl, rfl, rfl, rfl, rfl, rfl⟩, rfl, rfl, rfl⟩
  · split <;> cases rnw <;> exact ⟨⟨rfl, rfl, rfl, rfl, rfl, rfl, rfl, rfl, rfl, rfl⟩, rfl, rfl, rfl⟩

theorem drw_none {t : T0} (h : t.inject = none) (p : T0Ap) (rnw : Bool) (v : W32) :
    t.drw p rnw v = t.drwAccess p rnw v := by
  unfold T0.drw
  rw [h]

theorem drw_fire {t : T0} {m : W32} (h : t.inject = some (1, m)) (p : T0Ap) (rnw : Bool) (v : W32) :
    t.drw p rnw v = (0, { t with inject := none, sticky := t.sticky ||| m }) := by
  unfold T0.drw
  rw [h]
  rfl

theorem drw_count {t : T0} {k : Nat} {m : W32} (h : t.inject = some (k, m)) (hk : k ≠ 1) (p : T0Ap) (rnw : Bool)
    (v : W32) : t.drw p rnw v = ({ t with inject := some (k - 1, m) } : T0).drwAccess p rnw v := by
  unfold T0.drw
  rw [h]
  simp only [if_neg hk]

theorem drw_kept (t : T0) (p : T0Ap) (rnw : Bool) (v : W32) : ApKept t (t.drw p rnw v).2 := by
  unfold T0.drw
  cases t.inject with
  | none => exact drwAccess_kept t p rnw v
  | some k =>
    obtain ⟨k, m⟩ := k
    simp only
    split
    · exact ⟨⟨rfl, rfl, rfl, rfl, rfl, rfl, rfl, rfl, rfl, rfl⟩, rfl, rfl, rfl⟩
    · have h := drwAccess_kept { t with inject := some (k - 1, m) } p rnw v
      exact ⟨⟨h.dpidr, h.targetid, h.dlpidr, h.eventstat, h.dpidr1, h.bad, h.powerDead, h.ir, h.wait, h.phase⟩,
        h.select, h.ctrl, h.rdbuff⟩

/-- An access of an AP register keeps all but that AP's CSW and TAR, the memory, the sticky flags and the injector
(R405 to R407). -/
theorem apAccess_kept (t : T0) (rnw : Bool) (a : RegAddr) (v : W32) : ApKept t (t.apAccess rnw a v).2 := by
  unfold T0.apAccess
  cases t.aps.find? fun p => p.index == t.select.extractLsb' 24 8 with
  | none => exact ApKept.refl t
  | some p =>
    simp only
    split
    · cases rnw
      · exact ⟨⟨rfl, rfl, rfl, rfl, rfl, rfl, rfl, rfl, rfl, rfl⟩, rfl, rfl, rfl⟩
      · exact ApKept.refl t
    · split
      · cases rnw
        · exact ⟨⟨rfl, rfl, rfl, rfl, rfl, rfl, rfl, rfl, rfl, rfl⟩, rfl, rfl, rfl⟩
        · exact ApKept.refl t
      · split
        · exact drw_kept t p rnw v
        · split
          · exact ApKept.refl t
          · split <;> exact ApKept.refl t

theorem dpWrite_kept (t : T0) (a : RegAddr) (v : W32) : T0Kept t (t.dpWrite a v) := by
  unfold T0.dpWrite
  split
  · exact ⟨rfl, rfl, rfl, rfl, rfl, rfl, rfl, rfl, rfl, rfl⟩
  · split
    · split
      · exact ⟨rfl, rfl, rfl, rfl, rfl, rfl, rfl, rfl, rfl, rfl⟩
      · exact T0Kept.refl t
    · split
      · exact ⟨rfl, rfl, rfl, rfl, rfl, rfl, rfl, rfl, rfl, rfl⟩
      · exact T0Kept.refl t

theorem dpWrite_rdbuff (t : T0) (a : RegAddr) (v : W32) : (t.dpWrite a v).rdbuff = t.rdbuff := by
  unfold T0.dpWrite
  split
  · rfl
  · split
    · split <;> rfl
    · split <;> rfl

/-- What a scan keeps: all constants, the instruction register and the wait counter (R408). -/
theorem scanEffect_kept (t : T0) (req : Scan) : T0Kept t (t.scanEffect req) := by
  unfold T0.scanEffect
  simp only
  split
  · split
    · exact dpWrite_kept t _ _
    · exact T0Kept.refl t
  · split
    · split
      · exact ⟨rfl, rfl, rfl, rfl, rfl, rfl, rfl, rfl, rfl, rfl⟩
      · split
        · exact T0Kept.refl t
        · exact dpWrite_kept t _ _
    · split
      · split
        · exact ⟨rfl, rfl, rfl, rfl, rfl, rfl, rfl, rfl, rfl, rfl⟩
        · exact T0Kept.refl t
      · split
        · have h := (apAccess_kept t true (drAddr req) 0).toT0Kept
          exact ⟨h.dpidr, h.targetid, h.dlpidr, h.eventstat, h.dpidr1, h.bad, h.powerDead, h.ir, h.wait, h.phase⟩
        · exact (apAccess_kept t false _ _).toT0Kept

/-! ## The wire registers enter no register access but a read of RDBUFF -/

theorem dpRead_settled (t : T0) (a : RegAddr) (h : a ≠ 0xC) : t.settled.dpRead a = t.dpRead a := by
  unfold T0.dpRead
  simp only [if_neg h]
  rfl

/-- T0 with other wire registers. -/
def T0.withWire (t : T0) (rd : W32) (ir : BitVec 4) (ph : T0Phase) : T0 :=
  { t with rdbuff := rd, ir := ir, phase := ph }

/-- A register access on T0 with other wire registers does the same. -/
theorem dpWrite_wire (t : T0) (rd : W32) (ir : BitVec 4) (ph : T0Phase) (a : RegAddr) (v : W32) :
    (t.withWire rd ir ph).dpWrite a v =
      (t.dpWrite a v).withWire rd ir ph := by
  unfold T0.dpWrite
  split
  · rfl
  · have hs : (t.withWire rd ir ph).select = t.select := rfl
    rw [hs]
    split
    · split <;> rfl
    · split <;> rfl

theorem drwAccess_wire (t : T0) (rd : W32) (ir : BitVec 4) (ph : T0Phase) (p : T0Ap) (rnw : Bool) (v : W32) :
    (t.withWire rd ir ph).drwAccess p rnw v =
      ((t.drwAccess p rnw v).1, (t.drwAccess p rnw v).2.withWire rd ir ph) := by
  have hf : (t.withWire rd ir ph).faults p = t.faults p := rfl
  unfold T0.drwAccess
  simp only [hf]
  split
  · rfl
  · split <;> cases rnw <;> rfl

theorem drw_wire (t : T0) (rd : W32) (ir : BitVec 4) (ph : T0Phase) (p : T0Ap) (rnw : Bool) (v : W32) :
    (t.withWire rd ir ph).drw p rnw v =
      ((t.drw p rnw v).1, (t.drw p rnw v).2.withWire rd ir ph) := by
  cases h : t.inject with
  | none => rw [drw_none h, drw_none (t := t.withWire rd ir ph) h, drwAccess_wire]
  | some k =>
    obtain ⟨k, m⟩ := k
    by_cases hk : k = 1
    · subst hk
      rw [drw_fire h, drw_fire (t := t.withWire rd ir ph) h]
      rfl
    · rw [drw_count h hk, drw_count (t := t.withWire rd ir ph) h hk]
      exact drwAccess_wire { t with inject := some (k - 1, m) } rd ir ph p rnw v

theorem apAccess_wire (t : T0) (rd : W32) (ir : BitVec 4) (ph : T0Phase) (rnw : Bool) (a : RegAddr) (v : W32) :
    (t.withWire rd ir ph).apAccess rnw a v =
      ((t.apAccess rnw a v).1, (t.apAccess rnw a v).2.withWire rd ir ph) := by
  have hl : (t.withWire rd ir ph).layout = t.layout := rfl
  have hs : (t.withWire rd ir ph).select = t.select := rfl
  have ha : (t.withWire rd ir ph).aps = t.aps := rfl
  unfold T0.apAccess
  simp only [hl, hs, ha]
  cases t.aps.find? fun p => p.index == t.select.extractLsb' 24 8 with
  | none => rfl
  | some p =>
    simp only
    split
    · cases rnw <;> rfl
    · split
      · cases rnw <;> rfl
      · split
        · exact drw_wire t rd ir ph p rnw v
        · split
          · rfl
          · split <;> rfl

theorem dpWrite_settled (t : T0) (a : RegAddr) (v : W32) : t.settled.dpWrite a v = (t.dpWrite a v).settled :=
  dpWrite_wire t 0 0 .idle a v

theorem apAccess_settled (t : T0) (rnw : Bool) (a : RegAddr) (v : W32) :
    t.settled.apAccess rnw a v = ((t.apAccess rnw a v).1, (t.apAccess rnw a v).2.settled) :=
  apAccess_wire t 0 0 .idle rnw a v

/-! ## JTAG against T0 (R408) -/

theorem drScan_quiet {t : T0} (hw : t.wait = .count 0) {ir : IrCode} (hi : t.ir = ir.code) (req : Scan) :
    t.drScan req = (t.rdbuff ++ 0b010#3, t.scanEffect req) := by
  unfold T0.drScan
  rw [hi, ofCode_code]
  simp [T0.waiting, hw]

/-- JTAG.IRSEL in the loop: T0 has the code loaded, and nothing else changes. -/
theorem jtagIrsel_loop {s : State} {t : T0} (h : Loop s t) (hj : s.cfg.iface = .jtag) (ir : IrCode) :
    ∃ u, jtagIrsel ir s = .ok () u ∧ FrameLink s u ∧ u.jtagIr = some ir ∧ u.target = some (t.irScan ir.code) := by
  by_cases hi : s.jtagIr = some ir
  · refine ⟨s, jtagIrsel_same hi, FrameLink.refl s, hi, ?_⟩
    rw [h.target]
    congr 1
    unfold T0.irScan
    rw [← h.ir ir hi]
  · refine ⟨_, jtagIrsel_change hi, ?_, rfl, ?_⟩
    · exact FrameLink.call _ rfl rfl rfl rfl rfl rfl (fun k => absurd hj k) rfl rfl rfl rfl rfl
    · show s.target.map _ = _
      rw [h.target]
      rfl

/-- One issue of a scan, said once for each acknowledgement (R151). -/
theorem jtagIssue_ok {req rsp : Scan} {s u : State} (h : bdDrScan req s = .ok rsp u) (ha : drAck rsp = 0b010) :
    jtagIssue req s = .ok (some (drData rsp)) u := by
  unfold jtagIssue
  rw [run_bind_ok h, if_pos ha]
  rfl

theorem jtagIssue_wait {req rsp : Scan} {s u : State} (h : bdDrScan req s = .ok rsp u) (ha : drAck rsp = 0b001) :
    jtagIssue req s = .ok none u := by
  unfold jtagIssue
  rw [run_bind_ok h, if_neg (by rw [ha]; decide), if_pos ha]
  rfl

theorem jtagIssue_invalid {req rsp : Scan} {s u : State} (h : bdDrScan req s = .ok rsp u) (h2 : drAck rsp ≠ 0b010)
    (h1 : drAck rsp ≠ 0b001) :
    jtagIssue req s = .error (.dpOrApAccessError ⟨.invalidAck, (drAck rsp).setWidth 32⟩) u := by
  unfold jtagIssue
  rw [run_bind_ok h, if_neg h2, if_neg h1]
  rfl

/-- JTAG.SCAN in the loop: it captures the pending result, and T0 does what the request asks (R408). -/
theorem jtagScan_loop {s : State} {t : T0} (h : Loop s t) (hj : s.cfg.iface = .jtag) (ir : IrCode) (rnw : Bool)
    (a : RegAddr) (d : W32) :
    ∃ u, jtagScan ir rnw a d s = .ok t.rdbuff u ∧ FrameLink s u ∧ u.jtagIr = some ir ∧
      u.target = some ((t.irScan ir.code).scanEffect (drReq rnw a d)) ∧
      Loop u ((t.irScan ir.code).scanEffect (drReq rnw a d)) := by
  obtain ⟨v, hv, fv, jv, tv⟩ := jtagIrsel_loop h hj ir
  have hq : (t.irScan ir.code).drScan (drReq rnw a d) =
      (t.rdbuff ++ 0b010#3, (t.irScan ir.code).scanEffect (drReq rnw a d)) :=
    drScan_quiet (t := t.irScan ir.code) h.noWait rfl (drReq rnw a d)
  have hs := bdDrScan_target (drReq rnw a d) tv
  rw [hq] at hs
  have hi := jtagIssue_ok hs (drAck_append _ _)
  rw [drData_append] at hi
  have k := scanEffect_kept (t.irScan ir.code) (drReq rnw a d)
  refine ⟨(v.setTarget (some ((t.irScan ir.code).scanEffect (drReq rnw a d)))).pushEvent
      (.drScan (drReq rnw a d) (t.rdbuff ++ 0b010#3)), ?_,
    fv.trans (FrameLink.call _ rfl rfl rfl rfl rfl rfl (fun _ => rfl) rfl rfl rfl rfl rfl), jv, rfl,
    ?_, rfl, k.wait.trans h.noWait, fun ir' hir => ?_⟩
  · unfold jtagScan
    rw [run_bind_ok hv, Config.waitThreshold, jtagScanLoop, run_bind_ok hi]
    rfl
  · show v.cfg.iface = _ ∨ v.cfg.iface = _
    rw [fv.cfg]; exact h.iface
  · have : some ir = some ir' := jv.symm.trans hir
    cases this
    exact k.ir

/-! ## SWD against T0 (R409) -/

/-- A call in the loop: what T0 samples, and T0 afterwards. -/
theorem bdDriveLine_loop {s : State} {t : T0} (ht : s.target = some t) (segs : List Segment) :
    ∃ u, bdDriveLine segs s = .ok (t.driveLine segs).1 u ∧ FrameLink s u ∧ u.jtagIr = s.jtagIr ∧
      u.target = some (t.driveLine segs).2 :=
  ⟨_, bdDriveLine_target segs ht,
    FrameLink.call _ rfl rfl rfl rfl rfl rfl (fun _ => rfl) rfl rfl rfl rfl rfl, rfl, rfl⟩

/-- `Idle()` in the loop: only the trace grows. -/
theorem swdIdle_loop {s : State} {t : T0} (ht : s.target = some t) :
    ∃ u, swdIdle s = .ok () u ∧ FrameLink s u ∧ u.jtagIr = s.jtagIr ∧ u.target = some t := by
  unfold swdIdle
  rw [run_getS_bind]
  split
  · exact ⟨s, rfl, FrameLink.refl s, rfl, ht⟩
  · obtain ⟨u, hu, fu, ju, tu⟩ := bdDriveLine_loop ht [.out (List.replicate s.cfg.swdIdleCycles false)]
    exact ⟨u, by rw [run_bind_ok hu]; rfl, fu, ju, tu⟩

/-- The data phase T0 opens for a request (R409). -/
def phaseOf (apndp rnw : Bool) (a : RegAddr) : T0Phase :=
  match apndp, rnw with
  | false, true => .dpRead a
  | false, false => .dpWrite a
  | true, true => .apRead a
  | true, false => .apWrite a

/-- A request T0 acknowledges OK (R409). -/
theorem swdRequest_ok {t : T0} (hw : t.wait = .count 0) {apndp rnw : Bool} {a : RegAddr} (ha : a.aligned = true)
    (hok : t.xferOk apndp rnw a = true) :
    t.driveLine [.out (bitsOf (swdReqByte apndp rnw a) 8), .trn 1, .inp 3] =
      ([true, false, false], { t with phase := phaseOf apndp rnw a }) := by
  show t.swdRequest (byteOfBits (bitsOf (swdReqByte apndp rnw a) 8)) = _
  rw [byteOfBits_bitsOf]
  obtain ⟨h1, h2, h3⟩ := swdReq_fields apndp rnw a ha
  unfold T0.xferOk at hok
  simp only [Bool.and_eq_true, Bool.or_eq_true, Bool.not_eq_true', beq_iff_eq, bne_iff_ne, ne_eq] at hok
  obtain ⟨hs, hc⟩ := hok
  have ht : swdReqByte apndp rnw a ≠ 0x99 := by
    refine swdReq_targetsel apndp rnw a ?_ ha
    tauto
  have hq : t.waiting = false := by simp [T0.waiting, hw]
  have hst : (apndp && t.sticky != 0) = false := by
    rcases hs with h | h
    · rw [h]; rfl
    · simp [h]
  unfold T0.swdRequest
  simp only [h1, h2, h3, if_neg ht, hq, hst]
  cases apndp <;> cases rnw <;> rfl

/-- The read phase T0 opened (R409). -/
theorem readPhase_ok (t : T0) (apndp : Bool) (a : RegAddr) :
    ({ t with phase := phaseOf apndp true a } : T0).driveLine [.inp 33, .trn 1] =
      (dataBits (t.xferValue apndp true a), { t.xferEffect apndp true a 0 with phase := .idle }) := by
  cases apndp
  · rfl
  · have h := apAccess_wire t t.rdbuff t.ir (.apRead a) true a 0
    show (dataBits t.rdbuff, ({ ((t.withWire t.rdbuff t.ir (.apRead a)).apAccess true a 0).2 with
      rdbuff := ((t.withWire t.rdbuff t.ir (.apRead a)).apAccess true a 0).1, phase := .idle } : T0)) = _
    rw [h]
    have k := apAccess_kept t true a 0
    unfold T0.xferEffect T0.withWire
    simp only [k.ir]
    rfl

/-- The write phase T0 opened (R409). -/
theorem writePhase_ok (t : T0) (apndp : Bool) (a : RegAddr) (w : W32) :
    ({ t with phase := phaseOf apndp false a } : T0).driveLine [.trn 1, .out (dataBits w)] =
      ([], { t.xferEffect apndp false a w with phase := .idle }) := by
  show ([], ({ t with phase := phaseOf apndp false a } : T0).swdWritePhase (wordOfBits (dataBits w))) = _
  rw [wordOfBits_dataBits]
  cases apndp
  · have h := dpWrite_wire t t.rdbuff t.ir (.dpWrite a) a w
    show ([], ({ (t.withWire t.rdbuff t.ir (.dpWrite a)).dpWrite a w with phase := .idle } : T0)) = _
    rw [h]
    have k := dpWrite_kept t a w
    unfold T0.xferEffect T0.withWire
    simp only [← k.ir, ← dpWrite_rdbuff t a w]
  · have h := apAccess_wire t t.rdbuff t.ir (.apWrite a) false a w
    show ([], ({ ((t.withWire t.rdbuff t.ir (.apWrite a)).apAccess false a w).2 with phase := .idle } : T0)) = _
    rw [h]
    have k := apAccess_kept t false a w
    unfold T0.xferEffect T0.withWire
    simp only [← k.ir, ← k.rdbuff]

theorem xferEffect_kept (t : T0) (apndp rnw : Bool) (a : RegAddr) (w : W32) :
    T0Kept t (t.xferEffect apndp rnw a w) := by
  cases apndp <;> cases rnw
  · exact dpWrite_kept t a w
  · exact T0Kept.refl t
  · exact (apAccess_kept t false a w).toT0Kept
  · have h := (apAccess_kept t true a 0).toT0Kept
    exact ⟨h.dpidr, h.targetid, h.dlpidr, h.eventstat, h.dpidr1, h.bad, h.powerDead, h.ir, h.wait, h.phase⟩

/-- SWD.XFER in the loop: the word T0 delivers, and T0 does what the request asks (R409). -/
theorem swdXfer_loop {s : State} {t : T0} (h : Loop s t) {apndp rnw : Bool} {a : RegAddr} (ha : a.aligned = true)
    (hok : t.xferOk apndp rnw a = true) (w : W32) :
    ∃ u, swdXfer apndp rnw a w s = .ok (t.xferValue apndp rnw a) u ∧ FrameLink s u ∧ u.jtagIr = s.jtagIr ∧
      u.target = some { t.xferEffect apndp rnw a w with phase := .idle } ∧
      Loop u { t.xferEffect apndp rnw a w with phase := .idle } := by
  have kept := xferEffect_kept t apndp rnw a w
  obtain ⟨v, hv, fv, jv, tv⟩ := bdDriveLine_loop h.target [.out (bitsOf (swdReqByte apndp rnw a) 8), .trn 1, .inp 3]
  rw [swdRequest_ok h.noWait ha hok] at hv tv
  have main : ∃ u, swdDataPhase rnw w v = .ok (t.xferValue apndp rnw a) u ∧ FrameLink v u ∧ u.jtagIr = v.jtagIr ∧
      u.target = some { t.xferEffect apndp rnw a w with phase := .idle } := by
    cases rnw
    · obtain ⟨x, hx, fx, jx, tx⟩ := bdDriveLine_loop tv [.trn 1, .out (dataBits w)]
      rw [writePhase_ok t apndp a w] at hx tx
      obtain ⟨y, hy, fy, jy, ty⟩ := swdIdle_loop tx
      refine ⟨y, ?_, fx.trans fy, jy.trans jx, ty⟩
      have hp : swdWritePhase w v = .ok () x := by
        unfold swdWritePhase
        rw [run_bind_ok hx]
        rfl
      show (swdWritePhase w >>= fun _ => swdIdle >>= fun _ => pure 0) v = _
      rw [run_bind_ok hp, run_bind_ok hy]
      rfl
    · obtain ⟨x, hx, fx, jx, tx⟩ := bdDriveLine_loop tv [.inp 33, .trn 1]
      rw [readPhase_ok t apndp a] at hx tx
      obtain ⟨y, hy, fy, jy, ty⟩ := swdIdle_loop tx
      have he : t.xferEffect apndp true a w = t.xferEffect apndp true a 0 := by cases apndp <;> rfl
      refine ⟨y, ?_, fx.trans fy, jy.trans jx, by rw [he]; exact ty⟩
      unfold swdDataPhase
      rw [if_pos rfl, run_bind_ok hx, run_bind_ok hy]
      simp only
      rw [wordOfBits_take_dataBits, dataBits_parity, if_pos rfl]
      rfl
  obtain ⟨u, hu, fu, ju, tu⟩ := main
  refine ⟨u, ?_, fv.trans fu, ju.trans jv, tu, ?_, tu, kept.wait.trans h.noWait, fun ir hir => ?_⟩
  · unfold swdXfer
    rw [run_bind_ok hv, if_pos (by show ackOf [true, false, false] = 0b001; decide)]
    exact hu
  · rw [fu.cfg, fv.cfg]; exact h.iface
  · exact kept.ir.trans (h.ir ir ((ju.trans jv).symm.trans hir))

/-! ## The scans DAPSEQ sends (R408) -/

theorem scan_dpRead (t : T0) {a : RegAddr} (ha : a.aligned = true) :
    (t.irScan IrCode.dpacc.code).scanEffect (drReq true a 0) =
      { t with ir := IrCode.dpacc.code, rdbuff := t.dpRead a } := by
  obtain ⟨h1, h2, h3⟩ := drReq_fields true a 0 ha
  unfold T0.scanEffect
  simp only [h1, h2, h3]
  rfl

theorem scan_dpWrite (t : T0) {a : RegAddr} (ha : a.aligned = true) (h0 : a ≠ 0) (v : W32) :
    (t.irScan IrCode.dpacc.code).scanEffect (drReq false a v) = (t.irScan IrCode.dpacc.code).dpWrite a v := by
  obtain ⟨h1, h2, h3⟩ := drReq_fields false a v ha
  unfold T0.scanEffect
  simp only [h1, h2, h3, if_neg h0]
  rfl

theorem scan_abort (t : T0) (v : W32) :
    (t.irScan IrCode.abort.code).scanEffect (drReq false 0 v) = (t.irScan IrCode.abort.code).dpWrite 0 v := by
  obtain ⟨h1, h2, h3⟩ := drReq_fields false 0 v (by decide)
  unfold T0.scanEffect
  simp only [h1, h2, h3]
  rfl

theorem scan_apRead {t : T0} (hs : t.sticky = 0) {a : RegAddr} (ha : a.aligned = true) :
    (t.irScan IrCode.apacc.code).scanEffect (drReq true a 0) =
      { ((t.irScan IrCode.apacc.code).apAccess true a 0).2 with
        rdbuff := ((t.irScan IrCode.apacc.code).apAccess true a 0).1 } := by
  obtain ⟨h1, h2, h3⟩ := drReq_fields true a 0 ha
  have hs' : ¬(t.irScan IrCode.apacc.code).sticky ≠ 0 := fun h => h hs
  unfold T0.scanEffect
  simp only [h1, h2, h3, if_neg hs']
  rfl

theorem scan_apWrite {t : T0} (hs : t.sticky = 0) {a : RegAddr} (ha : a.aligned = true) (v : W32) :
    (t.irScan IrCode.apacc.code).scanEffect (drReq false a v) =
      ((t.irScan IrCode.apacc.code).apAccess false a v).2 := by
  obtain ⟨h1, h2, h3⟩ := drReq_fields false a v ha
  have hs' : ¬(t.irScan IrCode.apacc.code).sticky ≠ 0 := fun h => h hs
  unfold T0.scanEffect
  simp only [h1, h2, h3, if_neg hs']
  rfl

/-! ## The settled target -/

/-- T0 with other wire registers settles to the same. -/
@[simp] theorem withWire_settled (t : T0) (rd : W32) (ir : BitVec 4) (ph : T0Phase) :
    (t.withWire rd ir ph).settled = t.settled := rfl

theorem irScan_eq (t : T0) (c : BitVec 4) : t.irScan c = t.withWire t.rdbuff c t.phase := rfl

theorem apAccess_irScan (t : T0) (c : BitVec 4) (rnw : Bool) (a : RegAddr) (v : W32) :
    ((t.irScan c).apAccess rnw a v).1 = (t.apAccess rnw a v).1 ∧
      ((t.irScan c).apAccess rnw a v).2.settled = (t.apAccess rnw a v).2.settled := by
  rw [irScan_eq, apAccess_wire]
  exact ⟨rfl, rfl⟩

theorem dpWrite_irScan (t : T0) (c : BitVec 4) (a : RegAddr) (v : W32) :
    ((t.irScan c).dpWrite a v).settled = (t.dpWrite a v).settled := by
  rw [irScan_eq, dpWrite_wire]
  rfl

/-! ## The link primitives against T0 (R115) -/

/-- `Link.DpRead(A)` in the loop delivers T0's register and changes nothing but wire registers. -/
theorem linkDpRead_loop {s : State} {t : T0} (h : Loop s t) {a : RegAddr} (ha : a.aligned = true) :
    ∃ u t', linkDpRead a s = .ok (t.dpRead a) u ∧ FrameLink s u ∧ Loop u t' ∧ t'.settled = t.settled := by
  rcases h.iface with hi | hi
  · obtain ⟨x, hx, fx, _, _, lx⟩ := jtagScan_loop h hi .dpacc true a 0
    rw [scan_dpRead t ha] at lx
    have hj : x.cfg.iface = .jtag := by rw [fx.cfg]; exact hi
    obtain ⟨y, hy, fy, _, _, ly⟩ := jtagScan_loop lx hj .dpacc true 0xC 0
    rw [scan_dpRead _ (by decide)] at ly
    refine ⟨y, _, ?_, fx.trans fy, ly, rfl⟩
    unfold linkDpRead
    rw [run_getS_bind]
    simp only [hi]
    unfold jtagDpaccRd
    rw [run_bind_ok hx]
    exact hy
  · obtain ⟨x, hx, fx, _, _, lx⟩ := swdXfer_loop h ha (apndp := false) (rnw := true) rfl 0
    refine ⟨x, _, ?_, fx, lx, rfl⟩
    unfold linkDpRead
    rw [run_getS_bind]
    simp only [hi]
    exact hx

/-- `Link.DpWrite(A, v)` in the loop does T0's register write; ABORT and TARGETSEL have transactions of their own. -/
theorem linkDpWrite_loop {s : State} {t : T0} (h : Loop s t) {a : RegAddr} (ha : a.aligned = true) (h0 : a ≠ 0)
    (hc : a ≠ 0xC) (v : W32) :
    ∃ u t', linkDpWrite a v s = .ok () u ∧ FrameLink s u ∧ Loop u t' ∧ t'.settled = (t.dpWrite a v).settled := by
  rcases h.iface with hi | hi
  · obtain ⟨x, hx, fx, _, _, lx⟩ := jtagScan_loop h hi .dpacc false a v
    rw [scan_dpWrite t ha h0] at lx
    refine ⟨x, _, ?_, fx, lx, dpWrite_irScan t _ a v⟩
    unfold linkDpWrite
    rw [run_getS_bind]
    simp only [hi]
    unfold jtagDpaccWr
    rw [run_bind_ok hx]
    rfl
  · have hok : t.xferOk false false a = true := by
      unfold T0.xferOk
      simpa using hc
    obtain ⟨x, hx, fx, _, _, lx⟩ := swdXfer_loop h ha hok v
    refine ⟨x, _, ?_, fx, lx, rfl⟩
    unfold linkDpWrite
    rw [run_getS_bind]
    simp only [hi]
    unfold swdDpWr
    rw [run_bind_ok hx]
    rfl

/-- `Link.Abort(v)` in the loop clears the sticky flags it names (R404). -/
theorem linkAbort_loop {s : State} {t : T0} (h : Loop s t) (v : W32) :
    ∃ u t', linkAbort v s = .ok () u ∧ FrameLink s u ∧ Loop u t' ∧ t'.settled = (t.dpWrite 0x0 v).settled := by
  rcases h.iface with hi | hi
  · obtain ⟨x, hx, fx, _, _, lx⟩ := jtagScan_loop h hi .abort false 0x0 v
    rw [scan_abort t v] at lx
    refine ⟨x, _, ?_, fx, lx, dpWrite_irScan t _ _ v⟩
    unfold linkAbort
    rw [run_getS_bind]
    simp only [hi]
    unfold jtagAbortWr
    rw [run_bind_ok hx]
    rfl
  · obtain ⟨x, hx, fx, _, _, lx⟩ := swdXfer_loop h (a := 0x0) (by decide) (apndp := false) (rnw := false) rfl v
    refine ⟨x, _, ?_, fx, lx, rfl⟩
    unfold linkAbort
    rw [run_getS_bind]
    simp only [hi]
    unfold swdAbort
    rw [run_bind_ok hx]
    rfl

/-- `Link.ApRead(A)` in the loop with no sticky flag set delivers T0's register (R405). -/
theorem linkApRead_loop {s : State} {t : T0} (h : Loop s t) (hs : t.sticky = 0) {a : RegAddr} (ha : a.aligned = true) :
    ∃ u t', linkApRead a s = .ok (t.apAccess true a 0).1 u ∧ FrameLink s u ∧ Loop u t' ∧
      t'.settled = (t.apAccess true a 0).2.settled := by
  rcases h.iface with hi | hi
  · obtain ⟨x, hx, fx, _, _, lx⟩ := jtagScan_loop h hi .apacc true a 0
    rw [scan_apRead hs ha] at lx
    have hj : x.cfg.iface = .jtag := by rw [fx.cfg]; exact hi
    obtain ⟨y, hy, fy, _, _, ly⟩ := jtagScan_loop lx hj .dpacc true 0xC 0
    rw [scan_dpRead _ (by decide)] at ly
    obtain ⟨e1, e2⟩ := apAccess_irScan t IrCode.apacc.code true a 0
    rw [e1] at hy
    refine ⟨y, _, ?_, fx.trans fy, ly, e2⟩
    unfold linkApRead
    rw [run_getS_bind]
    simp only [hi]
    unfold jtagApaccRd
    rw [run_bind_ok hx]
    exact hy
  · have hok : t.xferOk true true a = true := by simp [T0.xferOk, hs]
    obtain ⟨x, hx, fx, _, _, lx⟩ := swdXfer_loop h ha hok 0
    obtain ⟨y, hy, fy, _, _, ly⟩ := swdXfer_loop lx (a := 0xC) (by decide) (apndp := false) (rnw := true) rfl 0
    refine ⟨y, _, ?_, fx.trans fy, ly, rfl⟩
    unfold linkApRead
    rw [run_getS_bind]
    simp only [hi]
    unfold swdApRd
    rw [run_bind_ok hx]
    exact hy

/-- `Link.ApWrite(A, v)` in the loop with no sticky flag set does T0's register write (R405). -/
theorem linkApWrite_loop {s : State} {t : T0} (h : Loop s t) (hs : t.sticky = 0) {a : RegAddr} (ha : a.aligned = true)
    (v : W32) :
    ∃ u t', linkApWrite a v s = .ok () u ∧ FrameLink s u ∧ Loop u t' ∧
      t'.settled = (t.apAccess false a v).2.settled := by
  rcases h.iface with hi | hi
  · obtain ⟨x, hx, fx, _, _, lx⟩ := jtagScan_loop h hi .apacc false a v
    rw [scan_apWrite hs ha] at lx
    refine ⟨x, _, ?_, fx, lx, (apAccess_irScan t _ false a v).2⟩
    unfold linkApWrite
    rw [run_getS_bind]
    simp only [hi]
    unfold jtagApaccWr
    rw [run_bind_ok hx]
    rfl
  · have hok : t.xferOk true false a = true := by simp [T0.xferOk, hs]
    obtain ⟨x, hx, fx, _, _, lx⟩ := swdXfer_loop h ha hok v
    refine ⟨x, _, ?_, fx, lx, rfl⟩
    unfold linkApWrite
    rw [run_getS_bind]
    simp only [hi]
    unfold swdApWr
    rw [run_bind_ok hx]
    rfl

end Sys2Proof.Machine
end

