-- ==== Sys2Proof/Laws/Closed.lean ====
section
/-! SUPPORT. The DP layer in the closed loop: sequences of AP accesses, SELECT, and each register access against T0. -/

namespace Sys2Proof.Machine

open Sys2Proof

/-! ## Sequences of AP accesses (R156, R157, R175, R176) -/

theorem or_eq_zero_left {a b : W32} (h : a ||| b = 0) : a = 0 := by
  apply BitVec.eq_of_getLsbD_eq
  intro i hi
  have := congrArg (fun x => BitVec.getLsbD x i) h
  simp only [BitVec.getLsbD_or] at this
  simpa using (Bool.or_eq_false_iff.mp (by simpa using this)).1

theorem drwAccess_sticky {t : T0} {p : T0Ap} {rnw : Bool} {v : W32} (h : (t.drwAccess p rnw v).2.sticky = 0) :
    t.sticky = 0 := by
  unfold T0.drwAccess at h
  simp only at h
  split at h
  · exact or_eq_zero_left h
  · split at h <;> cases rnw <;> exact h

/-- An AP access clears no sticky flag (R406). -/
theorem apAccess_sticky {t : T0} {rnw : Bool} {a : RegAddr} {v : W32} (h : (t.apAccess rnw a v).2.sticky = 0) :
    t.sticky = 0 := by
  unfold T0.apAccess at h
  cases e : t.aps.find? fun p => p.index == t.select.extractLsb' 24 8 with
  | none => rw [e] at h; exact h
  | some p =>
    rw [e] at h
    simp only at h
    split at h
    · cases rnw <;> exact h
    · split at h
      · cases rnw <;> exact h
      · split at h
        · cases hi : t.inject with
          | none => rw [drw_none hi] at h; exact drwAccess_sticky h
          | some k =>
            obtain ⟨k, m⟩ := k
            by_cases hk : k = 1
            · subst hk; rw [drw_fire hi] at h; exact or_eq_zero_left h
            · rw [drw_count hi hk] at h; exact drwAccess_sticky (t := { t with inject := some (k - 1, m) }) h
        · split at h
          · exact h
          · split at h <;> exact h

theorem apReads_sticky {t : T0} {a : RegAddr} {n : Nat} (h : (t.apReads a n).2.sticky = 0) : t.sticky = 0 := by
  induction n generalizing t with
  | zero => exact h
  | succ n ih => exact apAccess_sticky (ih h)

theorem apWrites_sticky {t : T0} {a : RegAddr} {ws : List W32} (h : (t.apWrites a ws).sticky = 0) : t.sticky = 0 := by
  induction ws generalizing t with
  | nil => exact h
  | cons w ws ih => exact apAccess_sticky (ih h)

theorem apReads_settled (t : T0) (a : RegAddr) (n : Nat) :
    t.settled.apReads a n = ((t.apReads a n).1, (t.apReads a n).2.settled) := by
  induction n generalizing t with
  | zero => rfl
  | succ n ih => simp only [T0.apReads, apAccess_settled, ih]

theorem apWrites_settled (t : T0) (a : RegAddr) (ws : List W32) :
    t.settled.apWrites a ws = (t.apWrites a ws).settled := by
  induction ws generalizing t with
  | nil => rfl
  | cons w ws ih => simp only [T0.apWrites, apAccess_settled, ih]

/-- Sequences of accesses from two targets that settle to the same. -/
theorem apReads_congr {t u : T0} (h : u.settled = t.settled) (a : RegAddr) (n : Nat) :
    (u.apReads a n).1 = (t.apReads a n).1 ∧ (u.apReads a n).2.settled = (t.apReads a n).2.settled := by
  have := congrArg (fun x => T0.apReads x a n) h
  simp only [apReads_settled, Prod.mk.injEq] at this
  exact this

theorem apWrites_congr {t u : T0} (h : u.settled = t.settled) (a : RegAddr) (ws : List W32) :
    (u.apWrites a ws).settled = (t.apWrites a ws).settled := by
  rw [← apWrites_settled, h, apWrites_settled]

theorem apAccess_congr {t u : T0} (h : u.settled = t.settled) (rnw : Bool) (a : RegAddr) (v : W32) :
    (u.apAccess rnw a v).1 = (t.apAccess rnw a v).1 ∧
      (u.apAccess rnw a v).2.settled = (t.apAccess rnw a v).2.settled := by
  have := congrArg (fun x => T0.apAccess x rnw a v) h
  simp only [apAccess_settled, Prod.mk.injEq] at this
  exact this

theorem settled_sticky {t u : T0} (h : u.settled = t.settled) : u.sticky = t.sticky := by
  have := congrArg T0.sticky h
  exact this

theorem jtagReadScans_loop (a : RegAddr) (ha : a.aligned = true) (n : Nat) {s : State} {t : T0} (h : Loop s t)
    (hj : s.cfg.iface = .jtag) (hs : (t.apReads a n).2.sticky = 0) :
    ∃ u t', jtagReadScans (List.replicate n (.apacc, a)) s = .ok (t.rdbuff :: (t.apReads a n).1) u ∧ FrameLink s u ∧
      Loop u t' ∧ t'.settled = (t.apReads a n).2.settled := by
  induction n generalizing s t with
  | zero =>
    obtain ⟨x, hx, fx, _, _, lx⟩ := jtagScan_loop h hj .dpacc true 0xC 0
    rw [scan_dpRead _ (by decide)] at lx
    refine ⟨x, _, ?_, fx, lx, rfl⟩
    show (jtagScan .dpacc true 0xC 0 >>= fun d => pure [d]) s = _
    rw [run_bind_ok hx]
    rfl
  | succ n ih =>
    have hs0 := apReads_sticky hs
    obtain ⟨x, hx, fx, _, _, lx⟩ := jtagScan_loop h hj .apacc true a 0
    rw [scan_apRead hs0 ha] at lx
    obtain ⟨e1, e2⟩ := apAccess_irScan t IrCode.apacc.code true a 0
    generalize hq : ({ ((t.irScan IrCode.apacc.code).apAccess true a 0).2 with
        rdbuff := ((t.irScan IrCode.apacc.code).apAccess true a 0).1 } : T0) = q at lx
    have hr : q.rdbuff = (t.apAccess true a 0).1 := by rw [← hq]; exact e1
    have hqs : q.settled = (t.apAccess true a 0).2.settled := by rw [← hq]; exact e2
    obtain ⟨c1, c2⟩ := apReads_congr hqs a n
    obtain ⟨y, t', hy, fy, ly, ey⟩ := ih lx (by rw [fx.cfg]; exact hj) (by
      rw [settled_sticky c2]; exact hs)
    refine ⟨y, t', ?_, fx.trans fy, ly, ey.trans c2⟩
    show (jtagScan .apacc true a 0 >>= fun d => jtagReadScans (List.replicate n (.apacc, a)) >>= fun ds =>
      pure (d :: ds)) s = _
    rw [run_bind_ok hx, run_bind_ok hy, c1, hr]
    rfl

theorem swdReadXfers_loop (a : RegAddr) (ha : a.aligned = true) (n : Nat) {s : State} {t : T0} (h : Loop s t)
    (hs : (t.apReads a n).2.sticky = 0) :
    ∃ u t', swdReadXfers a n s = .ok (t.rdbuff :: (t.apReads a n).1) u ∧ FrameLink s u ∧
      Loop u t' ∧ t'.settled = (t.apReads a n).2.settled := by
  induction n generalizing s t with
  | zero =>
    obtain ⟨x, hx, fx, _, _, lx⟩ := swdXfer_loop h (a := 0xC) (by decide) (apndp := false) (rnw := true) rfl 0
    refine ⟨x, _, ?_, fx, lx, rfl⟩
    show (swdXfer false true 0xC 0 >>= fun d => pure [d]) s = _
    rw [run_bind_ok hx]
    rfl
  | succ n ih =>
    have hs0 := apReads_sticky hs
    have hok : t.xferOk true true a = true := by simp [T0.xferOk, hs0]
    obtain ⟨x, hx, fx, _, _, lx⟩ := swdXfer_loop h ha hok 0
    generalize hq : ({ t.xferEffect true true a 0 with phase := .idle } : T0) = q at lx
    have hr : q.rdbuff = (t.apAccess true a 0).1 := by rw [← hq]; rfl
    have hqs : q.settled = (t.apAccess true a 0).2.settled := by rw [← hq]; rfl
    obtain ⟨c1, c2⟩ := apReads_congr hqs a n
    obtain ⟨y, t', hy, fy, ly, ey⟩ := ih lx (by rw [settled_sticky c2]; exact hs)
    refine ⟨y, t', ?_, fx.trans fy, ly, ey.trans c2⟩
    show (swdXfer true true a 0 >>= fun d => swdReadXfers a n >>= fun ds => pure (d :: ds)) s = _
    rw [run_bind_ok hx, run_bind_ok hy, c1, hr]
    rfl

/-- `Link.ApReadN(A, n)` in the loop when no access sets a sticky flag. -/
theorem linkApReadN_loop {a : RegAddr} (ha : a.aligned = true) (n : Nat) {s : State} {t : T0} (h : Loop s t)
    (hs : (t.apReads a n).2.sticky = 0) :
    ∃ u t', linkApReadN a n s = .ok (t.apReads a n).1 u ∧ FrameLink s u ∧ Loop u t' ∧
      t'.settled = (t.apReads a n).2.settled := by
  rcases h.iface with hi | hi
  · obtain ⟨u, t', hu, fu, lu, eu⟩ := jtagReadScans_loop a ha n h hi hs
    refine ⟨u, t', ?_, fu, lu, eu⟩
    unfold linkApReadN
    rw [run_getS_bind]
    simp only [hi]
    unfold jtagReadn
    rw [run_bind_ok hu]
    rfl
  · obtain ⟨u, t', hu, fu, lu, eu⟩ := swdReadXfers_loop a ha n h hs
    refine ⟨u, t', ?_, fu, lu, eu⟩
    unfold linkApReadN
    rw [run_getS_bind]
    simp only [hi]
    unfold swdReadn
    rw [run_bind_ok hu]
    rfl

theorem jtagWriten_loop (a : RegAddr) (ha : a.aligned = true) (ws : List W32) {s : State} {t : T0} (h : Loop s t)
    (hj : s.cfg.iface = .jtag) (hs : (t.apWrites a ws).sticky = 0) :
    ∃ u t', jtagWriten a ws s = .ok () u ∧ FrameLink s u ∧ Loop u t' ∧ t'.settled = (t.apWrites a ws).settled := by
  induction ws generalizing s t with
  | nil => exact ⟨s, t, rfl, FrameLink.refl s, h, rfl⟩
  | cons w ws ih =>
    have hs0 := apWrites_sticky hs
    obtain ⟨x, hx, fx, _, _, lx⟩ := jtagScan_loop h hj .apacc false a w
    rw [scan_apWrite hs0 ha] at lx
    have e2 := (apAccess_irScan t IrCode.apacc.code false a w).2
    have c2 := apWrites_congr e2 a ws
    obtain ⟨y, t', hy, fy, ly, ey⟩ := ih lx (by rw [fx.cfg]; exact hj) (by
      rw [settled_sticky c2]; exact hs)
    refine ⟨y, t', ?_, fx.trans fy, ly, ey.trans c2⟩
    show (jtagScan .apacc false a w >>= fun _ => jtagWriten a ws) s = _
    rw [run_bind_ok hx]
    exact hy

theorem swdWriten_loop (a : RegAddr) (ha : a.aligned = true) (ws : List W32) {s : State} {t : T0} (h : Loop s t)
    (hs : (t.apWrites a ws).sticky = 0) :
    ∃ u t', swdWriten a ws s = .ok () u ∧ FrameLink s u ∧ Loop u t' ∧ t'.settled = (t.apWrites a ws).settled := by
  induction ws generalizing s t with
  | nil => exact ⟨s, t, rfl, FrameLink.refl s, h, rfl⟩
  | cons w ws ih =>
    have hs0 := apWrites_sticky hs
    have hok : t.xferOk true false a = true := by simp [T0.xferOk, hs0]
    obtain ⟨x, hx, fx, _, _, lx⟩ := swdXfer_loop h ha hok w
    have c2 := apWrites_congr (u := { t.xferEffect true false a w with phase := .idle })
      (t := (t.apAccess false a w).2) rfl a ws
    obtain ⟨y, t', hy, fy, ly, ey⟩ := ih lx (by rw [settled_sticky c2]; exact hs)
    refine ⟨y, t', ?_, fx.trans fy, ly, ey.trans c2⟩
    show (swdXfer true false a w >>= fun _ => swdWriten a ws) s = _
    rw [run_bind_ok hx]
    exact hy

/-- `Link.ApWriteN(A, ws)` in the loop when no access sets a sticky flag. -/
theorem linkApWriteN_loop {a : RegAddr} (ha : a.aligned = true) (ws : List W32) {s : State} {t : T0} (h : Loop s t)
    (hs : (t.apWrites a ws).sticky = 0) :
    ∃ u t', linkApWriteN a ws s = .ok () u ∧ FrameLink s u ∧ Loop u t' ∧
      t'.settled = (t.apWrites a ws).settled := by
  rcases h.iface with hi | hi
  · obtain ⟨u, t', hu, fu, lu, eu⟩ := jtagWriten_loop a ha ws h hi hs
    refine ⟨u, t', ?_, fu, lu, eu⟩
    unfold linkApWriteN
    rw [run_getS_bind]
    simp only [hi]
    exact hu
  · obtain ⟨u, t', hu, fu, lu, eu⟩ := swdWriten_loop a ha ws h hs
    refine ⟨u, t', ?_, fu, lu, eu⟩
    unfold linkApWriteN
    rw [run_getS_bind]
    simp only [hi]
    exact hu

/-! ## SELECT (R190) -/

/-- A link transaction that leaves T0's SELECT alone keeps the loop closed. -/
theorem Closed.of_link {s u : State} {t t' : T0} (h : Closed s t) (f : FrameLink s u) (l : Loop u t')
    (hs : t'.select = t.select) : Closed u t' :=
  ⟨l, fun hv v hl => hs.trans (h.select (f.frozenValid ▸ hv) v (f.selectLast ▸ hl))⟩

theorem settled_select {t u : T0} (h : u.settled = t.settled) : u.select = t.select := by
  have := congrArg T0.select h
  exact this

/-- WriteSelect in the closed loop: T0 has the value in SELECT, whether it was written or skipped (R190). -/
theorem writeSelect_closed {s : State} {t : T0} (h : Closed s t) (v : W32) :
    ∃ u t', writeSelect v s = .ok () u ∧ FrameSelect s u ∧ Closed u t' ∧ u.selectLast = some v ∧
      t'.settled = (t.withSelect v).settled := by
  unfold writeSelect
  rw [run_getS_bind]
  by_cases hh : s.selectHeld v = true
  · have hh' := hh
    unfold State.selectHeld at hh'
    simp only [Bool.and_eq_true, beq_iff_eq] at hh'
    have e : t.select = v := h.select hh'.1 v hh'.2
    refine ⟨s, t, by rw [if_pos hh]; rfl, FrameSelect.refl s, h, hh'.2, ?_⟩
    subst e
    rfl
  · rw [if_neg hh, run_upd_bind]
    have l : Loop (s.setSelectLast none) t := ⟨h.iface, h.target, h.noWait, h.ir⟩
    obtain ⟨u, t', hu, fu, lu, eu⟩ := linkDpWrite_loop l (a := 0x8) (by decide) (by decide) (by decide) v
    rw [run_bind_ok hu, run_upd]
    have hd : t.dpWrite 0x8 v = t.withSelect v := rfl
    rw [hd] at eu
    have fs : FrameSelect s u := (frameSelect_stable.lose s).trans fu.toSelect
    refine ⟨_, t', rfl, fs.trans (frameSelect_stable.gain u v s.selectLast), ⟨⟨lu.iface, lu.target, lu.noWait, lu.ir⟩,
      fun _ w hw => ?_⟩, rfl, eu⟩
    have : some v = some w := hw
    cases this
    exact settled_select eu

/-! ## Register accesses (R197, R202, R203) -/

theorem apLinkAddr_aligned {addr : BitVec 12} (h : addr.extractLsb' 0 2 = 0) : (apLinkAddr addr).aligned = true := by
  have : (apLinkAddr addr).extractLsb' 0 2 = addr.extractLsb' 0 2 := by
    unfold apLinkAddr
    apply BitVec.eq_of_getLsbD_eq
    intro i hi
    simp only [BitVec.getLsbD_extractLsb']
    simp [hi, show i < 4 by omega]
  unfold RegAddr.aligned
  rw [this, h]
  rfl

/-- AP_READ in the closed loop (R202, R405). -/
theorem apRead_closed {s : State} {t : T0} (h : Closed s t) (hs : t.sticky = 0) (ap : ApIndex) {addr : BitVec 12}
    (ha : addr.extractLsb' 0 2 = 0) :
    ∃ u t', apRead ap addr s = .ok ((t.withSelect (selVal ap addr)).apAccess true (apLinkAddr addr) 0).1 u ∧
      FrameSelect s u ∧ Closed u t' ∧ u.selectLast = some (selVal ap addr) ∧
      t'.settled = ((t.withSelect (selVal ap addr)).apAccess true (apLinkAddr addr) 0).2.settled := by
  obtain ⟨x, tx, hx, fx, cx, sx, ex⟩ := writeSelect_closed h (selVal ap addr)
  obtain ⟨y, ty, hy, fy, ly, ey⟩ := linkApRead_loop cx.toLoop ((settled_sticky ex).trans hs) (apLinkAddr_aligned ha)
  obtain ⟨c1, c2⟩ := apAccess_congr ex true (apLinkAddr addr) 0
  refine ⟨y, ty, ?_, fx.trans fy.toSelect, cx.of_link fy ly ?_, fy.selectLast.trans sx, ey.trans c2⟩
  · unfold apRead
    rw [run_bind_ok hx, hy, c1]
  · exact (settled_select ey).trans (apAccess_kept tx true _ 0).select

/-- AP_WRITE in the closed loop (R203, R405). -/
theorem apWrite_closed {s : State} {t : T0} (h : Closed s t) (hs : t.sticky = 0) (ap : ApIndex) {addr : BitVec 12}
    (ha : addr.extractLsb' 0 2 = 0) (v : W32) :
    ∃ u t', apWrite ap addr v s = .ok () u ∧ FrameSelect s u ∧ Closed u t' ∧ u.selectLast = some (selVal ap addr) ∧
      t'.settled = ((t.withSelect (selVal ap addr)).apAccess false (apLinkAddr addr) v).2.settled := by
  obtain ⟨x, tx, hx, fx, cx, sx, ex⟩ := writeSelect_closed h (selVal ap addr)
  obtain ⟨y, ty, hy, fy, ly, ey⟩ := linkApWrite_loop cx.toLoop ((settled_sticky ex).trans hs) (apLinkAddr_aligned ha) v
  have c2 := (apAccess_congr ex false (apLinkAddr addr) v).2
  refine ⟨y, ty, ?_, fx.trans fy.toSelect, cx.of_link fy ly ?_, fy.selectLast.trans sx, ey.trans c2⟩
  · unfold apWrite
    rw [run_bind_ok hx, hy]
  · exact (settled_select ey).trans (apAccess_kept tx false _ v).select

theorem Closed.noteCsw {s : State} {t : T0} (h : Closed s t) (ap : ApIndex) (addr : BitVec 12) (w : W32) :
    Closed (s.noteCsw ap addr w) t := by
  unfold State.noteCsw
  split
  · exact ⟨⟨h.iface, h.target, h.noWait, h.ir⟩, h.select⟩
  · exact h

/-- The host's AP_READ in the closed loop (R202, R86 b). -/
theorem hostApRead_closed {s : State} {t : T0} (h : Closed s t) (hs : t.sticky = 0) (ap : ApIndex) {addr : BitVec 12}
    (ha : addr.extractLsb' 0 2 = 0) :
    ∃ u t', hostApRead ap addr s = .ok ((t.withSelect (selVal ap addr)).apAccess true (apLinkAddr addr) 0).1 u ∧
      FrameSelect (s.noteCsw ap addr ((t.withSelect (selVal ap addr)).apAccess true (apLinkAddr addr) 0).1) u ∧
      Closed u t' ∧ u.selectLast = some (selVal ap addr) ∧
      t'.settled = ((t.withSelect (selVal ap addr)).apAccess true (apLinkAddr addr) 0).2.settled := by
  obtain ⟨u, t', hu, fu, cu, su, eu⟩ := apRead_closed h hs ap ha
  refine ⟨_, t', ?_, fu.noteCsw ap addr _, cu.noteCsw ap addr _, ?_, eu⟩
  · unfold hostApRead
    rw [run_bind_ok hu]
    rfl
  · rw [noteCsw_selectLast]
    exact su

/-- The host's AP_WRITE in the closed loop (R203, R86 b). -/
theorem hostApWrite_closed {s : State} {t : T0} (h : Closed s t) (hs : t.sticky = 0) (ap : ApIndex) {addr : BitVec 12}
    (ha : addr.extractLsb' 0 2 = 0) (v : W32) :
    ∃ u t', hostApWrite ap addr v s = .ok () u ∧ FrameSelect (s.noteCsw ap addr v) u ∧ Closed u t' ∧
      u.selectLast = some (selVal ap addr) ∧
      t'.settled = ((t.withSelect (selVal ap addr)).apAccess false (apLinkAddr addr) v).2.settled := by
  obtain ⟨u, t', hu, fu, cu, su, eu⟩ := apWrite_closed h hs ap ha v
  refine ⟨_, t', ?_, fu.noteCsw ap addr v, cu.noteCsw ap addr v, ?_, eu⟩
  · unfold hostApWrite
    rw [run_bind_ok hu]
    rfl
  · rw [noteCsw_selectLast]
    exact su

theorem apReads_select (t : T0) (a : RegAddr) (n : Nat) : (t.apReads a n).2.select = t.select := by
  induction n generalizing t with
  | zero => rfl
  | succ n ih => exact (ih _).trans (apAccess_kept t true a 0).select

theorem apWrites_select (t : T0) (a : RegAddr) (ws : List W32) : (t.apWrites a ws).select = t.select := by
  induction ws generalizing t with
  | nil => rfl
  | cons w ws ih => exact (ih _).trans (apAccess_kept t false a w).select

/-- `ApReadN` in the closed loop when no access sets a sticky flag (R202, R405). -/
theorem apReadN_closed {s : State} {t : T0} (h : Closed s t) (ap : ApIndex) {addr : BitVec 12}
    (ha : addr.extractLsb' 0 2 = 0) (n : Nat)
    (hs : ((t.withSelect (selVal ap addr)).apReads (apLinkAddr addr) n).2.sticky = 0) :
    ∃ u t', apReadN ap addr n s = .ok ((t.withSelect (selVal ap addr)).apReads (apLinkAddr addr) n).1 u ∧
      FrameSelect s u ∧ Closed u t' ∧ u.selectLast = some (selVal ap addr) ∧
      t'.settled = ((t.withSelect (selVal ap addr)).apReads (apLinkAddr addr) n).2.settled := by
  obtain ⟨x, tx, hx, fx, cx, sx, ex⟩ := writeSelect_closed h (selVal ap addr)
  obtain ⟨c1, c2⟩ := apReads_congr ex (apLinkAddr addr) n
  obtain ⟨y, ty, hy, fy, ly, ey⟩ := linkApReadN_loop (apLinkAddr_aligned ha) n cx.toLoop
    ((settled_sticky c2).trans hs)
  refine ⟨y, ty, ?_, fx.trans fy.toSelect, cx.of_link fy ly ?_, fy.selectLast.trans sx, ey.trans c2⟩
  · unfold apReadN
    rw [run_bind_ok hx, hy, c1]
  · exact (settled_select ey).trans (apReads_select tx _ n)

/-- `ApWriteN` in the closed loop when no access sets a sticky flag (R202, R405). -/
theorem apWriteN_closed {s : State} {t : T0} (h : Closed s t) (ap : ApIndex) {addr : BitVec 12}
    (ha : addr.extractLsb' 0 2 = 0) (ws : List W32)
    (hs : ((t.withSelect (selVal ap addr)).apWrites (apLinkAddr addr) ws).sticky = 0) :
    ∃ u t', apWriteN ap addr ws s = .ok () u ∧ FrameSelect s u ∧ Closed u t' ∧
      u.selectLast = some (selVal ap addr) ∧
      t'.settled = ((t.withSelect (selVal ap addr)).apWrites (apLinkAddr addr) ws).settled := by
  obtain ⟨x, tx, hx, fx, cx, sx, ex⟩ := writeSelect_closed h (selVal ap addr)
  have c2 := apWrites_congr ex (apLinkAddr addr) ws
  obtain ⟨y, ty, hy, fy, ly, ey⟩ := linkApWriteN_loop (apLinkAddr_aligned ha) ws cx.toLoop
    ((settled_sticky c2).trans hs)
  refine ⟨y, ty, ?_, fx.trans fy.toSelect, cx.of_link fy ly ?_, fy.selectLast.trans sx, ey.trans c2⟩
  · unfold apWriteN
    rw [run_bind_ok hx, hy]
  · exact (settled_select ey).trans (apWrites_select tx _ ws)

theorem dpRead_congr {t u : T0} (h : u.settled = t.settled) {a : RegAddr} (ha : a ≠ 0xC) : u.dpRead a = t.dpRead a := by
  rw [← dpRead_settled u a ha, h, dpRead_settled t a ha]

/-- DPSELBANK and a read of the selected register in the closed loop (R193, R197, R403). -/
theorem dpBankRead_closed {s : State} {t : T0} (h : Closed s t) (bank : BitVec 4) {a : RegAddr} (ha : a.aligned = true)
    (hc : a ≠ 0xC) :
    ∃ u t', (dpSelectBank bank >>= fun _ => linkDpRead a) s =
        .ok ((t.withSelect (selDp s.selectLast bank)).dpRead a) u ∧ FrameSelect s u ∧ Closed u t' ∧
      u.selectLast = some (selDp s.selectLast bank) ∧
      t'.settled = (t.withSelect (selDp s.selectLast bank)).settled := by
  obtain ⟨x, tx, hx, fx, cx, sx, ex⟩ := writeSelect_closed h (selDp s.selectLast bank)
  obtain ⟨y, ty, hy, fy, ly, ey⟩ := linkDpRead_loop cx.toLoop ha
  refine ⟨y, ty, ?_, fx.trans fy.toSelect, cx.of_link fy ly (settled_select ey), fy.selectLast.trans sx, ey.trans ex⟩
  have hb : dpSelectBank bank s = .ok () x := by
    unfold dpSelectBank
    rw [run_getS_bind, hx]
  rw [run_bind_ok hb, hy, dpRead_congr ex hc]

/-- The bank DPSELBANK leaves in SELECT (R124, R193). -/
theorem selDp_bank (last : Option W32) (bank : BitVec 4) : (selDp last bank).extractLsb' 0 4 = bank := by
  unfold selDp
  apply BitVec.eq_of_getLsbD_eq
  intro i hi
  have : ((0xFFFFFFF0 : W32)).getLsbD i = false := by
    have : i = 0 ∨ i = 1 ∨ i = 2 ∨ i = 3 := by omega
    rcases this with h | h | h | h <;> subst h <;> decide
  simp only [BitVec.getLsbD_extractLsb', BitVec.getLsbD_or, BitVec.getLsbD_and, Nat.zero_add, this]
  simp [hi, show i < 32 by omega]

/-- DP_READ in the closed loop delivers T0's register (R197, R403). -/
theorem dpRead_closed {s : State} {t : T0} (h : Closed s t) {r : DpReg} (hr : dpReadable r = true) :
    ∃ u t', dpRead r s = .ok (t.register r) u ∧ FrameSelect s u ∧ Closed u t' ∧
      (r ≠ .rdbuff → u.selectLast = some (selDp s.selectLast ((dpBank r).getD 0))) ∧
      t'.settled = (if r = .rdbuff then t else t.withSelect (selDp s.selectLast ((dpBank r).getD 0))).settled := by
  by_cases hb : r = .rdbuff
  · subst hb
    obtain ⟨y, ty, hy, fy, ly, ey⟩ := linkDpRead_loop h.toLoop (a := 0xC) (by decide)
    exact ⟨y, ty, hy, fy.toSelect, h.of_link fy ly (settled_select ey), fun k => absurd rfl k, ey⟩
  · have ha : (dpAddr r).aligned = true := by cases r <;> decide
    have hc : dpAddr r ≠ 0xC := by cases r <;> first | decide | exact absurd rfl hb | cases hr
    obtain ⟨y, ty, hy, fy, cy, sy, ey⟩ := dpBankRead_closed h ((dpBank r).getD 0) ha hc
    refine ⟨y, ty, ?_, fy, cy, fun _ => sy, by rw [if_neg hb]; exact ey⟩
    unfold dpRead
    rw [if_neg hb, hy]
    congr 1
    have hbank := selDp_bank s.selectLast ((dpBank r).getD 0)
    unfold T0.dpRead
    have hsel : (t.withSelect (selDp s.selectLast ((dpBank r).getD 0))).select =
        selDp s.selectLast ((dpBank r).getD 0) := rfl
    simp only [hsel, hbank]
    have hv : (t.withSelect (selDp s.selectLast ((dpBank r).getD 0))).ver = t.ver := rfl
    simp only [hv]
    cases r <;> first | exact absurd rfl hb | cases hr
    all_goals simp [dpAddr, dpBank, T0.register]
    all_goals rfl

end Sys2Proof.Machine
end

