-- ==== Sys2Proof/Laws/T0Inv.lean ====
section
/-! SUPPORT. What holds of T0 whatever is done to it. -/

namespace Sys2Proof.Machine

open Sys2Proof

/-- Only these fields enter the invariant. -/
theorem T0Inv.congr {t u : T0} (h : T0Inv t) (hm : u.mem = t.mem) (hc : u.ctrl = t.ctrl) (hs : u.sticky = t.sticky)
    (hi : u.inject = t.inject) (ha : u.aps = t.aps) : T0Inv u :=
  ⟨hm ▸ h.mem, hc ▸ h.ctrl, hs ▸ h.sticky, hi ▸ h.inject, ha ▸ h.deviceEn⟩

theorem and_not_or {a b m : W32} (ha : a &&& ~~~m = 0) (hb : b &&& ~~~m = 0) : (a ||| b) &&& ~~~m = 0 := by
  have : (a ||| b) &&& ~~~m = (a &&& ~~~m) ||| (b &&& ~~~m) := by
    apply BitVec.eq_of_getLsbD_eq
    intro i hi
    simp only [BitVec.getLsbD_or, BitVec.getLsbD_and]
    cases a.getLsbD i <;> cases b.getLsbD i <;> simp
  rw [this, ha, hb]
  rfl

theorem and_and_not {a b m : W32} (ha : a &&& ~~~m = 0) : (a &&& b) &&& ~~~m = 0 := by
  have : (a &&& b) &&& ~~~m = (a &&& ~~~m) &&& b := by ac_rfl
  rw [this, ha]
  simp

theorem T0Inv.setAp {t : T0} (h : T0Inv t) {p : T0Ap} (hp : cswDeviceEn p.csw = cswDeviceEn p.csw0) :
    T0Inv (t.setAp p) := by
  refine ⟨h.mem, h.ctrl, h.sticky, h.inject, fun q hq => ?_⟩
  obtain ⟨r, hr, e⟩ := List.mem_map.mp (show q ∈ t.aps.map fun q => if q.index = p.index then p else q from hq)
  split at e
  · rw [← e]; exact hp
  · rw [← e]; exact h.deviceEn r hr

theorem bumpTar_csw (p : T0Ap) (n : Nat) : (T0.bumpTar p n).csw = p.csw := by
  unfold T0.bumpTar; split <;> rfl

theorem bumpTar_csw0 (p : T0Ap) (n : Nat) : (T0.bumpTar p n).csw0 = p.csw0 := by
  unfold T0.bumpTar; split <;> rfl

theorem bumpTar_index (p : T0Ap) (n : Nat) : (T0.bumpTar p n).index = p.index := by
  unfold T0.bumpTar; split <;> rfl

theorem T0Inv.drwAccess {t : T0} (h : T0Inv t) {p : T0Ap} (hp : p ∈ t.aps) (rnw : Bool) (v : W32) :
    T0Inv (t.drwAccess p rnw v).2 := by
  have hb : ∀ n, T0Inv (t.setAp (T0.bumpTar p n)) := fun n =>
    h.setAp (by rw [bumpTar_csw, bumpTar_csw0]; exact h.deviceEn p hp)
  unfold T0.drwAccess
  simp only
  split
  · exact ⟨h.mem, h.ctrl, and_not_or h.sticky (by decide), h.inject, h.deviceEn⟩
  · split
    · cases rnw
      · exact ⟨Memory.wf_write32 h.mem _ _, (hb 4).ctrl, (hb 4).sticky, (hb 4).inject, (hb 4).deviceEn⟩
      · exact hb 4
    · cases rnw
      · exact ⟨Memory.wf_write h.mem _ _, (hb 1).ctrl, (hb 1).sticky, (hb 1).inject, (hb 1).deviceEn⟩
      · exact hb 1

theorem T0Inv.drw {t : T0} (h : T0Inv t) {p : T0Ap} (hp : p ∈ t.aps) (rnw : Bool) (v : W32) :
    T0Inv (t.drw p rnw v).2 := by
  cases hi : t.inject with
  | none => rw [drw_none hi]; exact h.drwAccess hp rnw v
  | some k =>
    obtain ⟨k, m⟩ := k
    have hm : m &&& ~~~stickyMask = 0 := by have := h.inject; rw [hi] at this; exact this
    by_cases hk : k = 1
    · subst hk
      rw [drw_fire hi]
      exact ⟨h.mem, h.ctrl, and_not_or h.sticky hm, trivial, h.deviceEn⟩
    · rw [drw_count hi hk]
      exact T0Inv.drwAccess (t := { t with inject := some (k - 1, m) }) ⟨h.mem, h.ctrl, h.sticky, hm, h.deviceEn⟩ hp
        rnw v

/-- DeviceEn after a write of CSW is the configured one (R405). -/
theorem cswDeviceEn_write (v csw0 : W32) :
    cswDeviceEn ((v &&& 0xFFFFFF3F) ||| (csw0 &&& 0x40)) = cswDeviceEn csw0 := by
  unfold cswDeviceEn
  simp only [BitVec.getLsbD_or, BitVec.getLsbD_and]
  have h1 : BitVec.getLsbD (0xFFFFFF3F : W32) 6 = false := by decide
  have h2 : BitVec.getLsbD (0x40 : W32) 6 = true := by decide
  rw [h1, h2]
  simp

theorem T0Inv.apAccess {t : T0} (h : T0Inv t) (rnw : Bool) (a : RegAddr) (v : W32) :
    T0Inv (t.apAccess rnw a v).2 := by
  unfold T0.apAccess
  cases e : t.aps.find? fun p => p.index == t.select.extractLsb' 24 8 with
  | none => exact h
  | some p =>
    have hp : p ∈ t.aps := List.mem_of_find?_eq_some e
    simp only
    split
    · cases rnw
      · exact h.setAp (cswDeviceEn_write v p.csw0)
      · exact h
    · split
      · cases rnw
        · exact h.setAp (h.deviceEn p hp)
        · exact h
      · split
        · exact h.drw hp rnw v
        · split
          · exact h
          · split <;> exact h

theorem T0Inv.dpWrite {t : T0} (h : T0Inv t) (a : RegAddr) (v : W32) : T0Inv (t.dpWrite a v) := by
  unfold T0.dpWrite
  split
  · exact ⟨h.mem, h.ctrl, and_and_not h.sticky, h.inject, h.deviceEn⟩
  · split
    · split
      · refine ⟨h.mem, ?_, h.sticky, h.inject, h.deviceEn⟩
        show v &&& 0x54FFFF0D &&& ~~~0x54FFFF0D#32 = 0
        rw [BitVec.and_assoc]
        have : (0x54FFFF0D : W32) &&& ~~~0x54FFFF0D#32 = 0 := by decide
        rw [this]
        simp
      · exact h
    · split
      · exact h.congr rfl rfl rfl rfl rfl
      · exact h

theorem T0Inv.scanEffect {t : T0} (h : T0Inv t) (req : Scan) : T0Inv (t.scanEffect req) := by
  unfold T0.scanEffect
  simp only
  split
  · split
    · exact h.dpWrite _ _
    · exact h
  · split
    · split
      · exact h.congr rfl rfl rfl rfl rfl
      · split
        · exact h
        · exact h.dpWrite _ _
    · split
      · split
        · exact h.congr rfl rfl rfl rfl rfl
        · exact h
      · split
        · exact (h.apAccess true (drAddr req) 0).congr rfl rfl rfl rfl rfl
        · exact h.apAccess false _ _

theorem T0Inv.waitOnce {t : T0} (h : T0Inv t) : T0Inv t.waitOnce := by
  unfold T0.waitOnce
  split
  · exact h
  · exact h.congr rfl rfl rfl rfl rfl

/-- A data-register scan keeps the invariant (R408). -/
theorem T0Inv.drScan {t : T0} (h : T0Inv t) (req : Scan) : T0Inv (t.drScan req).2 := by
  unfold T0.drScan
  split
  · exact h
  · split
    · exact h.waitOnce
    · exact h.scanEffect req

theorem T0Inv.swdRequest {t : T0} (h : T0Inv t) (req : Byte) : T0Inv (t.swdRequest req).2 := by
  unfold T0.swdRequest
  simp only
  split
  · exact h.congr rfl rfl rfl rfl rfl
  · split
    · exact h.waitOnce.congr rfl rfl rfl rfl rfl
    · split
      · exact h.congr rfl rfl rfl rfl rfl
      · exact h.congr rfl rfl rfl rfl rfl

theorem T0Inv.swdReadPhase {t : T0} (h : T0Inv t) : T0Inv t.swdReadPhase.2 := by
  unfold T0.swdReadPhase
  split
  · exact h.congr rfl rfl rfl rfl rfl
  · rename_i a _
    exact (h.apAccess true a 0).congr rfl rfl rfl rfl rfl
  · exact h
  · exact h.congr rfl rfl rfl rfl rfl
  · exact h.congr rfl rfl rfl rfl rfl

theorem T0Inv.swdWritePhase {t : T0} (h : T0Inv t) (w : W32) : T0Inv (t.swdWritePhase w) := by
  unfold T0.swdWritePhase
  split
  · rename_i a _
    exact (h.dpWrite a w).congr rfl rfl rfl rfl rfl
  · rename_i a _
    exact (h.apAccess false a w).congr rfl rfl rfl rfl rfl
  · exact h
  · exact h.congr rfl rfl rfl rfl rfl
  · exact h.congr rfl rfl rfl rfl rfl

/-- A call of the SWD line keeps the invariant (R409). -/
theorem T0Inv.driveLine {t : T0} (h : T0Inv t) (segs : List Segment) : T0Inv (t.driveLine segs).2 := by
  unfold T0.driveLine
  split
  · exact h.swdRequest _
  · exact h.swdReadPhase
  · exact h.swdWritePhase _
  · exact h

end Sys2Proof.Machine
end

