-- ==== Sys2Proof/Laws/MemAp.lean ====
section
/-! SUPPORT. The MEM-AP registers of T0 in the closed loop: which register an address selects, what each access does,
and the words a sequence of accesses of DRW moves (R405, R406). -/

namespace Sys2Proof.Machine

open Sys2Proof

/-! ## Frames of T0 -/

theorem T0Frame.refl (ap : ApIndex) (t : T0) : T0Frame ap t t :=
  ⟨rfl, rfl, rfl, rfl, rfl, rfl, rfl, rfl, rfl, rfl, rfl, rfl⟩

theorem T0Frame.trans {ap : ApIndex} {t u v : T0} (h : T0Frame ap t u) (k : T0Frame ap u v) : T0Frame ap t v :=
  ⟨k.dpidr.trans h.dpidr, k.targetid.trans h.targetid, k.dlpidr.trans h.dlpidr, k.eventstat.trans h.eventstat,
    k.dpidr1.trans h.dpidr1, k.bad.trans h.bad, k.powerDead.trans h.powerDead, k.ctrl.trans h.ctrl,
    k.sticky.trans h.sticky, k.inject.trans h.inject, k.wait.trans h.wait, k.aps.trans h.aps⟩

/-- SELECT and the wire registers are outside the frame. -/
theorem T0Frame.of_settled {ap : ApIndex} {t u : T0} {v : W32} (h : u.settled = (t.withSelect v).settled) :
    T0Frame ap t u := by
  have e : ∀ {α : Type} (f : T0 → α), f u.settled = f (t.withSelect v).settled := fun f => by rw [h]
  exact ⟨e T0.dpidr, e T0.targetid, e T0.dlpidr, e T0.eventstat, e T0.dpidr1, e T0.bad, e T0.powerDead, e T0.ctrl,
    e T0.sticky, e T0.inject, e T0.wait, e (fun x => x.aps.filter fun q => q.index != ap)⟩

theorem filter_setAp (aps : List T0Ap) (p : T0Ap) :
    (aps.map fun q => if q.index = p.index then p else q).filter (fun q => q.index != p.index) =
      aps.filter fun q => q.index != p.index := by
  induction aps with
  | nil => rfl
  | cons q qs ih =>
    rw [List.map_cons, List.filter_cons, List.filter_cons, ih]
    by_cases h : q.index = p.index
    · simp [h]
    · simp [h]

theorem find_setAp {aps : List T0Ap} {p q : T0Ap} {ap : ApIndex} (h : aps.find? (fun r => r.index == ap) = some q)
    (hp : p.index = ap) :
    (aps.map fun r => if r.index = p.index then p else r).find? (fun r => r.index == ap) = some p := by
  induction aps with
  | nil => simp at h
  | cons r rs ih =>
    by_cases hr : r.index = ap
    · simp [hr, hp]
    · have : rs.find? (fun r => r.index == ap) = some q := by simpa [hr] using h
      have hrp : ¬r.index = p.index := by rw [hp]; exact hr
      rw [List.map_cons, if_neg hrp, List.find?_cons_of_neg (by simpa using hr)]
      exact ih this

theorem apOf_index {t : T0} {ap : ApIndex} {p : T0Ap} (h : t.apOf ap = some p) : p.index = ap := by
  have := List.find?_some h
  simpa using this

/-! ## Which register an address selects (R41, R122, R405) -/

theorem selVal_ap (ap : ApIndex) (addr : BitVec 12) : (selVal ap addr).extractLsb' 24 8 = ap := by
  unfold selVal
  apply BitVec.eq_of_getLsbD_eq
  intro i hi
  have h1 : BitVec.getLsbD (0xFF0 : W32) (24 + i) = false := by
    have : i = 0 ∨ i = 1 ∨ i = 2 ∨ i = 3 ∨ i = 4 ∨ i = 5 ∨ i = 6 ∨ i = 7 := by omega
    rcases this with h | h | h | h | h | h | h | h <;> subst h <;> decide
  simp only [BitVec.getLsbD_extractLsb', BitVec.getLsbD_or, BitVec.getLsbD_and, BitVec.getLsbD_shiftLeft, h1,
    Bool.and_false, Bool.or_false, BitVec.getLsbD_setWidth]
  simp [hi, show 24 + i < 32 by omega, show 24 + i - 24 = i by omega, show i < 32 by omega]

theorem bit12 {i : Nat} (h : i < 12) :
    i = 0 ∨ i = 1 ∨ i = 2 ∨ i = 3 ∨ i = 4 ∨ i = 5 ∨ i = 6 ∨ i = 7 ∨ i = 8 ∨ i = 9 ∨ i = 10 ∨ i = 11 := by omega

/-- SELECT's bank and the link address give back the register's address (R122, R123). -/
theorem selVal_addr (ap : ApIndex) (addr : BitVec 12) :
    ((selVal ap addr).extractLsb' 0 12 &&& 0xFF0) ||| (apLinkAddr addr).setWidth 12 = addr := by
  apply BitVec.eq_of_getLsbD_eq
  intro i hi
  unfold selVal apLinkAddr
  simp only [BitVec.getLsbD_or, BitVec.getLsbD_and, BitVec.getLsbD_extractLsb', BitVec.getLsbD_shiftLeft,
    BitVec.getLsbD_setWidth, Nat.zero_add]
  rcases bit12 hi with h | h | h | h | h | h | h | h | h | h | h | h <;> subst h <;> simp

/-- The MEM-AP registers stand at word addresses in either layout (R41). -/
theorem apReg_aligned (s : State) {off : BitVec 12} (h : off.extractLsb' 0 2 = 0) :
    (s.apReg off).extractLsb' 0 2 = 0 := by
  unfold State.apReg
  have key : ∀ b : BitVec 12, b.extractLsb' 0 2 = 0 → (b + off).extractLsb' 0 2 = 0 := by
    intro b hb
    have e : ∀ x : BitVec 12, x.extractLsb' 0 2 = 0 ↔ x.toNat % 4 = 0 := by
      intro x
      rw [← BitVec.toNat_inj]
      simp [BitVec.extractLsb'_toNat]
    rw [e] at hb h ⊢
    rw [BitVec.toNat_add]
    omega
  cases s.dpVersion <;> exact key _ (by decide)

/-- The register of AP `ap` that an access with SELECT and link address as DAPSEQ makes them reaches (R405). -/
theorem apAccess_reg {t : T0} {ap : ApIndex} {p : T0Ap} (h : t.apOf ap = some p) {base off : BitVec 12}
    (hl : base = t.layout) (rnw : Bool) (v : W32) :
    (t.withSelect (selVal ap (base + off))).apAccess rnw (apLinkAddr (base + off)) v =
      if off = cswOffset then
        if rnw then (p.csw, t.withSelect (selVal ap (base + off)))
        else (0, (t.withSelect (selVal ap (base + off))).setAp
          { p with csw := (v &&& 0xFFFFFF3F) ||| (p.csw0 &&& 0x40) })
      else if off = tarOffset then
        if rnw then (p.tar, t.withSelect (selVal ap (base + off)))
        else (0, (t.withSelect (selVal ap (base + off))).setAp { p with tar := v })
      else if off = drwOffset then (t.withSelect (selVal ap (base + off))).drw p rnw v
      else if off = baseOffset then (if rnw then p.base else 0, t.withSelect (selVal ap (base + off)))
      else if off = idrOffset then (if rnw then p.idr else 0, t.withSelect (selVal ap (base + off)))
      else (0, t.withSelect (selVal ap (base + off))) := by
  have hs : (t.withSelect (selVal ap (base + off))).select = selVal ap (base + off) := rfl
  have ha : (t.withSelect (selVal ap (base + off))).aps = t.aps := rfl
  have hy : (t.withSelect (selVal ap (base + off))).layout = t.layout := rfl
  have hf : t.aps.find? (fun p => p.index == ap) = some p := h
  have ho : base + off - t.layout = off := by rw [hl]; simp
  unfold T0.apAccess
  simp only [hs, ha, hy, selVal_ap, selVal_addr, hf, ho]

/-- A member that is not there reads zero (R405). -/
theorem apAccess_absent {t : T0} {ap : ApIndex} (h : t.apOf ap = none) (addr : BitVec 12) (rnw : Bool) (a : RegAddr)
    (v : W32) :
    (t.withSelect (selVal ap addr)).apAccess rnw a v = (0, t.withSelect (selVal ap addr)) := by
  have hs : (t.withSelect (selVal ap addr)).select = selVal ap addr := rfl
  have ha : (t.withSelect (selVal ap addr)).aps = t.aps := rfl
  have hf : t.aps.find? (fun p => p.index == ap) = none := h
  unfold T0.apAccess
  simp only [hs, ha, selVal_ap, hf]

/-! ## A quiet AP in the closed loop -/

/-- The closed loop with a T0 in the detected layout whose AP `ap` is `p`, and no flag set or about to be. -/
structure Quiet (s : State) (t : T0) (ap : ApIndex) (p : T0Ap) : Prop where
  closed : Closed s t
  layout : layoutBase s.dpVersion = t.layout
  inv : T0Inv t
  sticky : t.sticky = 0
  inject : t.inject = none
  member : t.apOf ap = some p

/-- The effect of one access of AP `ap`: the member is now `p`, and otherwise what `T0Frame` says. -/
structure ApStep (ap : ApIndex) (p : T0Ap) (mem : List Host.Cell) (t u : T0) : Prop where
  frame : T0Frame ap t u
  mem : u.mem = mem
  member : u.apOf ap = some p

/-- Only SELECT and the wire registers differ. -/
theorem ApStep.of_settled {ap : ApIndex} {p : T0Ap} {t u : T0} (hm : t.apOf ap = some p) {v : W32}
    (h : u.settled = (t.withSelect v).settled) : ApStep ap p t.mem t u := by
  have e : ∀ {α : Type} (f : T0 → α), f u.settled = f (t.withSelect v).settled := fun f => by rw [h]
  refine ⟨T0Frame.of_settled h, e T0.mem, ?_⟩
  have ha : u.aps = t.aps := e T0.aps
  unfold T0.apOf at hm ⊢
  rw [ha]
  exact hm

/-- The member is replaced. -/
theorem ApStep.of_setAp {ap : ApIndex} {p q : T0Ap} {t u w : T0} (hm : t.apOf ap = some p) (hq : q.index = ap) {v : W32}
    {m : List Host.Cell} (hw : w = { (t.withSelect v).setAp q with mem := m }) (h : u.settled = w.settled) :
    ApStep ap q m t u := by
  subst hw
  have e : ∀ {α : Type} (f : T0 → α), f u.settled = f ({ (t.withSelect v).setAp q with mem := m } : T0).settled :=
    fun f => by rw [h]
  have ha : u.aps = t.aps.map fun r => if r.index = q.index then q else r := e T0.aps
  refine ⟨⟨e T0.dpidr, e T0.targetid, e T0.dlpidr, e T0.eventstat, e T0.dpidr1, e T0.bad, e T0.powerDead, e T0.ctrl,
    e T0.sticky, e T0.inject, e T0.wait, ?_⟩, e T0.mem, ?_⟩
  · rw [ha, ← hq]
    exact filter_setAp t.aps q
  · unfold T0.apOf at hm ⊢
    rw [ha]
    exact find_setAp hm hq

/-- After a step the AP is quiet still. -/
theorem Quiet.step {s u : State} {t t' : T0} {ap : ApIndex} {p q : T0Ap} {m : List Host.Cell} (h : Quiet s t ap p)
    (hc : Closed u t') (hd : u.dpVersion = s.dpVersion) (hi : T0Inv t') (k : ApStep ap q m t t') : Quiet u t' ap q := by
  refine ⟨hc, ?_, hi, k.frame.sticky.trans h.sticky, k.frame.inject.trans h.inject, k.member⟩
  have : t'.layout = t.layout := by
    unfold T0.layout T0.ver
    rw [k.frame.dpidr]
  rw [hd, this]
  exact h.layout

theorem T0Inv.of_settled {t u : T0} (h : T0Inv t) (e : u.settled = t.settled) : T0Inv u := by
  have f : ∀ {α : Type} (g : T0 → α), g u.settled = g t.settled := fun g => by rw [e]
  exact h.congr (f T0.mem) (f T0.ctrl) (f T0.sticky) (f T0.inject) (f T0.aps)

theorem T0Inv.withSelect {t : T0} (h : T0Inv t) (v : W32) : T0Inv (t.withSelect v) := h.congr rfl rfl rfl rfl rfl

/-- What an AP register access leaves, given what T0 does. -/
structure After (s u : State) (t' : T0) (ap : ApIndex) (q : T0Ap) (m : List Host.Cell) (t : T0) : Prop where
  frame : FrameSelect s u
  quiet : Quiet u t' ap q
  step : ApStep ap q m t t'

theorem After.trans {s u v : State} {t t' t'' : T0} {ap : ApIndex} {p q : T0Ap} {m k : List Host.Cell}
    (h : After s u t' ap p m t) (g : After u v t'' ap q k t') : After s v t'' ap q k t :=
  ⟨h.frame.trans g.frame, g.quiet, h.step.frame.trans g.step.frame, g.step.mem, g.step.member⟩

theorem After.refl {s : State} {t : T0} {ap : ApIndex} {p : T0Ap} (h : Quiet s t ap p) : After s s t ap p t.mem t :=
  ⟨FrameSelect.refl s, h, T0Frame.refl ap t, rfl, h.member⟩

/-- A write of a register of AP `ap`. -/
theorem apRegWrite_quiet {s : State} {t : T0} {ap : ApIndex} {p : T0Ap} (h : Quiet s t ap p) {off : BitVec 12}
    (ho : off.extractLsb' 0 2 = 0) (v : W32) {q : T0Ap} (hq : q.index = ap) {m : List Host.Cell}
    (he : ((t.withSelect (selVal ap (layoutBase s.dpVersion + off))).apAccess false
        (apLinkAddr (layoutBase s.dpVersion + off)) v).2 =
      { (t.withSelect (selVal ap (layoutBase s.dpVersion + off))).setAp q with mem := m }) :
    ∃ u t', apRegWrite ap off v s = .ok () u ∧ After s u t' ap q m t := by
  obtain ⟨u, t', hu, fu, cu, _, eu⟩ := apWrite_closed h.closed h.sticky ap (apReg_aligned s ho) v
  have hi : T0Inv t' := T0Inv.of_settled ((h.inv.withSelect _).apAccess false _ v) eu
  have k : ApStep ap q m t t' := ApStep.of_setAp h.member hq he eu
  refine ⟨u, t', ?_, fu, h.step cu fu.dpVersion hi k, k⟩
  unfold apRegWrite
  rw [run_getS_bind]
  exact hu

/-- A read of a register of AP `ap` that leaves the AP alone. -/
theorem apRegRead_quiet {s : State} {t : T0} {ap : ApIndex} {p : T0Ap} (h : Quiet s t ap p) {off : BitVec 12}
    (ho : off.extractLsb' 0 2 = 0) {v : W32}
    (he : (t.withSelect (selVal ap (layoutBase s.dpVersion + off))).apAccess true
        (apLinkAddr (layoutBase s.dpVersion + off)) 0 = (v, t.withSelect (selVal ap (layoutBase s.dpVersion + off)))) :
    ∃ u t', apRegRead ap off s = .ok v u ∧ After s u t' ap p t.mem t := by
  obtain ⟨u, t', hu, fu, cu, _, eu⟩ := apRead_closed h.closed h.sticky ap (apReg_aligned s ho)
  unfold State.apReg at hu eu
  rw [he] at hu eu
  have hi : T0Inv t' := T0Inv.of_settled (h.inv.withSelect _) eu
  have k : ApStep ap p t.mem t t' := ApStep.of_settled h.member eu
  refine ⟨u, t', ?_, fu, h.step cu fu.dpVersion hi k, k⟩
  unfold apRegRead
  rw [run_getS_bind]
  exact hu

/-- CSW (R42, R405). -/
theorem readCsw_quiet {s : State} {t : T0} {ap : ApIndex} {p : T0Ap} (h : Quiet s t ap p) :
    ∃ u t', apRegRead ap cswOffset s = .ok p.csw u ∧ After s u t' ap p t.mem t :=
  apRegRead_quiet h (off := cswOffset) (by decide) (by
    rw [apAccess_reg h.member h.layout, if_pos rfl, if_pos rfl])

/-- BASE (R44, R405). -/
theorem readBase_quiet {s : State} {t : T0} {ap : ApIndex} {p : T0Ap} (h : Quiet s t ap p) :
    ∃ u t', apRegRead ap baseOffset s = .ok p.base u ∧ After s u t' ap p t.mem t :=
  apRegRead_quiet h (off := baseOffset) (by decide) (by
    rw [apAccess_reg h.member h.layout, if_neg (by decide), if_neg (by decide), if_neg (by decide), if_pos rfl,
      if_pos rfl])

/-- IDR (R45, R405). -/
theorem readIdr_quiet {s : State} {t : T0} {ap : ApIndex} {p : T0Ap} (h : Quiet s t ap p) :
    ∃ u t', apRegRead ap idrOffset s = .ok p.idr u ∧ After s u t' ap p t.mem t :=
  apRegRead_quiet h (off := idrOffset) (by decide) (by
    rw [apAccess_reg h.member h.layout, if_neg (by decide), if_neg (by decide), if_neg (by decide), if_neg (by decide),
      if_pos rfl, if_pos rfl])

/-- The member after a write of CSW (R405). -/
def T0Ap.withCsw (p : T0Ap) (v : W32) : T0Ap := { p with csw := (v &&& 0xFFFFFF3F) ||| (p.csw0 &&& 0x40) }

/-- The member after a write of TAR (R405). -/
def T0Ap.withTar (p : T0Ap) (v : W32) : T0Ap := { p with tar := v }

theorem writeCsw_quiet {s : State} {t : T0} {ap : ApIndex} {p : T0Ap} (h : Quiet s t ap p) (v : W32) :
    ∃ u t', apRegWrite ap cswOffset v s = .ok () u ∧ After s u t' ap (p.withCsw v) t.mem t :=
  apRegWrite_quiet h (off := cswOffset) (by decide) v (q := p.withCsw v) (m := t.mem)
    (show p.index = ap from apOf_index h.member) (by
    rw [apAccess_reg h.member h.layout, if_pos rfl]; rfl)

theorem writeTar_quiet {s : State} {t : T0} {ap : ApIndex} {p : T0Ap} (h : Quiet s t ap p) (v : W32) :
    ∃ u t', apRegWrite ap tarOffset v s = .ok () u ∧ After s u t' ap (p.withTar v) t.mem t :=
  apRegWrite_quiet h (off := tarOffset) (by decide) v (q := p.withTar v) (m := t.mem)
    (show p.index = ap from apOf_index h.member) (by
    rw [apAccess_reg h.member h.layout, if_neg (by decide), if_pos rfl]; rfl)

/-! ## One access of DRW (R406) -/

/-- The address of a DRW access is good: the AP is enabled, the size is a word or a byte, a word is aligned, and no
bad address is touched. -/
structure GoodAccess (t : T0) (p : T0Ap) (sz : BitVec 3) : Prop where
  deviceEn : cswDeviceEn p.csw = true
  size : p.csw.extractLsb' 0 3 = sz
  known : sz = sizeWord ∧ p.tar.toNat % 4 = 0 ∧ t.goodRange p.tar.toNat (p.tar.toNat + 4) ∨
    sz = sizeByte ∧ t.goodRange p.tar.toNat (p.tar.toNat + 1)

theorem GoodAccess.faults {t : T0} {p : T0Ap} {size : BitVec 3} (h : GoodAccess t p size) : t.faults p = false := by
  have any : ∀ n, t.goodRange p.tar.toNat (p.tar.toNat + n) →
      (t.bad.any fun x => decide (p.tar.toNat ≤ x ∧ x < p.tar.toNat + n)) = false := by
    intro n hg
    rw [List.any_eq_false]
    intro x hx
    have := hg x hx
    simp only [decide_eq_true_eq]
    omega
  unfold T0.faults
  simp only [h.deviceEn, h.size]
  rcases h.known with ⟨hs, ha, hg⟩ | ⟨hs, hg⟩
  · subst hs
    simp only [if_pos]
    rw [any 4 hg, ha]
    decide
  · subst hs
    rw [if_neg (by decide), any 1 hg]
    simp only [Bool.or_false, show (sizeByte == sizeWord) = false by decide, Bool.false_and]
    decide

theorem drw_word_read {t : T0} {p : T0Ap} (hi : t.inject = none) (h : GoodAccess t p sizeWord) (v : W32) :
    t.drw p true v = (Memory.read32 t.mem p.tar.toNat, t.setAp (T0.bumpTar p 4)) := by
  rw [drw_none hi]
  unfold T0.drwAccess
  simp only [h.faults, h.size]
  rfl

theorem drw_word_write {t : T0} {p : T0Ap} (hi : t.inject = none) (h : GoodAccess t p sizeWord) (v : W32) :
    t.drw p false v = (0, { t.setAp (T0.bumpTar p 4) with mem := Memory.write32 t.mem p.tar.toNat v }) := by
  rw [drw_none hi]
  unfold T0.drwAccess
  simp only [h.faults, h.size]
  rfl

theorem drw_byte_read {t : T0} {p : T0Ap} (hi : t.inject = none) (h : GoodAccess t p sizeByte) (v : W32) :
    t.drw p true v =
      ((Memory.read t.mem p.tar.toNat).setWidth 32 <<< (8 * (p.tar.toNat % 4)), t.setAp (T0.bumpTar p 1)) := by
  rw [drw_none hi]
  unfold T0.drwAccess
  simp only [h.faults, h.size]
  rfl

theorem drw_byte_write {t : T0} {p : T0Ap} (hi : t.inject = none) (h : GoodAccess t p sizeByte) (v : W32) :
    t.drw p false v = (0, { t.setAp (T0.bumpTar p 1) with
      mem := Memory.write t.mem p.tar.toNat (v.extractLsb' (8 * (p.tar.toNat % 4)) 8) }) := by
  rw [drw_none hi]
  unfold T0.drwAccess
  simp only [h.faults, h.size]
  rfl

/-- An access of DRW of AP `ap` by T0. -/
theorem apAccess_drw {t : T0} {ap : ApIndex} {p : T0Ap} (h : t.apOf ap = some p) {base : BitVec 12}
    (hl : base = t.layout) (rnw : Bool) (v : W32) :
    (t.withSelect (selVal ap (base + drwOffset))).apAccess rnw (apLinkAddr (base + drwOffset)) v =
      (t.withSelect (selVal ap (base + drwOffset))).drw p rnw v := by
  rw [apAccess_reg h hl, if_neg (by decide), if_neg (by decide), if_pos rfl]

theorem GoodAccess.withSelect {t : T0} {p : T0Ap} {size : BitVec 3} (h : GoodAccess t p size) (v : W32) :
    GoodAccess (t.withSelect v) p size :=
  ⟨h.deviceEn, h.size, h.known⟩

section

variable {s : State} {t : T0} {ap : ApIndex} {p : T0Ap}

/-- SELECT as DAPSEQ leaves it for an access of DRW. -/
def drwSelect (s : State) (ap : ApIndex) : W32 := selVal ap (s.apReg drwOffset)

theorem access_word_read (h : Quiet s t ap p) (g : GoodAccess t p sizeWord) :
    (t.withSelect (drwSelect s ap)).apAccess true (apLinkAddr (s.apReg drwOffset)) 0 =
      (Memory.read32 t.mem p.tar.toNat, (t.withSelect (drwSelect s ap)).setAp (T0.bumpTar p 4)) :=
  (apAccess_drw h.member h.layout true 0).trans
    (drw_word_read (t := t.withSelect (drwSelect s ap)) h.inject (g.withSelect _) 0)

theorem access_word_write (h : Quiet s t ap p) (g : GoodAccess t p sizeWord) (v : W32) :
    (t.withSelect (drwSelect s ap)).apAccess false (apLinkAddr (s.apReg drwOffset)) v =
      (0, { (t.withSelect (drwSelect s ap)).setAp (T0.bumpTar p 4) with
        mem := Memory.write32 t.mem p.tar.toNat v }) :=
  (apAccess_drw h.member h.layout false v).trans
    (drw_word_write (t := t.withSelect (drwSelect s ap)) h.inject (g.withSelect _) v)

theorem access_byte_read (h : Quiet s t ap p) (g : GoodAccess t p sizeByte) :
    (t.withSelect (drwSelect s ap)).apAccess true (apLinkAddr (s.apReg drwOffset)) 0 =
      ((Memory.read t.mem p.tar.toNat).setWidth 32 <<< (8 * (p.tar.toNat % 4)),
        (t.withSelect (drwSelect s ap)).setAp (T0.bumpTar p 1)) :=
  (apAccess_drw h.member h.layout true 0).trans
    (drw_byte_read (t := t.withSelect (drwSelect s ap)) h.inject (g.withSelect _) 0)

theorem access_byte_write (h : Quiet s t ap p) (g : GoodAccess t p sizeByte) (v : W32) :
    (t.withSelect (drwSelect s ap)).apAccess false (apLinkAddr (s.apReg drwOffset)) v =
      (0, { (t.withSelect (drwSelect s ap)).setAp (T0.bumpTar p 1) with
        mem := Memory.write t.mem p.tar.toNat (v.extractLsb' (8 * (p.tar.toNat % 4)) 8) }) :=
  (apAccess_drw h.member h.layout false v).trans
    (drw_byte_write (t := t.withSelect (drwSelect s ap)) h.inject (g.withSelect _) v)

/-- What an access of DRW leaves, given what T0 does. -/
theorem after_drw {u : State} {t' : T0} (h : Quiet s t ap p) (fu : FrameSelect s u) (cu : Closed u t') {rnw : Bool}
    {v x : W32} {n : Nat} {m : List Host.Cell}
    (he : (t.withSelect (drwSelect s ap)).apAccess rnw (apLinkAddr (s.apReg drwOffset)) v =
      (x, { (t.withSelect (drwSelect s ap)).setAp (T0.bumpTar p n) with mem := m }))
    (eu : t'.settled =
      ((t.withSelect (drwSelect s ap)).apAccess rnw (apLinkAddr (s.apReg drwOffset)) v).2.settled) :
    After s u t' ap (T0.bumpTar p n) m t := by
  have hi : T0Inv t' := T0Inv.of_settled ((h.inv.withSelect _).apAccess rnw _ v) eu
  have k : ApStep ap (T0.bumpTar p n) m t t' :=
    ApStep.of_setAp h.member ((bumpTar_index p n).trans (apOf_index h.member)) (congrArg Prod.snd he) eu
  exact ⟨fu, h.step cu fu.dpVersion hi k, k⟩

theorem drw_aligned (s : State) : (s.apReg drwOffset).extractLsb' 0 2 = 0 := apReg_aligned s (by decide)

/-- A word read of DRW. -/
theorem readDrw_word (h : Quiet s t ap p) (g : GoodAccess t p sizeWord) :
    ∃ u t', apRegRead ap drwOffset s = .ok (Memory.read32 t.mem p.tar.toNat) u ∧
      After s u t' ap (T0.bumpTar p 4) t.mem t := by
  obtain ⟨u, t', hu, fu, cu, _, eu⟩ := apRead_closed h.closed h.sticky ap (drw_aligned s)
  have he := access_word_read h g
  refine ⟨u, t', ?_, after_drw h fu cu he eu⟩
  unfold apRegRead
  rw [run_getS_bind, hu]
  exact congrArg (fun x => EStateM.Result.ok x u) (congrArg Prod.fst he)

/-- A word write of DRW. -/
theorem writeDrw_word (h : Quiet s t ap p) (g : GoodAccess t p sizeWord) (v : W32) :
    ∃ u t', apRegWrite ap drwOffset v s = .ok () u ∧
      After s u t' ap (T0.bumpTar p 4) (Memory.write32 t.mem p.tar.toNat v) t := by
  obtain ⟨u, t', hu, fu, cu, _, eu⟩ := apWrite_closed h.closed h.sticky ap (drw_aligned s) v
  exact ⟨u, t', hu, after_drw h fu cu (access_word_write h g v) eu⟩

/-- The byte lane of a byte read (R237, R406). -/
theorem laneOf_shift (b : Byte) (a : Nat) : laneOf (b.setWidth 32 <<< (8 * (a % 4))) a = b := by
  unfold laneOf byteOf
  apply BitVec.eq_of_getLsbD_eq
  intro i hi
  have : a % 4 < 4 := Nat.mod_lt _ (by decide)
  simp only [BitVec.getLsbD_extractLsb', BitVec.getLsbD_shiftLeft, BitVec.getLsbD_setWidth]
  simp [hi, show 8 * (a % 4) + i < 32 by omega, show 8 * (a % 4) + i - 8 * (a % 4) = i by omega, show i < 32 by omega]

/-- A byte read of DRW. -/
theorem readDrw_byte (h : Quiet s t ap p) (g : GoodAccess t p sizeByte) :
    ∃ u t' w, apRegRead ap drwOffset s = .ok w u ∧ laneOf w p.tar.toNat = Memory.read t.mem p.tar.toNat ∧
      After s u t' ap (T0.bumpTar p 1) t.mem t := by
  obtain ⟨u, t', hu, fu, cu, _, eu⟩ := apRead_closed h.closed h.sticky ap (drw_aligned s)
  have he := access_byte_read h g
  refine ⟨u, t', _, hu, ?_, after_drw h fu cu he eu⟩
  have e : ((t.withSelect (selVal ap (s.apReg drwOffset))).apAccess true (apLinkAddr (s.apReg drwOffset)) 0).1 =
      (Memory.read t.mem p.tar.toNat).setWidth 32 <<< (8 * (p.tar.toNat % 4)) := congrArg Prod.fst he
  rw [e]
  exact laneOf_shift _ _

/-- A byte write of DRW. -/
theorem writeDrw_byte (h : Quiet s t ap p) (g : GoodAccess t p sizeByte) (b : Byte) :
    ∃ u t', apRegWrite ap drwOffset (inLane b p.tar.toNat) s = .ok () u ∧
      After s u t' ap (T0.bumpTar p 1) (Memory.write t.mem p.tar.toNat b) t := by
  obtain ⟨u, t', hu, fu, cu, _, eu⟩ := apWrite_closed h.closed h.sticky ap (drw_aligned s) (inLane b p.tar.toNat)
  have he := access_byte_write h g (inLane b p.tar.toNat)
  have e : (inLane b p.tar.toNat).extractLsb' (8 * (p.tar.toNat % 4)) 8 = b := laneOf_shift b p.tar.toNat
  rw [e] at he
  exact ⟨u, t', hu, after_drw h fu cu he eu⟩

end

end Sys2Proof.Machine
end

