-- ==== Sys2Proof/Laws/Runs.lean ====
section
/-! SUPPORT. Sequences of accesses of DRW and the runs they are grouped in, against T0 (R233, R241, R406). -/

namespace Sys2Proof.Machine

open Sys2Proof

/-! ## Words of a memory -/

/-- The words of a memory from an address on. -/
def Memory.words (m : List Host.Cell) (a : Nat) : Nat → List W32
  | 0 => []
  | n + 1 => Memory.read32 m a :: Memory.words m (a + 4) n

/-- Store words from an address on. -/
def Memory.fillWords (m : List Host.Cell) (a : Nat) : List W32 → List Host.Cell
  | [] => m
  | w :: ws => Memory.fillWords (Memory.write32 m a w) (a + 4) ws

theorem Memory.words_append (m : List Host.Cell) (a n k : Nat) :
    Memory.words m a (n + k) = Memory.words m a n ++ Memory.words m (a + 4 * n) k := by
  induction n generalizing a with
  | zero => simp [Memory.words]
  | succ n ih =>
    rw [show n + 1 + k = (n + k) + 1 by omega, Memory.words, ih, Memory.words, List.cons_append,
      show a + 4 + 4 * n = a + 4 * (n + 1) by omega]

theorem Memory.words_length (m : List Host.Cell) (a n : Nat) : (Memory.words m a n).length = n := by
  induction n generalizing a with
  | zero => rfl
  | succ n ih => simp [Memory.words, ih]

theorem Memory.fillWords_append (m : List Host.Cell) (a : Nat) (xs ys : List W32) :
    Memory.fillWords m a (xs ++ ys) = Memory.fillWords (Memory.fillWords m a xs) (a + 4 * xs.length) ys := by
  induction xs generalizing m a with
  | nil => rfl
  | cons x xs ih =>
    rw [List.cons_append, Memory.fillWords, ih, Memory.fillWords, List.length_cons,
      show a + 4 + 4 * xs.length = a + 4 * (xs.length + 1) by omega]

/-! ## TAR (R406) -/

/-- Two words of one 1 KiB block have the same upper bits. -/
theorem block_upper {x y : W32} (h : x.toNat / 1024 = y.toNat / 1024) : x &&& 0xFFFFFC00 = y &&& 0xFFFFFC00 := by
  have hs : x >>> 10 = y >>> 10 := by
    apply BitVec.eq_of_toNat_eq
    simp only [BitVec.toNat_ushiftRight, Nat.shiftRight_eq_div_pow]
    exact h
  apply BitVec.eq_of_getLsbD_eq
  intro i hi
  simp only [BitVec.getLsbD_and]
  by_cases h10 : i < 10
  · have : BitVec.getLsbD (0xFFFFFC00 : W32) i = false := by
      have : i = 0 ∨ i = 1 ∨ i = 2 ∨ i = 3 ∨ i = 4 ∨ i = 5 ∨ i = 6 ∨ i = 7 ∨ i = 8 ∨ i = 9 := by omega
      rcases this with h | h | h | h | h | h | h | h | h | h <;> subst h <;> decide
    rw [this, Bool.and_false, Bool.and_false]
  · have hx : ∀ z : W32, z.getLsbD i = (z >>> 10).getLsbD (i - 10) := by
      intro z
      rw [BitVec.getLsbD_ushiftRight, show 10 + (i - 10) = i by omega]
    rw [hx x, hx y, hs]

theorem split_word (x : W32) : (x &&& 0xFFFFFC00) ||| (x &&& 0x3FF) = x := by
  rw [← BitVec.and_or_distrib_left]
  have : (0xFFFFFC00 : W32) ||| 0x3FF = BitVec.allOnes 32 := by decide
  rw [this, BitVec.and_allOnes]

/-- Inside a 1 KiB block the auto-increment adds (R406). -/
theorem bumpTar_inc {p : T0Ap} (hi : p.csw.extractLsb' 4 2 = 1) (n : Nat)
    (h : p.tar.toNat + n < 1024 * (p.tar.toNat / 1024 + 1)) :
    T0.bumpTar p n = p.withTar (p.tar + BitVec.ofNat 32 n) := by
  have hlt := p.tar.isLt
  have hn : (p.tar + BitVec.ofNat 32 n).toNat = p.tar.toNat + n := by
    rw [BitVec.toNat_add, BitVec.toNat_ofNat]
    omega
  have hb : p.tar.toNat / 1024 = (p.tar + BitVec.ofNat 32 n).toNat / 1024 := by rw [hn]; omega
  unfold T0.bumpTar
  rw [if_pos hi, block_upper hb, split_word]
  rfl

theorem bumpTar_off {p : T0Ap} (hi : p.csw.extractLsb' 4 2 = 0) (n : Nat) : T0.bumpTar p n = p := by
  unfold T0.bumpTar
  rw [if_neg (by rw [hi]; decide)]

/-- The member with TAR left anywhere. -/
def SameAp (p q : T0Ap) : Prop := ∃ v, q = p.withTar v

theorem SameAp.refl (p : T0Ap) : SameAp p p := ⟨p.tar, rfl⟩

theorem SameAp.trans {p q r : T0Ap} (h : SameAp p q) (k : SameAp q r) : SameAp p r := by
  obtain ⟨v, rfl⟩ := h
  obtain ⟨w, rfl⟩ := k
  exact ⟨w, rfl⟩

theorem SameAp.bump (p : T0Ap) (n : Nat) : SameAp p (T0.bumpTar p n) := by
  unfold T0.bumpTar
  split
  · exact ⟨_, rfl⟩
  · exact SameAp.refl p

/-- An enabled AP set to 32-bit accesses with auto-increment single or off (R42). -/
structure WordMode (inc : Bool) (p : T0Ap) : Prop where
  deviceEn : cswDeviceEn p.csw = true
  size : p.csw.extractLsb' 0 3 = sizeWord
  inc : p.csw.extractLsb' 4 2 = if inc then 1 else 0

theorem WordMode.same {inc : Bool} {p q : T0Ap} (h : WordMode inc p) (k : SameAp p q) : WordMode inc q := by
  obtain ⟨v, rfl⟩ := k
  exact ⟨h.deviceEn, h.size, h.inc⟩

/-- An enabled AP set to 8-bit accesses (R42). -/
structure ByteMode (p : T0Ap) : Prop where
  deviceEn : cswDeviceEn p.csw = true
  size : p.csw.extractLsb' 0 3 = sizeByte

theorem ByteMode.same {p q : T0Ap} (h : ByteMode p) (k : SameAp p q) : ByteMode q := by
  obtain ⟨v, rfl⟩ := k
  exact ⟨h.deviceEn, h.size⟩

/-! ## Sequences of accesses of DRW -/

/-- T0 with DRW of AP `ap` selected. -/
structure Drw (t : T0) (ap : ApIndex) (p : T0Ap) (base : BitVec 12) : Prop where
  select : t.select = selVal ap (base + drwOffset)
  layout : base = t.layout
  inject : t.inject = none
  member : t.apOf ap = some p

theorem Drw.access {t : T0} {ap : ApIndex} {p : T0Ap} {base : BitVec 12} (h : Drw t ap p base) (rnw : Bool) (v : W32) :
    t.apAccess rnw (apLinkAddr (base + drwOffset)) v = t.drw p rnw v := by
  have := apAccess_drw h.member h.layout rnw v
  have e : t.withSelect (selVal ap (base + drwOffset)) = t := by rw [← h.select]; rfl
  rwa [e] at this

theorem Drw.next {t : T0} {ap : ApIndex} {p q : T0Ap} {base : BitVec 12} (h : Drw t ap p base) (hq : q.index = ap)
    (m : List Host.Cell) : Drw { t.setAp q with mem := m } ap q base :=
  ⟨h.select, h.layout, h.inject, (ApStep.of_setAp (v := t.select) h.member hq rfl rfl).member⟩

theorem ApStep.set {t : T0} {ap : ApIndex} {p q : T0Ap} (h : t.apOf ap = some p) (hq : q.index = ap)
    (m : List Host.Cell) : ApStep ap q m t { t.setAp q with mem := m } :=
  ApStep.of_setAp (v := t.select) h hq rfl rfl

theorem ApStep.trans {t u v : T0} {ap : ApIndex} {p q : T0Ap} {m k : List Host.Cell} (h : ApStep ap p m t u)
    (g : ApStep ap q k u v) : ApStep ap q k t v :=
  ⟨h.frame.trans g.frame, g.mem, g.member⟩

/-- Reads of DRW inside a 1 KiB block with auto-increment deliver successive words (R406). -/
theorem apReads_inc (n : Nat) {t : T0} {ap : ApIndex} {p : T0Ap} {base : BitVec 12} (h : Drw t ap p base)
    (hm : WordMode true p) (ha : p.tar.toNat % 4 = 0) (hb : p.tar.toNat + 4 * n ≤ 1024 * (p.tar.toNat / 1024 + 1))
    (hg : t.goodRange p.tar.toNat (p.tar.toNat + 4 * n)) :
    (t.apReads (apLinkAddr (base + drwOffset)) n).1 = Memory.words t.mem p.tar.toNat n ∧
      ∃ q, SameAp p q ∧ ApStep ap q t.mem t (t.apReads (apLinkAddr (base + drwOffset)) n).2 := by
  induction n generalizing t p with
  | zero => exact ⟨rfl, p, SameAp.refl p, T0Frame.refl ap t, rfl, h.member⟩
  | succ n ih =>
    have g : GoodAccess t p sizeWord := ⟨hm.deviceEn, hm.size, .inl ⟨rfl, ha, fun x hx => by
      have := hg x hx; omega⟩⟩
    have e : t.apAccess true (apLinkAddr (base + drwOffset)) 0 =
        (Memory.read32 t.mem p.tar.toNat, t.setAp (T0.bumpTar p 4)) := (h.access true 0).trans (drw_word_read h.inject g 0)
    have hidx := (bumpTar_index p 4).trans (apOf_index h.member)
    have st := ApStep.set h.member hidx t.mem
    have hd : Drw (t.setAp (T0.bumpTar p 4)) ap (T0.bumpTar p 4) base := h.next hidx t.mem
    simp only [T0.apReads, e, Memory.words]
    cases n with
    | zero => exact ⟨rfl, _, SameAp.bump p 4, st⟩
    | succ n =>
      have hbump := bumpTar_inc hm.inc 4 (by omega)
      have hlt := p.tar.isLt
      have htar : (T0.bumpTar p 4).tar.toNat = p.tar.toNat + 4 := by
        rw [hbump]
        show (p.tar + BitVec.ofNat 32 4).toNat = _
        rw [BitVec.toNat_add, BitVec.toNat_ofNat]
        omega
      obtain ⟨i1, q, i2, i3⟩ := ih hd (hm.same (SameAp.bump p 4)) (by rw [htar]; omega) (by rw [htar]; omega) (by
        rw [htar]
        intro x hx
        have := hg x hx
        omega)
      rw [htar] at i1
      have hmem : (t.setAp (T0.bumpTar p 4)).mem = t.mem := rfl
      rw [hmem] at i1 i3
      exact ⟨congrArg _ i1, q, (SameAp.bump p 4).trans i2, st.trans i3⟩

/-- Reads of DRW without auto-increment deliver the same word (R239, R406). -/
theorem apReads_keyhole (n : Nat) {t : T0} {ap : ApIndex} {p : T0Ap} {base : BitVec 12} (h : Drw t ap p base)
    (hm : WordMode false p) (ha : p.tar.toNat % 4 = 0) (hg : t.goodRange p.tar.toNat (p.tar.toNat + 4)) :
    (t.apReads (apLinkAddr (base + drwOffset)) n).1 = List.replicate n (Memory.read32 t.mem p.tar.toNat) ∧
      ApStep ap p t.mem t (t.apReads (apLinkAddr (base + drwOffset)) n).2 := by
  induction n generalizing t with
  | zero => exact ⟨rfl, T0Frame.refl ap t, rfl, h.member⟩
  | succ n ih =>
    have g : GoodAccess t p sizeWord := ⟨hm.deviceEn, hm.size, .inl ⟨rfl, ha, hg⟩⟩
    have e : t.apAccess true (apLinkAddr (base + drwOffset)) 0 =
        (Memory.read32 t.mem p.tar.toNat, t.setAp p) := by
      rw [h.access true 0, drw_word_read h.inject g 0, bumpTar_off hm.inc]
    have st := ApStep.set h.member (apOf_index h.member) t.mem
    obtain ⟨i1, i2⟩ := ih (h.next (apOf_index h.member) t.mem) hg
    simp only [T0.apReads, e, List.replicate_succ]
    exact ⟨congrArg _ i1, st.trans i2⟩

/-- Writes of DRW inside a 1 KiB block with auto-increment store successive words (R406). -/
theorem apWrites_inc (ws : List W32) {t : T0} {ap : ApIndex} {p : T0Ap} {base : BitVec 12} (h : Drw t ap p base)
    (hm : WordMode true p) (ha : p.tar.toNat % 4 = 0)
    (hb : p.tar.toNat + 4 * ws.length ≤ 1024 * (p.tar.toNat / 1024 + 1))
    (hg : t.goodRange p.tar.toNat (p.tar.toNat + 4 * ws.length)) :
    ∃ q, SameAp p q ∧ ApStep ap q (Memory.fillWords t.mem p.tar.toNat ws) t
      (t.apWrites (apLinkAddr (base + drwOffset)) ws) := by
  induction ws generalizing t p with
  | nil => exact ⟨p, SameAp.refl p, T0Frame.refl ap t, rfl, h.member⟩
  | cons w ws ih =>
    rw [List.length_cons] at hb hg
    have g : GoodAccess t p sizeWord := ⟨hm.deviceEn, hm.size, .inl ⟨rfl, ha, fun x hx => by
      have := hg x hx; omega⟩⟩
    have e : t.apAccess false (apLinkAddr (base + drwOffset)) w =
        (0, { t.setAp (T0.bumpTar p 4) with mem := Memory.write32 t.mem p.tar.toNat w }) :=
      (h.access false w).trans (drw_word_write h.inject g w)
    have hidx := (bumpTar_index p 4).trans (apOf_index h.member)
    have st := ApStep.set h.member hidx (Memory.write32 t.mem p.tar.toNat w)
    have hd := h.next hidx (Memory.write32 t.mem p.tar.toNat w)
    simp only [T0.apWrites, e, Memory.fillWords]
    cases ws with
    | nil => exact ⟨_, SameAp.bump p 4, st⟩
    | cons w' ws =>
      rw [List.length_cons] at hb hg
      have hbump := bumpTar_inc hm.inc 4 (by omega)
      have hlt := p.tar.isLt
      have htar : (T0.bumpTar p 4).tar.toNat = p.tar.toNat + 4 := by
        rw [hbump]
        show (p.tar + BitVec.ofNat 32 4).toNat = _
        rw [BitVec.toNat_add, BitVec.toNat_ofNat]
        omega
      obtain ⟨q, i2, i3⟩ := ih hd (hm.same (SameAp.bump p 4)) (by rw [htar]; omega)
        (by rw [htar, List.length_cons]; omega) (by
        rw [htar, List.length_cons]
        intro x hx
        have := hg x hx
        omega)
      rw [htar] at i3
      exact ⟨q, (SameAp.bump p 4).trans i2, st.trans i3⟩

/-- Writes of DRW without auto-increment all go to one address (R240, R406). -/
theorem apWrites_keyhole (ws : List W32) {t : T0} {ap : ApIndex} {p : T0Ap} {base : BitVec 12} (h : Drw t ap p base)
    (hm : WordMode false p) (ha : p.tar.toNat % 4 = 0) (hg : t.goodRange p.tar.toNat (p.tar.toNat + 4)) :
    ApStep ap p (Memory.keyhole t.mem p.tar.toNat ws) t (t.apWrites (apLinkAddr (base + drwOffset)) ws) := by
  induction ws generalizing t with
  | nil => exact ⟨T0Frame.refl ap t, rfl, h.member⟩
  | cons w ws ih =>
    have g : GoodAccess t p sizeWord := ⟨hm.deviceEn, hm.size, .inl ⟨rfl, ha, hg⟩⟩
    have e : t.apAccess false (apLinkAddr (base + drwOffset)) w =
        (0, { t.setAp p with mem := Memory.write32 t.mem p.tar.toNat w }) := by
      rw [h.access false w, drw_word_write h.inject g w, bumpTar_off hm.inc]
    have st := ApStep.set h.member (apOf_index h.member) (Memory.write32 t.mem p.tar.toNat w)
    have i2 := ih (h.next (apOf_index h.member) (Memory.write32 t.mem p.tar.toNat w)) hg
    simp only [T0.apWrites, e, Memory.keyhole]
    exact st.trans i2

theorem T0Inv.apReads {t : T0} (h : T0Inv t) (a : RegAddr) (n : Nat) : T0Inv (t.apReads a n).2 := by
  induction n generalizing t with
  | zero => exact h
  | succ n ih => exact ih (h.apAccess true a 0)

theorem T0Inv.apWrites {t : T0} (h : T0Inv t) (a : RegAddr) (ws : List W32) : T0Inv (t.apWrites a ws) := by
  induction ws generalizing t with
  | nil => exact h
  | cons w ws ih => exact ih (h.apAccess false a w)

theorem Quiet.drw {s : State} {t : T0} {ap : ApIndex} {p : T0Ap} (h : Quiet s t ap p) :
    Drw (t.withSelect (selVal ap (s.apReg drwOffset))) ap p (layoutBase s.dpVersion) :=
  ⟨rfl, h.layout, h.inject, h.member⟩

theorem ApStep.from_select {t u : T0} {ap : ApIndex} {p : T0Ap} {m : List Host.Cell} {v : W32}
    (h : ApStep ap p m (t.withSelect v) u) : ApStep ap p m t u :=
  ⟨⟨h.frame.dpidr, h.frame.targetid, h.frame.dlpidr, h.frame.eventstat, h.frame.dpidr1, h.frame.bad, h.frame.powerDead,
    h.frame.ctrl, h.frame.sticky, h.frame.inject, h.frame.wait, h.frame.aps⟩, h.mem, h.member⟩

theorem ApStep.to_settled {t u w : T0} {ap : ApIndex} {p : T0Ap} {m : List Host.Cell} (h : ApStep ap p m t u)
    (e : w.settled = u.settled) : ApStep ap p m t w := by
  have f : ∀ {α : Type} (g : T0 → α), g w.settled = g u.settled := fun g => by rw [e]
  have ha : w.aps = u.aps := f T0.aps
  refine ⟨h.frame.trans ⟨f T0.dpidr, f T0.targetid, f T0.dlpidr, f T0.eventstat, f T0.dpidr1, f T0.bad, f T0.powerDead,
    f T0.ctrl, f T0.sticky, f T0.inject, f T0.wait, by rw [ha]⟩, (f T0.mem).trans h.mem, ?_⟩
  have := h.member
  unfold T0.apOf at this ⊢
  rw [ha]
  exact this

/-- What a sequence of reads of DRW leaves. -/
theorem after_reads {s : State} {t : T0} {ap : ApIndex} {p q : T0Ap} (h : Quiet s t ap p) (n : Nat)
    (k : ApStep ap q t.mem t ((t.withSelect (drwSelect s ap)).apReads (apLinkAddr (s.apReg drwOffset)) n).2) :
    ∃ u t', apReadN ap (s.apReg drwOffset) n s =
        .ok ((t.withSelect (drwSelect s ap)).apReads (apLinkAddr (s.apReg drwOffset)) n).1 u ∧
      After s u t' ap q t.mem t := by
  obtain ⟨u, t', hu, fu, cu, _, eu⟩ := apReadN_closed h.closed ap (drw_aligned s) n (k.frame.sticky.trans h.sticky)
  have k' := k.to_settled eu
  exact ⟨u, t', hu, fu, h.step cu fu.dpVersion (T0Inv.of_settled ((h.inv.withSelect _).apReads _ n) eu) k', k'⟩

/-- What a sequence of writes of DRW leaves. -/
theorem after_writes {s : State} {t : T0} {ap : ApIndex} {p q : T0Ap} {m : List Host.Cell} (h : Quiet s t ap p)
    (ws : List W32)
    (k : ApStep ap q m t ((t.withSelect (drwSelect s ap)).apWrites (apLinkAddr (s.apReg drwOffset)) ws)) :
    ∃ u t', apWriteN ap (s.apReg drwOffset) ws s = .ok () u ∧ After s u t' ap q m t := by
  obtain ⟨u, t', hu, fu, cu, _, eu⟩ := apWriteN_closed h.closed ap (drw_aligned s) ws (k.frame.sticky.trans h.sticky)
  have k' := k.to_settled eu
  exact ⟨u, t', hu, fu, h.step cu fu.dpVersion (T0Inv.of_settled ((h.inv.withSelect _).apWrites _ ws) eu) k', k'⟩

/-! ## One run (R241) -/

/-- A link with a wire has no block transfer (R241). -/
theorem Loop.blocks {s : State} {t : T0} (h : Loop s t) : s.cfg.blocks = false := by
  unfold Config.blocks
  rcases h.iface with hi | hi <;> rw [hi] <;> rfl

theorem w32_toNat {a : Nat} (h : a < 2 ^ 32) : (w32 a).toNat = a := by
  unfold w32
  rw [BitVec.toNat_ofNat]
  exact Nat.mod_eq_of_lt h

/-- The words of a run fit it: it stays inside a 1 KiB block, or it is one word. -/
structure RunOk (inc : Bool) (t : T0) (a n : Nat) : Prop where
  lt : a < 2 ^ 32
  aligned : a % 4 = 0
  block : if inc then a + 4 * n ≤ 1024 * (a / 1024 + 1) else n = 1
  good : t.goodRange a (a + 4 * n)

/-- `RunRead` against T0 delivers the words of the run. -/
theorem runRead_quiet {s : State} {t : T0} {ap : ApIndex} {p : T0Ap} {inc : Bool} (h : Quiet s t ap p)
    (hm : WordMode inc p) {a n : Nat} (hr : RunOk inc t a n) :
    ∃ u t' q, runRead ap a n s = .ok (Memory.words t.mem a n) u ∧ SameAp p q ∧ After s u t' ap q t.mem t := by
  obtain ⟨x, tx, hx, ax⟩ := writeTar_quiet h (w32 a)
  have hq := ax.quiet
  have mem : tx.mem = t.mem := ax.step.mem
  have bad : tx.bad = t.bad := ax.step.frame.bad
  have mx : WordMode inc (p.withTar (w32 a)) := hm.same ⟨_, rfl⟩
  have tar : (p.withTar (w32 a)).tar.toNat = a := w32_toNat hr.lt
  have good : tx.goodRange a (a + 4 * n) := fun y hy => hr.good y (bad ▸ hy)
  have key : ((tx.withSelect (drwSelect x ap)).apReads (apLinkAddr (x.apReg drwOffset)) n).1 = Memory.words t.mem a n ∧
      ∃ q, SameAp (p.withTar (w32 a)) q ∧
        ApStep ap q tx.mem tx ((tx.withSelect (drwSelect x ap)).apReads (apLinkAddr (x.apReg drwOffset)) n).2 := by
    cases inc with
    | true =>
      have hb := hr.block
      rw [if_pos rfl] at hb
      obtain ⟨k1, q, k2, k3⟩ := apReads_inc n hq.drw mx (by rw [tar]; exact hr.aligned) (by rw [tar]; exact hb)
        (by rw [tar]; exact good)
      rw [tar] at k1
      exact ⟨k1.trans (congrArg (fun m => Memory.words m a n) mem), q, k2, k3.from_select⟩
    | false =>
      have hb : n = 1 := hr.block
      subst hb
      obtain ⟨k1, k2⟩ := apReads_keyhole 1 hq.drw mx (by rw [tar]; exact hr.aligned) (by rw [tar]; exact good)
      rw [tar] at k1
      exact ⟨k1.trans (congrArg (fun m => [Memory.read32 m a]) mem), _, SameAp.refl _, k2.from_select⟩
  obtain ⟨k1, q, k2, k3⟩ := key
  obtain ⟨u, t', hu, au⟩ := after_reads hq n k3
  refine ⟨u, t', q, ?_, (show SameAp p (p.withTar (w32 a)) from ⟨_, rfl⟩).trans k2, ?_⟩
  · unfold runRead
    rw [run_getS_bind, if_neg (by rw [h.closed.blocks]; decide)]
    unfold runReadPlain
    rw [run_bind_ok hx, run_getS_bind, hu, k1]
  · rw [← mem]
    exact ax.trans au

/-- `RunWrite` against T0 stores the words of the run. -/
theorem runWrite_quiet {s : State} {t : T0} {ap : ApIndex} {p : T0Ap} {inc : Bool} (h : Quiet s t ap p)
    (hm : WordMode inc p) {a : Nat} {ws : List W32} (hr : RunOk inc t a ws.length) :
    ∃ u t' q, runWrite ap a ws s = .ok () u ∧ SameAp p q ∧ After s u t' ap q (Memory.fillWords t.mem a ws) t := by
  obtain ⟨x, tx, hx, ax⟩ := writeTar_quiet h (w32 a)
  have hq := ax.quiet
  have mem : tx.mem = t.mem := ax.step.mem
  have bad : tx.bad = t.bad := ax.step.frame.bad
  have mx : WordMode inc (p.withTar (w32 a)) := hm.same ⟨_, rfl⟩
  have tar : (p.withTar (w32 a)).tar.toNat = a := w32_toNat hr.lt
  have good : tx.goodRange a (a + 4 * ws.length) := fun y hy => hr.good y (bad ▸ hy)
  have key : ∃ q, SameAp (p.withTar (w32 a)) q ∧ ApStep ap q (Memory.fillWords t.mem a ws) tx
      ((tx.withSelect (drwSelect x ap)).apWrites (apLinkAddr (x.apReg drwOffset)) ws) := by
    cases inc with
    | true =>
      have hb := hr.block
      rw [if_pos rfl] at hb
      obtain ⟨q, k2, k3⟩ := apWrites_inc ws hq.drw mx (by rw [tar]; exact hr.aligned) (by rw [tar]; exact hb)
        (by rw [tar]; exact good)
      rw [tar] at k3
      rw [← mem]
      exact ⟨q, k2, k3.from_select⟩
    | false =>
      have hb : ws.length = 1 := hr.block
      obtain ⟨w, rfl⟩ := List.length_eq_one_iff.mp hb
      have k2 := apWrites_keyhole [w] hq.drw mx (by rw [tar]; exact hr.aligned) (by rw [tar]; exact good)
      rw [tar] at k2
      rw [← mem]
      exact ⟨_, SameAp.refl _, k2.from_select⟩
  obtain ⟨q, k2, k3⟩ := key
  obtain ⟨u, t', hu, au⟩ := after_writes hq ws k3
  refine ⟨u, t', q, ?_, (show SameAp p (p.withTar (w32 a)) from ⟨_, rfl⟩).trans k2, ax.trans au⟩
  unfold runWrite
  rw [run_getS_bind, if_neg (by rw [h.closed.blocks]; decide)]
  unfold runWritePlain
  rw [run_bind_ok hx, run_getS_bind, hu]

end Sys2Proof.Machine
end

