-- ==== Sys2Proof/Laws/Bytes.lean ====
section
/-! SUPPORT. Words as bytes: packing and unpacking of byte strings against target memory (R75), and the split points of
a range (R132, R237). -/

namespace Sys2Proof.Machine

open Sys2Proof

/-! ## Bytes of a memory -/

theorem Memory.bytes_append (m : List Host.Cell) (a n k : Nat) :
    Memory.bytes m a (n + k) = Memory.bytes m a n ++ Memory.bytes m (a + n) k := by
  induction n generalizing a with
  | zero => simp [Memory.bytes]
  | succ n ih =>
    rw [show n + 1 + k = (n + k) + 1 by omega, Memory.bytes, ih, Memory.bytes, List.cons_append,
      show a + 1 + n = a + (n + 1) by omega]

@[simp] theorem Memory.bytes_length (m : List Host.Cell) (a n : Nat) : (Memory.bytes m a n).length = n := by
  induction n generalizing a with
  | zero => rfl
  | succ n ih => simp [Memory.bytes, ih]

theorem Memory.bytes_drop (m : List Host.Cell) (a n k : Nat) (h : k ≤ n) :
    (Memory.bytes m a n).drop k = Memory.bytes m (a + k) (n - k) := by
  obtain ⟨j, rfl⟩ : ∃ j, n = k + j := ⟨n - k, by omega⟩
  rw [Memory.bytes_append, List.drop_left' (by simp)]
  congr 1
  omega

theorem Memory.bytes_take (m : List Host.Cell) (a n k : Nat) (h : k ≤ n) :
    (Memory.bytes m a n).take k = Memory.bytes m a k := by
  obtain ⟨j, rfl⟩ : ∃ j, n = k + j := ⟨n - k, by omega⟩
  rw [Memory.bytes_append, List.take_left' (by simp)]

theorem Memory.bytes_getElem (m : List Host.Cell) (a n i : Nat) (h : i < n) :
    (Memory.bytes m a n)[i]? = some (Memory.read m (a + i)) := by
  induction n generalizing a i with
  | zero => omega
  | succ n ih =>
    cases i with
    | zero => rfl
    | succ i =>
      rw [Memory.bytes, List.getElem?_cons_succ, ih (a + 1) i (by omega), show a + 1 + i = a + (i + 1) by omega]

/-- The bytes of a word read from memory (R75). -/
theorem byteOf_read32 (m : List Host.Cell) (a : Nat) :
    byteOf (Memory.read32 m a) 0 = Memory.read m a ∧ byteOf (Memory.read32 m a) 1 = Memory.read m (a + 1) ∧
      byteOf (Memory.read32 m a) 2 = Memory.read m (a + 2) ∧ byteOf (Memory.read32 m a) 3 = Memory.read m (a + 3) := by
  unfold byteOf Memory.read32
  generalize Memory.read m a = b0
  generalize Memory.read m (a + 1) = b1
  generalize Memory.read m (a + 2) = b2
  generalize Memory.read m (a + 3) = b3
  refine ⟨?_, ?_, ?_, ?_⟩
  all_goals
    apply BitVec.eq_of_getLsbD_eq
    intro i hi
    simp only [BitVec.getLsbD_extractLsb', BitVec.getLsbD_append]
  · simp [hi]
  · simp [hi, show ¬8 * 1 + i < 8 by omega]
  · simp [hi, show ¬8 * 2 + i < 8 by omega, show ¬8 * 2 + i - 8 < 8 by omega, show 8 * 2 + i - 8 - 8 = i by omega]
  · simp [hi, show ¬8 * 3 + i < 8 by omega, show ¬8 * 3 + i - 8 < 8 by omega, show ¬8 * 3 + i - 8 - 8 < 8 by omega,
      show 8 * 3 + i - 8 - 8 - 8 = i by omega]

/-- Words of a memory are its bytes (R75). -/
theorem bytesOfWords_words (m : List Host.Cell) (a n : Nat) :
    bytesOfWords (Memory.words m a n) = Memory.bytes m a (4 * n) := by
  induction n generalizing a with
  | zero => rfl
  | succ n ih =>
    obtain ⟨h0, h1, h2, h3⟩ := byteOf_read32 m a
    rw [Memory.words, bytesOfWords, ih, h0, h1, h2, h3, show 4 * (n + 1) = 4 * n + 1 + 1 + 1 + 1 by omega]
    rfl

theorem bytesOfWords_length (ws : List W32) : (bytesOfWords ws).length = 4 * ws.length := by
  induction ws with
  | nil => rfl
  | cons w ws ih => simp only [bytesOfWords, List.length_cons, ih]; omega

theorem byteOf_wordOfBytes (a b c d : Byte) :
    byteOf (wordOfBytes a b c d) 0 = a ∧ byteOf (wordOfBytes a b c d) 1 = b ∧ byteOf (wordOfBytes a b c d) 2 = c ∧
      byteOf (wordOfBytes a b c d) 3 = d := by
  unfold byteOf wordOfBytes
  refine ⟨?_, ?_, ?_, ?_⟩
  all_goals
    apply BitVec.eq_of_getLsbD_eq
    intro i hi
    simp only [BitVec.getLsbD_extractLsb', BitVec.getLsbD_append]
  · simp [hi]
  · simp [hi, show ¬8 * 1 + i < 8 by omega]
  · simp [hi, show ¬8 * 2 + i < 8 by omega, show ¬8 * 2 + i - 8 < 8 by omega, show 8 * 2 + i - 8 - 8 = i by omega]
  · simp [hi, show ¬8 * 3 + i < 8 by omega, show ¬8 * 3 + i - 8 < 8 by omega, show ¬8 * 3 + i - 8 - 8 < 8 by omega,
      show 8 * 3 + i - 8 - 8 - 8 = i by omega]

/-- A byte string of whole words packs and unpacks to itself (R75). -/
theorem bytesOfWords_wordsOfBytes : ∀ (n : Nat) (bs : List Byte), bs.length = 4 * n →
    bytesOfWords (wordsOfBytes bs) = bs ∧ (wordsOfBytes bs).length = n
  | 0, bs, h => by
    have : bs = [] := List.length_eq_zero_iff.mp (by omega)
    subst this
    exact ⟨rfl, rfl⟩
  | n + 1, bs, h => by
    match bs, h with
    | a :: b :: c :: d :: r, h =>
      have hr : r.length = 4 * n := by simp only [List.length_cons] at h; omega
      obtain ⟨h1, h2⟩ := bytesOfWords_wordsOfBytes n r hr
      obtain ⟨e0, e1, e2, e3⟩ := byteOf_wordOfBytes a b c d
      constructor
      · simp only [wordsOfBytes, bytesOfWords, e0, e1, e2, e3, h1]
      · simp only [wordsOfBytes, List.length_cons, h2]
    | [], h => simp at h
    | [_], h => simp at h; omega
    | [_, _], h => simp at h; omega
    | [_, _, _], h => simp at h; omega

/-- Storing words is storing their bytes (R75). -/
theorem fillWords_fill (m : List Host.Cell) (a : Nat) (ws : List W32) :
    Memory.fillWords m a ws = Memory.fill m a (bytesOfWords ws) := by
  induction ws generalizing m a with
  | nil => rfl
  | cons w ws ih =>
    rw [Memory.fillWords, ih]
    rfl

theorem Memory.fill_append (m : List Host.Cell) (a : Nat) (xs ys : List Byte) :
    Memory.fill m a (xs ++ ys) = Memory.fill (Memory.fill m a xs) (a + xs.length) ys := by
  induction xs generalizing m a with
  | nil => rfl
  | cons x xs ih =>
    rw [List.cons_append, Memory.fill, ih, Memory.fill, List.length_cons,
      show a + 1 + xs.length = a + (xs.length + 1) by omega]

/-- Writing what an address reads changes nothing, not even the form. -/
theorem Memory.write_self {m : List Host.Cell} (hm : Memory.wf m = true) (a : Nat) :
    Memory.write m a (Memory.read m a) = m := by
  induction m with
  | nil => rfl
  | cons c m ih =>
    obtain ⟨b, w⟩ := c
    by_cases h1 : a < b
    · have : Memory.read ((b, w) :: m) a = Memory.unlisted := Memory.read_below fun c y hc => by
        rcases List.mem_cons.mp hc with e | hc
        · cases e; exact h1
        · exact h1.trans (Memory.wf_head hm hc)
      unfold Memory.write
      rw [if_pos h1, this]
      rfl
    · by_cases h2 : a = b
      · subst h2
        have hw : w ≠ Memory.unlisted := by
          unfold Memory.wf at hm
          simp only [Bool.and_eq_true, bne_iff_ne, ne_eq] at hm
          exact hm.1.1
        unfold Memory.write Memory.read Memory.cons
        rw [if_neg h1, if_pos rfl, if_pos rfl, if_neg hw]
      · unfold Memory.write Memory.read
        rw [if_neg h1, if_neg h2, if_neg h2, ih (Memory.wf_tail hm)]

/-- Storing what stands there changes nothing. -/
theorem Memory.fill_self {m : List Host.Cell} (hm : Memory.wf m = true) (a n : Nat) :
    Memory.fill m a (Memory.bytes m a n) = m := by
  induction n generalizing a with
  | zero => rfl
  | succ n ih =>
    rw [Memory.bytes, Memory.fill, Memory.write_self hm, ih]

/-- A store leaves the bytes below and above it. -/
theorem Memory.bytes_fill_above {m : List Host.Cell} (hm : Memory.wf m = true) (a : Nat) (bs : List Byte) {b n : Nat}
    (h : a + bs.length ≤ b) : Memory.bytes (Memory.fill m a bs) b n = Memory.bytes m b n := by
  induction n generalizing b with
  | zero => rfl
  | succ n ih =>
    rw [Memory.bytes, Memory.bytes, ih (by omega), Memory.read_fill hm, if_pos (by omega),
      List.getElem?_eq_none (by omega)]
    rfl

/-- A byte string between the bytes that stand around it is the byte string alone. -/
theorem Memory.fill_around {m : List Host.Cell} (hm : Memory.wf m = true) (a n : Nat) (bs : List Byte) (k : Nat) :
    Memory.fill m a (Memory.bytes m a n ++ bs ++ Memory.bytes m (a + n + bs.length) k) = Memory.fill m (a + n) bs := by
  rw [Memory.fill_append, Memory.fill_append, Memory.fill_self hm, Memory.bytes_length, List.length_append,
    Memory.bytes_length, ← Memory.bytes_fill_above hm (a + n) bs (b := a + n + bs.length) (Nat.le_refl _), ← Nat.add_assoc]
  exact Memory.fill_self (Memory.wf_fill hm _ _) _ _

/-! ## Split points (R132, R237) -/

theorem wordFloor_spec (a : Nat) : wordFloor a % 4 = 0 ∧ wordFloor a ≤ a ∧ a < wordFloor a + 4 := by
  unfold wordFloor; omega

theorem wordCeil_spec (a : Nat) : wordCeil a % 4 = 0 ∧ a ≤ wordCeil a ∧ wordCeil a < a + 4 := by
  unfold wordCeil; omega

theorem headEnd_spec {a b : Nat} (h : a ≤ b) :
    a ≤ headEnd a b ∧ headEnd a b ≤ b ∧ (headEnd a b % 4 = 0 ∨ headEnd a b = b) := by
  have := wordCeil_spec a
  unfold headEnd
  split
  · omega
  · omega

theorem tailStart_spec {a b : Nat} (h : a ≤ b) :
    headEnd a b ≤ tailStart a b ∧ tailStart a b ≤ b ∧
      (headEnd a b < tailStart a b → headEnd a b % 4 = 0 ∧ tailStart a b % 4 = 0) := by
  have h1 := headEnd_spec h
  have h2 := wordFloor_spec b
  unfold tailStart
  split
  · refine ⟨h1.2.1, Nat.le_refl _, fun k => ?_⟩
    rcases h1.2.2 with e | e
    · exact ⟨e, by assumption⟩
    · omega
  · refine ⟨Nat.le_max_left _ _, by omega, fun k => ?_⟩
    have : max (headEnd a b) (wordFloor b) = wordFloor b := by omega
    rw [this] at k ⊢
    rcases h1.2.2 with e | e
    · exact ⟨e, h2.1⟩
    · omega

end Sys2Proof.Machine
end

