-- ==== Sys2Proof/Laws/PerInstr.lean ====
section
/-! SUPPORT. What holds of each instruction as syntax, one lemma per constructor: its binary form carries the opcode
R126 gives its row, with the reserved header bits zero, and a level L transaction has no header (R110, R111). -/

namespace Sys2Proof

/-- The opcode field of a header (R111). -/
theorem hOpcode_hHeader (o f a : BitVec 8) : hOpcode (hHeader o f a) = o := by
  unfold hOpcode hHeader
  apply BitVec.eq_of_getLsbD_eq
  intro i hi
  simp only [BitVec.getLsbD_extractLsb', BitVec.getLsbD_append, Nat.zero_add]
  simp [hi]

/-- The reserved field of a header (R111). -/
theorem hRsv_hHeader (o f a : BitVec 8) : hRsv (hHeader o f a) = 0 := by
  unfold hRsv hHeader
  apply BitVec.eq_of_getLsbD_eq
  intro i hi
  simp only [BitVec.getLsbD_extractLsb', BitVec.getLsbD_append]
  simp [show ¬ 24 + i < 8 by omega, show ¬ 24 + i - 8 < 8 by omega, show ¬ 24 + i - 8 - 8 < 8 by omega]

/-- The opcode and the reserved bits a frame carries; none without a header. -/
def Laws.headerOf : Frame → Option (BitVec 8 × BitVec 8)
  | .host (w :: _) => some (hOpcode w, hRsv w)
  | _ => none

/-- The opcode of R126; none for a level L transaction. -/
def Laws.opcodeOf : Instr → Option (BitVec 8)
  | .detectVersion => some 0x01
  | .reassertPower => some 0x02
  | .dpRead _ => some 0x03
  | .dpWrite _ _ => some 0x04
  | .selectAp _ _ => some 0x05
  | .freezeSelect => some 0x06
  | .unfreezeSelect => some 0x07
  | .checkSticky => some 0x08
  | .clearSticky => some 0x09
  | .apRead _ _ => some 0x0A
  | .apWrite _ _ _ => some 0x0B
  | .swdConnect _ => some 0x0C
  | .getConnection _ _ _ _ => some 0x10
  | .memoryRead _ _ _ => some 0x11
  | .memoryWrite _ _ _ _ => some 0x12
  | .registerRead _ _ _ => some 0x13
  | .registerWrite _ _ _ _ => some 0x14
  | .runCtrlRead _ _ => some 0x15
  | .runCtrlWrite _ _ => some 0x16
  | .scanAps _ => some 0x17
  | .getChipVersion => some 0x18
  | .teardown => some 0x19
  | .readMemory _ _ _ => some 0x20
  | .writeMemory _ _ _ _ => some 0x21
  | .writeMemoryRmw _ _ _ _ => some 0x22
  | .pollRead _ _ _ _ => some 0x23
  | .pollWrite _ _ _ _ _ => some 0x24
  | _ => none

/-- The binary form of an instruction carries its row's opcode (R126). -/
def Laws.OwnOpcode.Statement (i : Instr) : Prop :=
  Laws.headerOf (encode i) = (Laws.opcodeOf i).map fun o => (o, 0#8)

/-- A level H frame carries the opcode of its header. -/
theorem Laws.headerOf_host (o f a : BitVec 8) (ops : List W32) :
    Laws.headerOf (.host (hHeader o f a :: ops)) = some (o, 0#8) := by
  show some (hOpcode (hHeader o f a), hRsv (hHeader o f a)) = _
  rw [hOpcode_hHeader, hRsv_hHeader]
  rfl

theorem Laws.OwnOpcode.detectVersion : Laws.OwnOpcode.Statement .detectVersion := Laws.headerOf_host _ _ _ _

theorem Laws.OwnOpcode.reassertPower : Laws.OwnOpcode.Statement .reassertPower := Laws.headerOf_host _ _ _ _

theorem Laws.OwnOpcode.dpRead (reg : DpReg) : Laws.OwnOpcode.Statement (.dpRead reg) := Laws.headerOf_host _ _ _ _

theorem Laws.OwnOpcode.dpWrite (reg : DpReg) (value : W32) : Laws.OwnOpcode.Statement (.dpWrite reg value) :=
  Laws.headerOf_host _ _ _ _

theorem Laws.OwnOpcode.selectAp (ap : ApIndex) (addr : W32) : Laws.OwnOpcode.Statement (.selectAp ap addr) :=
  Laws.headerOf_host _ _ _ _

theorem Laws.OwnOpcode.freezeSelect : Laws.OwnOpcode.Statement .freezeSelect := Laws.headerOf_host _ _ _ _

theorem Laws.OwnOpcode.unfreezeSelect : Laws.OwnOpcode.Statement .unfreezeSelect := Laws.headerOf_host _ _ _ _

theorem Laws.OwnOpcode.checkSticky : Laws.OwnOpcode.Statement .checkSticky := Laws.headerOf_host _ _ _ _

theorem Laws.OwnOpcode.clearSticky : Laws.OwnOpcode.Statement .clearSticky := Laws.headerOf_host _ _ _ _

theorem Laws.OwnOpcode.apRead (ap : ApIndex) (addr : W32) : Laws.OwnOpcode.Statement (.apRead ap addr) :=
  Laws.headerOf_host _ _ _ _

theorem Laws.OwnOpcode.apWrite (ap : ApIndex) (addr : W32) (value : W32) :
    Laws.OwnOpcode.Statement (.apWrite ap addr value) := Laws.headerOf_host _ _ _ _

theorem Laws.OwnOpcode.swdConnect (targetsel : Option W32) :
    Laws.OwnOpcode.Statement (.swdConnect targetsel) := by
  cases targetsel <;> exact Laws.headerOf_host _ _ _ _

theorem Laws.OwnOpcode.getConnection (ap : ApIndex) (autoinc : Option Bool) (peripheral allowDisabled : Bool) :
    Laws.OwnOpcode.Statement (.getConnection ap autoinc peripheral allowDisabled) := Laws.headerOf_host _ _ _ _

theorem Laws.OwnOpcode.memoryRead (ap : ApIndex) (start stop : Nat) :
    Laws.OwnOpcode.Statement (.memoryRead ap start stop) := Laws.headerOf_host _ _ _ _

theorem Laws.OwnOpcode.memoryWrite (ap : ApIndex) (start len : Nat) (data : List W32) :
    Laws.OwnOpcode.Statement (.memoryWrite ap start len data) := Laws.headerOf_host _ _ _ _

theorem Laws.OwnOpcode.registerRead (ap : ApIndex) (n : Nat) (regs : List W32) :
    Laws.OwnOpcode.Statement (.registerRead ap n regs) := Laws.headerOf_host _ _ _ _

theorem Laws.OwnOpcode.registerWrite (ap : ApIndex) (n : Nat) (regs values : List W32) :
    Laws.OwnOpcode.Statement (.registerWrite ap n regs values) := Laws.headerOf_host _ _ _ _

theorem Laws.OwnOpcode.runCtrlRead (ap : ApIndex) (ctrl : List W32) :
    Laws.OwnOpcode.Statement (.runCtrlRead ap ctrl) := Laws.headerOf_host _ _ _ _

theorem Laws.OwnOpcode.runCtrlWrite (ap : ApIndex) (ctrl : List W32) :
    Laws.OwnOpcode.Statement (.runCtrlWrite ap ctrl) := Laws.headerOf_host _ _ _ _

theorem Laws.OwnOpcode.scanAps (extraDetails : Bool) : Laws.OwnOpcode.Statement (.scanAps extraDetails) :=
  Laws.headerOf_host _ _ _ _

theorem Laws.OwnOpcode.getChipVersion : Laws.OwnOpcode.Statement .getChipVersion := Laws.headerOf_host _ _ _ _

theorem Laws.OwnOpcode.teardown : Laws.OwnOpcode.Statement .teardown := Laws.headerOf_host _ _ _ _

theorem Laws.OwnOpcode.readMemory (ap : ApIndex) (start stop : Nat) :
    Laws.OwnOpcode.Statement (.readMemory ap start stop) := Laws.headerOf_host _ _ _ _

theorem Laws.OwnOpcode.writeMemory (ap : ApIndex) (start len : Nat) (data : List W32) :
    Laws.OwnOpcode.Statement (.writeMemory ap start len data) := Laws.headerOf_host _ _ _ _

theorem Laws.OwnOpcode.writeMemoryRmw (ap : ApIndex) (start len : Nat) (data : List W32) :
    Laws.OwnOpcode.Statement (.writeMemoryRmw ap start len data) := Laws.headerOf_host _ _ _ _

theorem Laws.OwnOpcode.pollRead (ap : ApIndex) (address : W32) (count : Nat) (busy : Option BusyCheck) :
    Laws.OwnOpcode.Statement (.pollRead ap address count busy) := Laws.headerOf_host _ _ _ _

theorem Laws.OwnOpcode.pollWrite (ap : ApIndex) (address : W32) (count : Nat) (values : List W32) (busy : Option BusyCheck) :
    Laws.OwnOpcode.Statement (.pollWrite ap address count values busy) := Laws.headerOf_host _ _ _ _

theorem Laws.OwnOpcode.jtagIrsel (ir : IrCode) : Laws.OwnOpcode.Statement (.jtagIrsel ir) := rfl

theorem Laws.OwnOpcode.jtagScan (ir : IrCode) (rnw : Bool) (a : RegAddr) (data : W32) :
    Laws.OwnOpcode.Statement (.jtagScan ir rnw a data) := rfl

theorem Laws.OwnOpcode.jtagDpaccRd (a : RegAddr) : Laws.OwnOpcode.Statement (.jtagDpaccRd a) := rfl

theorem Laws.OwnOpcode.jtagDpaccWr (a : RegAddr) (value : W32) :
    Laws.OwnOpcode.Statement (.jtagDpaccWr a value) := rfl

theorem Laws.OwnOpcode.jtagApaccRd (a : RegAddr) : Laws.OwnOpcode.Statement (.jtagApaccRd a) := rfl

theorem Laws.OwnOpcode.jtagApaccWr (a : RegAddr) (value : W32) :
    Laws.OwnOpcode.Statement (.jtagApaccWr a value) := rfl

theorem Laws.OwnOpcode.jtagReadn (reads : List (IrCode × RegAddr)) : Laws.OwnOpcode.Statement (.jtagReadn reads) := rfl

theorem Laws.OwnOpcode.jtagWriten (a : RegAddr) (values : List W32) :
    Laws.OwnOpcode.Statement (.jtagWriten a values) := rfl

theorem Laws.OwnOpcode.jtagAbortWr (value : W32) : Laws.OwnOpcode.Statement (.jtagAbortWr value) := rfl

theorem Laws.OwnOpcode.swdXfer (apndp rnw : Bool) (a : RegAddr) (wdata : W32) :
    Laws.OwnOpcode.Statement (.swdXfer apndp rnw a wdata) := rfl

theorem Laws.OwnOpcode.swdDpRd (a : RegAddr) : Laws.OwnOpcode.Statement (.swdDpRd a) := rfl

theorem Laws.OwnOpcode.swdDpWr (a : RegAddr) (value : W32) : Laws.OwnOpcode.Statement (.swdDpWr a value) := rfl

theorem Laws.OwnOpcode.swdApRd (a : RegAddr) : Laws.OwnOpcode.Statement (.swdApRd a) := rfl

theorem Laws.OwnOpcode.swdApWr (a : RegAddr) (value : W32) : Laws.OwnOpcode.Statement (.swdApWr a value) := rfl

theorem Laws.OwnOpcode.swdReadn (a : RegAddr) (n : Nat) : Laws.OwnOpcode.Statement (.swdReadn a n) := rfl

theorem Laws.OwnOpcode.swdWriten (a : RegAddr) (values : List W32) :
    Laws.OwnOpcode.Statement (.swdWriten a values) := rfl

theorem Laws.OwnOpcode.swdAbort (value : W32) : Laws.OwnOpcode.Statement (.swdAbort value) := rfl

theorem Laws.OwnOpcode.swdLinereset : Laws.OwnOpcode.Statement .swdLinereset := rfl

theorem Laws.OwnOpcode.swdTargetsel (value : W32) : Laws.OwnOpcode.Statement (.swdTargetsel value) := rfl

end Sys2Proof
end

