-- ==== Sys2Proof/Laws/Transfer.lean ====
section
/-! SUPPORT. Memory transfer against T0: runs, the CSW setting, the batch, and the memory commands of a connection (R232
to R240, R244). -/

namespace Sys2Proof.Machine

open Sys2Proof

/-! ## Runs of a range (R233) -/

theorem runEnd_spec {r b : Nat} (h : r < b) (hr : r % 4 = 0) (hb : b % 4 = 0) :
    r < runEnd r b ∧ runEnd r b ≤ b ∧ runEnd r b % 4 = 0 ∧ runEnd r b ≤ 1024 * (r / 1024 + 1) := by
  unfold runEnd Config.autoincBoundary
  omega

/-- The end of the run that starts at `r`, in either mode. -/
def nextRun (inc : Bool) (r b : Nat) : Nat := if inc then runEnd r b else r + 4

theorem nextRun_spec (inc : Bool) {r b : Nat} (h : r < b) (hr : r % 4 = 0) (hb : b % 4 = 0) :
    r < nextRun inc r b ∧ nextRun inc r b ≤ b ∧ nextRun inc r b % 4 = 0 ∧
      (if inc then r + 4 * ((nextRun inc r b - r) / 4) ≤ 1024 * (r / 1024 + 1) else (nextRun inc r b - r) / 4 = 1) := by
  cases inc with
  | true =>
    have := runEnd_spec h hr hb
    have e : nextRun true r b = runEnd r b := rfl
    rw [e, if_pos rfl]
    omega
  | false =>
    have e : nextRun false r b = r + 4 := rfl
    rw [e, if_neg (by decide)]
    omega

theorem runsFrom_step (inc : Bool) (fuel : Nat) {r b : Nat} (h : r < b) :
    runsFrom inc (fuel + 1) r b = (r, (nextRun inc r b - r) / 4) :: runsFrom inc fuel (nextRun inc r b) b := by
  rw [runsFrom, if_pos h]
  rfl

theorem runsFrom_empty (inc : Bool) (fuel : Nat) {r b : Nat} (h : b ≤ r) : runsFrom inc fuel r b = [] := by
  cases fuel with
  | zero => rfl
  | succ n => rw [runsFrom, if_neg (by omega)]

/-- A word-aligned range of good addresses. -/
structure WordRange (t : T0) (r b : Nat) : Prop where
  start : r % 4 = 0
  stop : b % 4 = 0
  limit : b ≤ 2 ^ 32
  good : t.goodRange r b

theorem WordRange.run {t : T0} {r b : Nat} (w : WordRange t r b) (inc : Bool) (h : r < b) :
    RunOk inc t r ((nextRun inc r b - r) / 4) := by
  have n := nextRun_spec inc h w.start w.stop
  have l := w.limit
  exact ⟨by omega, w.start, n.2.2.2, fun x hx => by have := w.good x hx; omega⟩

theorem WordRange.rest {t : T0} {r b : Nat} (w : WordRange t r b) (inc : Bool) (h : r < b) :
    WordRange t (nextRun inc r b) b := by
  have n := nextRun_spec inc h w.start w.stop
  exact ⟨n.2.2.1, w.stop, w.limit, fun x hx => by have := w.good x hx; omega⟩

theorem WordRange.frame {ap : ApIndex} {t u : T0} {r b : Nat} (w : WordRange t r b) (f : T0Frame ap t u) :
    WordRange u r b :=
  ⟨w.start, w.stop, w.limit, fun x hx => w.good x (f.bad ▸ hx)⟩

theorem readRuns_quiet {ap : ApIndex} {inc : Bool} (fuel : Nat) {s : State} {t : T0} {p : T0Ap} (h : Quiet s t ap p)
    (hm : WordMode inc p) {r b : Nat} (hr : WordRange t r b) (hf : (b - r) / 4 ≤ fuel) :
    ∃ u t' q, readRuns ap (runsFrom inc fuel r b) s = .ok (Memory.words t.mem r ((b - r) / 4)) u ∧ SameAp p q ∧
      After s u t' ap q t.mem t := by
  induction fuel generalizing s t p r with
  | zero =>
    have : (b - r) / 4 = 0 := by omega
    rw [this]
    exact ⟨s, t, p, rfl, SameAp.refl p, After.refl h⟩
  | succ fuel ih =>
    by_cases hlt : r < b
    · have n := nextRun_spec inc hlt hr.start hr.stop
      have h4 := hr.start
      obtain ⟨x, tx, qx, hx, sx, ax⟩ := runRead_quiet h hm (hr.run inc hlt)
      obtain ⟨u, t', q, hu, su, au⟩ := ih ax.quiet (hm.same sx) ((hr.rest inc hlt).frame ax.step.frame) (by omega)
      have mem : tx.mem = t.mem := ax.step.mem
      refine ⟨u, t', q, ?_, sx.trans su, by rw [← mem]; exact ax.trans au⟩
      rw [runsFrom_step inc fuel hlt]
      show (runRead ap r ((nextRun inc r b - r) / 4) >>= fun ws => readRuns ap (runsFrom inc fuel (nextRun inc r b) b)
        >>= fun rest => pure (ws ++ rest)) s = _
      rw [run_bind_ok hx, run_bind_ok hu, mem]
      have e : (b - r) / 4 = (nextRun inc r b - r) / 4 + (b - nextRun inc r b) / 4 := by omega
      rw [e, Memory.words_append, show r + 4 * ((nextRun inc r b - r) / 4) = nextRun inc r b by omega]
      rfl
    · rw [runsFrom_empty inc _ (by omega), show (b - r) / 4 = 0 by omega]
      exact ⟨s, t, p, rfl, SameAp.refl p, After.refl h⟩

theorem writeRuns_quiet {ap : ApIndex} {inc : Bool} (fuel : Nat) {s : State} {t : T0} {p : T0Ap} (h : Quiet s t ap p)
    (hm : WordMode inc p) {r b : Nat} (hr : WordRange t r b) {ws : List W32} (hw : ws.length = (b - r) / 4)
    (hf : (b - r) / 4 ≤ fuel) :
    ∃ u t' q, writeRuns ap (runsFrom inc fuel r b) ws s = .ok () u ∧ SameAp p q ∧
      After s u t' ap q (Memory.fillWords t.mem r ws) t := by
  induction fuel generalizing s t p r ws with
  | zero =>
    have : ws = [] := List.length_eq_zero_iff.mp (by omega)
    subst this
    exact ⟨s, t, p, rfl, SameAp.refl p, After.refl h⟩
  | succ fuel ih =>
    by_cases hlt : r < b
    · have n := nextRun_spec inc hlt hr.start hr.stop
      have h4 := hr.start
      have hk : (ws.take ((nextRun inc r b - r) / 4)).length = (nextRun inc r b - r) / 4 := by
        rw [List.length_take, hw]; omega
      have run := hr.run inc hlt
      rw [← hk] at run
      obtain ⟨x, tx, qx, hx, sx, ax⟩ := runWrite_quiet h hm run
      obtain ⟨u, t', q, hu, su, au⟩ := ih ax.quiet (hm.same sx) ((hr.rest inc hlt).frame ax.step.frame)
        (ws := ws.drop ((nextRun inc r b - r) / 4)) (by rw [List.length_drop, hw]; omega) (by omega)
      have mem : tx.mem = _ := ax.step.mem
      refine ⟨u, t', q, ?_, sx.trans su, ?_⟩
      · rw [runsFrom_step inc fuel hlt]
        show (runWrite ap r (ws.take ((nextRun inc r b - r) / 4)) >>= fun _ =>
          writeRuns ap (runsFrom inc fuel (nextRun inc r b) b) (ws.drop ((nextRun inc r b - r) / 4))) s = _
        rw [run_bind_ok hx, hu]
      · have g := ax.trans au
        rw [mem] at g
        have e : Memory.fillWords t.mem r ws = Memory.fillWords
            (Memory.fillWords t.mem r (ws.take ((nextRun inc r b - r) / 4))) (nextRun inc r b)
            (ws.drop ((nextRun inc r b - r) / 4)) := by
          have := Memory.fillWords_append t.mem r (ws.take ((nextRun inc r b - r) / 4))
            (ws.drop ((nextRun inc r b - r) / 4))
          rwa [List.take_append_drop, hk, show r + 4 * ((nextRun inc r b - r) / 4) = nextRun inc r b by omega] at this
        rw [e]
        exact g
    · have : ws = [] := List.length_eq_zero_iff.mp (by omega)
      subst this
      rw [runsFrom_empty inc _ (by omega)]
      exact ⟨s, t, p, rfl, SameAp.refl p, After.refl h⟩

/-! ## CSW (R42, R125, R232) -/

/-- The six low bits of CSW: size and increment mode. -/
theorem csw_fields (w : W32) :
    w.extractLsb' 0 3 = (w.extractLsb' 0 6).extractLsb' 0 3 ∧ w.extractLsb' 4 2 = (w.extractLsb' 0 6).extractLsb' 4 2 := by
  constructor
  · apply BitVec.eq_of_getLsbD_eq
    intro i hi
    have h3 : i = 0 ∨ i = 1 ∨ i = 2 := by omega
    rcases h3 with h | h | h <;> subst h <;> simp
  · apply BitVec.eq_of_getLsbD_eq
    intro i hi
    have h2 : i = 0 ∨ i = 1 := by omega
    rcases h2 with h | h <;> subst h <;> simp

theorem cswVal_fields (w : W32) (inc : Bool) (size : BitVec 3) :
    (cswVal w inc size).extractLsb' 0 3 = size ∧ (cswVal w inc size).extractLsb' 4 2 = if inc then 1 else 0 := by
  constructor
  · apply BitVec.eq_of_getLsbD_eq
    intro i hi
    have h3 : i = 0 ∨ i = 1 ∨ i = 2 := by omega
    unfold cswVal
    rcases h3 with h | h | h <;> subst h <;> cases inc <;> simp
  · apply BitVec.eq_of_getLsbD_eq
    intro i hi
    have h3 : i = 0 ∨ i = 1 := by omega
    unfold cswVal
    rcases h3 with h | h <;> subst h <;> cases inc <;> simp

/-- Bits 5 to 0 of CSW are what DAPSEQ wrote (R405). -/
theorem csw_write_low (v csw0 : W32) :
    ((v &&& 0xFFFFFF3F) ||| (csw0 &&& 0x40)).extractLsb' 0 6 = v.extractLsb' 0 6 := by
  apply BitVec.eq_of_getLsbD_eq
  intro i hi
  have h6 : i = 0 ∨ i = 1 ∨ i = 2 ∨ i = 3 ∨ i = 4 ∨ i = 5 := by omega
  rcases h6 with h | h | h | h | h | h <;> subst h <;> simp

/-- An enabled AP whose CSW has the given size and increment mode. -/
structure CswMode (inc : Bool) (size : BitVec 3) (p : T0Ap) : Prop where
  deviceEn : cswDeviceEn p.csw = true
  size : p.csw.extractLsb' 0 3 = size
  inc : p.csw.extractLsb' 4 2 = if inc then 1 else 0

theorem CswMode.word {inc : Bool} {p : T0Ap} (h : CswMode inc sizeWord p) : WordMode inc p := ⟨h.deviceEn, h.size, h.inc⟩

theorem CswMode.byte {inc : Bool} {p : T0Ap} (h : CswMode inc sizeByte p) : ByteMode p := ⟨h.deviceEn, h.size⟩

/-- CSW agrees with a shadow value in size and increment mode. -/
def CswAgrees (p : T0Ap) (w : W32) : Prop := cswDeviceEn p.csw = true ∧ p.csw.extractLsb' 0 6 = w.extractLsb' 0 6

theorem CswAgrees.same {p q : T0Ap} {w : W32} (h : CswAgrees p w) (k : SameAp p q) : CswAgrees q w := by
  obtain ⟨v, rfl⟩ := k
  exact h

theorem CswAgrees.mode {p : T0Ap} {w : W32} {inc : Bool} {size : BitVec 3} (h : CswAgrees p (cswVal w inc size)) :
    CswMode inc size p := by
  obtain ⟨h1, h2⟩ := h
  refine ⟨h1, ?_, ?_⟩
  · rw [(csw_fields p.csw).1, h2, ← (csw_fields _).1]
    exact (cswVal_fields w inc size).1
  · rw [(csw_fields p.csw).2, h2, ← (csw_fields _).2]
    exact (cswVal_fields w inc size).2

/-! ## A served connection, its sub-word cache aside -/

/-- The closed loop with a T0 that serves `c` and has `m` in memory. -/
structure Able (s : State) (t : T0) (c : MemApConnection) (m : List Host.Cell) : Prop where
  quiet : ∃ p, Quiet s t c.ap p ∧ CswAgrees p c.cswShadow
  conn : ∃ b, s.connOf c.ap = some { c with subword := b }
  mem : t.mem = m

theorem T0Ap.Restored.refl (w : W32) (p : T0Ap) : p.Restored w p := ⟨p.csw, p.tar, rfl, .inl rfl⟩

theorem T0Ap.Restored.trans {w : W32} {p q r : T0Ap} (h : p.Restored w q) (k : q.Restored w r) : p.Restored w r := by
  obtain ⟨v, a, rfl, hv⟩ := h
  obtain ⟨v', a', rfl, hv'⟩ := k
  refine ⟨v', a', rfl, ?_⟩
  rcases hv' with e | e
  · rcases hv with f | f
    · exact .inl (e.trans f)
    · exact .inr (e.trans f)
  · exact .inr e

theorem SameAp.restored {p q : T0Ap} (h : SameAp p q) (w : W32) : p.Restored w q := by
  obtain ⟨v, rfl⟩ := h
  exact ⟨p.csw, v, rfl, .inl rfl⟩

/-- CSW written, TAR left anywhere, and the shadow written back (R232). -/
theorem SameAp.rewritten {p q : T0Ap} {v : W32} (h : SameAp (p.withCsw v) q) (w : W32) : p.Restored w (q.withCsw w) := by
  obtain ⟨a, rfl⟩ := h
  exact ⟨_, a, rfl, .inr rfl⟩

/-- The member of AP `ap` is still there, and CSW is as it was or the shadow written back. -/
def MemberKept (ap : ApIndex) (shadow : W32) (t u : T0) : Prop :=
  ∀ p, t.apOf ap = some p → ∃ q, u.apOf ap = some q ∧ p.Restored shadow q

theorem MemberKept.refl (ap : ApIndex) (w : W32) (t : T0) : MemberKept ap w t t := fun p h =>
  ⟨p, h, T0Ap.Restored.refl w p⟩

theorem MemberKept.trans {ap : ApIndex} {w : W32} {t u v : T0} (h : MemberKept ap w t u) (k : MemberKept ap w u v) :
    MemberKept ap w t v := fun p hp => by
  obtain ⟨q, hq, r1⟩ := h p hp
  obtain ⟨r, hr, r2⟩ := k q hq
  exact ⟨r, hr, r1.trans r2⟩

/-- The member before and after is known. -/
theorem MemberKept.of {ap : ApIndex} {w : W32} {t u : T0} {p q : T0Ap} (hp : t.apOf ap = some p)
    (hq : u.apOf ap = some q) (h : p.Restored w q) : MemberKept ap w t u := fun p' hp' => by
  cases hp.symm.trans hp'
  exact ⟨q, hq, h⟩

/-- What a memory command keeps of the state and of T0. -/
structure Kept (s u : State) (t t' : T0) (c : MemApConnection) : Prop where
  dpVersion : u.dpVersion = s.dpVersion
  frame : T0Frame c.ap t t'
  member : MemberKept c.ap c.cswShadow t t'

theorem Kept.refl (s : State) (t : T0) (c : MemApConnection) : Kept s s t t c :=
  ⟨rfl, T0Frame.refl _ t, MemberKept.refl _ _ t⟩

theorem Kept.trans {s u v : State} {t t' t'' : T0} {c : MemApConnection} (h : Kept s u t t' c) (k : Kept u v t' t'' c) :
    Kept s v t t'' c := ⟨k.dpVersion.trans h.dpVersion, h.frame.trans k.frame, h.member.trans k.member⟩

/-- A command of connection `c` that ends with `r` and leaves `m'` in memory. -/
def Serves {α : Type} (c : MemApConnection) (op : Dap α) (s : State) (t : T0) (r : α) (m' : List Host.Cell) : Prop :=
  ∃ u t', op s = .ok r u ∧ Able u t' c m' ∧ Kept s u t t' c

theorem Serves.pure {α : Type} {c : MemApConnection} {s : State} {t : T0} {m : List Host.Cell} (h : Able s t c m) (r : α) :
    Serves c (pure r) s t r m := ⟨s, t, rfl, h, Kept.refl s t c⟩

theorem Serves.bind {α β : Type} {c : MemApConnection} {op : Dap α} {f : α → Dap β} {s : State} {t : T0} {r : α} {r' : β}
    {m m' : List Host.Cell} (h : Serves c op s t r m)
    (k : ∀ u t', Able u t' c m → Kept s u t t' c → Serves c (f r) u t' r' m') : Serves c (op >>= f) s t r' m' := by
  obtain ⟨u, t', hu, au, ku⟩ := h
  obtain ⟨v, t'', hv, av, kv⟩ := k u t' au ku
  exact ⟨v, t'', by rw [run_bind_ok hu, hv], av, ku.trans kv⟩

theorem WordRange.kept {s u : State} {t t' : T0} {c : MemApConnection} {r b : Nat} (w : WordRange t r b)
    (k : Kept s u t t' c) : WordRange t' r b := w.frame k.frame

theorem Able.congr_conn {s u : State} {t : T0} {ap : ApIndex} {p : T0Ap} (h : Quiet s t ap p) (hv : u.dpVersion = s.dpVersion)
    (hl : u.selectLast = s.selectLast) (hf : u.frozenValid = s.frozenValid) (hj : u.jtagIr = s.jtagIr)
    (hg : u.cfg = s.cfg) (ht : u.target = s.target) : Quiet u t ap p :=
  ⟨⟨⟨hg ▸ h.closed.iface, ht.trans h.closed.target, h.closed.noWait, hj ▸ h.closed.ir⟩, by rw [hf, hl]; exact h.closed.select⟩,
    by rw [hv]; exact h.layout, h.inv, h.sticky, h.inject, h.member⟩

theorem setShadow_some {s : State} {ap : ApIndex} {d : MemApConnection} (h : s.connOf ap = some d) (w : W32) :
    (s.setShadow ap w).connOf ap = some { d with cswShadow := w } := by
  rw [connOf_setShadow_same, h]
  rfl

/-- Write CSW and keep its shadow (R232). -/
theorem writeCsw_able {s : State} {t : T0} {ap : ApIndex} {p : T0Ap} {d : MemApConnection} (h : Quiet s t ap p)
    (hd : s.connOf ap = some d) (he : cswDeviceEn p.csw = true) (w : W32) :
    ∃ u t', writeCsw ap w s = .ok () u ∧ Quiet u t' ap (p.withCsw w) ∧ CswAgrees (p.withCsw w) w ∧ T0Frame ap t t' ∧
      t'.mem = t.mem ∧ u.connOf ap = some { d with cswShadow := w } ∧ u.dpVersion = s.dpVersion := by
  obtain ⟨x, tx, hx, ax⟩ := writeCsw_quiet h w
  have hm : p ∈ t.aps := List.mem_of_find?_eq_some h.member
  have he0 : cswDeviceEn p.csw0 = true := (h.inv.deviceEn p hm).symm.trans he
  refine ⟨x.setShadow ap w, tx, ?_, ?_, ⟨?_, csw_write_low w p.csw0⟩, ax.step.frame, ax.step.mem, ?_,
    ax.frame.dpVersion⟩
  · unfold writeCsw
    rw [run_bind_ok hx]
    rfl
  · exact Able.congr_conn ax.quiet rfl rfl rfl rfl rfl rfl
  · exact (cswDeviceEn_write w p.csw0).trans he0
  · refine setShadow_some ?_ w
    rw [connOf_congr ax.frame.conn]
    exact hd

/-- A body that runs with CSW in a mode. -/
theorem withCsw_able {α : Type} {s : State} {t : T0} {c : MemApConnection} {m m' : List Host.Cell} {inc : Bool}
    {size : BitVec 3} {body : Dap α} {r : α} (h : Able s t c m)
    (hbody : ∀ x tx px, Quiet x tx c.ap px → CswMode inc size px → tx.mem = m → T0Frame c.ap t tx →
      ∃ u t' q, body x = .ok r u ∧ SameAp px q ∧ After x u t' c.ap q m' tx) :
    Serves c (withCsw c inc size body) s t r m' := by
  obtain ⟨⟨p, hp, hag⟩, ⟨b, hb⟩, hmem⟩ := h
  have hsh : s.shadowOf c = c.cswShadow := by
    unfold State.shadowOf
    rw [hb]
  unfold Serves withCsw
  rw [run_getS_bind, hsh]
  by_cases hv : cswVal c.cswShadow inc size = c.cswShadow
  · obtain ⟨u, t', q, hu, su, au⟩ := hbody s t p hp (CswAgrees.mode (w := c.cswShadow) (by rw [hv]; exact hag)) hmem
      (T0Frame.refl _ t)
    refine ⟨u, t', by rw [if_pos hv]; exact hu, ⟨⟨q, au.quiet, hag.same su⟩, ⟨b, ?_⟩, au.step.mem⟩,
      au.frame.dpVersion, au.step.frame, .of hp.member au.quiet.member (su.restored _)⟩
    rw [connOf_congr au.frame.conn]
    exact hb
  · obtain ⟨x, tx, hx, qx, agx, fx, mx, cx, vx⟩ := writeCsw_able hp hb hag.1 (cswVal c.cswShadow inc size)
    obtain ⟨y, ty, py, hy, sy, ay⟩ := hbody x tx _ qx agx.mode (mx.trans hmem) fx
    have cy : y.connOf c.ap = some { c with subword := b, cswShadow := cswVal c.cswShadow inc size } := by
      rw [connOf_congr ay.frame.conn]
      exact cx
    obtain ⟨z, tz, hz, qz, agz, fz, mz, cz, vz⟩ := writeCsw_able ay.quiet cy (agx.same sy).1 c.cswShadow
    refine ⟨z, tz, ?_, ⟨⟨_, qz, agz⟩, ⟨b, cz⟩, mz.trans ay.step.mem⟩, vz.trans (ay.frame.dpVersion.trans vx),
      fx.trans (ay.step.frame.trans fz), .of hp.member qz.member (sy.rewritten _)⟩
    rw [if_neg hv, run_bind_ok hx, run_withFinally, hy]
    simp only [hz]

/-- Read the words of a range. -/
theorem readWords_able {s : State} {t : T0} {c : MemApConnection} {m : List Host.Cell} (h : Able s t c m) {a b : Nat}
    (w : WordRange t a b) : Serves c (readWords c a b) s t (Memory.words m a ((b - a) / 4)) m := by
  refine withCsw_able h fun x tx px qx mx mm fx => ?_
  obtain ⟨u, t', q, hu, su, au⟩ := readRuns_quiet ((b - a) / 4) qx mx.word (w.frame fx) (Nat.le_refl _)
  rw [mm] at hu au
  exact ⟨u, t', q, hu, su, au⟩

/-- Write the words of a range. -/
theorem writeWords_able {s : State} {t : T0} {c : MemApConnection} {m : List Host.Cell} (h : Able s t c m) {a b : Nat}
    (w : WordRange t a b) {ws : List W32} (hw : ws.length = (b - a) / 4) :
    Serves c (writeWords c a b ws) s t () (Memory.fillWords m a ws) := by
  refine withCsw_able h fun x tx px qx mx mm fx => ?_
  obtain ⟨u, t', q, hu, su, au⟩ := writeRuns_quiet ((b - a) / 4) qx mx.word (w.frame fx) hw (Nat.le_refl _)
  rw [mm] at au
  exact ⟨u, t', q, hu, su, au⟩

/-! ## The batch (R242, R244) -/

theorem engineGuard_ok {α : Type} {ap : ApIndex} {body : Dap α} {s u : State} {r : α} (h : body s = .ok r u) :
    engineGuard ap body s = .ok r u := by
  unfold engineGuard
  rw [run_onError, h]

theorem Quiet.freeze {s : State} {t : T0} {ap : ApIndex} {p : T0Ap} (h : Quiet s t ap p)
    (hs : ∀ v, s.selectLast = some v → t.select = v) : Quiet s.freeze t ap p :=
  ⟨⟨⟨h.closed.iface, h.closed.target, h.closed.noWait, h.closed.ir⟩, fun _ => hs⟩, h.layout, h.inv, h.sticky, h.inject,
    h.member⟩

theorem Quiet.unfreeze {s : State} {t : T0} {ap : ApIndex} {p : T0Ap} (h : Quiet s t ap p) : Quiet s.unfreeze t ap p := by
  unfold State.unfreeze
  split
  · exact h
  · refine ⟨⟨⟨h.closed.iface, h.closed.target, h.closed.noWait, h.closed.ir⟩, fun hv => ?_⟩, h.layout, h.inv, h.sticky,
      h.inject, h.member⟩
    have : (s.freezeDepth != 1 && s.frozenValid) = true := hv
    exact h.closed.select (Bool.and_eq_true _ _ ▸ this).2

/-- A batch of a served connection runs its body in the closed loop (R244). -/
theorem batch_able {α : Type} {s : State} {t : T0} {c : MemApConnection} {m m' : List Host.Cell} {body : Dap α} {r : α}
    (h : Able s t c m)
    (hbody : ∀ x tx, Able x tx c m → T0Frame c.ap t tx → x.cfg = s.cfg → x.connOf c.ap = s.connOf c.ap →
      Serves c body x tx r m') : Serves c (batch c body) s t r m' := by
  obtain ⟨⟨p, hp, hag⟩, ⟨b, hb⟩, hmem⟩ := h
  obtain ⟨x, tx, hx, fx, cx, sx, ex⟩ := writeSelect_closed hp.closed (selVal c.ap c.drwBank)
  have st : ApStep c.ap p t.mem t tx := ApStep.of_settled hp.member ex
  have qx : Quiet x tx c.ap p := hp.step cx fx.dpVersion (T0Inv.of_settled (hp.inv.withSelect _) ex) st
  have qf : Quiet x.freeze tx c.ap p := qx.freeze fun v hv => by
    have := sx.symm.trans hv
    cases this
    exact settled_select ex
  have hcx : x.freeze.connOf c.ap = s.connOf c.ap := connOf_congr fx.conn c.ap
  have ax : Able x.freeze tx c m := ⟨⟨p, qf, hag⟩, ⟨b, hcx.trans hb⟩, st.mem.trans hmem⟩
  obtain ⟨u, t', hu, ⟨⟨q, qu, agu⟩, ⟨b', cu⟩, mu⟩, ku⟩ := hbody x.freeze tx ax st.frame fx.cfg hcx
  refine ⟨u.unfreeze, t', ?_, ⟨⟨q, qu.unfreeze, agu⟩, ⟨b', ?_⟩, mu⟩, ?_, st.frame.trans ku.frame,
    (MemberKept.of hp.member st.member (T0Ap.Restored.refl _ p)).trans ku.member⟩
  · unfold batch
    rw [run_bind_ok (engineGuard_ok (ap := c.ap) (show selectAp c.ap c.drwBank s = .ok () x from hx))]
    show (upd State.freeze >>= fun _ => withFinally (engineGuard c.ap body) unfreezeSelect) x = _
    rw [run_upd_bind, run_withFinally, engineGuard_ok hu]
    rfl
  · rw [connOf_congr (unfreeze_conn u)]
    exact cu
  · rw [unfreeze_dpVersion]
    exact ku.dpVersion.trans fx.dpVersion

/-! ## The native sub-word path (R234, R237) -/

theorem takesNative_able {s : State} {t : T0} {c : MemApConnection} {m : List Host.Cell} (h : Able s t c m)
    (a b : Nat) : Serves c (takesNative c.ap a b) s t (unalignedEdge a b && subwordOf s c) m := by
  unfold takesNative
  cases hu : unalignedEdge a b with
  | false => exact Serves.pure h false
  | true =>
    rw [if_pos rfl]
    unfold Serves subword subwordOf
    rw [run_getS_bind, Bool.true_and]
    cases hc : cachedSubword s c.ap with
    | some x => exact ⟨s, t, rfl, h, Kept.refl s t c⟩
    | none =>
      obtain ⟨⟨p, hp, hag⟩, ⟨x, hx⟩, hmem⟩ := h
      refine ⟨s.setSubword c.ap (s.cfg.subwordOf c.ap), t, rfl, ⟨⟨p, Able.congr_conn hp rfl rfl rfl rfl rfl rfl, hag⟩,
        ⟨some (s.cfg.subwordOf c.ap), ?_⟩, hmem⟩, rfl, T0Frame.refl _ t,
        MemberKept.refl _ _ t⟩
      rw [connOf_setSubword_same, hx]
      rfl

theorem readBytes_quiet {ap : ApIndex} (n : Nat) {s : State} {t : T0} {p : T0Ap} (h : Quiet s t ap p) (hm : ByteMode p)
    {a : Nat} (hl : a + n ≤ 2 ^ 32) (hg : t.goodRange a (a + n)) :
    ∃ u t' q, readBytes ap a n s = .ok (Memory.bytes t.mem a n) u ∧ SameAp p q ∧ After s u t' ap q t.mem t := by
  induction n generalizing s t p a with
  | zero => exact ⟨s, t, p, rfl, SameAp.refl p, After.refl h⟩
  | succ n ih =>
    obtain ⟨x, tx, hx, ax⟩ := writeTar_quiet h (w32 a)
    have tar : (p.withTar (w32 a)).tar.toNat = a := w32_toNat (by omega)
    have sx : SameAp p (p.withTar (w32 a)) := ⟨_, rfl⟩
    have mx := hm.same sx
    have bx : tx.bad = t.bad := ax.step.frame.bad
    have gx : GoodAccess tx (p.withTar (w32 a)) sizeByte := ⟨mx.deviceEn, mx.size, .inr ⟨rfl, fun y hy => by
      rw [tar]
      have := hg y (bx ▸ hy)
      omega⟩⟩
    obtain ⟨y, ty, w, hy, lane, ay⟩ := readDrw_byte ax.quiet gx
    rw [tar] at lane
    have ey : ty.mem = t.mem := ay.step.mem.trans ax.step.mem
    obtain ⟨u, t', q, hu, su, au⟩ := ih ay.quiet (mx.same (SameAp.bump _ 1)) (a := a + 1) (by omega)
      (fun z hz => by
        have := hg z (bx ▸ ay.step.frame.bad ▸ hz)
        omega)
    refine ⟨u, t', q, ?_, sx.trans ((SameAp.bump _ 1).trans su), ?_⟩
    · show (apRegWrite ap tarOffset (w32 a) >>= fun _ => apRegRead ap drwOffset >>= fun w =>
        readBytes ap (a + 1) n >>= fun bs => pure (laneOf w a :: bs)) s = _
      rw [run_bind_ok hx, run_bind_ok hy, run_bind_ok hu, lane, ey, ax.step.mem]
      rfl
    · rw [← ey]
      exact (ax.trans ay).trans au

theorem writeBytes_quiet {ap : ApIndex} (bs : List Byte) {s : State} {t : T0} {p : T0Ap} (h : Quiet s t ap p)
    (hm : ByteMode p) {a : Nat} (hl : a + bs.length ≤ 2 ^ 32) (hg : t.goodRange a (a + bs.length)) :
    ∃ u t' q, writeBytes ap a bs s = .ok () u ∧ SameAp p q ∧ After s u t' ap q (Memory.fill t.mem a bs) t := by
  induction bs generalizing s t p a with
  | nil => exact ⟨s, t, p, rfl, SameAp.refl p, After.refl h⟩
  | cons b bs ih =>
    rw [List.length_cons] at hl hg
    obtain ⟨x, tx, hx, ax⟩ := writeTar_quiet h (w32 a)
    have tar : (p.withTar (w32 a)).tar.toNat = a := w32_toNat (by omega)
    have sx : SameAp p (p.withTar (w32 a)) := ⟨_, rfl⟩
    have mx := hm.same sx
    have bx : tx.bad = t.bad := ax.step.frame.bad
    have gx : GoodAccess tx (p.withTar (w32 a)) sizeByte := ⟨mx.deviceEn, mx.size, .inr ⟨rfl, fun y hy => by
      rw [tar]
      have := hg y (bx ▸ hy)
      omega⟩⟩
    obtain ⟨y, ty, hy, ay⟩ := writeDrw_byte ax.quiet gx b
    rw [tar] at hy
    have ey : ty.mem = Memory.write t.mem a b := by
      rw [ay.step.mem, ax.step.mem, tar]
    obtain ⟨u, t', q, hu, su, au⟩ := ih ay.quiet (mx.same (SameAp.bump _ 1)) (a := a + 1) (by omega)
      (fun z hz => by
        have := hg z (bx ▸ ay.step.frame.bad ▸ hz)
        omega)
    refine ⟨u, t', q, ?_, sx.trans ((SameAp.bump _ 1).trans su), ?_⟩
    · show (apRegWrite ap tarOffset (w32 a) >>= fun _ => apRegWrite ap drwOffset (inLane b a) >>= fun _ =>
        writeBytes ap (a + 1) bs) s = _
      rw [run_bind_ok hx, run_bind_ok hy, hu]
    · have g := (ax.trans ay).trans au
      rw [ey] at g
      exact g

/-- Good addresses below 2^32. -/
structure ByteRange (t : T0) (a b : Nat) : Prop where
  limit : b ≤ 2 ^ 32
  good : t.goodRange a b

theorem ByteRange.sub {t : T0} {a b c d : Nat} (h : ByteRange t a b) (hc : a ≤ c) (hd : d ≤ b) : ByteRange t c d :=
  ⟨hd.trans h.limit, fun x hx => by have := h.good x hx; omega⟩

theorem ByteRange.frame {ap : ApIndex} {t u : T0} {a b : Nat} (w : ByteRange t a b) (f : T0Frame ap t u) : ByteRange u a b :=
  ⟨w.limit, fun x hx => w.good x (f.bad ▸ hx)⟩

theorem readSegment_able {s : State} {t : T0} {c : MemApConnection} {m : List Host.Cell} (h : Able s t c m) {a b : Nat}
    (hab : a ≤ b) (w : ByteRange t a b) : Serves c (readSegment c a b) s t (Memory.bytes m a (b - a)) m := by
  unfold readSegment
  split
  · refine withCsw_able h fun x tx px qx mx mm fx => ?_
    obtain ⟨u, t', q, hu, su, au⟩ := readBytes_quiet (b - a) qx mx.byte (a := a)
      (by rw [Nat.add_sub_cancel' hab]; exact w.limit)
      (by rw [Nat.add_sub_cancel' hab]; exact (w.frame fx).good)
    rw [mm] at hu au
    exact ⟨u, t', q, hu, su, au⟩
  · rw [show b - a = 0 by omega]
    exact Serves.pure h []

theorem writeSegment_able {s : State} {t : T0} {c : MemApConnection} {m : List Host.Cell} (h : Able s t c m) {a : Nat}
    {bs : List Byte} (w : ByteRange t a (a + bs.length)) :
    Serves c (writeSegment c a bs) s t () (Memory.fill m a bs) := by
  unfold writeSegment
  cases bs with
  | nil => exact Serves.pure h ()
  | cons b bs =>
    rw [List.isEmpty_cons, if_neg (by decide)]
    refine withCsw_able h fun x tx px qx mx mm fx => ?_
    obtain ⟨u, t', q, hu, su, au⟩ := writeBytes_quiet (b :: bs) qx mx.byte w.limit (w.frame fx).good
    rw [mm] at au
    exact ⟨u, t', q, hu, su, au⟩

theorem readMiddle_able {s : State} {t : T0} {c : MemApConnection} {m : List Host.Cell} (h : Able s t c m) {a b : Nat}
    (hab : a ≤ b) (hal : a < b → a % 4 = 0 ∧ b % 4 = 0) (w : ByteRange t a b) :
    Serves c (readMiddle c a b) s t (Memory.bytes m a (b - a)) m := by
  unfold readMiddle
  split
  · rename_i hlt
    obtain ⟨ha, hb⟩ := hal hlt
    refine (readWords_able h ⟨ha, hb, w.limit, w.good⟩).bind fun u t' au _ => ?_
    have e : bytesOfWords (Memory.words m a ((b - a) / 4)) = Memory.bytes m a (b - a) := by
      rw [bytesOfWords_words]
      congr 1
      omega
    rw [e]
    exact Serves.pure au _
  · rw [show b - a = 0 by omega]
    exact Serves.pure h []

theorem writeMiddle_able {s : State} {t : T0} {c : MemApConnection} {m : List Host.Cell} (h : Able s t c m) {a b : Nat}
    (hab : a ≤ b) (hal : a < b → a % 4 = 0 ∧ b % 4 = 0) (w : ByteRange t a b) {bs : List Byte} (hl : bs.length = b - a) :
    Serves c (writeMiddle c a b bs) s t () (Memory.fill m a bs) := by
  unfold writeMiddle
  split
  · rename_i hlt
    obtain ⟨ha, hb⟩ := hal hlt
    obtain ⟨k1, k2⟩ := bytesOfWords_wordsOfBytes ((b - a) / 4) bs (by omega)
    have := writeWords_able h ⟨ha, hb, w.limit, w.good⟩ k2
    rw [fillWords_fill, k1] at this
    exact this
  · have : bs = [] := List.length_eq_zero_iff.mp (by omega)
    subst this
    exact Serves.pure h ()

/-- The native path reads the bytes of the range (R237). -/
theorem readNative_able {s : State} {t : T0} {c : MemApConnection} {m : List Host.Cell} (h : Able s t c m) {a b : Nat}
    (hab : a ≤ b) (w : ByteRange t a b) : Serves c (readNative c a b) s t (Memory.bytes m a (b - a)) m := by
  obtain ⟨h1, h2, _⟩ := headEnd_spec hab
  obtain ⟨t1, t2, t3⟩ := tailStart_spec hab
  unfold readNative
  refine (readSegment_able h h1 (w.sub (Nat.le_refl _) h2)).bind fun u t' au ku => ?_
  refine (readMiddle_able au t1 t3 ((w.frame ku.frame).sub h1 t2)).bind fun u2 t2' au2 ku2 => ?_
  refine (readSegment_able au2 t2 (((w.frame ku.frame).frame ku2.frame).sub (h1.trans t1) (Nat.le_refl _))).bind
    fun u3 t3' au3 _ => ?_
  have e : Memory.bytes m a (headEnd a b - a) ++ Memory.bytes m (headEnd a b) (tailStart a b - headEnd a b) ++
      Memory.bytes m (tailStart a b) (b - tailStart a b) = Memory.bytes m a (b - a) := by
    rw [show b - a = (headEnd a b - a) + (tailStart a b - headEnd a b) + (b - tailStart a b) by omega,
      Memory.bytes_append, Memory.bytes_append, show a + (headEnd a b - a) = headEnd a b by omega,
      show a + (headEnd a b - a + (tailStart a b - headEnd a b)) = tailStart a b by omega]
  rw [e]
  exact Serves.pure au3 _

/-- The native path stores the bytes of the range (R237). -/
theorem writeNative_able {s : State} {t : T0} {c : MemApConnection} {m : List Host.Cell} (h : Able s t c m) {a : Nat}
    {bs : List Byte} (w : ByteRange t a (a + bs.length)) :
    Serves c (writeNative c a bs) s t () (Memory.fill m a bs) := by
  have hab : a ≤ a + bs.length := Nat.le_add_right _ _
  obtain ⟨h1, h2, _⟩ := headEnd_spec hab
  obtain ⟨t1, t2, t3⟩ := tailStart_spec hab
  unfold writeNative
  simp only
  generalize headEnd a (a + bs.length) = hd at h1 h2 t1 t3
  generalize tailStart a (a + bs.length) = tl at t1 t2 t3
  have l1 : (bs.take (hd - a)).length = hd - a := by rw [List.length_take]; omega
  have l2 : ((bs.drop (hd - a)).take (tl - hd)).length = tl - hd := by
    rw [List.length_take, List.length_drop]; omega
  have l3 : (bs.drop (tl - a)).length = a + bs.length - tl := by rw [List.length_drop]; omega
  refine (writeSegment_able h (a := a) (bs := bs.take (hd - a)) (w.sub (Nat.le_refl _) (by rw [l1]; omega))).bind
    fun u t' au ku => ?_
  refine (writeMiddle_able au t1 t3 ((w.frame ku.frame).sub h1 t2) l2).bind fun u2 t2' au2 ku2 => ?_
  have last := writeSegment_able au2 (a := tl) (bs := bs.drop (tl - a))
    (((w.frame ku.frame).frame ku2.frame).sub (h1.trans t1) (by rw [l3]; omega))
  have e : Memory.fill (Memory.fill (Memory.fill m a (bs.take (hd - a))) hd ((bs.drop (hd - a)).take (tl - hd))) tl
      (bs.drop (tl - a)) = Memory.fill m a bs := by
    have split : bs = bs.take (hd - a) ++ ((bs.drop (hd - a)).take (tl - hd) ++ bs.drop (tl - a)) := by
      have d : bs.drop (tl - a) = (bs.drop (hd - a)).drop (tl - hd) := by
        rw [List.drop_drop]; congr 1; omega
      rw [d, List.take_append_drop, List.take_append_drop]
    conv_rhs => rw [split]
    rw [Memory.fill_append, Memory.fill_append, l1, l2, show a + (hd - a) = hd by omega,
      show hd + (tl - hd) = tl by omega]
  rw [e] at last
  exact last

end Sys2Proof.Machine
end

