-- ==== Sys2Proof/Laws/Served.lean ====
section
/-! SUPPORT. The memory and poll commands of a served connection, and the sticky check, against T0 (R199, R234 to R236,
R239, R240, R270). -/

namespace Sys2Proof.Machine

open Sys2Proof

/-! ## Memory commands (R234 to R236) -/

/-- Every byte of the words around a range is good. -/
theorem wordRange_of {t : T0} {a b : Nat} (hb : b ≤ 2 ^ 32) (hg : t.goodRange (wordFloor a) (wordCeil b)) :
    WordRange t (wordFloor a) (wordCeil b) := by
  have h1 := wordFloor_spec a
  have h2 := wordCeil_spec b
  exact ⟨h1.1, h2.1, by omega, hg⟩

theorem byteRange_of {t : T0} {a b : Nat} (hb : b ≤ 2 ^ 32) (hg : t.goodRange (wordFloor a) (wordCeil b)) :
    ByteRange t a b := by
  have h1 := wordFloor_spec a
  have h2 := wordCeil_spec b
  exact ⟨hb, fun x hx => by have := hg x hx; omega⟩

theorem readMemory_able {s : State} {t : T0} {c : MemApConnection} {m : List Host.Cell} (h : Able s t c m) {a b : Nat}
    (hab : a ≤ b) (hb : b ≤ 2 ^ 32) (hg : t.goodRange (wordFloor a) (wordCeil b)) :
    Serves c (readMemory c a b) s t (Memory.bytes m a (b - a)) m := by
  unfold readMemory
  by_cases he : a = b
  · rw [if_pos he, show b - a = 0 by omega]
    exact Serves.pure h []
  · rw [if_neg he]
    refine batch_able h fun x tx ax fx _ _ => ?_
    refine (takesNative_able ax a b).bind fun u t' au ku => ?_
    have good : t'.goodRange (wordFloor a) (wordCeil b) := fun y hy => hg y (fx.bad ▸ ku.frame.bad ▸ hy)
    cases hn : (unalignedEdge a b && subwordOf x c) with
    | true => exact readNative_able au hab (byteRange_of hb good)
    | false =>
      rw [if_neg (by decide)]
      refine (readWords_able au (wordRange_of hb good)).bind fun u2 t2 au2 _ => ?_
      have h1 := wordFloor_spec a
      have h2 := wordCeil_spec b
      have e : ((bytesOfWords (Memory.words m (wordFloor a) ((wordCeil b - wordFloor a) / 4))).drop (a - wordFloor a)).take
          (b - a) = Memory.bytes m a (b - a) := by
        rw [bytesOfWords_words, Memory.bytes_drop _ _ _ _ (by omega), Memory.bytes_take _ _ _ _ (by omega)]
        congr 1
        omega
      rw [e]
      exact Serves.pure au2 _

/-- The bytes WRITE_MEMORY stores: on the word path the edge words are filled up with zeros (R235). -/
theorem writeMemory_able {s : State} {t : T0} {c : MemApConnection} {m : List Host.Cell} (h : Able s t c m) {a : Nat}
    {bs : List Byte} (hb : a + bs.length ≤ 2 ^ 32)
    (hg : t.goodRange (wordFloor a) (wordCeil (a + bs.length))) :
    Serves c (writeMemory c a bs) s t ()
      (Memory.padFill (subwordOf s c) m a bs) := by
  unfold writeMemory Memory.padFill
  by_cases he : bs = []
  · subst he
    exact Serves.pure h ()
  · rw [if_neg (by simpa using he), if_neg he]
    refine batch_able h fun x tx ax fx gx cx => ?_
    have hs : subwordOf x c = subwordOf s c := by
      unfold subwordOf cachedSubword
      rw [gx, cx]
    refine (takesNative_able ax a (a + bs.length)).bind fun u t' au ku => ?_
    have good : t'.goodRange (wordFloor a) (wordCeil (a + bs.length)) := fun y hy => hg y (fx.bad ▸ ku.frame.bad ▸ hy)
    rw [hs]
    cases hn : (unalignedEdge a (a + bs.length) && subwordOf s c) with
    | true => exact writeNative_able au (byteRange_of hb good)
    | false =>
      rw [if_neg (by decide), if_neg (by decide)]
      have h1 := wordFloor_spec a
      have h2 := wordCeil_spec (a + bs.length)
      obtain ⟨k1, k2⟩ := bytesOfWords_wordsOfBytes ((wordCeil (a + bs.length) - wordFloor a) / 4)
        (List.replicate (a - wordFloor a) 0 ++ bs ++ List.replicate (wordCeil (a + bs.length) - (a + bs.length)) 0)
        (by simp only [List.length_append, List.length_replicate]; omega)
      have := writeWords_able au (wordRange_of hb good) (ws := paddedWords a bs) k2
      rw [fillWords_fill] at this
      unfold paddedWords at this
      simp only at this
      rw [k1] at this
      exact this

/-- One word of a range. -/
theorem WordRange.one {t : T0} {a b r : Nat} (w : WordRange t a b) (hr : r % 4 = 0) (ha : a ≤ r) (hb : r + 4 ≤ b)
    (inc : Bool) : RunOk inc t r 1 := by
  have l := w.limit
  refine ⟨by omega, hr, ?_, fun x hx => by have := w.good x hx; omega⟩
  cases inc with
  | true => rw [if_pos rfl]; omega
  | false => rfl

/-- The edge reads and the writes of the read-modify-write form store the bytes alone (R236). -/
theorem rmwBody_quiet {ap : ApIndex} {c : MemApConnection} (hc : c.ap = ap) {s : State} {t : T0} {p : T0Ap}
    (h : Quiet s t ap p) (hm : WordMode c.autoinc p) {a : Nat} {bs : List Byte} (hne : bs ≠ [])
    (w : WordRange t (wordFloor a) (wordCeil (a + bs.length))) :
    ∃ u t' q, rmwBody c a bs s = .ok () u ∧ SameAp p q ∧ After s u t' ap q (Memory.fill t.mem a bs) t := by
  have h1 := wordFloor_spec a
  have h2 := wordCeil_spec (a + bs.length)
  have hpos : 0 < bs.length := List.length_pos_iff.mpr hne
  subst hc
  -- the first word
  have first : ∃ x tx px, rmwFirst c.ap a s =
      .ok (if a = wordFloor a then none else some (Memory.read32 t.mem (wordFloor a))) x ∧ SameAp p px ∧
      After s x tx c.ap px t.mem t := by
    unfold rmwFirst
    by_cases he : a = wordFloor a
    · rw [if_pos he, if_pos he]
      exact ⟨s, t, p, rfl, SameAp.refl p, After.refl h⟩
    · rw [if_neg he, if_neg he]
      obtain ⟨x, tx, px, hx, sx, ax⟩ := runRead_quiet h hm (w.one h1.1 (Nat.le_refl _) (by omega) c.autoinc)
      exact ⟨x, tx, px, by rw [run_bind_ok hx]; rfl, sx, ax⟩
  obtain ⟨x, tx, px, hx, sx, ax⟩ := first
  have mx : tx.mem = t.mem := ax.step.mem
  -- the last word
  have last : ∃ y ty py, rmwLast c.ap a (a + bs.length)
      (if a = wordFloor a then none else some (Memory.read32 t.mem (wordFloor a))) x =
      .ok (if a + bs.length = wordCeil (a + bs.length) then none
        else some (Memory.read32 t.mem (wordCeil (a + bs.length) - 4))) y ∧ SameAp px py ∧
      After x y ty c.ap py tx.mem tx := by
    have run : ∃ y ty py, (do
        let ws ← runRead c.ap (wordCeil (a + bs.length) - 4) 1
        pure (some (ws.headD 0)) : Dap (Option W32)) x =
          .ok (some (Memory.read32 t.mem (wordCeil (a + bs.length) - 4))) y ∧ SameAp px py ∧
        After x y ty c.ap py tx.mem tx := by
      obtain ⟨y, ty, py, hy, sy, ay⟩ := runRead_quiet ax.quiet (hm.same sx)
        ((w.frame ax.step.frame).one (r := wordCeil (a + bs.length) - 4) (by omega) (by omega) (by omega) c.autoinc)
      rw [mx] at hy
      exact ⟨y, ty, py, by rw [run_bind_ok hy]; rfl, sy, ay⟩
    unfold rmwLast
    by_cases he : a + bs.length = wordCeil (a + bs.length)
    · rw [if_pos he, if_pos he]
      exact ⟨x, tx, px, rfl, SameAp.refl px, After.refl ax.quiet⟩
    · rw [if_neg he, if_neg he]
      by_cases hf : a = wordFloor a
      · rw [if_pos hf]
        exact run
      · rw [if_neg hf]
        by_cases hs : wordCeil (a + bs.length) - 4 = wordFloor a
        · have hd : decide (wordCeil (a + bs.length) - 4 = wordFloor a) = true := by simpa using hs
          rw [hd]
          exact ⟨x, tx, px, by rw [hs]; rfl, SameAp.refl px, After.refl ax.quiet⟩
        · have hd : decide (wordCeil (a + bs.length) - 4 = wordFloor a) = false := by simpa using hs
          rw [hd]
          exact run
  obtain ⟨y, ty, py, hy, sy, ay⟩ := last
  have my : ty.mem = t.mem := ay.step.mem.trans mx
  have hh : headBytes a (if a = wordFloor a then none else some (Memory.read32 t.mem (wordFloor a))) =
      Memory.bytes t.mem (wordFloor a) (a - wordFloor a) := by
    by_cases he : a = wordFloor a
    · rw [if_pos he, show a - wordFloor a = 0 by omega]
      rfl
    · rw [if_neg he]
      show (bytesOfWords (Memory.words t.mem (wordFloor a) 1)).take _ = _
      rw [bytesOfWords_words, Memory.bytes_take _ _ _ _ (by omega)]
  have ht : tailBytes (a + bs.length) (if a + bs.length = wordCeil (a + bs.length) then none
        else some (Memory.read32 t.mem (wordCeil (a + bs.length) - 4))) =
      Memory.bytes t.mem (a + bs.length) (wordCeil (a + bs.length) - (a + bs.length)) := by
    by_cases he : a + bs.length = wordCeil (a + bs.length)
    · rw [if_pos he, show wordCeil (a + bs.length) - (a + bs.length) = 0 by omega]
      rfl
    · rw [if_neg he]
      show (bytesOfWords (Memory.words t.mem (wordCeil (a + bs.length) - 4) 1)).drop _ = _
      rw [bytesOfWords_words, Memory.bytes_drop _ _ _ _ (by omega)]
      congr 1 <;> omega
  obtain ⟨k1, k2⟩ := bytesOfWords_wordsOfBytes ((wordCeil (a + bs.length) - wordFloor a) / 4)
    (Memory.bytes t.mem (wordFloor a) (a - wordFloor a) ++ bs ++
      Memory.bytes t.mem (a + bs.length) (wordCeil (a + bs.length) - (a + bs.length)))
    (by simp only [List.length_append, Memory.bytes_length]; omega)
  obtain ⟨u, t', q, hu, su, au⟩ := writeRuns_quiet ((wordCeil (a + bs.length) - wordFloor a) / 4) ay.quiet
    (hm.same (sx.trans sy)) ((w.frame ax.step.frame).frame ay.step.frame) k2 (Nat.le_refl _)
  refine ⟨u, t', q, ?_, sx.trans (sy.trans su), ?_⟩
  · unfold rmwBody
    rw [run_bind_ok hx, run_bind_ok hy, hh, ht]
    exact hu
  · have e : Memory.fillWords ty.mem (wordFloor a) (wordsOfBytes (Memory.bytes t.mem (wordFloor a) (a - wordFloor a) ++
        bs ++ Memory.bytes t.mem (a + bs.length) (wordCeil (a + bs.length) - (a + bs.length)))) =
        Memory.fill t.mem a bs := by
      rw [fillWords_fill, k1, my]
      have := Memory.fill_around h.inv.mem (wordFloor a) (a - wordFloor a) bs
        (wordCeil (a + bs.length) - (a + bs.length))
      rwa [show wordFloor a + (a - wordFloor a) = a by omega] at this
    rw [e] at au
    exact (ax.trans ay).trans au

/-- WRITE_MEMORY_RMW stores the bytes and leaves every other byte (R236). -/
theorem writeMemoryRmw_able {s : State} {t : T0} {c : MemApConnection} {m : List Host.Cell} (h : Able s t c m) {a : Nat}
    {bs : List Byte} (hb : a + bs.length ≤ 2 ^ 32)
    (hg : t.goodRange (wordFloor a) (wordCeil (a + bs.length))) :
    Serves c (writeMemoryRmw c a bs) s t () (Memory.fill m a bs) := by
  unfold writeMemoryRmw
  by_cases he : bs = []
  · subst he
    exact Serves.pure h ()
  · rw [if_neg (by simpa using he)]
    refine batch_able h fun x tx ax fx _ _ => ?_
    refine (takesNative_able ax a (a + bs.length)).bind fun u t' au ku => ?_
    have good : t'.goodRange (wordFloor a) (wordCeil (a + bs.length)) := fun y hy => hg y (fx.bad ▸ ku.frame.bad ▸ hy)
    cases hn : (unalignedEdge a (a + bs.length) && subwordOf x c) with
    | true => exact writeNative_able au (byteRange_of hb good)
    | false =>
      rw [if_neg (by decide)]
      refine withCsw_able au fun y ty py qy my mm fy => ?_
      obtain ⟨v, tv, q, hv, sv, av⟩ := rmwBody_quiet rfl qy my.word he ((wordRange_of hb good).frame fy)
      rw [mm] at av
      exact ⟨v, tv, q, hv, sv, av⟩

/-! ## Keyhole access (R239, R240) -/

theorem GoodWord.frame {ap : ApIndex} {t u : T0} {a : W32} (h : GoodWord t a) (f : T0Frame ap t u) : GoodWord u a :=
  ⟨h.aligned, fun x hx => h.good x (f.bad ▸ hx)⟩

theorem GoodWord.access {t : T0} {p : T0Ap} {a : W32} (h : GoodWord t a) (hm : WordMode false p) :
    GoodAccess t (p.withTar a) sizeWord :=
  ⟨hm.deviceEn, hm.size, .inl ⟨rfl, h.aligned, h.good⟩⟩

/-- A satisfied busy check ends at once, with TAR back at the keyhole (R239). -/
theorem awaitIdle_quiet {ap : ApIndex} {s : State} {t : T0} {p : T0Ap} (h : Quiet s t ap p) (hm : WordMode false p)
    {b : BusyCheck} (hb : GoodWord t b.addr) (hi : BusyIdle t.mem b) (a : W32) :
    ∃ u t', awaitIdle ap b a s = .ok () u ∧ After s u t' ap (p.withTar a) t.mem t := by
  obtain ⟨x, tx, hx, ax⟩ := writeTar_quiet h b.addr
  have gx := (hb.frame ax.step.frame).access (p := p) hm
  obtain ⟨y, ty, hy, ay⟩ := readDrw_word ax.quiet gx
  rw [bumpTar_off (p := p.withTar b.addr) hm.inc] at ay
  have my : ty.mem = t.mem := ay.step.mem.trans ax.step.mem
  obtain ⟨z, tz, hz, az⟩ := writeTar_quiet ay.quiet a
  refine ⟨z, tz, ?_, by rw [← my]; exact (ax.trans ay).trans az⟩
  have idle : Memory.read32 tx.mem (p.withTar b.addr).tar.toNat &&& b.mask = b.expected := by
    rw [ax.step.mem]; exact hi
  have hl : busyLoop ap b (x.cfg.busyPollLimit - 1) x = .ok () y := by
    cases x.cfg.busyPollLimit - 1 with
    | zero =>
      unfold busyLoop
      rw [run_bind_ok hy, if_pos idle]
      rfl
    | succ n =>
      unfold busyLoop
      rw [run_bind_ok hy, if_pos idle]
      rfl
  unfold awaitIdle
  rw [run_bind_ok hx, run_getS_bind, run_bind_ok hl, hz]

theorem pollReads_quiet {ap : ApIndex} {b : BusyCheck} {a : W32} (n : Nat) {s : State} {t : T0} {p : T0Ap}
    (h : Quiet s t ap p) (hm : WordMode false p) (ha : GoodWord t a) (hb : GoodWord t b.addr) (hi : BusyIdle t.mem b) :
    ∃ u t' q, pollReads ap b a n s = .ok (List.replicate n (Memory.read32 t.mem a.toNat)) u ∧ SameAp p q ∧
      After s u t' ap q t.mem t := by
  induction n generalizing s t p with
  | zero => exact ⟨s, t, p, rfl, SameAp.refl p, After.refl h⟩
  | succ n ih =>
    obtain ⟨x, tx, hx, ax⟩ := awaitIdle_quiet h hm hb hi a
    have sx : SameAp p (p.withTar a) := ⟨_, rfl⟩
    obtain ⟨y, ty, hy, ay⟩ := readDrw_word ax.quiet ((ha.frame ax.step.frame).access hm)
    rw [bumpTar_off (p := p.withTar a) hm.inc] at ay
    have f := ax.trans ay
    have my : ty.mem = t.mem := f.step.mem.trans ax.step.mem
    obtain ⟨u, t', q, hu, su, au⟩ := ih f.quiet (hm.same sx) (ha.frame f.step.frame) (hb.frame f.step.frame)
      (by rw [my]; exact hi)
    refine ⟨u, t', q, ?_, sx.trans su, by rw [← my]; exact f.trans au⟩
    show (awaitIdle ap b a >>= fun _ => apRegRead ap drwOffset >>= fun v => pollReads ap b a n >>= fun vs =>
      pure (v :: vs)) s = _
    rw [run_bind_ok hx, run_bind_ok hy, run_bind_ok hu, my, ax.step.mem]
    rfl

/-- POLL_READ delivers the word at the keyhole `count` times: T0's memory does not change under a read (R239, R406). -/
theorem pollRead_able {s : State} {t : T0} {c : MemApConnection} {m : List Host.Cell} (h : Able s t c m) {a : W32}
    (ha : GoodWord t a) (n : Nat) (busy : Option BusyCheck)
    (hb : ∀ b, busy = some b → GoodWord t b.addr ∧ BusyIdle m b) :
    Serves c (pollRead c a n busy) s t (List.replicate n (Memory.read32 m a.toNat)) m := by
  unfold pollRead
  refine batch_able h fun x tx ax fx _ _ => ?_
  refine withCsw_able ax fun y ty py qy my mm fy => ?_
  have gy := (ha.frame fx).frame fy
  cases busy with
  | none =>
    obtain ⟨z, tz, hz, az⟩ := writeTar_quiet qy a
    have sz : SameAp py (py.withTar a) := ⟨_, rfl⟩
    have mz := my.word.same sz
    have gz := gy.frame az.step.frame
    obtain ⟨k1, k2⟩ := apReads_keyhole n az.quiet.drw mz gz.aligned gz.good
    obtain ⟨u, t', hu, au⟩ := after_reads az.quiet n k2.from_select
    have memz : tz.mem = m := az.step.mem.trans mm
    refine ⟨u, t', _, ?_, sz, by rw [← memz]; exact az.trans au⟩
    show (apRegWrite c.ap tarOffset a >>= fun _ => getS >>= fun s => apReadN c.ap (s.apReg drwOffset) n) y = _
    rw [run_bind_ok hz, run_getS_bind, hu]
    have k1' : ((tz.withSelect (drwSelect z c.ap)).apReads (apLinkAddr (z.apReg drwOffset)) n).1 =
        List.replicate n (Memory.read32 tz.mem a.toNat) := k1
    rw [k1', memz]
  | some b =>
    obtain ⟨h1, h2⟩ := hb b rfl
    have := pollReads_quiet (b := b) n qy my.word gy ((h1.frame fx).frame fy) (by rw [mm]; exact h2)
    rw [mm] at this
    exact this

theorem pollWrites_quiet {ap : ApIndex} {b : BusyCheck} {a : W32} (ws : List W32) {s : State} {t : T0} {p : T0Ap}
    (h : Quiet s t ap p) (hm : WordMode false p) (ha : GoodWord t a) (hb : GoodWord t b.addr)
    (hi : ∀ k, k < ws.length → BusyIdle (Memory.keyhole t.mem a.toNat (ws.take k)) b) :
    ∃ u t' q, pollWrites ap b a ws s = .ok () u ∧ SameAp p q ∧
      After s u t' ap q (Memory.keyhole t.mem a.toNat ws) t := by
  induction ws generalizing s t p with
  | nil => exact ⟨s, t, p, rfl, SameAp.refl p, After.refl h⟩
  | cons w ws ih =>
    obtain ⟨x, tx, hx, ax⟩ := awaitIdle_quiet h hm hb (hi 0 (by simp)) a
    have sx : SameAp p (p.withTar a) := ⟨_, rfl⟩
    obtain ⟨y, ty, hy, ay⟩ := writeDrw_word ax.quiet ((ha.frame ax.step.frame).access hm) w
    rw [bumpTar_off (p := p.withTar a) hm.inc] at ay
    have f := ax.trans ay
    have my : ty.mem = Memory.write32 t.mem a.toNat w := by
      rw [f.step.mem, ax.step.mem]
      rfl
    obtain ⟨u, t', q, hu, su, au⟩ := ih f.quiet (hm.same sx) (ha.frame f.step.frame) (hb.frame f.step.frame)
      (fun k hk => by
        rw [my]
        exact hi (k + 1) (by simpa using hk))
    refine ⟨u, t', q, ?_, sx.trans su, ?_⟩
    · show (awaitIdle ap b a >>= fun _ => apRegWrite ap drwOffset w >>= fun _ => pollWrites ap b a ws) s = _
      rw [run_bind_ok hx, run_bind_ok hy, hu]
    · have g := f.trans au
      rw [my] at g
      exact g

/-- POLL_WRITE stores every value at the keyhole, the last one staying (R240, R406). -/
theorem pollWrite_able {s : State} {t : T0} {c : MemApConnection} {m : List Host.Cell} (h : Able s t c m) {a : W32}
    (ha : GoodWord t a) (ws : List W32) (busy : Option BusyCheck)
    (hb : ∀ b, busy = some b →
      GoodWord t b.addr ∧ ∀ k, k < ws.length → BusyIdle (Memory.keyhole m a.toNat (ws.take k)) b) :
    Serves c (pollWrite c a ws busy) s t () (Memory.keyhole m a.toNat ws) := by
  unfold pollWrite
  refine batch_able h fun x tx ax fx _ _ => ?_
  refine withCsw_able ax fun y ty py qy my mm fy => ?_
  have gy := (ha.frame fx).frame fy
  cases busy with
  | none =>
    obtain ⟨z, tz, hz, az⟩ := writeTar_quiet qy a
    have sz : SameAp py (py.withTar a) := ⟨_, rfl⟩
    have mz := my.word.same sz
    have gz := gy.frame az.step.frame
    have k2 := apWrites_keyhole ws az.quiet.drw mz gz.aligned gz.good
    obtain ⟨u, t', hu, au⟩ := after_writes az.quiet ws k2.from_select
    have memz : tz.mem = m := az.step.mem.trans mm
    have g := az.trans au
    refine ⟨u, t', _, ?_, sz, ?_⟩
    · show (apRegWrite c.ap tarOffset a >>= fun _ => getS >>= fun s => apWriteN c.ap (s.apReg drwOffset) ws) y = _
      rw [run_bind_ok hz, run_getS_bind, hu]
    · rw [← memz]
      exact g
  | some b =>
    obtain ⟨h1, h2⟩ := hb b rfl
    have := pollWrites_quiet (b := b) ws qy my.word gy ((h1.frame fx).frame fy) (by rw [mm]; exact h2)
    rw [mm] at this
    exact this

/-! ## The sticky check and the retry (R199, R270) -/

/-- CTRL_STAT of T0 shows no sticky flag when none is set (R402). -/
theorem ctrlStat_noSticky {t : T0} (h : T0Inv t) (hs : t.sticky = 0) : noSticky t.ctrlStat = true := by
  have hc := h.ctrl
  have bit : ∀ i, i < 32 → t.ctrl.getLsbD i = true → BitVec.getLsbD (0x54FFFF0D : W32) i = true := by
    intro i hi ht
    have := congrArg (fun x => BitVec.getLsbD x i) hc
    simp only [BitVec.getLsbD_and, BitVec.getLsbD_not, ht] at this
    simpa [hi] using this
  unfold noSticky
  rw [beq_iff_eq]
  apply BitVec.eq_of_getLsbD_eq
  intro i hi
  by_cases hm : BitVec.getLsbD stickyMask i = true
  · have h4 : i = 1 ∨ i = 4 ∨ i = 5 ∨ i = 7 := by
      have all : ∀ j : Fin 32, BitVec.getLsbD stickyMask j.val = true → j.val = 1 ∨ j.val = 4 ∨ j.val = 5 ∨ j.val = 7 := by
        decide
      exact all ⟨i, hi⟩ hm
    have h0 : t.ctrl.getLsbD i = false := by
      cases hb : t.ctrl.getLsbD i with
      | false => rfl
      | true =>
        have := bit i hi hb
        rcases h4 with h | h | h | h <;> subst h <;> exact absurd this (by decide)
    have h1 : ((t.ctrl &&& (0x54000000 : W32)) <<< 1).getLsbD i = false := by
      rw [BitVec.getLsbD_shiftLeft, BitVec.getLsbD_and]
      have : BitVec.getLsbD (0x54000000 : W32) (i - 1) = false := by
        rcases h4 with h | h | h | h <;> subst h <;> decide
      rw [this]
      simp
    unfold T0.ctrlStat
    rw [hs]
    simp only [BitVec.getLsbD_and, BitVec.getLsbD_or, h0]
    cases t.powerDead
    · rw [if_neg (by decide), h1]
      simp
    · rw [if_pos rfl]
      simp
  · have : BitVec.getLsbD stickyMask i = false := by simpa using hm
    rw [BitVec.getLsbD_and, this]
    simp

/-- CHECK_STICKY in the closed loop with no flag set: one read of CTRL_STAT, and no error (R199). -/
theorem checkSticky_closed {s : State} {t : T0} (h : Closed s t) (hi : T0Inv t) (hs : t.sticky = 0) :
    ∃ u t', checkSticky s = .ok () u ∧ FrameSelect s u ∧ Closed u t' ∧
      t'.settled = (t.withSelect (selDp s.selectLast 0)).settled := by
  obtain ⟨u, t', hu, fu, cu, _, eu⟩ := dpBankRead_closed h 0 (a := 0x4) (by decide) (by decide)
  refine ⟨u, t', ?_, fu, cu, eu⟩
  have hv : (t.withSelect (selDp s.selectLast 0)).dpRead 0x4 = t.ctrlStat := by
    unfold T0.dpRead
    have hsel : (t.withSelect (selDp s.selectLast 0)).select = selDp s.selectLast 0 := rfl
    simp only [hsel, selDp_bank]
    rfl
  rw [hv] at hu
  have hb : checkSticky = (dpSelectBank 0 >>= fun _ => linkDpRead 0x4) >>= fun s =>
      if noSticky s then pure () else rereadSticky Config.stickyRereadMax s := by
    unfold checkSticky
    rw [bind_assoc]
  rw [hb, run_bind_ok hu, if_pos (ctrlStat_noSticky hi hs)]
  rfl

/-- A served connection passes CHECK_STICKY. -/
theorem checkSticky_able {s : State} {t : T0} {c : MemApConnection} {m : List Host.Cell} (h : Able s t c m) :
    Serves c checkSticky s t () m := by
  obtain ⟨⟨p, hp, hag⟩, ⟨b, hb⟩, hmem⟩ := h
  obtain ⟨u, t', hu, fu, cu, eu⟩ := checkSticky_closed hp.closed hp.inv hp.sticky
  have st : ApStep c.ap p t.mem t t' := ApStep.of_settled hp.member eu
  refine ⟨u, t', hu, ⟨⟨p, hp.step cu fu.dpVersion (T0Inv.of_settled (hp.inv.withSelect _) eu) st, hag⟩, ⟨b, ?_⟩,
    st.mem.trans hmem⟩, fu.dpVersion, st.frame, .of hp.member st.member (T0Ap.Restored.refl _ p)⟩
  rw [connOf_congr fu.conn]
  exact hb

/-- `WithStickyRetry` of an operation that a served connection completes is the operation and one check (R270). -/
theorem stickyRetry_able {α : Type} {s : State} {t : T0} {c : MemApConnection} {m : List Host.Cell} {op : Dap α} {r : α}
    (h : Serves c op s t r m) : Serves c (stickyRetry op) s t r m := by
  have k : Serves c (attempt checkSticky op) s t r m := by
    unfold attempt
    refine h.bind fun u t' au _ => ?_
    exact (checkSticky_able au).bind fun v t'' av _ => Serves.pure av r
  obtain ⟨u, t', hu, au, ku⟩ := k
  refine ⟨u, t', ?_, au, ku⟩
  unfold stickyRetry withStickyRetry
  rw [run_onError, hu]

/-- A cached enabled connection resolves to itself with no traffic (R272). -/
theorem resolveStrict_cached {s : State} {ap : ApIndex} {c : MemApConnection} (hp : s.apStateOf ap = .presentEnabled)
    (hc : s.connOf ap = some c) : resolveStrict ap s = .ok c s := by
  have hr : resolve ap none false s = .ok (some c) s := by
    unfold resolve
    rw [run_getS_bind, hp, hc]
    rfl
  unfold resolveStrict
  rw [run_bind_ok hr]
  show (requireEnabled ap false >>= fun _ => pure c) s = _
  rw [run_bind, requireEnabled_run, hp]
  rfl

/-! ## From and to the terms of statements -/

theorem Served.able {s : State} {t : T0} {c : MemApConnection} (h : Served s t c) : Able s t c t.mem := by
  obtain ⟨p, hp, he, hl⟩ := h.member
  exact ⟨⟨p, ⟨h.closed, h.layout, h.inv, h.sticky, h.inject, hp⟩, he, hl⟩, ⟨c.subword, h.conn⟩, rfl⟩

/-- What a command that `Serves` leaves is served. -/
theorem Serves.after {α : Type} {s : State} {t : T0} {c : MemApConnection} {op : Dap α} {r : α} {m : List Host.Cell}
    (h : Serves c op s t r m) (hd : detected s.dpVersion = true) :
    ∃ u, op s = .ok r u ∧ ServedAfter u t c m := by
  obtain ⟨u, t', hu, ⟨⟨p, hp, hag⟩, ⟨b, hb⟩, hm⟩, ku⟩ := h
  refine ⟨u, hu, t', b, ku.frame, hm,
    ⟨hp.closed, ?_, hb, hp.layout, hp.inv, hp.sticky, hp.inject, p, hp.member, hag⟩, ku.member⟩
  rw [ku.dpVersion]
  exact hd

end Sys2Proof.Machine
end

