-- ==== Sys2Proof/Tests/Slice0.lean ====
section
/-! SUPPORT. Tests. First one ill-formed term for each check of WellFormed, then the words of every row written out from
30_encoding.md and what they decode to, then single steps whose results are taken from the spec's examples (the rule
or file named), then for each statement of Certificates/Slice0/Obligations.lean with hypotheses a state and operands
that meet them, clause by clause at a boundary. -/

namespace Sys2Proof.Machine

set_option Elab.async false

open Sys2Proof

/-! ## WellFormed refuses -/

theorem test_wf_range_start : Instr.WellFormed (.memoryRead 0 (2 ^ 32) 0) = false := by decide
theorem test_wf_range_end : Instr.WellFormed (.readMemory 0 0 (2 ^ 32)) = false := by decide
theorem test_wf_data_length : Instr.WellFormed (.memoryWrite 0 0 5 [1]) = false := by decide
theorem test_wf_write_length : Instr.WellFormed (.writeMemory 0 0 0 [1]) = false := by decide
theorem test_wf_rmw_start : Instr.WellFormed (.writeMemoryRmw 0 (2 ^ 32) 1 [1]) = false := by decide
theorem test_wf_register_count : Instr.WellFormed (.registerRead 0 2 [1]) = false := by decide
theorem test_wf_value_count : Instr.WellFormed (.registerWrite 0 1 [1] []) = false := by decide
theorem test_wf_poll_count : Instr.WellFormed (.pollRead 0 0 (2 ^ 32) none) = false := by decide
theorem test_wf_poll_values : Instr.WellFormed (.pollWrite 0 0 2 [1] none) = false := by decide
theorem test_wf_abort_read : Instr.WellFormed (.jtagScan .abort true 0x0 0) = false := by decide
theorem test_wf_scan_read_data : Instr.WellFormed (.jtagScan .dpacc true 0x4 1) = false := by decide
theorem test_wf_scan_unaligned : Instr.WellFormed (.jtagScan .apacc false 0x2 0) = false := by decide
theorem test_wf_dpacc_read_select : Instr.WellFormed (.jtagDpaccRd 0x8) = false := by decide
theorem test_wf_dpacc_write_abort : Instr.WellFormed (.jtagDpaccWr 0x0 0) = false := by decide
theorem test_wf_apacc_unaligned : Instr.WellFormed (.jtagApaccRd 0x1) = false := by decide
theorem test_wf_apacc_write_unaligned : Instr.WellFormed (.jtagApaccWr 0x3 0) = false := by decide
theorem test_wf_readn_empty : Instr.WellFormed (.jtagReadn []) = false := by decide
theorem test_wf_readn_abort : Instr.WellFormed (.jtagReadn [(.abort, 0x0)]) = false := by decide
theorem test_wf_writen_empty : Instr.WellFormed (.jtagWriten 0xC []) = false := by decide
theorem test_wf_xfer_read_select : Instr.WellFormed (.swdXfer false true 0x8 0) = false := by decide
theorem test_wf_swd_dp_read_select : Instr.WellFormed (.swdDpRd 0x8) = false := by decide
theorem test_wf_swd_dp_write_abort : Instr.WellFormed (.swdDpWr 0x0 0) = false := by decide
theorem test_wf_swd_dp_write_targetsel : Instr.WellFormed (.swdDpWr 0xC 0) = false := by decide
theorem test_wf_swd_ap_unaligned : Instr.WellFormed (.swdApRd 0x2) = false := by decide
theorem test_wf_swd_ap_write_unaligned : Instr.WellFormed (.swdApWr 0x1 0) = false := by decide
theorem test_wf_swd_readn_zero : Instr.WellFormed (.swdReadn 0xC 0) = false := by decide
theorem test_wf_swd_writen_empty : Instr.WellFormed (.swdWriten 0xC []) = false := by decide

/-! ## Words written out from R126, R127, R116, R117, R119 and R178 -/

theorem test_decode_detectVersion : decode (.host [0x00000001]) = .ok .detectVersion := by decide
theorem test_decode_reassertPower : decode (.host [0x00000002]) = .ok .reassertPower := by decide
theorem test_decode_dpRead : decode (.host [0b00000000000010100000000000000011#32]) = .ok (.dpRead .select1) := by
  decide
theorem test_decode_dpWrite : decode (.host [0x00010004, 0x1E]) = .ok (.dpWrite .abort 0x1E) := by decide
theorem test_decode_selectAp : decode (.host [0x00000105, 0xFC]) = .ok (.selectAp 1 0xFC) := by decide
theorem test_decode_freezeSelect : decode (.host [0x00000006]) = .ok .freezeSelect := by decide
theorem test_decode_unfreezeSelect : decode (.host [0x00000007]) = .ok .unfreezeSelect := by decide
theorem test_decode_checkSticky : decode (.host [0x00000008]) = .ok .checkSticky := by decide
theorem test_decode_clearSticky : decode (.host [0x00000009]) = .ok .clearSticky := by decide
theorem test_decode_apRead : decode (.host [0x0000020A, 0xFC]) = .ok (.apRead 2 0xFC) := by decide
theorem test_decode_apWrite : decode (.host [0x0000000B, 0x04, 0x20000000]) = .ok (.apWrite 0 0x04 0x20000000) := by
  decide
theorem test_decode_swdConnect : decode (.host [0x0001000C, 0x01002927]) = .ok (.swdConnect (some 0x01002927)) ∧
    decode (.host [0x0000000C]) = .ok (.swdConnect none) := by decide
theorem test_decode_getConnection : decode (.host [0x000B0310]) = .ok (.getConnection 3 (some false) true true) ∧
    decode (.host [0x00060310]) = .ok (.getConnection 3 (some true) false false) := by decide
theorem test_decode_memoryRead :
    decode (.host [0x00000011, 0x20000000, 0x20000008]) = .ok (.memoryRead 0 0x20000000 0x20000008) := by decide
theorem test_decode_memoryWrite : decode (.host [0x00000012, 0x200003FA, 5, 0xA3A2A1A0, 0xA4]) =
    .ok (.memoryWrite 0 0x200003FA 5 [0xA3A2A1A0, 0xA4]) := by decide
theorem test_decode_registerRead : decode (.host [0x00000113, 2, 7, 8]) = .ok (.registerRead 1 2 [7, 8]) := by decide
theorem test_decode_registerWrite :
    decode (.host [0x00000114, 2, 7, 8, 9, 10]) = .ok (.registerWrite 1 2 [7, 8] [9, 10]) := by decide
theorem test_decode_runCtrlRead : decode (.host [0x00000115, 3]) = .ok (.runCtrlRead 1 [3]) := by decide
theorem test_decode_runCtrlWrite : decode (.host [0x00000116, 3]) = .ok (.runCtrlWrite 1 [3]) := by decide
theorem test_decode_scanAps : decode (.host [0x00010017]) = .ok (.scanAps true) := by decide
theorem test_decode_getChipVersion : decode (.host [0x00000018]) = .ok .getChipVersion := by decide
theorem test_decode_teardown : decode (.host [0x00000019]) = .ok .teardown := by decide
theorem test_decode_readMemory : decode (.host [0x00000020, 4, 8]) = .ok (.readMemory 0 4 8) := by decide
theorem test_decode_writeMemory : decode (.host [0x00000021, 4, 1, 0xAA]) = .ok (.writeMemory 0 4 1 [0xAA]) := by decide
theorem test_decode_writeMemoryRmw : decode (.host [0x00000022, 4, 1, 0xAA]) = .ok (.writeMemoryRmw 0 4 1 [0xAA]) := by
  decide
theorem test_decode_pollRead : decode (.host [0x00010023, 0x40001000, 2, 0x40001004, 1, 0]) =
    .ok (.pollRead 0 0x40001000 2 (some ⟨0x40001004, 1, 0⟩)) := by decide
theorem test_decode_pollWrite : decode (.host [0x00010024, 0x40001000, 2, 5, 6, 0x40001004, 1, 0]) =
    .ok (.pollWrite 0 0x40001000 2 [5, 6] (some ⟨0x40001004, 1, 0⟩)) := by decide
theorem test_decode_irsel : decode (.ir4 0b1000#4) = .ok (.jtagIrsel .abort) := by decide
theorem test_decode_scan : decode (.dr35Scan 0b1010#4 0x000000007) = .ok (.jtagScan .dpacc true 0xC 0) := by decide
theorem test_decode_dpacc_rd : decode (.dr35 0b1010#4 0x000000003) = .ok (.jtagDpaccRd 0x4) := by decide
theorem test_decode_dpacc_wr : decode (.dr35 0b1010#4 0x008000784) = .ok (.jtagDpaccWr 0x8 0x010000F0) := by decide
theorem test_decode_apacc_rd : decode (.dr35 0b1011#4 0x000000007) = .ok (.jtagApaccRd 0xC) := by decide
theorem test_decode_apacc_wr : decode (.dr35 0b1011#4 0x118000290) = .ok (.jtagApaccWr 0x0 0x23000052) := by decide
theorem test_decode_readn : decode (.dr35Seq [(0b1011#4, 0x000000001), (0b1011#4, 0x000000003), (0b1010#4, 0x000000007)]) =
    .ok (.jtagReadn [(.apacc, 0x0), (.apacc, 0x4)]) := by decide
theorem test_decode_writen : decode (.dr35Seq [(0b1011#4, 0x50D00100E), (0b1011#4, 0x000000006)]) =
    .ok (.jtagWriten 0xC [0xA1A00201, 0]) := by decide
theorem test_decode_abort : decode (.dr35 0b1000#4 0x000000070) = .ok (.jtagAbortWr 0x0000000E) := by decide
theorem test_decode_xfer : decode (.swdXfer 0b10001101#8 0) = .ok (.swdXfer false true 0x4 0) := by decide
theorem test_decode_swd_dp_rd : decode (.swdReq 0b10100101#8 0) = .ok (.swdDpRd 0x0) := by decide
theorem test_decode_swd_dp_wr : decode (.swdReq 0b10110001#8 0x010000F0) = .ok (.swdDpWr 0x8 0x010000F0) := by decide
theorem test_decode_swd_ap_rd : decode (.swdReq 0b10011111#8 0) = .ok (.swdApRd 0xC) := by decide
theorem test_decode_swd_ap_wr : decode (.swdReq 0b10001011#8 0x20000000) = .ok (.swdApWr 0x4 0x20000000) := by decide
theorem test_decode_swd_readn : decode (.swdSeq [(0x9F, 0), (0x9F, 0), (0xBD, 0)]) = .ok (.swdReadn 0xC 2) := by decide
theorem test_decode_swd_writen : decode (.swdSeq [(0xBB, 1), (0xBB, 2)]) = .ok (.swdWriten 0xC [1, 2]) := by decide
theorem test_decode_swd_abort : decode (.swdReq 0b10000001#8 0x1E) = .ok (.swdAbort 0x1E) := by decide
theorem test_decode_linereset : decode (.rawOut (List.replicate 56 true ++
    [false, true, true, true, true, false, false, true, true, true, true, false, false, true, true, true] ++
    List.replicate 56 true ++ List.replicate 8 false)) = .ok .swdLinereset := by decide
theorem test_decode_targetsel : decode (.swdReq 0b10011001#8 0x01002927) = .ok (.swdTargetsel 0x01002927) := by decide

theorem test_refuse_reserved : decode (.host [0x01000001]) = .error .reservedBits := by decide
theorem test_refuse_opcode : decode (.host [0x0000000D]) = .error .unknownOpcode := by decide
theorem test_refuse_flag : decode (.host [0x00100010]) = .error .undefinedFlag := by decide
theorem test_refuse_register : decode (.host [0x000B0003]) = .error .dpRegisterCode := by decide
theorem test_refuse_parity : decode (.swdReq 0b10101101#8 0) = .error .swdRequest := by decide
theorem test_table_word : decodeTableWord 32 0x0000000A = some (.apRead 0 0) ∧
    decodeTableWord 8 0x99 = some (.swdTargetsel 0) ∧ decodeTableWord 4 0b1011 = some (.jtagIrsel .apacc) := by decide

/-! ## Single steps -/

/-- The state after a command. -/
def after (o : Host.Outcome State Fault Refusal) : Option State :=
  match o with
  | .next t => some t
  | .fault _ => none
  | .refused _ => none

/-- The result of a command. -/
def resultOf (o : Host.Outcome State Fault Refusal) : Option Result := (after o).bind fun t => t.results.getLast?

/-- The reset state over a link and a target. -/
def testState (i : Iface) (t : Option T0) : State :=
  { State.reset with cfg := { Config.initial with iface := i }, target := t }

/-- The same with a detected version. -/
def testDetected (i : Iface) (t : T0) (v : DpVersion) : State := (testState i (some t)).setDpVersion v

/-- A backend that answers a list of words. -/
def testVendor (xs : List (BitVec 35)) : State := { testState .vendor none with answers := xs, dpVersion := .v1 }

/-- T0-A with its AP connected and eight bytes from 0x20000000 on (45_reference_target R401, 95 program P1). -/
def testT0 : T0 :=
  { T0.instA with
    aps := [{ T0.ahbAp 0 with csw := 0x23000052 }]
    mem := Memory.fill [] 0x20000000 [0x11, 0x22, 0x33, 0x44, 0x55, 0x66, 0x77, 0x88] }

/-- The connection GET_CONNECTION makes of it (95 V-CONN). -/
def testConn : MemApConnection where
  ap := 0
  idr := 0x24770011
  busType := .ahb
  enabled := true
  autoinc := true
  peripheral := false
  drwBank := 0
  subword := none
  cswShadow := 0x23000052

/-- The machine after DETECT_VERSION and GET_CONNECTION on it. -/
def testServed (i : Iface) : State :=
  ((testDetected i testT0 .v1).setConn 0 (some testConn)).setApState 0 .presentEnabled

/-- The request bytes an SWD trace starts its transactions with. -/
def swdBytes (s : State) : List Byte :=
  s.trace.filterMap fun e =>
    match e with
    | .driveLine [.out bits, .trn 1, .inp 3] _ => some (byteOfBits bits)
    | _ => none

/-- The requests of a JTAG trace. -/
def drRequests (s : State) : List Scan :=
  s.trace.filterMap fun e =>
    match e with
    | .drScan r _ => some r
    | _ => none

-- 95 V-VER: 0x2BA01477 is version 1; 0x0BE14477 is refused.
theorem test_detectVersion : resultOf (exec .detectVersion (testState .jtag (some T0.instA))) = some (.ok (.word 1)) := by
  decide +kernel
theorem test_detectVersion_unsupported :
    resultOf (exec .detectVersion (testState .swd (some { T0.instA with dpidr := 0x0BE14477 }))) =
      some (.error (.versionUnsupported 0x0BE14477 4)) := by decide +kernel
-- R201: reads 0, writes 0x50000000, polls 0xF0000000.
theorem test_reassertPower :
    (after (exec .reassertPower (testState .swd (some T0.instA)))).map (fun s => (s.results, s.target.map T0.ctrlStat)) =
      some ([.ok (.power false)], some 0xF0000000) := by decide +kernel
theorem test_reassertPower_dead :
    resultOf (exec .reassertPower (testState .jtag (some { T0.instA with powerDead := true }))) =
      some (.error (.powerUpFailed 0x50000000)) := by decide +kernel
-- R197: DP_READ CTRL_STAT from select_last 0x010000F0 writes SELECT 0x010000F0, then reads.
theorem test_dpRead :
    (after (exec (.dpRead .ctrlStat) ((testDetected .jtag T0.instA .v1).setSelectLast (some 0x010000F0)))).map
      (fun s => (drRequests s, s.selectLast)) =
        some ([0x008000784, 0x000000003, 0x000000007], some 0x010000F0) := by decide +kernel
-- R198: DP_WRITE ABORT 0x1E on JTAG is ir_scan 0b1000 and scan 0x0000000F0.
theorem test_dpWrite : (after (exec (.dpWrite .abort 0x1E) (testDetected .jtag T0.instA .v1))).map
    (fun s => (drRequests s, s.jtagIr)) = some ([0x0000000F0], some .abort) := by decide +kernel
theorem test_dpWrite_readOnly : resultOf (exec (.dpWrite .dpidr 0) (testDetected .jtag T0.instA .v1)) =
    some (.error .badArgument) := by decide +kernel
-- R194: SELECT_AP 1, 0xFC writes 0x010000F0.
theorem test_selectAp : (after (exec (.selectAp 1 0xFC) (testDetected .swd T0.instA .v1))).map
    (fun s => (s.selectLast, swdBytes s)) = some (some 0x010000F0, [0xB1]) := by decide +kernel
-- R195 and R196: depth 0 to 1, valid; depth 2 to 1, still valid.
theorem test_freezeSelect : (after (exec .freezeSelect (testState .jtag none))).map
    (fun s => (s.freezeDepth, s.frozenValid)) = some (1, true) := by decide +kernel
theorem test_unfreezeSelect : (after (exec .unfreezeSelect ((testState .jtag none).setFreeze 2 true))).map
    (fun s => (s.freezeDepth, s.frozenValid)) = some (1, true) := by decide +kernel
-- R199: reads 0xF0000060 then 0xF0000040 and returns.
theorem test_checkSticky : (after (exec .checkSticky (testVendor [0, 0xF0000060, 0xF0000040, 7]))).map
    (fun s => (s.results, s.answers)) = some ([.ok .unit], [7]) := by decide +kernel
theorem test_checkSticky_raises :
    resultOf (exec .checkSticky (testVendor (0 :: List.replicate 11 0xF0000060))) =
      some (.error (.stickyProtocolError 0xF0000060)) := by decide +kernel
-- R200: request 0x81 with data 0x0000000E.
theorem test_clearSticky : (after (exec .clearSticky (testState .swd (some { T0.instA with sticky := 0xB2 })))).map
    (fun s => (swdBytes s, s.target.map T0.sticky)) = some ([0x81], some 0x02) := by decide +kernel
-- R202 and R203: the request bytes 0xB1 0x9F 0xBD, and 0xB1 0x8B.
theorem test_apRead : (after (exec (.apRead 0 0xFC) (testDetected .swd T0.instA .v1))).map
    (fun s => (s.results, swdBytes s)) = some ([.ok (.word 0x24770011)], [0xB1, 0x9F, 0xBD]) := by decide +kernel
theorem test_apWrite : (after (exec (.apWrite 0 0x04 0x20000000) (testDetected .swd T0.instA .v1))).map
    (fun s => (s.target.map fun t => t.aps.map T0Ap.tar, swdBytes s)) =
      some (some [0x20000000], [0xB1, 0x8B]) := by decide +kernel
-- R86 b: a raw read of CSW brings a stale shadow to the word read, a raw write to the word written.
theorem test_apRead_csw :
    (after (exec (.apRead 0 0x00) ((testServed .swd).setShadow 0 0x23000012))).map (fun s => (s.connOf 0).map
      MemApConnection.cswShadow) = some (some 0x23000052) := by decide +kernel
theorem test_apWrite_csw :
    (after (exec (.apWrite 0 0x00 0x03000002) (testServed .jtag))).map (fun s => ((s.connOf 0).map
      MemApConnection.cswShadow, s.target.map fun t => t.aps.map T0Ap.csw)) =
        some (some 0x03000002, some [0x03000042]) := by decide +kernel
-- R178: the value is DPIDR; on JTAG the command does not exist.
theorem test_swdConnect : resultOf (exec (.swdConnect none) (testState .swd (some T0.instA))) =
    some (.ok (.word 0x2BA01477)) := by decide +kernel
theorem test_swdConnect_jtag : resultOf (exec (.swdConnect none) (testState .jtag (some T0.instA))) =
    some (.error .illegalCommand) := by decide +kernel
-- 95 program P1: AP 0 of T0-A is left with CSW 0x23000052; AP 1 is absent.
theorem test_getConnection :
    (after (exec (.getConnection 0 none false false) (testDetected .swd T0.instA .v1))).map
      (fun s => (s.results, s.target.map fun t => t.aps.map T0Ap.csw)) =
        some ([.ok (.connection testConn)], some [0x23000052]) := by decide +kernel
theorem test_getConnection_absent :
    resultOf (exec (.getConnection 1 none false false) (testDetected .jtag T0.instA .v1)) = some (.ok .absent) := by
  decide +kernel
-- 95 program P1: eight bytes; one byte across a word.
theorem test_memoryRead : resultOf (exec (.memoryRead 0 0x20000000 0x20000008) (testServed .jtag)) =
    some (.ok (.bytes [0x11, 0x22, 0x33, 0x44, 0x55, 0x66, 0x77, 0x88])) := by decide +kernel
theorem test_memoryRead_range : resultOf (exec (.memoryRead 0 4 0) (testServed .jtag)) =
    some (.error .badArgument) := by decide +kernel
-- R236: the bytes around the caller's stay.
theorem test_memoryWrite : (after (exec (.memoryWrite 0 0x20000003 2 [0xBBAA]) (testServed .swd))).map
    (fun s => s.target.map fun t => Memory.bytes t.mem 0x20000000 8) =
      some (some [0x11, 0x22, 0x33, 0xAA, 0xBB, 0x66, 0x77, 0x88]) := by decide +kernel
-- R278 to R281: refused without a Codec; a list of another length is a bad argument.
theorem test_registerRead : resultOf (exec (.registerRead 0 0 []) { testServed .swd with cfg :=
    { Config.initial with codecPresent := false } }) = some (.error .illegalCommand) := by decide +kernel
theorem test_registerWrite : resultOf (exec (.registerWrite 0 1 [1] []) (testServed .swd)) =
    some (.error .badArgument) := by decide +kernel
theorem test_runCtrlRead : resultOf (exec (.runCtrlRead 0 []) (testState .swd (some T0.instA))) =
    some (.error .dpNotReady) := by decide +kernel
theorem test_runCtrlWrite : resultOf (exec (.runCtrlWrite 1 []) ((testServed .swd).setApState 1 .absent)) =
    some (.error (.apNotPresent 1)) := by decide +kernel
-- R275 on T0-B: AP 0 and AP 1, which is disabled; index 2 is absent.
theorem test_scanAps : (after (exec (.scanAps false) (testDetected .swd T0.instB .v2))).map State.results =
    some [.ok (.table [⟨0, 8, .ahb, true, none⟩, ⟨1, 8, .apb, false, none⟩])] := by decide +kernel
-- R276: TARGETID 0x01002927 and DLPIDR 0x10000001.
theorem test_getChipVersion : resultOf (exec .getChipVersion (testDetected .swd T0.instB .v2)) =
    some (.ok (.chip 0x493 0x1002 0x0 0x1)) := by decide +kernel
theorem test_teardown : (after (exec .teardown (testServed .jtag))).map
    (fun s => (s.dpVersion, s.apStateOf 0, s.connOf 0, s.trace)) = some (.undetected, .unresolved, none, []) := by decide +kernel
-- R234: an unaligned range; R318: no connection.
theorem test_readMemory : resultOf (exec (.readMemory 0 0x20000003 0x20000005) (testServed .jtag)) =
    some (.ok (.bytes [0x44, 0x55])) := by decide +kernel
theorem test_readMemory_noConnection : resultOf (exec (.readMemory 1 0 4) (testServed .jtag)) =
    some (.error (.noConnection 1)) := by decide +kernel
-- R235: the plain form pads with zeros.
theorem test_writeMemory : (after (exec (.writeMemory 0 0x20000001 1 [0xAA]) (testServed .jtag))).map
    (fun s => s.target.map fun t => Memory.bytes t.mem 0x20000000 4) = some (some [0, 0xAA, 0, 0]) := by decide +kernel
theorem test_writeMemoryRmw : (after (exec (.writeMemoryRmw 0 0x20000001 1 [0xAA]) (testServed .jtag))).map
    (fun s => s.target.map fun t => Memory.bytes t.mem 0x20000000 4) = some (some [0x11, 0xAA, 0x33, 0x44]) := by decide +kernel
-- R239: the keyhole does not move; a busy check that never holds.
theorem test_pollRead : resultOf (exec (.pollRead 0 0x20000000 2 none) (testServed .swd)) =
    some (.ok (.words [0x44332211, 0x44332211])) := by decide +kernel
theorem test_pollRead_busy : resultOf (exec (.pollRead 0 0x20000000 1 (some ⟨0x20000004, 1, 0⟩)) (testServed .swd)) =
    some (.error (.busyPollTimeout 0x20000004 0x88776655)) := by decide +kernel
theorem test_pollWrite : (after (exec (.pollWrite 0 0x20000000 2 [1, 2] none) (testServed .jtag))).map
    (fun s => s.target.map fun t => Memory.bytes t.mem 0x20000000 8) =
      some (some [2, 0, 0, 0, 0x55, 0x66, 0x77, 0x88]) := by decide +kernel
-- R150: a repeated IRSEL makes no call.
theorem test_irsel : (after (exec (.jtagIrsel .apacc) ((testState .jtag none).setJtagIr (some .apacc)))).map State.trace =
    some [] := by decide +kernel
-- R151: WAIT, WAIT, OK with 0x12345678; 95 V-JTAG: 0b111 is an invalid acknowledgement.
theorem test_scan : (after (exec (.jtagScan .dpacc true 0x4 0)
    { testState .jtag none with answers := [1, 1, 0x091A2B3C2] })).map (fun s => (s.results, (drRequests s).length)) =
      some ([.ok (.word 0x12345678)], 3) := by decide +kernel
theorem test_scan_invalid : resultOf (exec (.jtagScan .dpacc true 0x4 0)
    { testState .jtag none with answers := [0x7FFFFFFFF] }) =
      some (.error (.dpOrApAccessError ⟨.invalidAck, 7⟩)) := by decide +kernel
-- R152 to R155: the scans of the examples.
theorem test_dpaccRd : (after (exec (.jtagDpaccRd 0x4) (testState .jtag (some T0.instA)))).map drRequests =
    some [0x000000003, 0x000000007] := by decide +kernel
theorem test_dpaccWr : (after (exec (.jtagDpaccWr 0x8 0x010000F0) (testState .jtag (some T0.instA)))).map
    (fun s => (drRequests s, s.target.map T0.select)) = some ([0x008000784], some 0x010000F0) := by decide +kernel
theorem test_apaccRd : (after (exec (.jtagApaccRd 0xC) ((testState .jtag (some { T0.instA with ir := 0b1010 })).setJtagIr
    (some .dpacc)))).map (fun s => s.trace.length) = some 4 := by decide +kernel
theorem test_apaccWr : (after (exec (.jtagApaccWr 0x4 0x20000000) (testState .jtag (some T0.instA)))).map
    (fun s => (drRequests s, s.target.map fun t => t.aps.map T0Ap.tar)) = some ([0x100000002], some [0x20000000]) := by
  decide +kernel
-- 95 V-PIPE: CSW, TAR, CSW in four scans.
theorem test_readn : (after (exec (.jtagReadn [(.apacc, 0x0), (.apacc, 0x4), (.apacc, 0x0)]) (testState .jtag
    (some { testT0 with aps := [{ T0.ahbAp 0 with csw := 0x23000052, tar := 0x20000008 }] })))).map
      (fun s => (s.results, drRequests s)) =
        some ([.ok (.words [0x23000052, 0x20000008, 0x23000052])], [0x1, 0x3, 0x1, 0x7]) := by decide +kernel
theorem test_writen : (after (exec (.jtagWriten 0xC [1, 2]) (testState .jtag (some testT0)))).map drRequests =
    some [0x00000000E, 0x000000016] := by decide +kernel
theorem test_abortWr : (after (exec (.jtagAbortWr 0x0E) (testState .jtag (some { T0.instA with sticky := 0xB2 })))).map
    (fun s => (drRequests s, s.target.map T0.sticky)) = some ([0x000000070], some 0x02) := by decide +kernel
-- R170: CTRL_STAT answered OK with 0xF0000040 and parity 1; 95 V-SWD: data 1 with parity 0 raises.
theorem test_xfer : resultOf (exec (.swdXfer false true 0x4 0)
    { testState .swd none with answers := [0b001, 0x1F0000040] }) = some (.ok (.word 0xF0000040)) := by decide +kernel
theorem test_xfer_parity : resultOf (exec (.swdXfer false true 0x4 0)
    { testState .swd none with answers := [0b001, 0x000000001] }) =
      some (.error (.dpOrApAccessError ⟨.readParity, 1⟩)) := by decide +kernel
theorem test_swdDpRd : (after (exec (.swdDpRd 0x0) (testState .swd (some T0.instA)))).map
    (fun s => (s.results, swdBytes s)) = some ([.ok (.word 0x2BA01477)], [0xA5]) := by decide +kernel
theorem test_swdDpWr : (after (exec (.swdDpWr 0x8 0x010000F0) (testState .swd (some T0.instA)))).map
    (fun s => (swdBytes s, s.target.map T0.select)) = some ([0xB1], some 0x010000F0) := by decide +kernel
theorem test_swdApRd : (after (exec (.swdApRd 0xC) (testState .swd (some { T0.instA with select := 0xF0 })))).map
    (fun s => (s.results, swdBytes s)) = some ([.ok (.word 0x24770011)], [0x9F, 0xBD]) := by decide +kernel
theorem test_swdApWr : (after (exec (.swdApWr 0x4 0x20000000) (testState .swd (some T0.instA)))).map swdBytes =
    some [0x8B] := by decide +kernel
theorem test_swdReadn : (after (exec (.swdReadn 0xC 2) (testState .swd (some
    { testT0 with aps := [{ T0.ahbAp 0 with csw := 0x23000052, tar := 0x20000000 }] })))).map
      (fun s => (s.results, swdBytes s)) = some ([.ok (.words [0x44332211, 0x88776655])], [0x9F, 0x9F, 0xBD]) := by decide +kernel
theorem test_swdWriten : (after (exec (.swdWriten 0xC [1, 2]) (testState .swd (some testT0)))).map swdBytes =
    some [0xBB, 0xBB] := by decide +kernel
-- R177: 0x81 with the data of 0x1E and parity 0.
theorem test_swdAbort : (after (exec (.swdAbort 0x1E) { testState .swd none with answers := [0b001] })).map
    (fun s => s.trace.getLast?) =
      some (some (.driveLine [.trn 1, .out (bitsOf 0x1E#32 32 ++ [false])] [])) := by decide +kernel
theorem test_linereset : (after (exec .swdLinereset (testState .swd none))).map (fun s => s.trace.length) = some 3 := by
  decide +kernel
-- R179: the parity of 0x01002927 is 0.
theorem test_targetsel : (after (exec (.swdTargetsel 0x01002927) { testState .swd none with answers := [7] })).map
    (fun s => s.trace.getLast?) = some (some (.driveLine [.trn 1, .out (bitsOf 0x01002927#32 32 ++ [false])] [])) := by
  decide +kernel

/-! ## Witnesses: what meets the hypotheses of the statements -/

/-- T0 in the loop after reset. -/
theorem test_loop (i : Iface) (t : T0) (hi : i = .jtag ∨ i = .swd) (hw : t.wait = .count 0) :
    Loop (testState i (some t)) t := ⟨hi, rfl, hw, fun _ h => nomatch h⟩

/-- The closed loop, with a version. -/
theorem test_closed (i : Iface) (t : T0) (v : DpVersion) (hi : i = .jtag ∨ i = .swd) (hw : t.wait = .count 0) :
    Closed (testDetected i t v) t := ⟨⟨hi, rfl, hw, fun _ h => nomatch h⟩, fun h => nomatch h⟩

/-- T0 with memory and DeviceEn as configured. -/
theorem test_t0inv : T0Inv testT0 where
  mem := by decide +kernel
  ctrl := by decide
  sticky := by decide
  inject := trivial
  deviceEn := by decide

theorem test_t0inv_sticky : T0Inv { testT0 with sticky := 0xB2 } where
  mem := by decide +kernel
  ctrl := by decide
  sticky := by decide
  inject := trivial
  deviceEn := by decide

/-- The connected machine serves its connection, on both wires. -/
theorem test_served (i : Iface) (hi : i = .jtag ∨ i = .swd) : Served (testServed i) testT0 testConn where
  closed := ⟨⟨hi, rfl, rfl, fun _ h => nomatch h⟩, fun h => nomatch h⟩
  detected := rfl
  conn := by
    show ((testDetected i testT0 .v1).setConn 0 (some testConn)).connOf 0 = _
    exact connOf_setConn_same _ _ _
  layout := (by decide : layoutBase .v1 = testT0.layout)
  inv := test_t0inv
  sticky := rfl
  inject := rfl
  member := ⟨_, rfl, by decide, by decide⟩

theorem test_served_enabled (i : Iface) : (testServed i).apStateOf 0 = .presentEnabled :=
  apStateOf_setApState_same _ _ _

/-- A machine with one probed AP. -/
def testProbed (ap : ApIndex) (v : ApState) (c : Option MemApConnection) : State :=
  ((testDetected .jtag testT0 .v1).setConn ap c).setApState ap v

theorem test_probed_inv (ap : ApIndex) (v : ApState) (c : Option MemApConnection)
    (hc : ConnInv (testProbed ap v c) ap) : Machine.Inv (testProbed ap v c) where
  freeze := fun h => nomatch h
  conns := fun j => by
    by_cases h : j = ap
    · subst h; exact hc
    · have h1 : (testProbed ap v c).apStateOf j = .unresolved := by
        unfold testProbed
        rw [apStateOf_setApState_ne _ _ _ _ h]
        exact reset_apStateOf j
      have h2 : (testProbed ap v c).connOf j = none := by
        unfold testProbed
        show (((testDetected .jtag testT0 .v1).setConn ap c)).connOf j = none
        rw [connOf_setConn_ne _ _ _ _ h]
        exact reset_connOf j
      unfold ConnInv
      rw [h1, h2]
      trivial
  unready := fun h => nomatch h
  jtagIr := fun h => absurd rfl h
  coherent := fun _ _ _ h => nomatch h
  results := rfl
  target := fun t h => by cases h; exact test_t0inv

/-- The connection of a disabled AP. -/
def testDisabled (ap : ApIndex) : MemApConnection :=
  { testConn with ap := ap, enabled := false, idr := 0x44770002, busType := .apb, cswShadow := 2 }

theorem test_absent_inv : Machine.Inv (testProbed 255 .absent none) :=
  test_probed_inv _ _ _ (by
    unfold ConnInv testProbed
    rw [apStateOf_setApState_same]
    show match ApState.absent, ((testDetected .jtag testT0 .v1).setConn 255 none).connOf 255 with
      | _, _ => _
    rw [connOf_setConn_same]
    trivial)

theorem test_disabled_inv : Machine.Inv (testProbed 1 .presentDisabled (some (testDisabled 1))) :=
  test_probed_inv _ _ _ (by
    unfold ConnInv testProbed
    rw [apStateOf_setApState_same]
    show match ApState.presentDisabled, ((testDetected .jtag testT0 .v1).setConn 1 (some (testDisabled 1))).connOf 1 with
      | _, _ => _
    rw [connOf_setConn_same]
    exact ⟨rfl, rfl, by decide, by decide, by decide⟩)

theorem test_enabled_inv : Machine.Inv (testProbed 0 .presentEnabled (some testConn)) :=
  test_probed_inv _ _ _ (by
    unfold ConnInv testProbed
    rw [apStateOf_setApState_same]
    show match ApState.presentEnabled, ((testDetected .jtag testT0 .v1).setConn 0 (some testConn)).connOf 0 with
      | _, _ => _
    rw [connOf_setConn_same]
    exact ⟨rfl, rfl, by decide, by decide, by decide⟩)

/-! One theorem for each statement with hypotheses, in their order. -/

theorem test_meets_StepKeepsInvariant : ∃ s, Machine.Inv s := ⟨_, test_enabled_inv⟩

theorem test_meets_StepRunsDecodedCommand :
    (∃ s t : State, s.commands[s.pc]? = some (.frame (.host [0x00000006])) ∧ decode (.host [0x00000006]) = .ok .freezeSelect ∧
      exec .freezeSelect s = .next t) ∧
    (∃ s t : State, s.commands[s.pc]? = some (.abstract .freezeSelect) ∧ exec .freezeSelect s = .next t) ∧
    (∃ s : State, s.commands[s.pc]? = some (.frame (.host [])) ∧ decode (.host []) = .error .empty) ∧
    ∃ s : State, s.commands[s.pc]? = none :=
  ⟨⟨{ State.reset with commands := [.frame (.host [0x00000006])] }, _, rfl, rfl, rfl⟩,
    ⟨{ State.reset with commands := [.abstract .freezeSelect] }, _, rfl, rfl⟩,
    ⟨{ State.reset with commands := [.frame (.host [])] }, rfl, rfl⟩, ⟨State.reset, rfl⟩⟩

theorem test_meets_StepAppendsOneResult : ∃ (s : State) (c : Command), s.commands[s.pc]? = some c :=
  ⟨{ State.reset with commands := [.abstract .teardown, .frame (.ir4 0)], pc := 1 }, .frame (.ir4 0), rfl⟩

theorem test_meets_DecodeInvertsEncode :
    Instr.WellFormed (.memoryRead 255 0xFFFFFFFF 0xFFFFFFFF) = true ∧
      Instr.WellFormed (.pollWrite 0 0xFFFFFFFF 1 [5] (some ⟨4, 1, 0⟩)) = true ∧
      Instr.WellFormed (.jtagScan .abort false 0xC 0xFFFFFFFF) = true ∧ Instr.WellFormed (.swdReadn 0xC 1) = true := by
  decide

theorem test_meets_ReservedEncodingsRefused :
    hRsv 0x01000000 ≠ 0 ∧ hRsv 0xFF000001 ≠ 0 ∧
      (hRsv 0x0D = 0 ∧ hOpcode 0x00 = 0 ∧ (hOpcode 0x0D).toNat = 0x0D ∧ (hOpcode 0x0F).toNat = 0x0F ∧
        (hOpcode 0x1A).toNat = 0x1A ∧ (hOpcode 0x1F).toNat = 0x1F ∧ (hOpcode 0x25).toNat = 0x25) ∧
      (hRsv 0x000B0004 = 0 ∧ hOpcode 0x000B0004 = 4 ∧ (hFlags 0x000B0004).toNat = 11) ∧
      (hRsv 0x00100010 = 0 ∧ hOpcode 0x00100010 = 0x10 ∧ (hFlags 0x00100010).toNat = 0x10) ∧
      (hRsv 0x0002000C = 0 ∧ hOpcode 0x0002000C = 0x0C ∧ (hFlags 0x0002000C).toNat = 2) ∧
      (hRsv 0x00010001 = 0 ∧ hFlags 0x00010001 ≠ 0 ∧ (hOpcode 0x00010001).toNat = 0x01 ∧
        (hOpcode 0x00800002).toNat = 0x02 ∧ (hOpcode 0x00010005).toNat = 0x05 ∧ (hOpcode 0x0001000B).toNat = 0x0B ∧
        (hOpcode 0x00010011).toNat = 0x11 ∧ (hOpcode 0x00010016).toNat = 0x16 ∧ (hOpcode 0x00010018).toNat = 0x18 ∧
        (hOpcode 0x00010019).toNat = 0x19 ∧ (hOpcode 0x00010020).toNat = 0x20 ∧ (hOpcode 0x00FF0022).toNat = 0x22) ∧
      swdReqValid 0x85 = false := by
  decide

theorem test_meets_CommandsKeepTheirFrame : ∃ s, Machine.Inv s := ⟨_, test_disabled_inv⟩

theorem test_meets_RefusalChangesNothing :
    ∃ (i : Instr) (s u : State) (e : DapError), isDelegated i = false ∧ exec i s = .next (u.pushResult (.error e)) ∧ isRefusal e = true :=
  ⟨.apRead 0 0, testState .jtag none, testState .jtag none, .dpNotReady, rfl, rfl, rfl⟩

theorem test_meets_VersionIsNeeded :
    (∃ i s, needsVersion i = true ∧ detected (State.dpVersion s) = false ∧ isDelegated i = true ∧
      s.cfg.codecPresent = true) ∧
    ∃ s : State, needsVersion .getChipVersion = true ∧ detected s.dpVersion = false ∧
      isDelegated .getChipVersion = false :=
  ⟨⟨.runCtrlRead 0 [], testState .swd none, rfl, rfl, rfl, rfl⟩,
    ⟨(testState .swd none).setDpVersion .absent, rfl, rfl, rfl⟩⟩

theorem test_meets_RawAccessReadiness :
    (∃ s r, detected (State.dpVersion s) = false ∧ dpValidInV1 r = false ∧ r ≠ .targetsel) ∧
    (∃ s r, detected (State.dpVersion s) = true ∧ dpValidIn s.dpVersion r = false) ∧
    (∃ s r, State.accepts s r = true ∧ dpReadable r = false) ∧ ∃ s r, State.accepts s r = true ∧ dpWritable r = false :=
  ⟨⟨testState .jtag none, .targetid, rfl, rfl, by decide⟩,
    ⟨testDetected .jtag T0.instB .v2, .dpidr1, rfl, rfl⟩, ⟨testState .jtag none, .targetsel, rfl, rfl⟩,
    ⟨testState .jtag none, .rdbuff, rfl, rfl⟩⟩

theorem test_meets_AbortBudgetHolds : ∃ (i : Instr) (s u : State) (r : Result), exec i s = .next (u.pushResult r) :=
  ⟨.freezeSelect, State.reset, State.reset.freeze, .ok .unit, rfl⟩

-- R151: a scan repeated after WAIT is one ABORT write, two acknowledged scans are two, and the fourth WAIT ends a scan.
theorem test_abort_writes :
    abortWritesIn true 0 [.drScan 8 1, .drScan 8 2] = 1 ∧ abortWritesIn true 0 [.drScan 8 2, .drScan 8 2] = 2 ∧
      abortWritesIn true 0 (List.replicate 5 (.drScan 8 1)) = 2 ∧ abortWritesIn false 0 [.drScan 8 2] = 0 := by decide

theorem test_meets_IrselLoadsOnChange : ∃ s : State, s.cfg.iface = .jtag := ⟨testState .jtag none, rfl⟩

/-- A wire without T0 that answers a list of words. -/
def testWire (i : Iface) (xs : List (BitVec 35)) : State := { testState i none with answers := xs }

theorem test_wire (i : Iface) (xs : List (BitVec 35)) :
    (testWire i xs).cfg.iface = i ∧ (testWire i xs).target = none ∧ (testWire i xs).answers = xs := ⟨rfl, rfl, rfl⟩

theorem test_waits (n : Nat) : ∀ w ∈ List.replicate n (1 : Scan), drAck w = 0b001#3 :=
  fun w hw => by rw [List.eq_of_mem_replicate hw]; decide

theorem test_meets_ScanAcknowledgements :
    ((∃ s : State, s.cfg.iface = .jtag ∧ s.target = none ∧ s.answers = List.replicate 3 1 ++ [7]) ∧
      scanOk .dpacc true 0xC 0 = true ∧ (∀ w ∈ List.replicate 3 (1 : Scan), drAck w = 0b001#3) ∧ drAck 7 ≠ 0b001#3) ∧
    ((∃ s : State, s.cfg.iface = .jtag ∧ s.target = none ∧ s.answers = [] ++ 2 :: []) ∧
      scanOk .apacc false 0x0 5 = true ∧ drAck 2 ≠ 0b001#3) ∧
    (∃ s : State, s.cfg.iface = .jtag ∧ s.target = none ∧ s.answers = List.replicate 4 1 ++ []) ∧
      scanOk .abort false 0x0 5 = true ∧ ∀ w ∈ List.replicate 4 (1 : Scan), drAck w = 0b001#3 :=
  ⟨⟨⟨testWire .jtag (List.replicate 3 1 ++ [7]), test_wire _ _⟩, by decide, test_waits _, by decide⟩,
    ⟨⟨testWire .jtag ([] ++ 2 :: []), test_wire _ _⟩, by decide, by decide⟩,
    ⟨testWire .jtag (List.replicate 4 1 ++ []), test_wire _ _⟩, by decide, test_waits _⟩

theorem test_meets_ScanOnTarget :
    ∀ w : T0Wait, w = .count 0 ∨ w = .count 3 ∨ w = .count 4 ∨ w = .forever →
      ∃ (s : State) (t : T0), s.cfg.iface = .jtag ∧ s.target = some t ∧ (∀ x, s.jtagIr = some x → t.ir = x.code) ∧
        scanOk .apacc true 0xC 0 = true ∧ t.wait = w :=
  fun w _ => ⟨testState .jtag (some { T0.instA with wait := w }), _, rfl, rfl, fun _ h => (nomatch h), by decide, rfl⟩

theorem test_meets_JtagDpTransactions :
    ∃ s t, Loop s t ∧ s.cfg.iface = .jtag ∧ scanOk .dpacc true 0xC 0 = true ∧ scanOk .dpacc false 0x4 0xFFFFFFFF = true :=
  ⟨_, _, test_loop .jtag T0.instA (.inl rfl) rfl, rfl, by decide, by decide⟩

theorem test_meets_JtagApTransactions : ∀ f : W32,
    ∃ s t, Loop s t ∧ s.cfg.iface = .jtag ∧ scanOk .apacc true 0xC 0 = true ∧ scanOk .apacc false 0x0 0 = true ∧
      t.sticky = f :=
  fun f => ⟨_, _, test_loop .jtag { testT0 with sticky := f } (.inl rfl) rfl, rfl, by decide, by decide, rfl⟩

theorem test_meets_JtagSequences :
    ∃ s t, Loop s t ∧ s.cfg.iface = .jtag ∧ [(IrCode.dpacc, (0xC : RegAddr))] ≠ [] ∧
      [(IrCode.dpacc, (0xC : RegAddr))].all readScanOk = true ∧ RegAddr.aligned 0xC = true ∧ [(1 : W32)] ≠ [] :=
  ⟨_, _, test_loop .jtag testT0 (.inl rfl) rfl, rfl, by decide, by decide, by decide, by decide⟩

theorem test_meets_AbortClearsFlags :
    (∃ s t, Loop s t ∧ s.cfg.iface = .jtag ∧ t.sticky = 0xB2) ∧ ∃ s t, Loop s t ∧ s.cfg.iface = .swd ∧ t.sticky = 0xB2 :=
  ⟨⟨_, _, test_loop .jtag { testT0 with sticky := 0xB2 } (.inl rfl) rfl, rfl, rfl⟩,
    ⟨_, _, test_loop .swd { testT0 with sticky := 0xB2 } (.inr rfl) rfl, rfl, rfl⟩⟩

theorem test_meets_XferAcknowledgements :
    (∃ s : State, s.cfg.iface = .swd ∧ s.target = none ∧ s.answers = 1 :: 0x100000001 :: [] ∧
      packetOk true true 0xC = true ∧ BitVec.extractLsb' 0 3 (1 : BitVec 35) = 0b001#3) ∧
    (∃ s : State, s.cfg.iface = .swd ∧ s.target = none ∧ s.answers = 1 :: [] ∧ packetOk false false 0x0 = true ∧
      BitVec.extractLsb' 0 3 (1 : BitVec 35) = 0b001#3) ∧
    ∃ s : State, s.cfg.iface = .swd ∧ s.target = none ∧ s.answers = 2 :: [] ∧ packetOk true true 0x0 = true ∧
      BitVec.extractLsb' 0 3 (2 : BitVec 35) ≠ 0b001#3 :=
  ⟨⟨{ testState .swd none with answers := [1, 0x100000001] }, rfl, rfl, rfl, by decide, by decide⟩,
    ⟨{ testState .swd none with answers := [1] }, rfl, rfl, rfl, by decide, by decide⟩,
    ⟨{ testState .swd none with answers := [2] }, rfl, rfl, rfl, by decide, by decide⟩⟩

theorem test_meets_XferOnTarget :
    (∃ (s : State) (t : T0), s.cfg.iface = .swd ∧ s.target = some t ∧ packetOk true true 0xC = true ∧ t.wait = .count 0 ∧
      t.xferOk true true 0xC = true) ∧
    (∃ (s : State) (t : T0), s.cfg.iface = .swd ∧ s.target = some t ∧ packetOk false false 0x8 = true ∧ t.waiting = true ∧
      (false = true ∨ false = true ∨ (0x8 : RegAddr) ≠ 0xC)) ∧
    (∃ (s : State) (t : T0), s.cfg.iface = .swd ∧ s.target = some t ∧ packetOk true false 0x0 = true ∧ t.wait = .count 0 ∧
      t.sticky ≠ 0) ∧
    ∃ (s : State) (t : T0), s.cfg.iface = .swd ∧ s.target = some t ∧ packetOk false false 0xC = true ∧ t.waiting = true :=
  ⟨⟨testState .swd (some testT0), testT0, rfl, rfl, by decide, rfl, by decide⟩,
    ⟨testState .swd (some { testT0 with wait := .count 1 }), _, rfl, rfl, by decide, rfl, by decide⟩,
    ⟨testState .swd (some { testT0 with sticky := 0x80 }), { testT0 with sticky := 0x80 }, rfl, rfl, by decide, rfl,
      by decide⟩,
    ⟨testState .swd (some { testT0 with wait := .forever }), _, rfl, rfl, by decide, rfl⟩⟩

theorem test_meets_SwdDpTransactions :
    ∃ s t, Loop s t ∧ s.cfg.iface = .swd ∧ packetOk false true 0xC = true ∧ packetOk false false 0x0 = true ∧
      packetOk false false 0x8 = true ∧ (0x8 : RegAddr) ≠ 0xC :=
  ⟨_, _, test_loop .swd T0.instA (.inr rfl) rfl, rfl, by decide, by decide, by decide, by decide⟩

theorem test_meets_SwdApTransactions : ∀ f : W32,
    ∃ s t, Loop s t ∧ s.cfg.iface = .swd ∧ RegAddr.aligned 0xC = true ∧ t.sticky = f :=
  fun f => ⟨_, _, test_loop .swd { testT0 with sticky := f } (.inr rfl) rfl, rfl, by decide, rfl⟩

theorem test_meets_SwdSequences :
    ∃ s t, Loop s t ∧ s.cfg.iface = .swd ∧ RegAddr.aligned 0xC = true ∧ (t.apReads 0xC 1).2.sticky = 0 ∧
      (t.apReads 0xC 3).2.sticky = 0 ∧ (t.apWrites 0xC [1, 2]).sticky = 0 :=
  ⟨_, _, test_loop .swd testT0 (.inr rfl) rfl, rfl, by decide, by decide +kernel, by decide +kernel, by decide +kernel⟩

theorem test_meets_LineresetDrivesTheLine : ∃ s : State, s.cfg.iface = .swd := ⟨testState .swd none, rfl⟩

theorem test_meets_TargetselIgnoresAck : ∃ s : State, s.cfg.iface = .swd ∧ s.target = some testT0 :=
  ⟨testState .swd (some testT0), rfl, rfl⟩

theorem test_meets_SwdConnectReadsDpidr : ∃ s t, Loop s t ∧ s.cfg.iface = .swd :=
  ⟨_, _, test_loop .swd T0.instB (.inr rfl) rfl, rfl⟩

theorem test_meets_SwdConnectGivesUp : ∀ n,
    ∃ (s : State) (t : T0), s.cfg.iface = .swd ∧ s.target = some t ∧ t.wait = .forever ∧ s.cfg.targetselAttempts = n :=
  fun n => ⟨{ testState .swd (some { T0.instB with wait := .forever }) with
    cfg := { Config.initial with iface := .swd, targetselAttempts := n } }, _, rfl, rfl, rfl, rfl⟩

theorem test_meets_DetectVersionOnTarget :
    ∀ d ∈ ([0xFFFFFFFF, 0x4BA00477, 0x0C013477, 0x0BE14477, 0x0000F000] : List W32),
      ∃ s t, Closed s t ∧ detected s.dpVersion = false ∧ t.dpRead 0x0 = t.dpidr ∧ t.dpidr = d ∧
        (d = 0xFFFFFFFF ∨ d ≠ 0xFFFFFFFF ∧ t.ver ≤ 3 ∨ d ≠ 0xFFFFFFFF ∧ 3 < t.ver) := by
  intro d hd
  refine ⟨testDetected .jtag { T0.instA with dpidr := d } .absent, _, test_closed .jtag _ _ (.inl rfl) rfl, rfl, ?_, rfl, ?_⟩
  · simp only [List.mem_cons, List.not_mem_nil, or_false] at hd
    rcases hd with h | h | h | h | h <;> subst h <;> decide
  · simp only [List.mem_cons, List.not_mem_nil, or_false] at hd
    rcases hd with h | h | h | h | h <;> subst h <;> decide

theorem test_meets_DetectedVersionIsImmutable : ∀ v : DpVersion, ∃ s : State, s.dpVersion = v :=
  fun v => ⟨testDetected .jtag T0.instA v, rfl⟩

theorem test_meets_SelectApSelects :
    (∃ s t, detected (State.dpVersion s) = true ∧ Closed s t ∧ (0xFFF : W32).toNat ≤ 0xFFF) ∧
    (∃ s, detected (State.dpVersion s) = true ∧ s.selectHeld (selVal 1 (apOffset 0xFC)) = true) ∧
    ∃ s, detected (State.dpVersion s) = true ∧ 0xFFF < (0x1000 : W32).toNat :=
  ⟨⟨testDetected .swd T0.instA .v1, _, rfl, test_closed .swd _ _ (.inr rfl) rfl, by decide⟩,
    ⟨((testDetected .swd T0.instA .v1).setSelectLast (some 0x010000F0)).setFreeze 1 true, rfl, by decide⟩,
    ⟨testDetected .swd T0.instA .v1, rfl, by decide⟩⟩

/-- A closed loop under a freeze of an unknown, a known or no selection (R206). -/
theorem test_frozen (last : Option W32) (valid : Bool) :
    Closed (((testDetected .jtag { testT0 with select := last.getD 0 } .v1).setSelectLast last).setFreeze 1 valid)
      { testT0 with select := last.getD 0 } :=
  ⟨⟨.inl rfl, rfl, rfl, fun _ h => nomatch h⟩, fun _ v h => by
    have : last = some v := h
    subst this
    rfl⟩

theorem test_meets_SelectCountLaw : ∀ valid, ∀ last ∈ ([none, some 0x010000F0, some 0] : List (Option W32)),
    ∃ s t, Closed s t ∧ detected s.dpVersion = true ∧ (0xFFF : W32).toNat ≤ 0xFFF ∧ s.frozenValid = valid ∧
      s.selectLast = last :=
  fun valid last _ => ⟨_, _, test_frozen last valid, rfl, by decide, rfl, rfl⟩

theorem test_meets_UnfreezeSelectUnwinds :
    ∃ (i : Instr) (s t : State), Machine.Inv s ∧ i ≠ .freezeSelect ∧ i ≠ .unfreezeSelect ∧ i ≠ .teardown ∧
      exec i s = .next t :=
  ⟨.getChipVersion, testProbed 0 .presentEnabled (some testConn), _, test_enabled_inv, nofun, nofun, nofun, rfl⟩

theorem test_meets_DpReadOnTarget :
    (∃ s t, Closed s t ∧ s.accepts .rdbuff = true ∧ dpReadable .rdbuff = true ∧ detected s.dpVersion = false) ∧
    ∃ s t, Closed s t ∧ s.accepts .dpidr1 = true ∧ dpReadable .dpidr1 = true :=
  ⟨⟨_, _, test_closed .swd T0.instC .undetected (.inr rfl) rfl, rfl, rfl, rfl⟩,
    ⟨_, _, test_closed .jtag T0.instC .v3 (.inl rfl) rfl, rfl, rfl⟩⟩

theorem test_meets_DpWriteOnTarget :
    (∃ s t, Closed s t ∧ s.dpVersion = .v3) ∧
    (∃ s t, Closed s t ∧ s.accepts .targetsel = true ∧ s.cfg.iface = .swd) ∧
    ∃ s t, Closed s t ∧ s.accepts .targetsel = true ∧ s.cfg.iface = .jtag :=
  ⟨⟨_, _, test_closed .swd T0.instC .v3 (.inr rfl) rfl, rfl⟩,
    ⟨_, _, test_closed .swd T0.instB .undetected (.inr rfl) rfl, rfl, rfl⟩,
    ⟨_, _, test_closed .jtag T0.instB .v2 (.inl rfl) rfl, rfl, rfl⟩⟩

theorem test_meets_CheckStickyOnTarget :
    (∃ s t, Closed s t ∧ T0Inv t ∧ t.sticky = 0) ∧ ∃ s t, Closed s t ∧ T0Inv t ∧ t.sticky = 0xB2 :=
  ⟨⟨_, _, test_closed .swd testT0 .v1 (.inr rfl) rfl, test_t0inv, rfl⟩,
    ⟨_, _, test_closed .jtag { testT0 with sticky := 0xB2 } .undetected (.inl rfl) rfl, test_t0inv_sticky, rfl⟩⟩

theorem test_vendor (xs : List (BitVec 35)) :
    (testVendor xs).cfg.iface = .vendor ∧ (testVendor xs).frozenValid = false ∧ (testVendor xs).answers = xs :=
  ⟨rfl, rfl, rfl⟩

theorem test_sticky_reads (n : Nat) :
    ∀ w ∈ List.replicate n (0x20 : BitVec 35), w.getLsbD 32 = false ∧ noSticky (w.extractLsb' 0 32) = false :=
  fun w hw => by rw [List.eq_of_mem_replicate hw]; decide

theorem test_meets_CheckStickyRereads :
    ((∃ s : State, s.cfg.iface = .vendor ∧ s.frozenValid = false ∧ s.answers = 0 :: [] ++ 0x40 :: []) ∧
      ∃ s : State, s.cfg.iface = .vendor ∧ s.frozenValid = false ∧ s.answers = 0 :: List.replicate 10 0x20 ++ 0x40 :: []) ∧
    (∀ w ∈ List.replicate 10 (0x20 : BitVec 35), w.getLsbD 32 = false ∧ noSticky (w.extractLsb' 0 32) = false) ∧
    noSticky (BitVec.extractLsb' 0 32 (0x40 : BitVec 35)) = true ∧
    (∃ s : State, s.cfg.iface = .vendor ∧ s.frozenValid = false ∧ s.answers = 0 :: List.replicate 11 0x20 ++ []) ∧
    ∀ w ∈ List.replicate 11 (0x20 : BitVec 35), w.getLsbD 32 = false ∧ noSticky (w.extractLsb' 0 32) = false :=
  ⟨⟨⟨testVendor (0 :: [] ++ 0x40 :: []), test_vendor _⟩,
      ⟨testVendor (0 :: List.replicate 10 0x20 ++ 0x40 :: []), test_vendor _⟩⟩, test_sticky_reads _, by decide,
    ⟨testVendor (0 :: List.replicate 11 0x20 ++ []), test_vendor _⟩, test_sticky_reads _⟩

theorem test_meets_ReassertPowerOnTarget :
    (∃ s t, Closed s t ∧ T0Inv t ∧ powered t.ctrlStat = true) ∧
    (∃ s t, Closed s t ∧ T0Inv t ∧ powered t.ctrlStat = false ∧ t.powerDead = false) ∧
    ∃ s t, Closed s t ∧ T0Inv t ∧ t.powerDead = true :=
  ⟨⟨_, _, test_closed .swd { testT0 with ctrl := 0x50000000 } .undetected (.inr rfl) rfl,
      ⟨test_t0inv.mem, by decide, by decide, trivial, test_t0inv.deviceEn⟩, by decide⟩,
    ⟨_, _, test_closed .jtag { testT0 with ctrl := 0x40000000 } .v1 (.inl rfl) rfl,
      ⟨test_t0inv.mem, by decide, by decide, trivial, test_t0inv.deviceEn⟩, by decide, rfl⟩,
    ⟨_, _, test_closed .jtag { testT0 with powerDead := true } .v1 (.inl rfl) rfl,
      ⟨test_t0inv.mem, by decide, by decide, trivial, test_t0inv.deviceEn⟩, rfl⟩⟩

theorem test_meets_ApAccessOnTarget :
    (∃ s t, detected (State.dpVersion s) = true ∧ Closed s t ∧ t.sticky = 0 ∧ (0xFFC : W32).toNat ≤ 0xFFF ∧
      (0xFFC : W32).toNat % 4 = 0 ∧ apOffset 0xFFC ≠ t.layout + drwOffset) ∧
    (∃ s t c, detected (State.dpVersion s) = true ∧ Closed s t ∧ t.sticky = 0 ∧ apOffset 0 = s.apReg cswOffset ∧
      s.connOf 0 = some c) ∧
    ∃ s, detected (State.dpVersion s) = true ∧ 0xFFF < (0x1000 : W32).toNat ∧ (2 : W32).toNat % 4 ≠ 0 :=
  ⟨⟨testDetected .swd testT0 .v1, _, rfl, test_closed .swd _ _ (.inr rfl) rfl, rfl, by decide, by decide, by decide⟩,
    ⟨_, _, testConn, rfl, (test_served .swd (.inr rfl)).closed, rfl, by decide, (test_served .swd (.inr rfl)).conn⟩,
    ⟨testDetected .swd testT0 .v1, rfl, by decide, by decide⟩⟩

theorem test_meets_VendorApAccess : ∀ x y : BitVec 35,
    ∃ s : State, s.cfg.iface = .vendor ∧ detected s.dpVersion = true ∧ (0xFFC : W32).toNat ≤ 0xFFF ∧
      (0xFFC : W32).toNat % 4 = 0 ∧ s.frozenValid = false ∧ s.answers = [x, y] :=
  fun x y => ⟨testVendor [x, y], rfl, rfl, by decide, by decide, rfl, rfl⟩

/-- No address of testT0 is bad. -/
theorem test_good (a b : Nat) : testT0.goodRange a b := fun _ h => nomatch h

theorem test_meets_ReadMemoryDeliversBytes :
    (∃ s t c, Served s t c ∧ 4294967295 ≤ 2 ^ 32 ∧ t.goodRange (wordFloor 4294967295) (wordCeil (2 ^ 32)) ∧
      s.apStateOf c.ap = .presentEnabled) ∧
    ∃ s t c, Served s t c ∧ t.goodRange (wordFloor 0) (wordCeil 0) ∧ s.apStateOf c.ap = .presentEnabled :=
  ⟨⟨_, _, testConn, test_served .jtag (.inl rfl), by decide, test_good _ _, test_served_enabled _⟩,
    ⟨_, _, testConn, test_served .swd (.inr rfl), test_good _ _, test_served_enabled _⟩⟩

theorem test_meets_WriteMemoryStoresBytes :
    (∃ s t c, Served s t c ∧ ([1] : List W32).length = (1 + 3) / 4 ∧ 4294967295 + 1 ≤ 2 ^ 32 ∧
      t.goodRange (wordFloor 4294967295) (wordCeil (4294967295 + 1))) ∧
    ∃ s t c, Served s t c ∧ ([] : List W32).length = (0 + 3) / 4 ∧ t.goodRange (wordFloor 0) (wordCeil (0 + 0)) :=
  ⟨⟨_, _, testConn, test_served .jtag (.inl rfl), by decide, by decide, test_good _ _⟩,
    ⟨_, _, testConn, test_served .swd (.inr rfl), by decide, test_good _ _⟩⟩

theorem test_meets_RmwWriteStoresExactly :
    ∃ s t c, Served s t c ∧ ([1, 2] : List W32).length = (5 + 3) / 4 ∧ 4294967291 + 5 ≤ 2 ^ 32 ∧
      t.goodRange (wordFloor 4294967291) (wordCeil (4294967291 + 5)) ∧ s.apStateOf c.ap = .presentEnabled :=
  ⟨_, _, testConn, test_served .jtag (.inl rfl), by decide, by decide, test_good _ _, test_served_enabled _⟩

theorem test_meets_MemoryRoundTrip :
    ∃ s t c, Served s t c ∧ s.apStateOf c.ap = .presentEnabled ∧ ([1, 2] : List W32).length = (5 + 3) / 4 ∧
      1 + 5 ≤ 2 ^ 32 ∧ t.goodRange (wordFloor 1) (wordCeil (1 + 5)) :=
  ⟨_, _, testConn, test_served .swd (.inr rfl), test_served_enabled _, by decide, by decide, test_good _ _⟩

theorem test_meets_RetryOnceRecovers :
    ∃ s t c, Served s t c ∧ s.apStateOf c.ap = .presentEnabled ∧ 4294967292 % 4 = 0 ∧ 4294967292 + 4 ≤ 2 ^ 32 ∧
      t.goodRange 4294967292 (4294967292 + 4) ∧ cswVal c.cswShadow c.autoinc sizeWord = c.cswShadow ∧
      (0xB0 : W32) ≠ 0 ∧ (0xB0 : W32) &&& ~~~(if s.cfg.orunDetect then 0xB2#32 else 0xB0#32) = 0 :=
  ⟨_, _, testConn, test_served .swd (.inr rfl), test_served_enabled _, by decide, by decide, test_good _ _, by decide,
    by decide, (by decide : (0xB0 : W32) &&& ~~~0xB0#32 = 0)⟩

theorem test_goodWord (a : W32) (h : a.toNat % 4 = 0) : GoodWord testT0 a := ⟨h, test_good _ _⟩

theorem test_meets_PollReadDeliversWords :
    ∃ s t c b, Served s t c ∧ GoodWord t 0xFFFFFFFC ∧ GoodWord t (BusyCheck.addr b) ∧ BusyIdle t.mem b :=
  ⟨_, _, testConn, ⟨0x20000000, 0xFF, 0x11⟩, test_served .swd (.inr rfl), test_goodWord _ (by decide),
    test_goodWord _ (by decide), (by decide +kernel : Memory.read32 testT0.mem 0x20000000 &&& 0xFF = 0x11)⟩

theorem test_meets_PollWriteStoresWords :
    ∃ s t c b, Served s t c ∧ GoodWord t 0xFFFFFFFC ∧ GoodWord t (BusyCheck.addr b) ∧
      ∀ k, k < ([7] : List W32).length → BusyIdle (Memory.keyhole t.mem (0xFFFFFFFC : W32).toNat (List.take k [7])) b :=
  ⟨_, _, testConn, ⟨0x20000000, 0xFF, 0x11⟩, test_served .jtag (.inl rfl), test_goodWord _ (by decide),
    test_goodWord _ (by decide), fun k hk => by
      have : k = 0 := by simpa using hk
      subst this
      exact (by decide +kernel : Memory.read32 testT0.mem 0x20000000 &&& 0xFF = 0x11)⟩

theorem test_meets_BusyPollTimesOut :
    ∃ s t c b, Served s t c ∧ GoodWord t 0x20000000 ∧ GoodWord t (BusyCheck.addr b) ∧ 1 ≤ ([7] : List W32).length ∧
      ¬ BusyIdle t.mem b :=
  ⟨_, _, testConn, ⟨0x20000004, 0xFF, 0⟩, test_served .swd (.inr rfl), test_goodWord _ (by decide),
    test_goodWord _ (by decide), by decide, (by decide +kernel : ¬ (Memory.read32 testT0.mem 0x20000004 &&& 0xFF = 0))⟩

theorem test_meets_EngineOperandChecks :
    ∃ s : State, detected s.dpVersion = true ∧ s.connOf 255 = none ∧ (0xFFFFFFFC : W32).toNat % 4 = 0 ∧
      (0xFFFFFFFF : W32).toNat % 4 ≠ 0 ∧
      ∀ b : BusyCheck, some (⟨0xFFFFFFFC, 1, 0⟩ : BusyCheck) = some b → b.addr.toNat % 4 = 0 :=
  ⟨testDetected .jtag testT0 .v1, rfl, reset_connOf 255, by decide, by decide, fun b h => by cases h; decide⟩

/-- A backend with block transfer and a connection. -/
def testBlocks (ap : ApIndex) (xs : List (BitVec 35)) : State :=
  { testVendor xs with cfg := { Config.initial with iface := .vendor, blockSupport := true } }.setConn ap
    (some { testConn with ap := ap })

theorem test_blocks (ap : ApIndex) (xs : List (BitVec 35)) :
    (testBlocks ap xs).cfg.iface = .vendor ∧ (testBlocks ap xs).cfg.blockSupport = true ∧
      detected (testBlocks ap xs).dpVersion = true ∧ (testBlocks ap xs).connOf ap = some { testConn with ap := ap } ∧
      (testBlocks ap xs).frozenValid = false ∧ (testBlocks ap xs).freezeDepth = 0 ∧ (testBlocks ap xs).answers = xs :=
  ⟨rfl, rfl, rfl, connOf_setConn_same _ _ _, rfl, rfl, rfl⟩

theorem test_meets_AccessErrorClassified :
    (∀ (ap : ApIndex) (sel : List (BitVec 35)), (ap = 0 ∧ sel = []) ∨ (ap = 1 ∧ sel = [0]) → ∃ s : State,
      (s.cfg.iface = .vendor ∧ s.cfg.blockSupport = true ∧ detected s.dpVersion = true ∧
        s.connOf ap = some { testConn with ap := ap } ∧ s.frozenValid = false ∧ s.freezeDepth = 0 ∧
        s.answers = 0 :: 0x10000000B :: 0 :: 0 :: sel ++ 0x40 :: []) ∧
      sel.length = (if selVal ap (s.apReg cswOffset) = 0 then 0 else 1)) ∧
    cswVal testConn.cswShadow testConn.autoinc sizeWord = testConn.cswShadow ∧
    (∃ s : State, s.cfg.iface = .vendor ∧ s.cfg.blockSupport = true ∧ detected s.dpVersion = true ∧
      s.connOf 0 = some { testConn with ap := 0 } ∧ s.frozenValid = false ∧ s.freezeDepth = 0 ∧
      s.answers = 0 :: 0x10000000B :: 0 :: (List.replicate 11 0x20 ++ [])) ∧
    ∀ w ∈ List.replicate 11 (0x20 : BitVec 35), w.getLsbD 32 = false ∧ noSticky (w.extractLsb' 0 32) = false := by
  refine ⟨fun ap sel h => ⟨testBlocks ap (0 :: 0x10000000B :: 0 :: 0 :: sel ++ 0x40 :: []), test_blocks ap _, ?_⟩, by decide,
    ⟨testBlocks 0 (0 :: 0x10000000B :: 0 :: (List.replicate 11 0x20 ++ [])), test_blocks 0 _⟩, test_sticky_reads _⟩
  rcases h with ⟨h1, h2⟩ | ⟨h1, h2⟩ <;> subst h1 <;> subst h2 <;> rfl

theorem test_meets_GetConnectionCached :
    (∃ s, Machine.Inv s ∧ detected s.dpVersion = true ∧ s.apStateOf 255 = .absent) ∧
    (∃ s, Machine.Inv s ∧ detected s.dpVersion = true ∧ s.apStateOf 0 = .presentEnabled) ∧
    ∃ s, Machine.Inv s ∧ detected s.dpVersion = true ∧ s.apStateOf 1 = .presentDisabled :=
  ⟨⟨_, test_absent_inv, rfl, apStateOf_setApState_same _ _ _⟩, ⟨_, test_enabled_inv, rfl, apStateOf_setApState_same _ _ _⟩,
    ⟨_, test_disabled_inv, rfl, apStateOf_setApState_same _ _ _⟩⟩

theorem test_meets_GetConnectionCreates :
    ∃ s t, Closed s t ∧ detected s.dpVersion = true ∧ layoutBase s.dpVersion = t.layout ∧ t.sticky = 0 ∧
      (∀ ap, s.apStateOf ap = .unresolved) ∧ t.idrOf 2 = 0 ∧
      (∃ p, t.apOf 3 = some p ∧ p.idr ≠ 0 ∧ cswDeviceEn p.csw = true) ∧
      ∃ p, t.apOf 1 = some p ∧ p.idr ≠ 0 ∧ cswDeviceEn p.csw = false :=
  ⟨testDetected .swd T0.instB .v2, _, test_closed .swd _ _ (.inr rfl) rfl, rfl,
    (by decide : layoutBase .v2 = T0.instB.layout), rfl, reset_apStateOf, by decide, ⟨T0.ahbAp 3, rfl, by decide, by decide⟩,
    ⟨T0.apbAp, rfl, by decide, by decide⟩⟩

theorem test_meets_WrappedCommandsNeedEnabledAp :
    (∃ s, Machine.Inv s ∧ detected s.dpVersion = true ∧ s.cfg.codecPresent = true ∧ s.apStateOf 255 = .absent) ∧
    ∃ s, Machine.Inv s ∧ detected s.dpVersion = true ∧ s.cfg.codecPresent = true ∧ s.apStateOf 1 = .presentDisabled :=
  ⟨⟨_, test_absent_inv, rfl, rfl, apStateOf_setApState_same _ _ _⟩,
    ⟨_, test_disabled_inv, rfl, rfl, apStateOf_setApState_same _ _ _⟩⟩

theorem test_meets_DelegatedCommandsRunCodec :
    ∃ s t c, Served s t c ∧ s.apStateOf c.ap = .presentEnabled ∧ s.cfg.codecPresent = true :=
  ⟨_, _, testConn, test_served .swd (.inr rfl), test_served_enabled _, rfl⟩

theorem test_meets_DelegatedCommandsRefused :
    (∃ s : State, s.cfg.codecPresent = false) ∧
    ∃ s : State, s.cfg.codecPresent = true ∧ detected s.dpVersion = true ∧ ([] : List W32).length ≠ [(1 : W32)].length :=
  ⟨⟨{ State.reset with cfg := { Config.initial with codecPresent := false } }, rfl⟩,
    ⟨testDetected .jtag testT0 .v1, rfl, rfl, by decide⟩⟩

theorem test_meets_ScanApsListsAps :
    ∃ s t, Closed s t ∧ detected s.dpVersion = true ∧ layoutBase s.dpVersion = t.layout ∧ t.sticky = 0 :=
  ⟨testDetected .jtag T0.instC .v3, _, test_closed .jtag _ _ (.inl rfl) rfl, rfl,
    (by decide : layoutBase .v3 = T0.instC.layout), rfl⟩

theorem test_meets_ChipVersionFields :
    (∃ s : State, s.dpVersion = .v1) ∧ (∃ s t, Closed s t ∧ s.dpVersion = .v2 ∧ 2 ≤ t.ver) ∧
    ∃ s t, Closed s t ∧ s.dpVersion = .v3 ∧ 2 ≤ t.ver :=
  ⟨⟨testDetected .jtag T0.instA .v1, rfl⟩,
    ⟨_, _, test_closed .swd T0.instB .v2 (.inr rfl) rfl, rfl, by decide⟩,
    ⟨_, _, test_closed .jtag T0.instC .v3 (.inl rfl) rfl, rfl, by decide⟩⟩

end Sys2Proof.Machine
end

/-! The working registers at reset and after TEARDOWN (10_state.md, R50, R277). -/

namespace Sys2Proof.Machine

/-- TEARDOWN raises no error: its whole effect is `State.teardown`, and its value is unit (R277). -/
theorem exec_teardown (s : State) : exec .teardown s = .next (s.teardown.pushResult (.ok .unit)) := by
  have hrun : (do upd State.teardown; pure Value.unit : Dap Value) s = .ok .unit s.teardown := by
    rw [run_upd_bind, run_pure]
  calc exec .teardown s = execTeardown s := rfl
    _ = .next (s.teardown.pushResult (.ok .unit)) := complete_ok hrun

/-- Settles O1: the reset values are those of `State.reset`, and the state TEARDOWN leaves is `State.teardown`, which
takes each working register from there. -/
theorem resetRegisterValues : Obligations.ResetRegisterValues := by
  have hreset : ∀ ap, State.reset.apStateOf ap = .unresolved ∧ State.reset.connOf ap = none :=
    fun ap => ⟨reset_apStateOf ap, reset_connOf ap⟩
  refine ⟨rfl, rfl, rfl, rfl, rfl, hreset, fun s => ⟨s.teardown, exec_teardown s, ?_⟩⟩
  exact ⟨teardown_dpVersion s, teardown_selectLast s, teardown_freezeDepth s, teardown_frozenValid s,
    teardown_apState s, teardown_conn s, teardown_jtagIr s⟩

end Sys2Proof.Machine

/-! FREEZE_SELECT and UNFREEZE_SELECT (42_dp_model.md, R195, R196). -/

namespace Sys2Proof.Machine

/-- A command that is one update of the state ends with unit. -/
theorem complete_upd (f : State → State) (s : State) :
    complete (do upd f; pure Value.unit) s = .next ((f s).pushResult (.ok .unit)) :=
  complete_ok (by rw [run_upd_bind, run_pure])

theorem exec_freezeSelect (s : State) : exec .freezeSelect s = .next (s.freeze.pushResult (.ok .unit)) :=
  complete_upd State.freeze s

theorem exec_unfreezeSelect (s : State) : exec .unfreezeSelect s = .next (s.unfreeze.pushResult (.ok .unit)) :=
  complete_upd State.unfreeze s

theorem freeze_frozenValid_eq_ite (s : State) :
    s.freeze.frozenValid = if s.freezeDepth = 0 then true else s.frozenValid := by
  rw [freeze_frozenValid]
  by_cases h0 : s.freezeDepth = 0 <;> simp [h0]

/-- Depth 0 changes nothing, depth 1 ends the freeze, and above it the selection keeps its validity. -/
theorem unfreeze_frozenValid_eq_ite (s : State) :
    s.unfreeze.frozenValid = if s.freezeDepth = 1 then false else s.frozenValid := by
  by_cases h0 : s.freezeDepth = 0
  · simp [State.unfreeze, h0]
  · rw [unfreeze_frozenValid s h0]
    by_cases h1 : s.freezeDepth = 1 <;> simp [h1]

/-- Unfreezing writes no register but the two of the freeze (R23). -/
theorem unfreeze_frame (s : State) :
    s.unfreeze = { s with freezeDepth := s.unfreeze.freezeDepth, frozenValid := s.unfreeze.frozenValid } := by
  unfold State.unfreeze
  split <;> rfl

/-- Settles O34: what FREEZE_SELECT leaves is `State.freeze`. -/
theorem freezeSelectNests : Obligations.FreezeSelectNests := fun s =>
  ⟨s.freeze, exec_freezeSelect s, freeze_freezeDepth s, freeze_frozenValid_eq_ite s, rfl⟩

/-! ## Commands by the shape of their meaning

Most commands are checks, one operation and its value packed: one lemma for each such shape, so that a command needs the
frame of its operation only. -/

section

variable {α : Type} {R : State → State → Prop}

theorem keeps_then {β : Type} (h : Chain R) {m : Dap α} {n : Dap β} (hm : Keeps R m) (hn : Keeps R n) :
    Keeps R (m >>= fun _ => n) :=
  keeps_bind h hm fun _ => hn

theorem keeps_packed {β : Type} (h : Chain R) {f : α → β} {m : Dap α} (hm : Keeps R m) :
    Keeps R (m >>= fun a => pure (f a)) :=
  keeps_bind h hm fun _ => keeps_pure h _

theorem keeps_requireDetected (h : Chain R) : Keeps R requireDetected :=
  keeps_getS_bind fun s => keeps_check h _ _ s

theorem frameCommand_chain : Chain FrameCommand := ⟨FrameCommand.refl, FrameCommand.trans⟩

variable {b : Bool} {f : α → Value} {m : Dap α}

/-- A link transaction on its own link, with its operands checked (R128, R130). -/
theorem frameCommand_linkShape {i : Iface} (hm : KeepsOn i FrameLink m) :
    Keeps FrameCommand (do requireIface i; requireArg b; let a ← m; pure (f a)) := fun s =>
  (keeps_requireIface_then frameLink_stable.toChain
    (keepsOn_bind frameLink_stable (keepsOn_of_keeps (keeps_check frameLink_stable.toChain _ _)) fun _ =>
      keepsOn_bind frameLink_stable hm fun _ => keepsOn_pure frameLink_stable _) s).toSelect.toCommand

/-- A link transaction whose operands are all in range. -/
theorem frameCommand_linkShape_total {i : Iface} (hm : KeepsOn i FrameLink m) :
    Keeps FrameCommand (do requireIface i; let a ← m; pure (f a)) := fun s =>
  (keeps_requireIface_then frameLink_stable.toChain
    (keepsOn_bind frameLink_stable hm fun _ => keepsOn_pure frameLink_stable _) s).toSelect.toCommand

/-- A raw access to a DP register (R205). -/
theorem frameCommand_dpShape {r : DpReg} (hm : Keeps FrameCommand m) :
    Keeps FrameCommand (do requireDpReg r; requireArg b; let a ← m; pure (f a)) :=
  keeps_then frameCommand_chain (keeps_requireDpReg frameCommand_chain r)
    (keeps_then frameCommand_chain (keeps_check frameCommand_chain _ _) (keeps_packed frameCommand_chain hm))

/-- An access that needs a version and checks its operands (R205, R318). -/
theorem frameCommand_apShape (hm : Keeps FrameCommand m) :
    Keeps FrameCommand (do requireDetected; requireArg b; let a ← m; pure (f a)) :=
  keeps_then frameCommand_chain (keeps_requireDetected frameCommand_chain)
    (keeps_then frameCommand_chain (keeps_check frameCommand_chain _ _) (keeps_packed frameCommand_chain hm))

/-- An engine command, on the cached connection (R234). -/
theorem frameCommand_engineShape {ap : ApIndex} {k : MemApConnection → Dap α} (hk : ∀ c, Keeps FrameCommand (k c)) :
    Keeps FrameCommand (do requireDetected; requireArg b; let c ← requireConn ap; let a ← k c; pure (f a)) :=
  keeps_then frameCommand_chain (keeps_requireDetected frameCommand_chain)
    (keeps_then frameCommand_chain (keeps_check frameCommand_chain _ _)
      (keeps_bind frameCommand_chain (keeps_requireConn frameCommand_chain ap) fun c =>
        keeps_packed frameCommand_chain (hk c)))

/-- A wrapped operation on a resolved connection: the retry clears flags and runs the operation again, both within the
frame (R270). -/
theorem frameCommand_stickyRetry {ap : ApIndex} {k : MemApConnection → Dap α} (hk : ∀ c, Keeps FrameCommand (k c))
    {s : State} (hd : detected s.dpVersion = true) :
    FrameCommand s (endState (stickyRetry (resolveStrict ap >>= k) s)) :=
  keeps_stickyRetry frameCommand_stable (fun h => .inl h.dpVersion) frameCommand_clearSticky trivial
    (fun c _ => hk c) hd

/-- A wrapped memory command (R273, R274). -/
theorem frameCommand_wrappedShape {ap : ApIndex} {k : MemApConnection → Dap α} (hk : ∀ c, Keeps FrameCommand (k c)) :
    Keeps FrameCommand (do
      requireDetected; requireArg b; let a ← stickyRetry (resolveStrict ap >>= k); pure (f a)) := fun _ =>
  keeps_detected_then frameCommand_chain fun hd =>
    keeps_check_then frameCommand_chain _ _ fun _ => keeps_map_from f (frameCommand_stickyRetry hk hd)

theorem frameCommand_delegate {ap : ApIndex} {op : CodecOp} {s : State} (hd : detected s.dpVersion = true) :
    FrameCommand s (endState (delegate ap op s)) :=
  frameCommand_stickyRetry (fun _ => keeps_runCodec frameCommand_stable.toEngineStable trivial _) hd

/-- A delegated command, its operands checked after the version (R278). -/
theorem frameCommand_delegateShape {ap : ApIndex} {op : CodecOp} {f : List W32 → Value} :
    Keeps FrameCommand (do
      requireCodec; requireDetected; requireArg b; let ws ← delegate ap op; pure (f ws)) :=
  keeps_then frameCommand_chain (keeps_requireCodec frameCommand_chain) fun _ =>
    keeps_detected_then frameCommand_chain fun hd =>
      keeps_check_then frameCommand_chain _ _ fun _ => keeps_map_from f (frameCommand_delegate hd)

/-- A delegated command without operands to check (R280, R281). -/
theorem frameCommand_delegateShape_total {ap : ApIndex} {op : CodecOp} {f : List W32 → Value} :
    Keeps FrameCommand (do requireCodec; requireDetected; let ws ← delegate ap op; pure (f ws)) :=
  keeps_then frameCommand_chain (keeps_requireCodec frameCommand_chain) fun _ =>
    keeps_detected_then frameCommand_chain fun hd => keeps_map_from f (frameCommand_delegate hd)

end

/-- GET_CONNECTION resolves, and then only looks whether the AP is enabled (R271). -/
theorem frameCommand_getConnection (ap : ApIndex) (ai : Option Bool) (per dis : Bool) {s : State}
    (hd : detected s.dpVersion = true) : FrameCommand s (endState (getConnection ap ai per dis s)) := by
  have hr := keeps_resolve frameCommand_stable (ap := ap) trivial ai per hd
  unfold getConnection
  rw [run_bind]
  cases e : resolve ap ai per s with
  | error x t => rw [e] at hr; exact hr
  | ok o t =>
    rw [e] at hr
    cases o with
    | none => exact hr
    | some c =>
      have hen : Keeps FrameCommand (requireEnabled ap dis) :=
        keeps_getS_bind fun s => keeps_check frameCommand_chain _ _ s
      exact hr.trans (keeps_packed frameCommand_chain hen t)

/-- DP_WRITE: ABORT goes out without SELECT, every other register may move SELECT (R198). -/
theorem frameCommand_dpWrite (r : DpReg) (v : W32) : Keeps FrameCommand (dpWrite r v) := by
  by_cases hr : r = .abort
  · subst hr
    exact fun s => (frameSelect_linkAbort v s).toCommand
  · exact keeps_dpWrite frameCommand_stable.toSelectStable hr v

/-- The part of `FrameCommand` that DETECT_VERSION keeps too: the freeze depth (R23). -/
def SameDepth (s t : State) : Prop := t.freezeDepth = s.freezeDepth

theorem sameDepth_chain : Chain SameDepth := ⟨fun _ => rfl, fun h k => k.trans h⟩

/-- DETECT_VERSION is a link read and then writes `dp_version` alone (R191, R192). -/
theorem sameDepth_detectVersion : Keeps SameDepth detectVersion := by
  have hread : Keeps SameDepth (linkDpRead 0x0) := fun s => (keeps_linkDpRead frameLink_stable 0x0 s).freezeDepth
  refine keeps_getS_bind fun s =>
    keeps_ite (keeps_pure sameDepth_chain _) (keeps_bind sameDepth_chain hread fun id => ?_) s
  cases classifyDpidr id with
  | ok v => exact keeps_packed sameDepth_chain (keeps_upd fun t => setDpVersion_freezeDepth t v)
  | error e => exact keeps_raise sameDepth_chain e

/-- Every command but DETECT_VERSION, the two freeze commands and TEARDOWN keeps `FrameCommand`, however it ends
(R315). -/
theorem exec_frameCommand (i : Instr) (s : State) (hd : i ≠ .detectVersion) (hf : i ≠ .freezeSelect)
    (hu : i ≠ .unfreezeSelect) (ht : i ≠ .teardown) :
    ∃ r u, exec i s = .next (u.pushResult r) ∧ FrameCommand s u := by
  have hc := frameCommand_chain
  have hsel := frameCommand_stable.toSelectStable
  have heng := frameCommand_stable.toEngineStable
  have hlink := frameLink_stable
  have habort := frameLink_abortStable
  cases i with
  | detectVersion => exact absurd rfl hd
  | freezeSelect => exact absurd rfl hf
  | unfreezeSelect => exact absurd rfl hu
  | teardown => exact absurd rfl ht
  | reassertPower => exact complete_keeps (keeps_packed hc (keeps_reassertPower hsel) s)
  | dpRead r => exact complete_keeps (frameCommand_dpShape (keeps_dpRead hsel r) s)
  | dpWrite r v => exact complete_keeps (frameCommand_dpShape (frameCommand_dpWrite r v) s)
  | selectAp ap addr => exact complete_keeps (frameCommand_apShape (keeps_selectAp hsel ap _) s)
  | checkSticky => exact complete_keeps (keeps_packed hc (keeps_checkSticky hsel) s)
  | clearSticky => exact complete_keeps (keeps_packed hc frameCommand_clearSticky s)
  | apRead ap addr => exact complete_keeps (frameCommand_apShape (keeps_hostApRead heng trivial _) s)
  | apWrite ap addr v => exact complete_keeps (frameCommand_apShape (keeps_hostApWrite heng trivial _ v) s)
  | swdConnect t =>
    exact complete_keeps
      (keeps_then hc (keeps_requireIface hc .swd) (keeps_packed hc (keeps_swdConnect hsel t)) s)
  | getConnection ap ai per dis =>
    exact complete_keeps (keeps_detected_then hc fun hv => frameCommand_getConnection ap ai per dis hv)
  | memoryRead ap a b =>
    exact complete_keeps (frameCommand_wrappedShape (fun _ => keeps_readMemory heng trivial a b) s)
  | memoryWrite ap a n d =>
    exact complete_keeps (frameCommand_wrappedShape (fun _ => keeps_writeMemoryRmw heng trivial a _) s)
  | registerRead ap n rs => exact complete_keeps (frameCommand_delegateShape s)
  | registerWrite ap n rs vs => exact complete_keeps (frameCommand_delegateShape s)
  | runCtrlRead ap d => exact complete_keeps (frameCommand_delegateShape_total s)
  | runCtrlWrite ap d => exact complete_keeps (frameCommand_delegateShape_total s)
  | scanAps x =>
    exact complete_keeps
      (keeps_then hc (keeps_requireDetected hc) (keeps_packed hc (keeps_scanFrom hsel x _ _)) s)
  | getChipVersion => exact complete_keeps (keeps_then hc (keeps_requireDetected hc) (keeps_chipVersion hsel) s)
  | readMemory ap a b =>
    exact complete_keeps (frameCommand_engineShape (fun _ => keeps_readMemory heng trivial a b) s)
  | writeMemory ap a n d =>
    exact complete_keeps (frameCommand_engineShape (fun _ => keeps_writeMemory heng trivial a _) s)
  | writeMemoryRmw ap a n d =>
    exact complete_keeps (frameCommand_engineShape (fun _ => keeps_writeMemoryRmw heng trivial a _) s)
  | pollRead ap x n bz =>
    exact complete_keeps (frameCommand_engineShape (fun _ => keeps_pollRead heng trivial x n bz) s)
  | pollWrite ap x n vs bz =>
    exact complete_keeps (frameCommand_engineShape (fun _ => keeps_pollWrite heng trivial x vs bz) s)
  | jtagIrsel ir => exact complete_keeps (frameCommand_linkShape_total (frameLink_irsel ir) s)
  | jtagScan ir rnw a d => exact complete_keeps (frameCommand_linkShape (frameLink_scan ir rnw a d) s)
  | jtagDpaccRd a => exact complete_keeps (frameCommand_linkShape (keepsOn_jtagDpaccRd hlink a) s)
  | jtagDpaccWr a v => exact complete_keeps (frameCommand_linkShape (keepsOn_jtagDpaccWr hlink a v) s)
  | jtagApaccRd a => exact complete_keeps (frameCommand_linkShape (keepsOn_jtagApaccRd hlink a) s)
  | jtagApaccWr a v => exact complete_keeps (frameCommand_linkShape (keepsOn_jtagApaccWr hlink a v) s)
  | jtagReadn rs => exact complete_keeps (frameCommand_linkShape (keepsOn_jtagReadnAny habort rs) s)
  | jtagWriten a ws => exact complete_keeps (frameCommand_linkShape (keepsOn_jtagWriten hlink a ws) s)
  | jtagAbortWr v => exact complete_keeps (frameCommand_linkShape_total (keepsOn_jtagAbortWr habort v) s)
  | swdXfer p q a w =>
    exact complete_keeps (frameCommand_linkShape (keepsOn_of_keeps (keeps_swdXferAny habort p q a w)) s)
  | swdDpRd a => exact complete_keeps (frameCommand_linkShape (keepsOn_of_keeps (keeps_swdDpRd hlink a)) s)
  | swdDpWr a v =>
    exact complete_keeps (frameCommand_linkShape (keepsOn_of_keeps
      (keeps_packed hlink.toChain (keeps_swdXferAny habort false false a v))) s)
  | swdApRd a => exact complete_keeps (frameCommand_linkShape (keepsOn_of_keeps (keeps_swdApRd hlink a)) s)
  | swdApWr a v => exact complete_keeps (frameCommand_linkShape (keepsOn_of_keeps (keeps_swdApWr hlink a v)) s)
  | swdReadn a n => exact complete_keeps (frameCommand_linkShape (keepsOn_of_keeps (keeps_swdReadn hlink a n)) s)
  | swdWriten a ws => exact complete_keeps (frameCommand_linkShape (keepsOn_of_keeps (keeps_swdWriten hlink a ws)) s)
  | swdAbort v =>
    exact complete_keeps (frameCommand_linkShape_total (keepsOn_of_keeps
      (keeps_packed hlink.toChain (keeps_swdXferAny habort false false _ v))) s)
  | swdLinereset => exact complete_keeps (frameCommand_linkShape_total (keepsOn_of_keeps (keeps_swdLinereset hlink)) s)
  | swdTargetsel v =>
    exact complete_keeps (frameCommand_linkShape_total (keepsOn_of_keeps (keeps_swdTargetsel hlink v)) s)

/-- A freeze entered by a command is left by it on every path: only the two freeze commands and TEARDOWN end at another
depth (R196). -/
theorem exec_sameDepth (i : Instr) (s : State) (hf : i ≠ .freezeSelect) (hu : i ≠ .unfreezeSelect)
    (ht : i ≠ .teardown) : ∃ r u, exec i s = .next (u.pushResult r) ∧ SameDepth s u := by
  by_cases hd : i = .detectVersion
  · subst hd
    exact complete_keeps (keeps_packed sameDepth_chain sameDepth_detectVersion s)
  · obtain ⟨r, u, hexec, hframe⟩ := exec_frameCommand i s hd hf hu ht
    exact ⟨r, u, hexec, hframe.freezeDepth⟩

/-- Settles O35: what UNFREEZE_SELECT leaves is `State.unfreeze`; every other command keeps the depth by its frame. -/
theorem unfreezeSelectUnwinds : Obligations.UnfreezeSelectUnwinds := by
  refine ⟨fun s => ⟨s.unfreeze, exec_unfreezeSelect s, unfreeze_freezeDepth s, unfreeze_frozenValid_eq_ite s,
    unfreeze_frame s⟩, fun i s t _ hf hu ht hexec => ?_⟩
  obtain ⟨r, u, hnext, hdepth⟩ := exec_sameDepth i s hf hu ht
  have htu : t = u.pushResult r := Host.Outcome.next.inj (hexec.symm.trans hnext)
  rw [htu, pushResult_freezeDepth]
  exact hdepth

end Sys2Proof.Machine

/-! TEARDOWN and what it leaves alone (44_transport.md, R277). -/

namespace Sys2Proof.Machine

/-- The two tables kept per AP, read at any AP after TEARDOWN (R24, R25, R277). -/
theorem teardown_ap_reset (s : State) (ap : ApIndex) :
    s.teardown.apStateOf ap = .unresolved ∧ s.teardown.connOf ap = none :=
  ⟨teardown_apStateOf s ap, teardown_connOf s ap⟩

/-- Settles O60: the state TEARDOWN leaves is `State.teardown`, which writes the working registers alone. The trace and
the answers are as before, so no link call was made. -/
theorem teardownResets : Obligations.TeardownResets := by
  refine fun s => ⟨s.teardown, exec_teardown s, ?_⟩
  exact ⟨teardown_dpVersion s, teardown_selectLast s, teardown_freezeDepth s, teardown_frozenValid s,
    teardown_jtagIr s, teardown_ap_reset s, teardown_cfg s, teardown_trace s, teardown_target s,
    teardown_commands s, teardown_pc s, teardown_results s, teardown_answers s⟩

end Sys2Proof.Machine

/-! The invariant of the machine (10_state.md section 1, 70_reset_and_hazards.md): it holds after reset, and it survives
the primitive effects of every layer, so every command and every step keep it. -/

namespace Sys2Proof.Machine

open Sys2Proof

/-! ## The registers of the host side -/

/-- An entry that differs in the sub-word cache and the shadow at most fits its AP state as before. -/
theorem ConnInv.of_same {s t : State} {ap : ApIndex} (h : ConnInv s ap) (hv : t.dpVersion = s.dpVersion)
    (ha : t.apStateOf ap = s.apStateOf ap) (he : SameEntry (s.connOf ap) (t.connOf ap)) : ConnInv t ap := by
  have hreg : t.apReg drwOffset = s.apReg drwOffset := by unfold State.apReg; rw [hv]
  unfold ConnInv at h ⊢
  rw [ha, hreg]
  cases hc : s.connOf ap with
  | none =>
    cases hd : t.connOf ap with
    | none => rw [hc] at h; exact h
    | some d => rw [hc, hd] at he; exact he.elim
  | some c =>
    cases hd : t.connOf ap with
    | none => rw [hc, hd] at he; exact he.elim
    | some d =>
      rw [hc, hd] at he
      have hsame : { d with subword := c.subword, cswShadow := c.cswShadow } = c := he
      rw [hc, ← hsame] at h
      cases hs : s.apStateOf ap <;> rw [hs] at h <;> exact h

/-- What a link transaction may change is the instruction register and the target, and those keep their part of the
invariant on their own. -/
theorem Inv.of_frameLink {s t : State} (h : Inv s) (f : FrameLink s t) (hj : t.jtagIr ≠ none → t.cfg.iface = .jtag)
    (hc : IrCoherent t) (ht : ∀ x, t.target = some x → T0Inv x) : Inv t where
  freeze := by rw [f.frozenValid, f.freezeDepth]; exact h.freeze
  conns := fun ap => (h.conns ap).of_same f.dpVersion (apStateOf_congr f.apState ap)
    (by rw [connOf_congr f.conn]; exact SameEntry.refl _)
  unready := fun hd ap => by
    rw [apStateOf_congr f.apState]
    exact h.unready (f.dpVersion ▸ hd) ap
  jtagIr := hj
  coherent := hc
  results := by rw [f.results, f.pc]; exact h.results
  target := ht

/-- Changes of one AP's cached fields, of `select_last` and of the freeze. -/
theorem Inv.of_cached {s t : State} (h : Inv s) (hf : t.frozenValid = true → 0 < t.freezeDepth)
    (hv : t.dpVersion = s.dpVersion) (ha : t.apState = s.apState)
    (he : ∀ ap, SameEntry (s.connOf ap) (t.connOf ap)) (hj : t.jtagIr = s.jtagIr) (hg : t.cfg = s.cfg)
    (ht : t.target = s.target) (hr : t.results = s.results) (hp : t.pc = s.pc) : Inv t where
  freeze := hf
  conns := fun ap => (h.conns ap).of_same hv (apStateOf_congr ha ap) (he ap)
  unready := fun hd ap => by
    rw [apStateOf_congr ha]
    exact h.unready (hv ▸ hd) ap
  jtagIr := by rw [hj, hg]; exact h.jtagIr
  coherent := by unfold IrCoherent; rw [hj, ht]; exact h.coherent
  results := by rw [hr, hp]; exact h.results
  target := by rw [ht]; exact h.target

theorem Inv.setSelectLast {s : State} (h : Inv s) (v : Option W32) : Inv (s.setSelectLast v) :=
  h.of_cached h.freeze rfl rfl (fun _ => SameEntry.refl _) rfl rfl rfl rfl rfl

theorem Inv.setFreeze {s : State} (h : Inv s) {d : Nat} {v : Bool} (hd : v = true → 0 < d) : Inv (s.setFreeze d v) :=
  h.of_cached hd rfl rfl (fun _ => SameEntry.refl _) rfl rfl rfl rfl rfl

theorem Inv.frozen {s : State} (h : Inv s) : Inv s.freeze :=
  h.setFreeze fun _ => Nat.succ_pos _

/-- The last unfreeze ends the validity, so a valid freeze still has a depth (R196). -/
theorem Inv.unfrozen {s : State} (h : Inv s) : Inv s.unfreeze := by
  unfold State.unfreeze
  split
  · exact h
  · refine h.setFreeze fun hv => ?_
    have h1 : s.freezeDepth ≠ 1 := by
      simp only [Bool.and_eq_true, bne_iff_ne] at hv
      exact hv.1
    omega

theorem sameEntry_setConn {s : State} {ap : ApIndex} {c : Option MemApConnection} (h : SameEntry (s.connOf ap) c)
    (j : ApIndex) : SameEntry (s.connOf j) ((s.setConn ap c).connOf j) := by
  by_cases hj : j = ap
  · rw [hj, connOf_setConn_same]; exact h
  · rw [connOf_setConn_ne s ap j c hj]; exact SameEntry.refl _

theorem Inv.setShadow {s : State} (h : Inv s) (ap : ApIndex) (w : W32) : Inv (s.setShadow ap w) :=
  h.of_cached h.freeze rfl rfl (sameEntry_setConn (SameEntry.map_shadow _ w)) rfl rfl rfl rfl rfl

theorem Inv.setSubword {s : State} (h : Inv s) (ap : ApIndex) (b : Bool) : Inv (s.setSubword ap b) :=
  h.of_cached h.freeze rfl rfl (sameEntry_setConn (SameEntry.map_subword _ b)) rfl rfl rfl rfl rfl

/-- No connection exists for an AP that is not resolved (R25). -/
theorem Inv.unresolved_conn {s : State} (h : Inv s) {ap : ApIndex} (hu : s.apStateOf ap = .unresolved) :
    s.connOf ap = none := by
  have hc := h.conns ap
  unfold ConnInv at hc
  rw [hu] at hc
  cases he : s.connOf ap with
  | none => rfl
  | some c => rw [he] at hc; exact hc.elim

/-- The entry of one AP is replaced by one that fits, a version being detected. -/
theorem Inv.setEntry {s : State} (h : Inv s) {ap : ApIndex} {c : Option MemApConnection} {v : ApState}
    (hd : detected s.dpVersion = true) (hc : ConnInv ((s.setConn ap c).setApState ap v) ap) :
    Inv ((s.setConn ap c).setApState ap v) where
  freeze := h.freeze
  conns := fun j => by
    by_cases hj : j = ap
    · exact hj ▸ hc
    · refine (h.conns j).of_same rfl (apStateOf_setApState_ne (s.setConn ap c) ap j v hj) ?_
      have he : ((s.setConn ap c).setApState ap v).connOf j = s.connOf j := connOf_setConn_ne s ap j c hj
      rw [he]
      exact SameEntry.refl _
  unready := fun hn => by
    have hn' : detected s.dpVersion = false := hn
    rw [hd] at hn'
    exact Bool.noConfusion hn'
  jtagIr := h.jtagIr
  coherent := h.coherent
  results := h.results
  target := h.target

/-- An AP found absent (R230). -/
theorem Inv.setAbsent {s : State} (h : Inv s) {ap : ApIndex} (hu : s.apStateOf ap = .unresolved)
    (hd : detected s.dpVersion = true) : Inv (s.setApState ap .absent) := by
  have hn := h.unresolved_conn hu
  have hsame : s.setConn ap none = s := by
    unfold State.setConn
    have : s.conn[ap.toNat]'ap.isLt = none := hn
    rw [← this, Vector.set_getElem_self]
  have hc : ConnInv ((s.setConn ap none).setApState ap .absent) ap := by
    have he : ((s.setConn ap none).setApState ap .absent).connOf ap = none := connOf_setConn_same s ap none
    unfold ConnInv
    rw [apStateOf_setApState_same, he]
    trivial
  have := h.setEntry hd hc
  rwa [hsame] at this

/-- A connection made from the words read (R230). -/
theorem Inv.setCreated {s : State} (h : Inv s) {ap : ApIndex} {c : MemApConnection} {v : ApState}
    (hd : detected s.dpVersion = true) (hc : Created s ap c v) : Inv ((s.setConn ap (some c)).setApState ap v) := by
  obtain ⟨idr, csw, shadow, ai, per, hidr, hconn, hstate⟩ := hc
  refine h.setEntry hd ?_
  have he : ((s.setConn ap (some c)).setApState ap v).connOf ap = some c := connOf_setConn_same s ap _
  unfold ConnInv
  rw [apStateOf_setApState_same, he, hstate, hconn]
  unfold presentState
  cases hen : cswDeviceEn csw
  · exact ⟨rfl, hen, rfl, hidr, rfl⟩
  · exact ⟨rfl, hen, rfl, hidr, rfl⟩

/-- Before a version is detected nothing is resolved, so the layout of no connection is in question (R205). -/
theorem Inv.setVersion {s : State} (h : Inv s) (hd : detected s.dpVersion = false) (v : DpVersion) :
    Inv (s.setDpVersion v) where
  freeze := h.freeze
  conns := fun ap => by
    have hu := h.unready hd ap
    have hs : (s.setDpVersion v).apStateOf ap = .unresolved := hu
    have hn : (s.setDpVersion v).connOf ap = none := h.unresolved_conn hu
    unfold ConnInv
    rw [hs, hn]
    trivial
  unready := fun _ ap => h.unready hd ap
  jtagIr := h.jtagIr
  coherent := h.coherent
  results := h.results
  target := h.target

/-- A state whose working registers are those of reset. -/
theorem Inv.of_reset {s : State} (hf : s.frozenValid = false) (ha : ∀ ap, s.apStateOf ap = .unresolved)
    (hc : ∀ ap, s.connOf ap = none) (hj : s.jtagIr = none) (hr : s.results.length = s.pc)
    (ht : ∀ t, s.target = some t → T0Inv t) : Inv s where
  freeze := fun hv => by rw [hf] at hv; exact Bool.noConfusion hv
  conns := fun ap => by unfold ConnInv; rw [ha, hc]; trivial
  unready := fun _ => ha
  jtagIr := fun hn => absurd hj hn
  coherent := fun _ _ ir hi => by rw [hj] at hi; cases hi
  results := hr
  target := ht

theorem Inv.tornDown {s : State} (h : Inv s) : Inv s.teardown :=
  .of_reset rfl (teardown_apStateOf s) (teardown_connOf s) rfl h.results h.target

/-! ## The instruction register and the target -/

/-- T0's instruction register changes by `BD.ir_scan` alone (R408). -/
theorem drScan_ir (t : T0) (req : Scan) : (t.drScan req).2.ir = t.ir := by
  unfold T0.drScan
  split
  · rfl
  · split
    · unfold T0.waitOnce; split <;> rfl
    · exact (scanEffect_kept t req).ir

theorem swdRequest_ir (t : T0) (req : Byte) : (t.swdRequest req).2.ir = t.ir := by
  unfold T0.swdRequest
  dsimp only
  split
  · rfl
  · split
    · show t.waitOnce.ir = t.ir
      unfold T0.waitOnce; split <;> rfl
    · split <;> rfl

theorem swdReadPhase_ir (t : T0) : t.swdReadPhase.2.ir = t.ir := by
  unfold T0.swdReadPhase
  split
  · rfl
  · exact (apAccess_kept t true _ 0).ir
  · rfl
  · rfl
  · rfl

theorem swdWritePhase_ir (t : T0) (w : W32) : (t.swdWritePhase w).ir = t.ir := by
  unfold T0.swdWritePhase
  split
  · exact (dpWrite_kept t _ w).ir
  · exact (apAccess_kept t false _ w).ir
  · rfl
  · rfl
  · rfl

theorem driveLine_ir (t : T0) (segs : List Segment) : (t.driveLine segs).2.ir = t.ir := by
  unfold T0.driveLine
  split
  · exact swdRequest_ir t _
  · exact swdReadPhase_ir t
  · exact swdWritePhase_ir t _
  · rfl

/-- A call that leaves `jtag_ir` and, if there is a target, takes it to one with the same instruction register. -/
theorem Inv.of_call {s t : State} (h : Inv s) (f : FrameLink s t) (hj : t.jtagIr = s.jtagIr)
    (ht : ∀ y, t.target = some y → ∃ x, s.target = some x ∧ y.ir = x.ir ∧ (T0Inv x → T0Inv y)) : Inv t := by
  refine h.of_frameLink f (by rw [hj, f.cfg]; exact h.jtagIr) (fun y hy ir hi => ?_) fun y hy => ?_
  · obtain ⟨x, hx, hir, _⟩ := ht y hy
    rw [hir]
    exact h.coherent x hx ir (hj ▸ hi)
  · obtain ⟨x, hx, _, hinv⟩ := ht y hy
    exact hinv (h.target x hx)

/-! ## Every command -/

/-- A computation that keeps the invariant, and the configuration with it. -/
def KeepsInv (s t : State) : Prop := Inv s → Inv t ∧ t.cfg = s.cfg

theorem keepsInv_chain : Chain KeepsInv where
  refl := fun _ h => ⟨h, rfl⟩
  trans := fun h k hs => by
    obtain ⟨ht, hc⟩ := h hs
    obtain ⟨hu, hd⟩ := k ht
    exact ⟨hu, hd.trans hc⟩

theorem keepsInv_drScan (req : Scan) : Keeps KeepsInv (bdDrScan req) := by
  intro s h
  have f := frameLink_drScan req s
  refine ⟨?_, f.cfg⟩
  cases e : s.target with
  | none =>
    rw [bdDrScan_free req e] at f ⊢
    exact h.of_call f rfl fun y hy => absurd (e.symm.trans hy) (by simp)
  | some t =>
    rw [bdDrScan_target req e] at f ⊢
    refine h.of_call f rfl fun y hy => ⟨t, e, ?_⟩
    cases hy
    exact ⟨drScan_ir t req, fun ht => ht.drScan req⟩

theorem keepsInv_driveLine (segs : List Segment) : Keeps KeepsInv (bdDriveLine segs) := by
  intro s h
  have f := frameLink_abortStable.driveAny segs s
  refine ⟨?_, f.cfg⟩
  cases e : s.target with
  | none =>
    by_cases hn : sampledBits segs = 0
    · rw [bdDriveLine_silent e hn] at f ⊢
      exact h.of_call f rfl fun y hy => absurd (e.symm.trans hy) (by simp)
    · rw [bdDriveLine_free e hn] at f ⊢
      exact h.of_call f rfl fun y hy => absurd (e.symm.trans hy) (by simp)
  | some t =>
    rw [bdDriveLine_target segs e] at f ⊢
    refine h.of_call f rfl fun y hy => ⟨t, e, ?_⟩
    cases hy
    exact ⟨driveLine_ir t segs, fun ht => ht.driveLine segs⟩

/-- JTAG.IRSEL loads the target's register together with `jtag_ir` (R26, R150). -/
theorem keepsInv_irsel (ir : IrCode) : KeepsOn .jtag KeepsInv (jtagIrsel ir) := by
  intro s hs h
  have f := frameLink_irsel ir s hs
  refine ⟨?_, f.cfg⟩
  by_cases hi : s.jtagIr = some ir
  · rw [jtagIrsel_same hi]; exact h
  · rw [jtagIrsel_change hi] at f ⊢
    have htarget : ∀ y, s.target.map (fun t => t.irScan ir.code) = some y → ∃ x, s.target = some x ∧
        y = x.irScan ir.code := fun y hy => by
      obtain ⟨x, hx, hxy⟩ := Option.map_eq_some_iff.mp hy
      exact ⟨x, hx, hxy.symm⟩
    refine h.of_frameLink f (fun _ => hs) (fun y hy ir' hi' => ?_) fun y hy => ?_
    · obtain ⟨x, _, rfl⟩ := htarget y hy
      cases hi'
      rfl
    · obtain ⟨x, hx, rfl⟩ := htarget y hy
      exact (h.target x hx).congr rfl rfl rfl rfl rfl

theorem keepsInv_scan (ir : IrCode) (rnw : Bool) (a : RegAddr) (d : W32) :
    KeepsOn .jtag KeepsInv (jtagScan ir rnw a d) :=
  keepsOn_jtagScan_of keepsInv_chain (keepsInv_irsel ir) (keepsInv_drScan _)

theorem keepsInv_backend (s : State) (call : BackendCall) (reply : BackendReply) :
    KeepsInv s (s.pushEvent (.backend call reply)) := fun h =>
  ⟨h.of_call (frameLink_abortStable.backendAny s call reply) rfl fun y hy => ⟨y, hy, rfl, id⟩, rfl⟩

theorem keepsInv_link : LinkStable KeepsInv where
  toChain := keepsInv_chain
  cfg := fun {s t} h => by
    by_cases hs : Inv s
    · exact .inl (h hs).2
    · exact .inr fun u hi => absurd hi hs
  irsel := fun ir _ => keepsInv_irsel ir
  scan := fun ir rnw a d _ => keepsInv_scan ir rnw a d
  driveLine := fun segs _ => keepsInv_driveLine segs
  draw := fun s h => ⟨h.of_call (frameLink_stable.draw s) rfl fun y hy => ⟨y, hy, rfl, id⟩, rfl⟩
  backend := fun s call reply _ => keepsInv_backend s call reply

/-- The invariant survives the primitive effects of every layer. -/
theorem keepsInv_stable : CommandStable KeepsInv where
  toLinkStable := keepsInv_link
  lose := fun _ h => ⟨h.setSelectLast none, rfl⟩
  gain := fun s v _ h =>
    ⟨(h.setSelectLast (some v)).setFreeze fun hv => h.freeze (freezeAfter_valid hv), rfl⟩
  shadow := fun _ ap w _ h => ⟨h.setShadow ap w, rfl⟩
  subword := fun _ ap b _ h => ⟨h.setSubword ap b, rfl⟩
  frozen := fun _ t k h => by
    obtain ⟨ht, hc⟩ := k h.frozen
    exact ⟨ht.unfrozen, (unfreeze_cfg t).trans hc⟩
  absent := fun _ _ _ hu hd h => ⟨h.setAbsent hu hd, rfl⟩
  commit := fun _ _ _ _ _ _ hd hc h => ⟨h.setCreated hd hc, rfl⟩
  own := fun _ _ _ _ _ => .inl trivial
  irselAbort := keepsInv_irsel .abort
  scanAbort := keepsInv_scan .abort
  driveAny := keepsInv_driveLine
  backendAny := keepsInv_backend
  version := fun _ v hd h => ⟨h.setVersion hd v, rfl⟩
  freeze := fun _ h => ⟨h.frozen, rfl⟩
  unfreeze := fun s h => ⟨h.unfrozen, unfreeze_cfg s⟩
  teardown := fun _ h => ⟨h.tornDown, rfl⟩

/-- One result more, and the next command: the count of results follows the pc (R31). -/
theorem Inv.advance {s : State} (h : Inv s) (r : Result) : Inv (s.pushResult r).advance where
  freeze := h.freeze
  conns := fun ap => (h.conns ap).of_same rfl rfl (SameEntry.refl _)
  unready := h.unready
  jtagIr := h.jtagIr
  coherent := h.coherent
  results := by
    have : (s.results ++ [r]).length = s.pc + 1 := by simp [h.results]
    exact this
  target := h.target

/-- Settles O2: the reset state has nothing resolved, nothing frozen, no instruction register and no target. -/
theorem resetMeetsInvariant : Obligations.ResetMeetsInvariant :=
  .of_reset rfl reset_apStateOf reset_connOf rfl rfl fun _ ht => nomatch ht

/-- Settles O3: the command at the pc keeps the invariant because the primitive effects of every layer do, and the step
adds its result and the pc. -/
theorem stepKeepsInvariant : Obligations.StepKeepsInvariant := by
  intro s h
  unfold step
  cases fetch s with
  | idle => exact ⟨s, rfl, h⟩
  | illegal => exact ⟨_, rfl, h.advance _⟩
  | instr i =>
    obtain ⟨r, u, hexec, hkeep⟩ := exec_keeps keepsInv_stable i s
    refine ⟨(u.pushResult r).advance, ?_, (hkeep h).1.advance r⟩
    simp only [hexec]
    rfl

end Sys2Proof.Machine

/-! The binary forms (30_encoding.md): every well-formed instruction decodes from its own form, and what is reserved does
not decode. -/

namespace Sys2Proof

/-! ## The level H header -/

theorem hFlags_hHeader (o f a : BitVec 8) : hFlags (hHeader o f a) = f := by
  unfold hFlags hHeader
  ext i hi
  simp only [BitVec.getElem_extractLsb', BitVec.getLsbD_append]
  simp [show 16 + i - 8 - 8 = i by omega, show ¬ 16 + i < 8 by omega, show ¬ 16 + i - 8 < 8 by omega, hi,
    BitVec.getLsbD_eq_getElem]

theorem hAp_hHeader (o f a : BitVec 8) : hAp (hHeader o f a) = a := by
  unfold hAp hHeader
  ext i hi
  simp only [BitVec.getElem_extractLsb', BitVec.getLsbD_append]
  simp [show 8 + i - 8 = i by omega, show ¬ 8 + i < 8 by omega, hi, BitVec.getLsbD_eq_getElem]

/-- A header without reserved bits leaves the rest to the row of its opcode (R111). -/
theorem decode_host_row {w : W32} (h : hRsv w = 0) (ops : List W32) :
    decode (.host (w :: ops)) = decodeRow (hOpcode w) (hFlags w) (hAp w) ops := if_pos h

theorem decode_hHeader (o f a : BitVec 8) (ops : List W32) :
    decode (.host (hHeader o f a :: ops)) = decodeRow o f a ops := by
  rw [decode_host_row (hRsv_hHeader o f a), hOpcode_hHeader, hFlags_hHeader, hAp_hHeader]

theorem DpReg.ofCode_code (r : DpReg) : DpReg.ofCode r.code = some r := by
  cases r <;> rfl

theorem wordOf_toNat {n : Nat} (h : fitsWord n = true) : (wordOf n).toNat = n := by
  unfold fitsWord at h
  exact Nat.mod_eq_of_lt (of_decide_eq_true h)

/-- The flags of GET_CONNECTION are four bits that give back its operands (R126). -/
theorem connectionFlags_fields (ai : Option Bool) (per dis : Bool) :
    connectionFlags ai per dis &&& ~~~0x0F = 0 ∧ (connectionFlags ai per dis).getLsbD 0 = dis ∧
      (connectionFlags ai per dis).getLsbD 3 = per ∧
      (if (connectionFlags ai per dis).getLsbD 1 then some ((connectionFlags ai per dis).getLsbD 2) else none) = ai := by
  revert ai per dis
  decide

theorem decodeRow_getConnection (ap : ApIndex) (ai : Option Bool) (per dis : Bool) :
    decodeRow 0x10 (connectionFlags ai per dis) ap [] = .ok (.getConnection ap ai per dis) := by
  obtain ⟨hmask, hdis, hper, hai⟩ := connectionFlags_fields ai per dis
  show flagsIn 0x0F (connectionFlags ai per dis) (.ok (.getConnection ap
    (if (connectionFlags ai per dis).getLsbD 1 then some ((connectionFlags ai per dis).getLsbD 2) else none)
    ((connectionFlags ai per dis).getLsbD 3) ((connectionFlags ai per dis).getLsbD 0))) = _
  rw [hai, hper, hdis]
  exact if_pos hmask

theorem busyOf_busyWords (b : Option BusyCheck) : busyOf b.isSome (busyWords b) = .ok b := by
  cases b <;> rfl

theorem flag0_fields (b : Bool) : flag0 b &&& ~~~0x01 = 0 ∧ (flag0 b).getLsbD 0 = b := by
  cases b <;> decide

theorem decodeRow_pollRead (ap : ApIndex) (x : W32) {n : Nat} (hn : fitsWord n = true) (b : Option BusyCheck) :
    decodeRow 0x23 (flag0 b.isSome) ap (x :: wordOf n :: busyWords b) = .ok (.pollRead ap x n b) := by
  obtain ⟨hmask, hflag⟩ := flag0_fields b.isSome
  refine (if_pos hmask).trans ?_
  show (busyOf ((flag0 b.isSome).getLsbD 0) (busyWords b)).map (Instr.pollRead ap x (wordOf n).toNat) = _
  rw [hflag, busyOf_busyWords, wordOf_toNat hn]
  rfl

/-- The values of POLL_WRITE are what the busy-check words leave (R126). -/
theorem pollValueCount_append (vs : List W32) (b : Option BusyCheck) :
    pollValueCount b.isSome (vs ++ busyWords b) = vs.length := by
  cases b with
  | none => simp [pollValueCount, busyWords]
  | some b => simp [pollValueCount, busyWords]

theorem decodeRow_pollWrite (ap : ApIndex) (x : W32) {n : Nat} (hn : fitsWord n = true) (vs : List W32)
    (b : Option BusyCheck) :
    decodeRow 0x24 (flag0 b.isSome) ap (x :: wordOf n :: (vs ++ busyWords b)) = .ok (.pollWrite ap x n vs b) := by
  obtain ⟨hmask, hflag⟩ := flag0_fields b.isSome
  refine (if_pos hmask).trans ?_
  show (busyOf ((flag0 b.isSome).getLsbD 0)
      ((vs ++ busyWords b).drop (pollValueCount ((flag0 b.isSome).getLsbD 0) (vs ++ busyWords b)))).map
    (Instr.pollWrite ap x (wordOf n).toNat
      ((vs ++ busyWords b).take (pollValueCount ((flag0 b.isSome).getLsbD 0) (vs ++ busyWords b)))) = _
  rw [hflag, pollValueCount_append, List.drop_left, List.take_left, busyOf_busyWords, wordOf_toNat hn]
  rfl

theorem decodeRow_registerWrite (ap : ApIndex) {n : Nat} (hn : fitsWord n = true) {rs : List W32} (hl : rs.length = n)
    (vs : List W32) : decodeRow 0x14 0 ap (wordOf n :: (rs ++ vs)) = .ok (.registerWrite ap n rs vs) := by
  show Except.ok (Instr.registerWrite ap (wordOf n).toNat ((rs ++ vs).take (wordOf n).toNat)
    ((rs ++ vs).drop (wordOf n).toNat)) = _
  rw [wordOf_toNat hn, List.take_left' hl, List.drop_left' hl]

theorem decodeRow_scanAps (x : Bool) : decodeRow 0x17 (flag0 x) 0 [] = .ok (.scanAps x) := by
  cases x <;> rfl

/-! ## JTAG scans (R116, R117) -/

theorem scanOk_aligned {ir : IrCode} {rnw : Bool} {a : RegAddr} {d : W32} (h : scanOk ir rnw a d = true) :
    a.aligned = true := by
  unfold scanOk readScanOk at h
  cases rnw <;> simp_all

/-- A request the driver emits gives back its fields (R117). -/
theorem scanOk_fields {ir : IrCode} {rnw : Bool} {a : RegAddr} {d : W32} (h : scanOk ir rnw a d = true) :
    drRnw (drReq rnw a d) = rnw ∧ drAddr (drReq rnw a d) = a ∧ drData (drReq rnw a d) = d :=
  Machine.drReq_fields rnw a d (scanOk_aligned h)

theorem decodeScanBlock_drReq {ir : IrCode} {rnw : Bool} {a : RegAddr} {d : W32} (h : scanOk ir rnw a d = true) :
    decodeScanBlock ir.code (drReq rnw a d) = .ok (.jtagScan ir rnw a d) := by
  obtain ⟨hr, ha, hd⟩ := scanOk_fields h
  unfold decodeScanBlock
  rw [Machine.ofCode_code, hr, ha, hd]
  exact if_pos h

/-- The transaction R128 selects for a request the driver emits, by its instruction-register code and direction. -/
theorem decodeScan_drReq {ir : IrCode} {rnw : Bool} {a : RegAddr} {d : W32} (h : scanOk ir rnw a d = true) :
    decodeScan ir.code (drReq rnw a d) =
      match ir, rnw with
      | .abort, _ => if a = 0 then .ok (.jtagAbortWr d) else .error .scanRequest
      | .dpacc, true => .ok (.jtagDpaccRd a)
      | .dpacc, false => .ok (.jtagDpaccWr a d)
      | .apacc, true => .ok (.jtagApaccRd a)
      | .apacc, false => .ok (.jtagApaccWr a d) := by
  obtain ⟨hr, ha, hd⟩ := scanOk_fields h
  unfold decodeScan
  rw [Machine.ofCode_code, hr, ha, hd]
  simp only [h, if_true]
  cases ir <;> cases rnw <;> rfl

theorem readOfScan_drReq {r : IrCode × RegAddr} (h : readScanOk r = true) :
    readOfScan (r.1.code, drReq true r.2 0) = some r := by
  have hok : scanOk r.1 true r.2 0 = true := by simpa [scanOk] using h
  obtain ⟨hr, ha, hd⟩ := scanOk_fields hok
  unfold readOfScan
  simp only [Machine.ofCode_code, hr, ha, hd, hok, Bool.and_self, if_true]

/-- The scans of a JTAG.READN: the reads and the dummy read of RDBUFF (R156). -/
theorem readsOfScans_encoded {rs : List (IrCode × RegAddr)} (h : rs.all readScanOk = true) :
    readsOfScans (rs.map (fun r => (r.1.code, drReq true r.2 0)) ++ [(IrCode.dpacc.code, drReq true 0xC 0)]) =
      some rs := by
  induction rs with
  | nil => rfl
  | cons r rs ih =>
    obtain ⟨hr, hrs⟩ : readScanOk r = true ∧ rs.all readScanOk = true := by simpa using h
    have hih := ih hrs
    rw [List.map_cons, List.cons_append, readsOfScans, readOfScan_drReq hr, hih]
    intro he
    cases rs <;> simp at he

theorem decodeScanSeq_reads {rs : List (IrCode × RegAddr)} (hne : rs ≠ []) (h : rs.all readScanOk = true) :
    decodeScanSeq (rs.map (fun r => (r.1.code, drReq true r.2 0)) ++ [(IrCode.dpacc.code, drReq true 0xC 0)]) =
      .ok (.jtagReadn rs) := by
  cases rs with
  | nil => exact absurd rfl hne
  | cons r rs =>
    have hr : readScanOk r = true := (Bool.and_eq_true _ _ ▸ h : _ ∧ _).1
    have hok : scanOk r.1 true r.2 0 = true := by simpa [scanOk] using hr
    have hall := readsOfScans_encoded h
    rw [List.map_cons, List.cons_append] at hall ⊢
    unfold decodeScanSeq
    simp only [(scanOk_fields hok).1, hall, if_true]

theorem writesOfScans_encoded {a : RegAddr} (ha : a.aligned = true) (ws : List W32) :
    writesOfScans a (ws.map fun w => (IrCode.apacc.code, drReq false a w)) = some ws := by
  induction ws with
  | nil => rfl
  | cons w ws ih =>
    rw [List.map_cons, writesOfScans, ih]
    simp only [(Machine.drReq_fields false a w ha).2.2, and_self, if_true]

theorem decodeScanSeq_writes {a : RegAddr} (ha : a.aligned = true) {ws : List W32} (hne : ws ≠ []) :
    decodeScanSeq (ws.map fun w => (IrCode.apacc.code, drReq false a w)) = .ok (.jtagWriten a ws) := by
  cases ws with
  | nil => exact absurd rfl hne
  | cons w ws =>
    obtain ⟨hr, hadr, _⟩ := Machine.drReq_fields false a w ha
    have hall := writesOfScans_encoded ha (w :: ws)
    rw [List.map_cons] at hall ⊢
    unfold decodeScanSeq
    simp only [hr, hadr, hall, Bool.false_eq_true, if_false]

/-! ## SWD packets (R119) -/

/-- A packet the driver emits is a valid request byte with its fields (R119). -/
theorem packetOk_fields {apndp rnw : Bool} {a : RegAddr} (h : packetOk apndp rnw a = true) :
    (swdApndp (swdReqByte apndp rnw a) = apndp ∧ swdRnw (swdReqByte apndp rnw a) = rnw ∧
      swdAddr (swdReqByte apndp rnw a) = a) ∧ swdReqValid (swdReqByte apndp rnw a) = true := by
  have ha : a.aligned = true := (Bool.and_eq_true _ _ ▸ h : _ ∧ _).1
  have hf := Machine.swdReq_fields apndp rnw a ha
  obtain ⟨hp, hr, hadr⟩ := hf
  refine ⟨⟨hp, hr, hadr⟩, ?_⟩
  unfold swdReqValid
  rw [hp, hr, hadr]
  exact beq_self_eq_true _

theorem decodeSwdBlock_swdReqByte {apndp rnw : Bool} {a : RegAddr} (h : packetOk apndp rnw a = true) (w : W32) :
    decodeSwdBlock (swdReqByte apndp rnw a) w = .ok (.swdXfer apndp rnw a w) := by
  obtain ⟨⟨hp, hr, ha⟩, hv⟩ := packetOk_fields h
  unfold decodeSwdBlock
  rw [hp, hr, ha, hv, h]
  rfl

/-- The transaction a request byte stands for; ABORT and TARGETSEL are the DP writes of 0x0 and 0xC (R177, R179). -/
theorem decodeSwd_swdReqByte {apndp rnw : Bool} {a : RegAddr} (h : packetOk apndp rnw a = true) (w : W32) :
    decodeSwd (swdReqByte apndp rnw a) w =
      match apndp, rnw with
      | false, true => .ok (.swdDpRd a)
      | false, false =>
        if swdReqByte false false a = 0x81#8 then .ok (.swdAbort w)
        else if swdReqByte false false a = 0x99#8 then .ok (.swdTargetsel w)
        else .ok (.swdDpWr a w)
      | true, true => .ok (.swdApRd a)
      | true, false => .ok (.swdApWr a w) := by
  obtain ⟨⟨hp, hr, ha⟩, hv⟩ := packetOk_fields h
  unfold decodeSwd
  rw [hp, hr, ha, hv, h]
  cases apndp <;> cases rnw <;> rfl

theorem swdReqByte_plain_write {a : RegAddr} (ha : a.aligned = true) (h0 : a ≠ 0x0#4) (hC : a ≠ 0xC#4) :
    swdReqByte false false a ≠ 0x81#8 ∧ swdReqByte false false a ≠ 0x99#8 := by
  revert a
  decide

theorem readsOfPackets_encoded (a : RegAddr) (n : Nat) :
    readsOfPackets a (List.replicate n (swdReqByte true true a, 0) ++ [(swdReqByte false true 0xC, 0)]) = some n := by
  induction n with
  | zero => simp [readsOfPackets]
  | succ n ih =>
    rw [List.replicate_succ, List.cons_append, readsOfPackets, ih]
    · simp
    · intro he
      cases n <;> simp [List.replicate_succ] at he

theorem decodeSwdSeq_reads {a : RegAddr} (ha : a.aligned = true) {n : Nat} (hn : n ≠ 0) :
    decodeSwdSeq (List.replicate n (swdReqByte true true a, 0) ++ [(swdReqByte false true 0xC, 0)]) =
      .ok (.swdReadn a n) := by
  cases n with
  | zero => exact absurd rfl hn
  | succ n =>
    obtain ⟨_, hr, hadr⟩ := Machine.swdReq_fields true true a ha
    have hall := readsOfPackets_encoded a (n + 1)
    rw [List.replicate_succ, List.cons_append] at hall ⊢
    unfold decodeSwdSeq
    simp only [hr, hadr, hall, if_true]

theorem writesOfPackets_encoded (a : RegAddr) (ws : List W32) :
    writesOfPackets a (ws.map fun w => (swdReqByte true false a, w)) = some ws := by
  induction ws with
  | nil => rfl
  | cons w ws ih =>
    rw [List.map_cons, writesOfPackets, ih]
    exact if_pos rfl

theorem decodeSwdSeq_writes {a : RegAddr} (ha : a.aligned = true) {ws : List W32} (hne : ws ≠ []) :
    decodeSwdSeq (ws.map fun w => (swdReqByte true false a, w)) = .ok (.swdWriten a ws) := by
  cases ws with
  | nil => exact absurd rfl hne
  | cons w ws =>
    obtain ⟨_, hr, hadr⟩ := Machine.swdReq_fields true false a ha
    have hall := writesOfPackets_encoded a (w :: ws)
    rw [List.map_cons] at hall ⊢
    unfold decodeSwdSeq
    simp only [hr, hadr, hall, Bool.false_eq_true, if_false]

/-! ## Every instruction -/

/-- A row of a range, or of a length and data: its numbers fit their operand words (R126). -/
theorem decodeRow_range {f : W32 → W32 → Instr} {g : Nat → Nat → Instr} (hf : ∀ s e, f s e = g s.toNat e.toNat)
    {a b : Nat} (ha : fitsWord a = true) (hb : fitsWord b = true) : f (wordOf a) (wordOf b) = g a b := by
  rw [hf, wordOf_toNat ha, wordOf_toNat hb]

/-- Settles O7: one constructor at a time, from the header's fields, the scan's fields and the request byte's. -/
theorem decodeInvertsEncode : Obligations.DecodeInvertsEncode := by
  intro i h
  have header : ∀ (o f a : BitVec 8) (ops : List W32) {i : Instr}, decodeRow o f a ops = .ok i →
      decode (.host (hHeader o f a :: ops)) = .ok i := fun o f a ops _ hrow => (decode_hHeader o f a ops).trans hrow
  cases i with
  | detectVersion => exact header _ _ _ _ rfl
  | reassertPower => exact header _ _ _ _ rfl
  | dpRead r =>
    refine header _ _ _ _ ?_
    show withDpReg r.code _ = _
    rw [withDpReg, DpReg.ofCode_code]
    rfl
  | dpWrite r v =>
    refine header _ _ _ _ ?_
    show withDpReg r.code _ = _
    rw [withDpReg, DpReg.ofCode_code]
    rfl
  | selectAp ap addr => exact header _ _ _ _ rfl
  | freezeSelect => exact header _ _ _ _ rfl
  | unfreezeSelect => exact header _ _ _ _ rfl
  | checkSticky => exact header _ _ _ _ rfl
  | clearSticky => exact header _ _ _ _ rfl
  | apRead ap addr => exact header _ _ _ _ rfl
  | apWrite ap addr v => exact header _ _ _ _ rfl
  | swdConnect t =>
    cases t with
    | none => exact header _ _ _ _ rfl
    | some t => exact header _ _ _ _ rfl
  | getConnection ap ai per dis => exact header _ _ _ _ (decodeRow_getConnection ap ai per dis)
  | memoryRead ap s e =>
    obtain ⟨hs, he⟩ : fitsWord s = true ∧ fitsWord e = true := by simpa [Instr.WellFormed] using h
    exact header _ _ _ _ (congrArg Except.ok (decodeRow_range (g := .memoryRead ap) (fun _ _ => rfl) hs he))
  | memoryWrite ap s n d =>
    obtain ⟨⟨hs, hn⟩, _⟩ : (fitsWord s = true ∧ fitsWord n = true) ∧ d.length = (n + 3) / 4 := by
      simpa [Instr.WellFormed] using h
    exact header _ _ _ _
      (congrArg Except.ok (decodeRow_range (g := fun s n => .memoryWrite ap s n d) (fun _ _ => rfl) hs hn))
  | registerRead ap n rs =>
    obtain ⟨hn, _⟩ : fitsWord n = true ∧ rs.length = n := by simpa [Instr.WellFormed] using h
    exact header _ _ _ _ (congrArg (fun k => Except.ok (Instr.registerRead ap k rs)) (wordOf_toNat hn))
  | registerWrite ap n rs vs =>
    obtain ⟨⟨hn, hl⟩, _⟩ : (fitsWord n = true ∧ rs.length = n) ∧ vs.length = n := by
      simpa [Instr.WellFormed] using h
    exact header _ _ _ _ (decodeRow_registerWrite ap hn hl vs)
  | runCtrlRead ap c => exact header _ _ _ _ rfl
  | runCtrlWrite ap c => exact header _ _ _ _ rfl
  | scanAps x => exact header _ _ _ _ (decodeRow_scanAps x)
  | getChipVersion => exact header _ _ _ _ rfl
  | teardown => exact header _ _ _ _ rfl
  | readMemory ap s e =>
    obtain ⟨hs, he⟩ : fitsWord s = true ∧ fitsWord e = true := by simpa [Instr.WellFormed] using h
    exact header _ _ _ _ (congrArg Except.ok (decodeRow_range (g := .readMemory ap) (fun _ _ => rfl) hs he))
  | writeMemory ap s n d =>
    obtain ⟨⟨hs, hn⟩, _⟩ : (fitsWord s = true ∧ fitsWord n = true) ∧ d.length = (n + 3) / 4 := by
      simpa [Instr.WellFormed] using h
    exact header _ _ _ _
      (congrArg Except.ok (decodeRow_range (g := fun s n => .writeMemory ap s n d) (fun _ _ => rfl) hs hn))
  | writeMemoryRmw ap s n d =>
    obtain ⟨⟨hs, hn⟩, _⟩ : (fitsWord s = true ∧ fitsWord n = true) ∧ d.length = (n + 3) / 4 := by
      simpa [Instr.WellFormed] using h
    exact header _ _ _ _
      (congrArg Except.ok (decodeRow_range (g := fun s n => .writeMemoryRmw ap s n d) (fun _ _ => rfl) hs hn))
  | pollRead ap x n b => exact header _ _ _ _ (decodeRow_pollRead ap x h b)
  | pollWrite ap x n vs b =>
    obtain ⟨hn, _⟩ : fitsWord n = true ∧ vs.length = n := by simpa [Instr.WellFormed] using h
    exact header _ _ _ _ (decodeRow_pollWrite ap x hn vs b)
  | jtagIrsel ir =>
    show (match IrCode.ofCode ir.code with | some ir => _ | none => _) = _
    rw [Machine.ofCode_code]
  | jtagScan ir rnw a d => exact decodeScanBlock_drReq h
  | jtagDpaccRd a => exact decodeScan_drReq h
  | jtagDpaccWr a v => exact decodeScan_drReq h
  | jtagApaccRd a => exact decodeScan_drReq h
  | jtagApaccWr a v => exact decodeScan_drReq h
  | jtagReadn rs =>
    obtain ⟨hne, hall⟩ : rs ≠ [] ∧ rs.all readScanOk = true := by
      simpa only [Instr.WellFormed, Bool.and_eq_true, Bool.not_eq_true', List.isEmpty_eq_false_iff] using h
    exact decodeScanSeq_reads hne hall
  | jtagWriten a ws =>
    obtain ⟨ha, hne⟩ : a.aligned = true ∧ ws ≠ [] := by
      simpa only [Instr.WellFormed, Bool.and_eq_true, Bool.not_eq_true', List.isEmpty_eq_false_iff] using h
    exact decodeScanSeq_writes ha hne
  | jtagAbortWr v => exact decodeScan_drReq (ir := .abort) (rnw := false) (a := 0) rfl
  | swdXfer apndp rnw a w => exact decodeSwdBlock_swdReqByte h w
  | swdDpRd a => exact decodeSwd_swdReqByte h 0
  | swdDpWr a v =>
    obtain ⟨⟨hok, h0⟩, hC⟩ : (packetOk false false a = true ∧ a ≠ 0x0#4) ∧ a ≠ 0xC#4 := by
      simpa only [Instr.WellFormed, Bool.and_eq_true, bne_iff_ne] using h
    have ha : a.aligned = true := (Bool.and_eq_true _ _ ▸ hok : _ ∧ _).1
    obtain ⟨hnAbort, hnTarget⟩ := swdReqByte_plain_write ha h0 hC
    refine (decodeSwd_swdReqByte hok v).trans ?_
    simp only [hnAbort, hnTarget, if_false]
  | swdApRd a => exact decodeSwd_swdReqByte h 0
  | swdApWr a v => exact decodeSwd_swdReqByte h v
  | swdReadn a n =>
    obtain ⟨ha, hn⟩ : a.aligned = true ∧ n ≠ 0 := by
      simpa only [Instr.WellFormed, Bool.and_eq_true, bne_iff_ne] using h
    exact decodeSwdSeq_reads ha hn
  | swdWriten a ws =>
    obtain ⟨ha, hne⟩ : a.aligned = true ∧ ws ≠ [] := by
      simpa only [Instr.WellFormed, Bool.and_eq_true, Bool.not_eq_true', List.isEmpty_eq_false_iff] using h
    exact decodeSwdSeq_writes ha hne
  | swdAbort v => exact decodeSwd_swdReqByte (apndp := false) (rnw := false) (a := 0x0) rfl v
  | swdLinereset =>
    show (if lineResetBits = lineResetBits then Except.ok Instr.swdLinereset else .error .rawBits) = _
    rw [if_pos rfl]
  | swdTargetsel v => exact decodeSwd_swdReqByte (apndp := false) (rnw := false) (a := 0xC) rfl v

/-! ## What does not decode (R129, R130) -/

theorem noFlags_error {f : BitVec 8} (h : f ≠ 0) (r : Except DecodeError Instr) :
    noFlags f r = .error .undefinedFlag := if_neg h

/-- A flags byte above the mask of its row has a bit outside it. -/
theorem flagsIn_error {mask f : BitVec 8} (h : mask.toNat < f.toNat) (r : Except DecodeError Instr) :
    flagsIn mask f r = .error .undefinedFlag := by
  refine if_neg fun hz => ?_
  have hsub : f &&& mask = f := by
    have : f &&& mask ||| f &&& ~~~mask = f := by
      ext i hi
      simp only [BitVec.getElem_or, BitVec.getElem_and, BitVec.getElem_not]
      cases mask[i] <;> simp
    rw [hz] at this
    simpa using this
  have hle : (f &&& mask).toNat ≤ mask.toNat := by
    rw [BitVec.toNat_and]
    exact Nat.and_le_right
  rw [hsub] at hle
  omega

theorem withDpReg_error {f : BitVec 8} (h : 10 < f.toNat) (k : DpReg → Except DecodeError Instr) :
    withDpReg f k = .error .dpRegisterCode := by
  have hnone : DpReg.ofCode f = none := by
    unfold DpReg.ofCode
    split
    rotate_right
    · rfl
    all_goals omega
  unfold withDpReg
  rw [hnone]

theorem decodeRow_unknown {o : BitVec 8} (h : o.toNat = 0 ∨ 0x0C < o.toNat ∧ o.toNat < 0x10 ∨
    0x19 < o.toNat ∧ o.toNat < 0x20 ∨ 0x24 < o.toNat) (f : BitVec 8) (ap : ApIndex) (ops : List W32) :
    decodeRow o f ap ops = .error .unknownOpcode := by
  unfold decodeRow
  split
  rotate_right
  · rfl
  all_goals omega

/-- The rows whose flags column is 0 (R126). -/
theorem decodeRow_noFlags {o f : BitVec 8} (hf : f ≠ 0) (h : 0x01 ≤ o.toNat ∧ o.toNat ≤ 0x02 ∨
    0x05 ≤ o.toNat ∧ o.toNat ≤ 0x0B ∨ 0x11 ≤ o.toNat ∧ o.toNat ≤ 0x16 ∨ 0x18 ≤ o.toNat ∧ o.toNat ≤ 0x19 ∨
    0x20 ≤ o.toNat ∧ o.toNat ≤ 0x22) (ap : ApIndex) (ops : List W32) :
    decodeRow o f ap ops = .error .undefinedFlag := by
  unfold decodeRow
  generalize o.toNat = k at h ⊢
  rcases h with ⟨hl, hu⟩ | ⟨hl, hu⟩ | ⟨hl, hu⟩ | ⟨hl, hu⟩ | ⟨hl, hu⟩ <;> interval_cases k <;>
    exact noFlags_error hf _

theorem ofCode_none {c : BitVec 4} (ha : c ≠ 0b1000#4) (hd : c ≠ 0b1010#4) (hp : c ≠ 0b1011#4) :
    IrCode.ofCode c = none := by
  unfold IrCode.ofCode
  exact (if_neg ha).trans ((if_neg hd).trans (if_neg hp))

/-- Settles O8: each reserved field is looked at before the operands, so its own error is the outcome. -/
theorem reservedEncodingsRefused : Obligations.ReservedEncodingsRefused := by
  refine ⟨fun w ops h => if_neg h, fun w ops hr h => ?_, fun w ops hr h hf => ?_, fun w ops hr h hf => ?_,
    fun w ops hr h hf => ?_, fun w ops hr hf h => ?_, fun c r ha hd hp => ?_, fun b w h => ?_⟩
  · rw [decode_host_row hr]
    refine decodeRow_unknown ?_ _ _ _
    rcases h with h | h | h | h
    · exact .inl (by rw [h]; rfl)
    · exact .inr (.inl h)
    · exact .inr (.inr (.inl h))
    · exact .inr (.inr (.inr h))
  · rw [decode_host_row hr]
    rcases h with h | h
    · rw [h]; exact withDpReg_error hf _
    · rw [h]; exact withDpReg_error hf _
  · rw [decode_host_row hr, h]
    exact flagsIn_error (mask := 0x0F) hf _
  · rw [decode_host_row hr]
    rcases h with h | h | h | h
    · rw [h]; exact flagsIn_error (mask := 0x01) hf _
    · rw [h]; exact flagsIn_error (mask := 0x01) hf _
    · rw [h]; exact flagsIn_error (mask := 0x01) hf _
    · rw [h]; exact flagsIn_error (mask := 0x01) hf _
  · rw [decode_host_row hr]
    exact decodeRow_noFlags hf h _ _
  · have hn := ofCode_none ha hd hp
    constructor
    · show (match IrCode.ofCode c with | some ir => _ | none => _) = _
      rw [hn]
    · show decodeScan c r = _
      unfold decodeScan
      rw [hn]
  · show decodeSwd b w = _
    unfold decodeSwd
    rw [h]
    rfl

/-- Settles O6: each word is evaluated by the decoder. -/
theorem decodesWrittenWords : Obligations.DecodesWrittenWords :=
  ⟨rfl, rfl, rfl, rfl, rfl, rfl⟩

end Sys2Proof

/-! What a command and a step change, whatever the result (10_state.md sections 2 and 3, 60_exceptions.md). -/

namespace Sys2Proof.Machine

open Sys2Proof

/-! ## The step (R31) -/

/-- Settles O4: the command at the pc is what `fetch` answers, and `afterCommand` raises the pc. -/
theorem stepRunsDecodedCommand : Obligations.StepRunsDecodedCommand := by
  intro s
  refine ⟨fun f i t hf hd he => ?_, fun i t hf he => ?_, fun f e hf hd => ?_, fun hn => ?_⟩
  · have hfetch : fetch s = .instr i := by simp only [fetch, hf, fetchCommand, hd]
    simp only [step, hfetch, he]
    rfl
  · have hfetch : fetch s = .instr i := by simp only [fetch, hf, fetchCommand]
    simp only [step, hfetch, he]
    rfl
  · have hfetch : fetch s = .illegal := by simp only [fetch, hf, fetchCommand, hd]
    simp only [step, hfetch]
    rfl
  · have hfetch : fetch s = .idle := by simp only [fetch, hn]
    simp only [step, hfetch]

/-! ## The observation (R9) -/

/-- What every command keeps: the parameters, the host's list and its index, the results; and the trace only grows. -/
structure Observes (s t : State) : Prop where
  cfg : t.cfg = s.cfg
  commands : t.commands = s.commands
  pc : t.pc = s.pc
  results : t.results = s.results
  trace : s.trace <+: t.trace

theorem Observes.refl (s : State) : Observes s s := ⟨rfl, rfl, rfl, rfl, List.prefix_rfl⟩

theorem Observes.trans {s t u : State} (h : Observes s t) (k : Observes t u) : Observes s u :=
  ⟨k.cfg.trans h.cfg, k.commands.trans h.commands, k.pc.trans h.pc, k.results.trans h.results, h.trace.trans k.trace⟩

theorem FrameSelect.observes {s t : State} (h : FrameSelect s t) : Observes s t :=
  ⟨h.cfg, h.commands, h.pc, h.results, h.trace⟩

/-- Unfreezing is outside the observation. -/
theorem Observes.unfreeze {s t : State} (h : Observes s t) : Observes s t.unfreeze :=
  ⟨(unfreeze_cfg t).trans h.cfg, (unfreeze_commands t).trans h.commands, (unfreeze_pc t).trans h.pc,
    (unfreeze_results t).trans h.results, (unfreeze_trace t).symm ▸ h.trace⟩

theorem observes_stable : CommandStable Observes where
  toSelectStable := selectStable_of_frameSelect ⟨Observes.refl, Observes.trans⟩ (fun h => .inl h.cfg)
    FrameSelect.observes
  shadow := fun _ _ _ _ => ⟨rfl, rfl, rfl, rfl, List.prefix_rfl⟩
  subword := fun _ _ _ _ => ⟨rfl, rfl, rfl, rfl, List.prefix_rfl⟩
  frozen := fun s t h => (show Observes s t from ⟨h.cfg, h.commands, h.pc, h.results, h.trace⟩).unfreeze
  absent := fun _ _ _ _ _ => ⟨rfl, rfl, rfl, rfl, List.prefix_rfl⟩
  commit := fun _ _ _ _ _ _ _ _ => ⟨rfl, rfl, rfl, rfl, List.prefix_rfl⟩
  own := fun _ _ _ _ _ => .inl trivial
  irselAbort := fun s hs => (frameLink_irsel .abort s hs).toSelect.observes
  scanAbort := fun rnw a d s hs => (frameLink_scan .abort rnw a d s hs).toSelect.observes
  driveAny := fun segs s => (frameLink_abortStable.driveAny segs s).toSelect.observes
  backendAny := fun s c r => (frameLink_abortStable.backendAny s c r).toSelect.observes
  version := fun _ _ _ => ⟨rfl, rfl, rfl, rfl, List.prefix_rfl⟩
  freeze := fun _ => ⟨rfl, rfl, rfl, rfl, List.prefix_rfl⟩
  unfreeze := fun s => (Observes.refl s).unfreeze
  teardown := fun _ => ⟨rfl, rfl, rfl, rfl, List.prefix_rfl⟩

/-- Settles O5: no primitive effect touches the results, the pc, the list or the parameters, so the step's own result and
advance are all there is. -/
theorem stepAppendsOneResult : Obligations.StepAppendsOneResult := by
  intro s c hc
  unfold step fetch
  rw [hc]
  cases hf : fetchCommand c with
  | idle =>
    exfalso
    cases c with
    | abstract i => cases hf
    | frame f =>
      simp only [fetchCommand] at hf
      split at hf <;> cases hf
  | illegal => exact ⟨(refuseFrame s).advance, .error .illegalCommand, by simp only [hf], rfl, rfl, rfl, rfl,
      List.prefix_rfl⟩
  | instr i =>
    obtain ⟨r, u, hexec, hobs⟩ := exec_keeps observes_stable i s
    refine ⟨(u.pushResult r).advance, r, ?_, congrArg (· ++ [r]) hobs.results, congrArg (· + 1) hobs.pc,
      hobs.commands, hobs.cfg, hobs.trace⟩
    simp only [hf, hexec]
    rfl

/-! ## The frame of each command (R21 to R26, R86, R315) -/

/-- The invariant makes every cached connection one of its own AP (R25). -/
theorem Inv.owned {s : State} (h : Inv s) (ap : ApIndex) : Owned ap s := by
  intro c hc
  have hi := h.conns ap
  unfold ConnInv at hi
  rw [hc] at hi
  cases hs : s.apStateOf ap <;> rw [hs] at hi
  · exact hi.elim
  · exact hi.elim
  · exact hi.1
  · exact hi.1

section

variable {α : Type} {R : State → State → Prop} {b : Bool} {f : α → Value} {m : Dap α} {s : State}

/-- A link transaction on its own link, its operands checked. -/
theorem keeps_linkShape (h : LinkStable R) {i : Iface} (hm : KeepsOn i R m) :
    R s (endState ((do requireIface i; requireArg b; let a ← m; pure (f a) : Dap Value) s)) :=
  keeps_requireIface_then h.toChain (keepsOn_bind h (keepsOn_of_keeps (keeps_check h.toChain _ _)) fun _ =>
    keepsOn_bind h hm fun _ => keepsOn_pure h _) s

/-- A link transaction whose operands are all in range. -/
theorem keeps_linkShape_total (h : LinkStable R) {i : Iface} (hm : KeepsOn i R m) :
    R s (endState ((do requireIface i; let a ← m; pure (f a) : Dap Value) s)) :=
  keeps_requireIface_then h.toChain (keepsOn_bind h hm fun _ => keepsOn_pure h _) s

theorem keeps_dpShape (h : Chain R) {r : DpReg} (hm : Keeps R m) :
    Keeps R (do requireDpReg r; requireArg b; let a ← m; pure (f a)) :=
  keeps_then h (keeps_requireDpReg h r) (keeps_then h (keeps_check h _ _) (keeps_packed h hm))

theorem keeps_apShape (h : Chain R) (hm : Keeps R m) :
    Keeps R (do requireDetected; requireArg b; let a ← m; pure (f a)) :=
  keeps_then h (keeps_requireDetected h) (keeps_then h (keeps_check h _ _) (keeps_packed h hm))

/-- An engine command on the cached connection, which is one of AP `ap` (R234). -/
theorem frameEngine_shape {ap : ApIndex} (ho : Owned ap s) {k : MemApConnection → Dap α}
    (hk : ∀ c : MemApConnection, c.ap = ap → Keeps (FrameEngine ap) (k c)) :
    FrameEngine ap s
      (endState ((do requireDetected; requireArg b; let c ← requireConn ap; let a ← k c; pure (f a) : Dap Value) s)) := by
  have hc := (frameEngine_stable ap).toChain
  refine keeps_detected_then hc fun _ => keeps_check_then hc _ _ fun _ => ?_
  unfold requireConn
  rw [run_bind, run_getS_bind]
  cases e : s.connOf ap with
  | none => exact hc.refl s
  | some c => exact keeps_packed hc (hk c (ho c e)) s

/-- A wrapped operation on a resolved connection (R270, R273). -/
theorem frameResolve_stickyRetry {ap : ApIndex} (ho : Owned ap s) {k : MemApConnection → Dap α}
    (hk : ∀ c : MemApConnection, c.ap = ap → Keeps (OwnedFrame ap) (k c)) (hd : detected s.dpVersion = true) :
    FrameResolve ap s (endState (stickyRetry (resolveStrict ap >>= k) s)) := by
  have hv : ∀ {s t : State}, OwnedFrame ap s t → t.dpVersion = s.dpVersion ∨ ∀ u, OwnedFrame ap s u := by
    intro s t h
    by_cases hs : Owned ap s
    · exact .inl (h hs).1.dpVersion
    · exact .inr fun _ hn => absurd hn hs
  exact (keeps_stickyRetry (ownedFrame_stable ap) hv (ownedFrame_clearSticky ap) rfl hk hd ho).1

theorem frameResolve_chain (ap : ApIndex) : Chain (FrameResolve ap) where
  refl := fun s => (FrameEngine.refl ap s).toResolve
  trans := FrameResolve.trans

/-- A wrapped memory command (R273, R274). -/
theorem frameResolve_shape {ap : ApIndex} (ho : Owned ap s) {k : MemApConnection → Dap α}
    (hk : ∀ c : MemApConnection, c.ap = ap → Keeps (OwnedFrame ap) (k c)) :
    FrameResolve ap s (endState
      ((do requireDetected; requireArg b; let a ← stickyRetry (resolveStrict ap >>= k); pure (f a) : Dap Value) s)) :=
  keeps_detected_then (frameResolve_chain ap) fun hd => keeps_check_then (frameResolve_chain ap) _ _ fun _ =>
    keeps_map_from f (frameResolve_stickyRetry ho hk hd)

/-- A delegated operation, whatever the Codec (R278). -/
theorem frameResolve_delegate {ap : ApIndex} (ho : Owned ap s) (op : CodecOp) (hd : detected s.dpVersion = true) :
    FrameResolve ap s (endState (delegate ap op s)) :=
  frameResolve_stickyRetry ho (fun _ hc => keeps_runCodec (ownedFrame_stable ap).toEngineStable hc _) hd

theorem frameResolve_codecShape {ap : ApIndex} {m : Dap Value}
    (hm : detected s.dpVersion = true → FrameResolve ap s (endState (m s))) :
    FrameResolve ap s (endState ((do requireCodec; requireDetected; m : Dap Value) s)) := by
  unfold requireCodec
  rw [run_bind, run_getS_bind]
  cases s.cfg.codecPresent
  · exact (frameResolve_chain ap).refl s
  · exact keeps_detected_then (frameResolve_chain ap) hm

/-- A command whose body ends in a state that `R` allows. -/
theorem complete_framed {m : Dap Value} {s : State} (h : R s (endState (m s))) :
    ∃ u r, complete m s = .next (u.pushResult r) ∧ R s u := by
  obtain ⟨r, u, he, hu⟩ := complete_keeps h
  exact ⟨u, r, he, hu⟩

end

/-- GET_CONNECTION resolves, and then looks whether the AP is enabled (R271). -/
theorem frameResolve_getConnection {ap : ApIndex} {s : State} (ho : Owned ap s) (ai : Option Bool) (per dis : Bool) :
    FrameResolve ap s (endState ((do requireDetected; getConnection ap ai per dis : Dap Value) s)) := by
  refine keeps_detected_then (frameResolve_chain ap) fun hd => ?_
  obtain ⟨hr, _⟩ := keeps_resolve (ownedFrame_stable ap) (ap := ap) rfl ai per hd ho
  unfold getConnection
  rw [run_bind]
  cases e : resolve ap ai per s with
  | error x t => rw [e] at hr; exact hr
  | ok o t =>
    rw [e] at hr
    cases o with
    | none => exact hr
    | some c =>
      have hen : Keeps (FrameResolve ap) (requireEnabled ap dis) :=
        keeps_getS_bind fun s => keeps_check (frameResolve_chain ap) _ _ s
      exact hr.trans (keeps_packed (frameResolve_chain ap) hen t)

/-- What DETECT_VERSION may change: `dp_version`, once (R191). -/
def VersionFrame (s t : State) : Prop :=
  FrameLink (s.setDpVersion t.dpVersion) t ∧ (detected s.dpVersion = true → t.dpVersion = s.dpVersion)

theorem FrameLink.setDpVersion {s t : State} (h : FrameLink s t) (v : DpVersion) :
    FrameLink (s.setDpVersion v) (t.setDpVersion v) :=
  ⟨rfl, h.selectLast, h.freezeDepth, h.frozenValid, h.apState, h.conn, h.jtagIr, h.cfg, h.commands, h.pc, h.results,
    h.trace⟩

/-- A link transaction leaves `dp_version`, so it is a change of it to what it was. -/
theorem FrameLink.version {s t : State} (h : FrameLink s t) : VersionFrame s t := by
  refine ⟨?_, fun _ => h.dpVersion⟩
  have := h.setDpVersion t.dpVersion
  exact this

theorem versionFrame_detectVersion : Keeps VersionFrame detectVersion := by
  refine keeps_getS_bind fun s => ?_
  cases hd : detected s.dpVersion
  · simp only [Bool.false_eq_true, if_false]
    have k := keeps_linkDpRead frameLink_stable 0x0 s
    rw [run_bind]
    cases e : linkDpRead 0x0 s with
    | error x t => rw [e] at k; exact FrameLink.version k
    | ok id t =>
      rw [e] at k
      have k : FrameLink s t := k
      cases hv : classifyDpidr id with
      | error x =>
        simp only [hv, run_raise, endState_error]
        exact k.version
      | ok v =>
        simp only [hv, run_upd_bind, run_pure, endState_ok]
        exact ⟨k.setDpVersion v, fun h => by rw [hd] at h; exact Bool.noConfusion h⟩
  · exact (FrameLink.refl s).version

/-- DP_WRITE: every register but ABORT may move SELECT first (R198). -/
theorem frameSelect_dpWrite (r : DpReg) (v : W32) : Keeps FrameSelect (dpWrite r v) := by
  by_cases hr : r = .abort
  · subst hr; exact frameSelect_linkAbort v
  · exact keeps_dpWrite frameSelect_stable hr v

/-- The checks before a raw access change nothing, so the access decides what the state becomes. -/
theorem endState_apShape {β : Type} {Q : State → Prop} {b : Bool} {m : Dap β} {s : State} (hs : Q s)
    (hm : Q (endState (m s))) : Q (endState ((do requireDetected; requireArg b; m : Dap β) s)) := by
  unfold requireDetected
  rw [run_bind, run_getS_bind]
  cases detected s.dpVersion
  · exact hs
  · cases b
    · exact hs
    · exact hm

/-- AP_READ may also leave the word read in the shadow (R86 b). -/
theorem frame_apRead (ap : ApIndex) (addr : W32) (s : State) : ∃ u r,
    exec (.apRead ap addr) s = .next (u.pushResult r) ∧ FrameOf (.apRead ap addr) s u := by
  refine complete_framed (R := FrameOf (.apRead ap addr)) (endState_apShape (.inl (FrameSelect.refl s)) ?_)
  rw [run_bind]
  rcases frameSelect_hostApRead ap (apOffset addr) s with ⟨v, u, he, hf⟩ | ⟨e, u, he, hf⟩
  · rw [he]; exact .inr ⟨v, hf⟩
  · rw [he]; exact .inl hf

/-- AP_WRITE may also leave the word written in the shadow (R86 b). -/
theorem frame_apWrite (ap : ApIndex) (addr v : W32) (s : State) : ∃ u r,
    exec (.apWrite ap addr v) s = .next (u.pushResult r) ∧ FrameOf (.apWrite ap addr v) s u := by
  refine complete_framed (R := FrameOf (.apWrite ap addr v)) (endState_apShape (.inl (FrameSelect.refl s)) ?_)
  rw [run_bind]
  rcases frameSelect_hostApWrite ap (apOffset addr) v s with ⟨u, he, hf⟩ | ⟨e, u, he, hf⟩
  · rw [he]; exact .inr hf
  · rw [he]; exact .inl hf

/-- Settles O9: each command is checks and one operation of a layer, and each layer has its frame. -/
theorem commandsKeepTheirFrame : Obligations.CommandsKeepTheirFrame := by
  intro i s h
  have hlink := frameLink_stable
  have habort := frameLink_abortStable
  have hsel := frameSelect_stable
  have hs := hsel.toChain
  have heng := fun ap => frameEngine_stable ap
  have hres := fun ap => (ownedFrame_stable ap).toEngineStable
  have ho := h.owned
  cases i with
  | detectVersion =>
    have hpacked : Keeps VersionFrame (do let v ← detectVersion; pure (Value.word v)) := fun s =>
      keeps_map_from _ (versionFrame_detectVersion s)
    exact complete_framed (hpacked s)
  | reassertPower => exact complete_framed (keeps_packed hs (keeps_reassertPower hsel) s)
  | dpRead r => exact complete_framed (keeps_dpShape hs (keeps_dpRead hsel r) s)
  | dpWrite r v => exact complete_framed (keeps_dpShape hs (frameSelect_dpWrite r v) s)
  | selectAp ap addr => exact complete_framed (keeps_apShape hs (keeps_selectAp hsel ap _) s)
  | freezeSelect => exact ⟨_, _, exec_freezeSelect s, rfl⟩
  | unfreezeSelect => exact ⟨_, _, exec_unfreezeSelect s, rfl⟩
  | checkSticky => exact complete_framed (keeps_packed hs (keeps_checkSticky hsel) s)
  | clearSticky => exact complete_framed (keeps_packed hlink.toChain frameLink_clearSticky s)
  | apRead ap addr => exact frame_apRead ap addr s
  | apWrite ap addr v => exact frame_apWrite ap addr v s
  | swdConnect t =>
    exact complete_framed (keeps_linkShape_total hsel.toLinkStable (keepsOn_of_keeps (keeps_swdConnect hsel t)))
  | getConnection ap ai per dis => exact complete_framed (frameResolve_getConnection (ho ap) ai per dis)
  | memoryRead ap a b =>
    exact complete_framed (frameResolve_shape (ho ap) fun _ hc => keeps_readMemory (hres ap) hc a b)
  | memoryWrite ap a n d =>
    exact complete_framed (frameResolve_shape (ho ap) fun _ hc => keeps_writeMemoryRmw (hres ap) hc a _)
  | registerRead ap n rs =>
    exact complete_framed (frameResolve_codecShape fun hd => keeps_check_then (frameResolve_chain ap) _ _ fun _ =>
      keeps_map_from _ (frameResolve_delegate (ho ap) _ hd))
  | registerWrite ap n rs vs =>
    exact complete_framed (frameResolve_codecShape fun hd => keeps_check_then (frameResolve_chain ap) _ _ fun _ =>
      keeps_map_from _ (frameResolve_delegate (ho ap) _ hd))
  | runCtrlRead ap d =>
    exact complete_framed (frameResolve_codecShape fun hd => keeps_map_from _ (frameResolve_delegate (ho ap) _ hd))
  | runCtrlWrite ap d =>
    exact complete_framed (frameResolve_codecShape fun hd => keeps_map_from _ (frameResolve_delegate (ho ap) _ hd))
  | scanAps x =>
    exact complete_framed (keeps_then hs (keeps_requireDetected hs) (keeps_packed hs (keeps_scanFrom hsel x _ _)) s)
  | getChipVersion => exact complete_framed (keeps_then hs (keeps_requireDetected hs) (keeps_chipVersion hsel) s)
  | teardown => exact ⟨_, _, exec_teardown s, rfl⟩
  | readMemory ap a b =>
    exact complete_framed (frameEngine_shape (ho ap) fun _ hc => keeps_readMemory (heng ap) hc a b)
  | writeMemory ap a n d =>
    exact complete_framed (frameEngine_shape (ho ap) fun _ hc => keeps_writeMemory (heng ap) hc a _)
  | writeMemoryRmw ap a n d =>
    exact complete_framed (frameEngine_shape (ho ap) fun _ hc => keeps_writeMemoryRmw (heng ap) hc a _)
  | pollRead ap x n bz =>
    exact complete_framed (frameEngine_shape (ho ap) fun _ hc => keeps_pollRead (heng ap) hc x n bz)
  | pollWrite ap x n vs bz =>
    exact complete_framed (frameEngine_shape (ho ap) fun _ hc => keeps_pollWrite (heng ap) hc x vs bz)
  | jtagIrsel ir => exact complete_framed (keeps_linkShape_total hlink (frameLink_irsel ir))
  | jtagScan ir rnw a d => exact complete_framed (keeps_linkShape hlink (frameLink_scan ir rnw a d))
  | jtagDpaccRd a => exact complete_framed (keeps_linkShape hlink (keepsOn_jtagDpaccRd hlink a))
  | jtagDpaccWr a v => exact complete_framed (keeps_linkShape hlink (keepsOn_jtagDpaccWr hlink a v))
  | jtagApaccRd a => exact complete_framed (keeps_linkShape hlink (keepsOn_jtagApaccRd hlink a))
  | jtagApaccWr a v => exact complete_framed (keeps_linkShape hlink (keepsOn_jtagApaccWr hlink a v))
  | jtagReadn rs => exact complete_framed (keeps_linkShape hlink (keepsOn_jtagReadnAny habort rs))
  | jtagWriten a ws => exact complete_framed (keeps_linkShape hlink (keepsOn_jtagWriten hlink a ws))
  | jtagAbortWr v => exact complete_framed (keeps_linkShape_total hlink (keepsOn_jtagAbortWr habort v))
  | swdXfer p q a w =>
    exact complete_framed (keeps_linkShape hlink (keepsOn_of_keeps (keeps_swdXferAny habort p q a w)))
  | swdDpRd a => exact complete_framed (keeps_linkShape hlink (keepsOn_of_keeps (keeps_swdDpRd hlink a)))
  | swdDpWr a v =>
    exact complete_framed (keeps_linkShape hlink (keepsOn_of_keeps
      (keeps_packed hlink.toChain (keeps_swdXferAny habort false false a v))))
  | swdApRd a => exact complete_framed (keeps_linkShape hlink (keepsOn_of_keeps (keeps_swdApRd hlink a)))
  | swdApWr a v => exact complete_framed (keeps_linkShape hlink (keepsOn_of_keeps (keeps_swdApWr hlink a v)))
  | swdReadn a n => exact complete_framed (keeps_linkShape hlink (keepsOn_of_keeps (keeps_swdReadn hlink a n)))
  | swdWriten a ws => exact complete_framed (keeps_linkShape hlink (keepsOn_of_keeps (keeps_swdWriten hlink a ws)))
  | swdAbort v =>
    exact complete_framed (keeps_linkShape_total hlink (keepsOn_of_keeps
      (keeps_packed hlink.toChain (keeps_swdXferAny habort false false _ v))))
  | swdLinereset =>
    exact complete_framed (keeps_linkShape_total hlink (keepsOn_of_keeps (keeps_swdLinereset hlink)))
  | swdTargetsel v =>
    exact complete_framed (keeps_linkShape_total hlink (keepsOn_of_keeps (keeps_swdTargetsel hlink v)))

end Sys2Proof.Machine

/-! The ABORT writes of a command (44_transport.md section 1, R270, R316): how many calls begin one and how many are made,
counted along the trace. -/

namespace Sys2Proof.Machine

open Sys2Proof

/-- ABORT is the instruction loaded, as `abortWrites` starts its count. -/
def underAbort (s : State) : Bool := s.jtagIr == some .abort

/-- The calls `es` lead from `s` to `t`: at most `c` of them begin an ABORT write and at most `w` are one, and the count of
writes goes on after them with the instruction then loaded and no scan in progress. -/
structure AbortTrace (es : List WireEvent) (c w : Nat) (s t : State) : Prop where
  cfg : t.cfg = s.cfg
  trace : t.trace = s.trace ++ es
  calls : es.countP isAbortCall ≤ c
  writes : ∃ k, k ≤ w ∧ ∀ rest,
    abortWritesIn (underAbort s) 0 (es ++ rest) = k + abortWritesIn (underAbort t) 0 rest

/-- From `s` to `t` at most `c` ABORT writes are begun and at most `w` made. -/
def AbortCount (c w : Nat) (s t : State) : Prop := ∃ es, AbortTrace es c w s t

theorem AbortCount.silent {s t : State} (hg : t.cfg = s.cfg) (ht : t.trace = s.trace) (hj : t.jtagIr = s.jtagIr) :
    AbortCount 0 0 s t := by
  refine ⟨[], hg, ht.trans (List.append_nil _).symm, Nat.le_refl 0, 0, Nat.le_refl 0, fun rest => ?_⟩
  rw [List.nil_append, Nat.zero_add, underAbort, underAbort, hj]

theorem AbortCount.refl (s : State) : AbortCount 0 0 s s := .silent rfl rfl rfl

theorem AbortCount.mono {c w c' w' : Nat} {s t : State} (h : AbortCount c w s t) (hc : c ≤ c') (hw : w ≤ w') :
    AbortCount c' w' s t := by
  obtain ⟨es, hg, ht, hcalls, k, hk, hwrites⟩ := h
  exact ⟨es, hg, ht, hcalls.trans hc, k, hk.trans hw, hwrites⟩

theorem AbortCount.trans {c w c' w' : Nat} {s t u : State} (h : AbortCount c w s t) (g : AbortCount c' w' t u) :
    AbortCount (c + c') (w + w') s u := by
  obtain ⟨es, hg, ht, hcalls, k, hk, hwrites⟩ := h
  obtain ⟨es', hg', ht', hcalls', k', hk', hwrites'⟩ := g
  refine ⟨es ++ es', hg'.trans hg, by rw [ht', ht, List.append_assoc], ?_, k + k', Nat.add_le_add hk hk',
    fun rest => ?_⟩
  · rw [List.countP_append]
    exact Nat.add_le_add hcalls hcalls'
  · rw [List.append_assoc, hwrites, hwrites', Nat.add_assoc]

/-- A silent change before and after leaves the count. -/
theorem AbortCount.congr {c w : Nat} {s s' t t' : State} (h : AbortCount c w s' t') (hs : AbortCount 0 0 s s')
    (ht : AbortCount 0 0 t' t) : AbortCount c w s t := by
  have := (hs.trans h).trans ht
  simpa using this

/-- A call of the SWD line or of the backend: an ABORT write when `isAbortCall` says so, and nothing else. -/
theorem AbortCount.call {s t : State} (e : WireEvent) (n : Nat) (hn : (if isAbortCall e then 1 else 0) ≤ n)
    (he : ∀ under rest, abortWritesIn under 0 (e :: rest) =
      (if isAbortCall e then 1 else 0) + abortWritesIn under 0 rest)
    (hg : t.cfg = s.cfg) (ht : t.trace = s.trace ++ [e]) (hj : t.jtagIr = s.jtagIr) : AbortCount n n s t := by
  refine ⟨[e], hg, ht, ?_, _, hn, fun rest => ?_⟩
  · cases h : isAbortCall e <;> simp [h] at hn ⊢
    exact hn
  · rw [List.singleton_append, he, underAbort, underAbort, hj]

/-! ## JTAG (R150, R151, R158) -/

/-- One scan: the call and its answer. -/
theorem bdDrScan_event (req : Scan) (s : State) : ∃ rsp t, bdDrScan req s = .ok rsp t ∧ t.cfg = s.cfg ∧
    t.trace = s.trace ++ [.drScan req rsp] ∧ t.jtagIr = s.jtagIr := by
  cases h : s.target with
  | none => exact ⟨_, _, bdDrScan_free req h, rfl, rfl, rfl⟩
  | some t => exact ⟨_, _, bdDrScan_target req h, rfl, rfl, rfl⟩

/-- The scan loop with `left` re-issues to go, after `3 - left` WAIT answers: its calls are scans, and they are one write
when the first of them was the first issue and ABORT is loaded. -/
theorem jtagScanLoop_events (ir : IrCode) (rnw : Bool) (a : RegAddr) (req : Scan) (left : Nat) (hl : left ≤ 3)
    (s : State) : ∃ es t, endState (jtagScanLoop ir rnw a req left s) = t ∧ t.cfg = s.cfg ∧
      t.trace = s.trace ++ es ∧ t.jtagIr = s.jtagIr ∧ es.countP isAbortCall = 0 ∧
      ∀ under rest, abortWritesIn under (3 - left) (es ++ rest) =
        (if under && (3 - left == 0) then 1 else 0) + abortWritesIn under 0 rest := by
  obtain ⟨rsp, t, hrun, hg, ht, hj⟩ := bdDrScan_event req s
  have single : ∀ {t' : State}, t' = t → (drAck rsp ≠ 0b001#3 ∨ left = 0) → ∃ es u, t' = u ∧ u.cfg = s.cfg ∧
      u.trace = s.trace ++ es ∧ u.jtagIr = s.jtagIr ∧ es.countP isAbortCall = 0 ∧
      ∀ under rest, abortWritesIn under (3 - left) (es ++ rest) =
        (if under && (3 - left == 0) then 1 else 0) + abortWritesIn under 0 rest := by
    intro t' htt hend
    refine ⟨[.drScan req rsp], t, htt, hg, ht, hj, rfl, fun under rest => ?_⟩
    have hstop : ¬ (drAck rsp = 0b001#3 ∧ 3 - left < Config.waitThreshold) := by
      rintro ⟨hw, hlt⟩
      rcases hend with hne | hz
      · exact hne hw
      · subst hz
        exact absurd hlt (by decide)
    rw [List.singleton_append, abortWritesIn, if_neg hstop]
  by_cases hok : drAck rsp = 0b010
  · have hdone : endState (jtagScanLoop ir rnw a req left s) = t := by
      cases left <;> (unfold jtagScanLoop; rw [run_bind_ok (jtagIssue_ok hrun hok)]; rfl)
    exact single hdone (.inl (by rw [hok]; decide))
  · by_cases hw : drAck rsp = 0b001
    · cases left with
      | zero =>
        have hdone : endState (jtagScanLoop ir rnw a req 0 s) = t := by
          unfold jtagScanLoop
          rw [run_bind_ok (jtagIssue_wait hrun hw)]
          rfl
        exact single hdone (.inr rfl)
      | succ left =>
        obtain ⟨es, u, hu, hgu, htu, hju, hcu, hwu⟩ :=
          jtagScanLoop_events ir rnw a req left (Nat.le_of_succ_le hl) t
        refine ⟨.drScan req rsp :: es, u, ?_, hgu.trans hg, ?_, hju.trans hj, hcu, fun under rest => ?_⟩
        · unfold jtagScanLoop
          rw [run_bind_ok (jtagIssue_wait hrun hw)]
          exact hu
        · rw [htu, ht, List.append_assoc, List.singleton_append]
        · have hlt : 3 - (left + 1) < Config.waitThreshold := by
            show 3 - (left + 1) < 3
            omega
          have hack : drAck rsp = 0b001#3 := hw
          have hnext : 3 - (left + 1) + 1 = 3 - left := by omega
          have hz : (3 - left == 0) = false := by
            simp only [beq_eq_false_iff_ne]
            omega
          rw [List.cons_append, abortWritesIn, if_pos (And.intro hack hlt), hnext, hwu, hz]
          simp
    · have hdone : endState (jtagScanLoop ir rnw a req left s) = t := by
        cases left <;> (unfold jtagScanLoop; rw [run_bind_error (jtagIssue_invalid hrun hok hw)]; rfl)
      exact single hdone (.inl hw)

/-- JTAG.IRSEL begins an ABORT write when it loads that instruction, and makes none. -/
theorem abortCount_irsel (ir : IrCode) (s : State) :
    ∃ t, jtagIrsel ir s = .ok () t ∧ t.jtagIr = some ir ∧ AbortCount (if ir = .abort then 1 else 0) 0 s t := by
  by_cases hi : s.jtagIr = some ir
  · exact ⟨s, jtagIrsel_same hi, hi, (AbortCount.refl s).mono (Nat.zero_le _) (Nat.le_refl 0)⟩
  · refine ⟨_, jtagIrsel_change hi, rfl, [.irScan ir.code], rfl, rfl, ?_, 0, Nat.le_refl 0, fun rest => ?_⟩
    · cases ir <;> decide
    · rw [Nat.zero_add]
      cases ir <;> rfl

/-- JTAG.SCAN is one ABORT write under ABORT, and none under another instruction (R151). -/
theorem abortCount_scan (ir : IrCode) (rnw : Bool) (a : RegAddr) (d : W32) (s : State) :
    AbortCount (if ir = .abort then 1 else 0) (if ir = .abort then 1 else 0) s (endState (jtagScan ir rnw a d s)) := by
  obtain ⟨t, hrun, hir, hcount⟩ := abortCount_irsel ir s
  obtain ⟨es, u, hu, hg, ht, hj, hc, hw⟩ :=
    jtagScanLoop_events ir rnw a (drReq rnw a d) Config.waitThreshold (Nat.le_refl 3) t
  have hend : endState (jtagScan ir rnw a d s) = u := by
    unfold jtagScan
    rw [run_bind_ok hrun]
    exact hu
  have hscan : AbortCount 0 (if ir = .abort then 1 else 0) t u := by
    refine ⟨es, hg, ht, Nat.le_of_eq hc, _, Nat.le_refl _, fun rest => ?_⟩
    have hbegin : abortWritesIn (underAbort t) 0 (es ++ rest) =
        (if underAbort t then 1 else 0) + abortWritesIn (underAbort t) 0 rest := by
      have := hw (underAbort t) rest
      simpa [Config.waitThreshold] using this
    have hut : underAbort u = underAbort t := by rw [underAbort, underAbort, hj]
    have htt : underAbort t = decide (ir = .abort) := by
      rw [underAbort, hir]
      cases ir <;> rfl
    rw [hbegin, hut, htt]
    cases ir <;> rfl
  rw [hend]
  simpa using hcount.trans hscan

/-! ## The SWD line and the backend -/

theorem isAbortCall_driveLine (segs : List Segment) (bits : List Bool) :
    isAbortCall (.driveLine segs bits) = isAbortCall (.driveLine segs []) := by
  unfold isAbortCall
  split <;> simp_all

theorem abortCount_driveLine (segs : List Segment) (n : Nat)
    (hn : (if isAbortCall (.driveLine segs []) then 1 else 0) ≤ n) : Keeps (AbortCount n n) (bdDriveLine segs) := by
  have hcall : ∀ bits, (if isAbortCall (.driveLine segs bits) then 1 else 0) ≤ n := fun bits => by
    rw [isAbortCall_driveLine]; exact hn
  exact keeps_bdDriveLine segs
    (fun _ _ _ bits _ => .call (.driveLine segs bits) n (hcall bits) (fun _ _ => rfl) rfl rfl rfl)
    (fun _ t _ => .call (.driveLine segs (t.driveLine segs).1) n (hcall _) (fun _ _ => rfl) rfl rfl rfl)

theorem abortCount_backend (s : State) (call : BackendCall) (reply : BackendReply) (n : Nat)
    (hn : (if isAbortCall (.backend call reply) then 1 else 0) ≤ n) :
    AbortCount n n s (s.pushEvent (.backend call reply)) :=
  .call (.backend call reply) n hn (fun _ _ => rfl) rfl rfl rfl

/-! ## Commands that write no ABORT -/

theorem abortFree_chain : Chain (AbortCount 0 0) := ⟨AbortCount.refl, fun h k => h.trans k⟩

/-- No effect of a layer but the ABORT write itself begins or makes one. -/
theorem abortFree_stable : ResolveStable (fun _ => True) (AbortCount 0 0) where
  toChain := abortFree_chain
  cfg := fun ⟨_, h⟩ => .inl h.cfg
  irsel := fun ir hir s _ => by
    obtain ⟨t, hrun, _, hcount⟩ := abortCount_irsel ir s
    rw [if_neg hir] at hcount
    rw [hrun]
    exact hcount
  scan := fun ir rnw a d hir s _ => by
    have := abortCount_scan ir rnw a d s
    rwa [if_neg hir] at this
  driveLine := fun segs hn => abortCount_driveLine segs 0 (by simp [hn])
  draw := fun _ => .silent rfl rfl rfl
  backend := fun s call reply hn => abortCount_backend s call reply 0 (by simp [hn])
  lose := fun _ => .silent rfl rfl rfl
  gain := fun _ _ _ => .silent rfl rfl rfl
  shadow := fun _ _ _ _ => .silent rfl rfl rfl
  subword := fun _ _ _ _ => .silent rfl rfl rfl
  frozen := fun _ t h =>
    h.congr (.silent rfl rfl rfl) (.silent (unfreeze_cfg t) (unfreeze_trace t) (unfreeze_jtagIr t))
  absent := fun _ _ _ _ _ => .silent rfl rfl rfl
  commit := fun _ _ _ _ _ _ _ _ => .silent rfl rfl rfl
  own := fun _ _ _ _ _ => .inl trivial

/-! ## The ABORT write -/

/-- An SWD packet is one ABORT write when its request byte is 0x81, and its other calls are none (R170, R177). -/
theorem abortCount_swdXfer (apndp rnw : Bool) (a : RegAddr) (w : W32) : Keeps (AbortCount 1 1) (swdXfer apndp rnw a w) := by
  intro s
  have hreq := abortCount_driveLine [.out (bitsOf (swdReqByte apndp rnw a) 8), .trn 1, .inp 3] 1 (by split <;> omega) s
  have hlink := abortFree_stable.toLinkStable
  have hc := abortFree_chain
  unfold swdXfer
  rw [run_bind]
  cases e : bdDriveLine [.out (bitsOf (swdReqByte apndp rnw a) 8), .trn 1, .inp 3] s with
  | error x t => rw [e] at hreq; exact hreq
  | ok bits t =>
    rw [e] at hreq
    have hrest : Keeps (AbortCount 0 0) (if ackOf bits = 0b001 then swdDataPhase rnw w
        else do swdSkipPhase rnw w; swdIdle; accessError .swdAck ((ackOf bits).setWidth 32)) :=
      keeps_ite (keeps_swdDataPhase hlink rnw w)
        (keeps_then hc (keeps_swdSkipPhase hlink rnw w) (keeps_then hc (keeps_swdIdle hlink) (keeps_raise hc _)))
    exact hreq.trans (hrest t)

/-- The backend's ABORT call is one ABORT write (R115). -/
theorem abortCount_backendAbort (v : W32) : Keeps (AbortCount 1 1) (backendUnit (.abort v)) := by
  intro s
  have hpush : ∀ (t : State) (reply : BackendReply), AbortCount 1 1 t (t.pushEvent (.backend (.abort v) reply)) :=
    fun t reply => abortCount_backend t _ reply 1 (by split <;> omega)
  have hdraw : AbortCount 0 0 s (s.setAnswers s.answers.tail (s.drawn + 1)) := .silent rfl rfl rfl
  have hafter : ∀ reply, AbortCount 1 1 s
      ((s.setAnswers s.answers.tail (s.drawn + 1)).pushEvent (.backend (.abort v) reply)) := fun reply => by
    simpa using hdraw.trans (hpush _ reply)
  unfold backendUnit backendCall
  rw [run_bind, run_bind_ok (draw_run s)]
  split_ifs
  · exact hafter _
  · exact hafter _

/-- A computation's value is dropped without an effect. -/
theorem keeps_dropped {α : Type} {R : State → State → Prop} {m : Dap α} (hm : Keeps R m) :
    Keeps R (do let _ ← m; pure ()) := fun s => keeps_map_from (fun _ => ()) (hm s)

/-- `Link.Abort(v)` is one ABORT write, on every link (R115, R158, R177). -/
theorem abortCount_linkAbort (v : W32) : Keeps (AbortCount 1 1) (linkAbort v) := by
  refine keeps_getS_bind fun s => ?_
  cases s.cfg.iface with
  | jtag => exact keeps_dropped (abortCount_scan .abort false 0x0 v) s
  | swd => exact keeps_dropped (abortCount_swdXfer false false 0x0 v) s
  | vendor => exact abortCount_backendAbort v s

theorem abortCount_clearSticky : Keeps (AbortCount 1 1) clearSticky :=
  keeps_getS_bind fun s => abortCount_linkAbort _ s

/-- A wrapped operation clears the flags at most once (R270, R316). -/
theorem abortCount_stickyRetry {α : Type} {ap : ApIndex} {k : MemApConnection → Dap α}
    (hk : ∀ c, Keeps (fun s t => AbortCount 0 0 s t ∧ FrameCommand s t) (k c)) {s : State}
    (hd : detected s.dpVersion = true) :
    AbortCount 1 1 s (endState (stickyRetry (resolveStrict ap >>= k) s)) := by
  have hstable := abortFree_stable.andCommand fun _ _ _ _ _ => trivial
  rcases stickyRetry_cases (P := fun t => detected t.dpVersion = true)
    (Q := fun s t => AbortCount 0 0 s t ∧ FrameCommand s t) (C := fun s t => AbortCount 1 1 s t ∧ FrameCommand s t) hd
    (fun t ht => keeps_attempt hstable trivial (fun c _ => hk c) ht)
    (fun t _ => ⟨abortCount_clearSticky t, frameCommand_clearSticky t⟩)
    (fun hp hq => by rw [hq.2.dpVersion]; exact hp) (fun hp hq => by rw [hq.2.dpVersion]; exact hp)
    with hfirst | ⟨t, u, hfirst, hclear, hsecond⟩
  · exact hfirst.1.mono (Nat.zero_le 1) (Nat.zero_le 1)
  · have hcleared : AbortCount 1 1 s u := by simpa using hfirst.1.trans hclear.1
    rcases hsecond with he | hq
    · rw [he]; exact hcleared
    · simpa using hcleared.trans hq.1

/-! ## Every command -/

section

variable {β : Type} {c w : Nat} {s : State}

/-- A check before a command leaves its count. -/
theorem abortCount_check_then {b : Bool} {e : DapError} {m : Dap β} (hm : b = true → AbortCount c w s (endState (m s))) :
    AbortCount c w s (endState ((check b e >>= fun _ => m) s)) := by
  cases b
  · exact (AbortCount.refl s).mono (Nat.zero_le c) (Nat.zero_le w)
  · exact hm rfl

theorem abortCount_iface_then {i : Iface} {m : Dap β} (hm : s.cfg.iface = i → AbortCount c w s (endState (m s))) :
    AbortCount c w s (endState ((requireIface i >>= fun _ => m) s)) := by
  unfold requireIface
  rw [run_bind, run_getS_bind, ← run_bind]
  exact abortCount_check_then fun h => hm (by simpa using h)

theorem abortCount_detected_then {m : Dap β} (hm : detected s.dpVersion = true → AbortCount c w s (endState (m s))) :
    AbortCount c w s (endState ((requireDetected >>= fun _ => m) s)) := by
  unfold requireDetected
  rw [run_bind, run_getS_bind, ← run_bind]
  exact abortCount_check_then hm

theorem abortCount_codec_then {m : Dap β} (hm : AbortCount c w s (endState (m s))) :
    AbortCount c w s (endState ((requireCodec >>= fun _ => m) s)) := by
  unfold requireCodec
  rw [run_bind, run_getS_bind, ← run_bind]
  exact abortCount_check_then fun _ => hm

theorem abortCount_dpReg_then {r : DpReg} {m : Dap β} (hm : AbortCount c w s (endState (m s))) :
    AbortCount c w s (endState ((requireDpReg r >>= fun _ => m) s)) := by
  unfold requireDpReg
  rw [run_bind, run_getS_bind]
  by_cases hd : detected s.dpVersion = true
  · rw [if_pos hd, ← run_bind]; exact abortCount_check_then fun _ => hm
  · rw [if_neg hd, ← run_bind]; exact abortCount_check_then fun _ => hm

/-- An engine command on the cached connection begins no ABORT write. -/
theorem abortCount_engineShape {α : Type} {b : Bool} {f : α → Value} {ap : ApIndex} {k : MemApConnection → Dap α}
    (hk : ∀ c, Keeps (AbortCount 0 0) (k c)) :
    Keeps (AbortCount 0 0) (do requireDetected; requireArg b; let c ← requireConn ap; let a ← k c; pure (f a)) :=
  keeps_then abortFree_chain (keeps_requireDetected abortFree_chain)
    (keeps_then abortFree_chain (keeps_check abortFree_chain _ _)
      (keeps_bind abortFree_chain (keeps_requireConn abortFree_chain ap) fun c =>
        keeps_packed abortFree_chain (hk c)))

/-- A delegated operation, whatever the Codec. -/
theorem abortCount_delegate {ap : ApIndex} {op : CodecOp} (hd : detected s.dpVersion = true) :
    AbortCount 1 1 s (endState (delegate ap op s)) :=
  abortCount_stickyRetry (fun _ =>
    keeps_runCodec (abortFree_stable.andCommand fun _ _ _ _ _ => trivial).toEngineStable trivial _) hd

end

/-- A DP write of another aligned address than 0 is no ABORT write (R119). -/
theorem aligned_ne_zero {a : RegAddr} (ha : a.aligned = true) (h0 : a ≠ 0x0) : a.extractLsb' 2 2 ≠ 0 := by
  revert a
  decide

/-- Every request the driver emits but the ABORT write (R130). -/
theorem abortCount_swdXfer_free {apndp rnw : Bool} {a : RegAddr} (hok : packetOk apndp rnw a = true)
    (hne : ¬ (apndp = false ∧ rnw = false ∧ a = 0x0)) (w : W32) : Keeps (AbortCount 0 0) (swdXfer apndp rnw a w) := by
  have ha : a.aligned = true := (Bool.and_eq_true _ _ ▸ hok : _ ∧ _).1
  refine keeps_swdXfer abortFree_stable.toLinkStable apndp rnw a w ?_
  cases apndp
  · cases rnw
    · exact .inr (.inr (aligned_ne_zero ha fun h0 => hne ⟨rfl, rfl, h0⟩))
    · exact .inr (.inl rfl)
  · exact .inl rfl

/-- The reads of a JTAG.READN are never under ABORT (R130). -/
theorem readScanOk_not_abort {reads : List (IrCode × RegAddr)} (h : reads.all readScanOk = true) :
    ∀ r ∈ reads, r.1 ≠ .abort := by
  intro r hr he
  have hok := List.all_eq_true.mp h r hr
  unfold readScanOk at hok
  rw [he] at hok
  simp at hok

/-- The counts of a command are bounded by those of its trace. -/
theorem AbortCount.bounds {c w : Nat} {s u : State} (h : AbortCount c w s u) :
    abortCalls s u ≤ c ∧ abortWrites s u ≤ w := by
  obtain ⟨es, _, ht, hcalls, k, hk, hwrites⟩ := h
  have hnew : newCalls s u = es := by
    unfold newCalls
    rw [ht, List.drop_left]
  refine ⟨by unfold abortCalls; rw [hnew]; exact hcalls, ?_⟩
  have hall := hwrites []
  rw [List.append_nil] at hall
  unfold abortWrites
  rw [hnew]
  exact hall.trans_le hk

/-- The counts of every command, by its shape. -/
theorem exec_abortBounds (i : Instr) (s : State) : ∃ r u, exec i s = .next (u.pushResult r) ∧
    abortCalls s u ≤ abortBudget i ∧ abortWrites s u ≤ abortBudget i := by
  have hres := abortFree_stable
  have heng := hres.toEngineStable
  have hsel := hres.toSelectStable
  have hlink := hres.toLinkStable
  have hc := abortFree_chain
  have hwrapped := (hres.andCommand fun _ _ _ _ _ => trivial).toEngineStable
  have done : ∀ {m : Dap Value} {n : Nat}, AbortCount n n s (endState (m s)) →
      ∃ r u, complete m s = .next (u.pushResult r) ∧ abortCalls s u ≤ n ∧ abortWrites s u ≤ n := fun h => by
    obtain ⟨r, u, he, hu⟩ := complete_keeps h
    exact ⟨r, u, he, hu.bounds⟩
  cases i with
  | detectVersion =>
    refine done (keeps_map_from _ ?_)
    refine keeps_getS_bind (fun s => keeps_ite (keeps_pure hc _) (keeps_bind hc (keeps_linkDpRead hlink 0x0) fun id => ?_) s) s
    cases classifyDpidr id with
    | error e => exact keeps_raise hc e
    | ok v => exact keeps_packed hc (keeps_upd fun t => .silent rfl rfl rfl)
  | reassertPower => exact done (keeps_packed hc (keeps_reassertPower hsel) s)
  | dpRead r => exact done (keeps_dpShape hc (keeps_dpRead hsel r) s)
  | dpWrite r v =>
    by_cases hr : r = .abort
    · subst hr
      exact done (n := 1) (abortCount_dpReg_then (abortCount_check_then fun _ =>
        keeps_map_from _ (abortCount_linkAbort v s)))
    · have hz : abortBudget (.dpWrite r v) = 0 := if_neg hr
      rw [hz]
      exact done (keeps_dpShape hc (keeps_dpWrite hsel hr v) s)
  | selectAp ap addr => exact done (keeps_apShape hc (keeps_selectAp hsel ap _) s)
  | freezeSelect =>
    have hf : AbortCount 0 0 s s.freeze := .silent rfl rfl rfl
    exact ⟨_, _, exec_freezeSelect s, hf.bounds⟩
  | unfreezeSelect =>
    have hf : AbortCount 0 0 s s.unfreeze := .silent (unfreeze_cfg s) (unfreeze_trace s) (unfreeze_jtagIr s)
    exact ⟨_, _, exec_unfreezeSelect s, hf.bounds⟩
  | checkSticky => exact done (keeps_packed hc (keeps_checkSticky hsel) s)
  | clearSticky => exact done (keeps_map_from _ (abortCount_clearSticky s))
  | apRead ap addr => exact done (keeps_apShape hc (keeps_hostApRead heng trivial _) s)
  | apWrite ap addr v => exact done (keeps_apShape hc (keeps_hostApWrite heng trivial _ v) s)
  | swdConnect t => exact done (keeps_linkShape_total hlink (keepsOn_of_keeps (keeps_swdConnect hsel t)))
  | getConnection ap ai per dis =>
    refine done (keeps_detected_then hc fun hd => ?_)
    have hr := keeps_resolve hres (ap := ap) trivial ai per hd
    unfold getConnection
    rw [run_bind]
    cases e : resolve ap ai per s with
    | error x t => rw [e] at hr; exact hr
    | ok o t =>
      rw [e] at hr
      cases o with
      | none => exact hr
      | some c =>
        have hen : Keeps (AbortCount 0 0) (requireEnabled ap dis) := keeps_getS_bind fun s => keeps_check hc _ _ s
        exact hc.trans hr (keeps_packed hc hen t)
  | memoryRead ap a b =>
    exact done (abortCount_detected_then fun hd => abortCount_check_then fun _ => keeps_map_from _
      (abortCount_stickyRetry (fun _ => keeps_readMemory hwrapped trivial a b) hd))
  | memoryWrite ap a n d =>
    exact done (abortCount_detected_then fun hd => abortCount_check_then fun _ => keeps_map_from _
      (abortCount_stickyRetry (fun _ => keeps_writeMemoryRmw hwrapped trivial a _) hd))
  | registerRead ap n rs =>
    exact done (abortCount_codec_then (abortCount_detected_then fun hd => abortCount_check_then fun _ =>
      keeps_map_from _ (abortCount_delegate hd)))
  | registerWrite ap n rs vs =>
    exact done (abortCount_codec_then (abortCount_detected_then fun hd => abortCount_check_then fun _ =>
      keeps_map_from _ (abortCount_delegate hd)))
  | runCtrlRead ap d =>
    exact done (abortCount_codec_then (abortCount_detected_then fun hd => keeps_map_from _ (abortCount_delegate hd)))
  | runCtrlWrite ap d =>
    exact done (abortCount_codec_then (abortCount_detected_then fun hd => keeps_map_from _ (abortCount_delegate hd)))
  | scanAps x => exact done (keeps_then hc (keeps_requireDetected hc) (keeps_packed hc (keeps_scanFrom hsel x _ _)) s)
  | getChipVersion => exact done (keeps_then hc (keeps_requireDetected hc) (keeps_chipVersion hsel) s)
  | teardown =>
    have hnew : newCalls s s.teardown = [] := List.drop_length
    refine ⟨_, _, exec_teardown s, ?_, ?_⟩
    · unfold abortCalls; rw [hnew]; exact Nat.zero_le _
    · unfold abortWrites; rw [hnew]; exact Nat.zero_le _
  | readMemory ap a b => exact done (abortCount_engineShape (fun _ => keeps_readMemory heng trivial a b) s)
  | writeMemory ap a n d => exact done (abortCount_engineShape (fun _ => keeps_writeMemory heng trivial a _) s)
  | writeMemoryRmw ap a n d => exact done (abortCount_engineShape (fun _ => keeps_writeMemoryRmw heng trivial a _) s)
  | pollRead ap x n bz => exact done (abortCount_engineShape (fun _ => keeps_pollRead heng trivial x n bz) s)
  | pollWrite ap x n vs bz => exact done (abortCount_engineShape (fun _ => keeps_pollWrite heng trivial x vs bz) s)
  | jtagIrsel ir =>
    refine done (abortCount_iface_then fun _ => keeps_map_from _ ?_)
    obtain ⟨t, hrun, _, hcount⟩ := abortCount_irsel ir s
    rw [hrun]
    exact hcount.mono (Nat.le_refl _) (Nat.zero_le _)
  | jtagScan ir rnw a d =>
    exact done (abortCount_iface_then fun _ => abortCount_check_then fun _ =>
      keeps_map_from _ (abortCount_scan ir rnw a d s))
  | jtagDpaccRd a => exact done (keeps_linkShape hlink (keepsOn_jtagDpaccRd hlink a))
  | jtagDpaccWr a v => exact done (keeps_linkShape hlink (keepsOn_jtagDpaccWr hlink a v))
  | jtagApaccRd a => exact done (keeps_linkShape hlink (keepsOn_jtagApaccRd hlink a))
  | jtagApaccWr a v => exact done (keeps_linkShape hlink (keepsOn_jtagApaccWr hlink a v))
  | jtagReadn rs =>
    refine done (abortCount_iface_then fun hj => abortCount_check_then fun hok => keeps_map_from _ ?_)
    have hreads : rs.all readScanOk = true := (Bool.and_eq_true _ _ ▸ hok : _ ∧ _).2
    exact keepsOn_jtagReadn hlink rs (readScanOk_not_abort hreads) s hj
  | jtagWriten a ws => exact done (keeps_linkShape hlink (keepsOn_jtagWriten hlink a ws))
  | jtagAbortWr v =>
    exact done (abortCount_iface_then fun _ => keeps_map_from _
      (keeps_dropped (abortCount_scan .abort false 0x0 v) s))
  | swdXfer p q a w =>
    refine done (abortCount_iface_then fun _ => abortCount_check_then fun hok => keeps_map_from _ ?_)
    show AbortCount (if p = false ∧ q = false ∧ a = 0x0 then 1 else 0)
      (if p = false ∧ q = false ∧ a = 0x0 then 1 else 0) s _
    split_ifs with hab
    · exact abortCount_swdXfer p q a w s
    · exact abortCount_swdXfer_free hok hab w s
  | swdDpRd a => exact done (keeps_linkShape hlink (keepsOn_of_keeps (keeps_swdDpRd hlink a)))
  | swdDpWr a v =>
    refine done (abortCount_iface_then fun _ => abortCount_check_then fun hok => keeps_map_from _ ?_)
    show AbortCount (if a = 0x0 then 1 else 0) (if a = 0x0 then 1 else 0) s _
    split_ifs with hab
    · exact keeps_dropped (abortCount_swdXfer false false a v) s
    · exact keeps_dropped (abortCount_swdXfer_free hok (fun h => hab h.2.2) v) s
  | swdApRd a => exact done (keeps_linkShape hlink (keepsOn_of_keeps (keeps_swdApRd hlink a)))
  | swdApWr a v => exact done (keeps_linkShape hlink (keepsOn_of_keeps (keeps_swdApWr hlink a v)))
  | swdReadn a n => exact done (keeps_linkShape hlink (keepsOn_of_keeps (keeps_swdReadn hlink a n)))
  | swdWriten a ws => exact done (keeps_linkShape hlink (keepsOn_of_keeps (keeps_swdWriten hlink a ws)))
  | swdAbort v =>
    exact done (abortCount_iface_then fun _ => keeps_map_from _
      (keeps_dropped (abortCount_swdXfer false false 0x0 v) s))
  | swdLinereset => exact done (keeps_linkShape_total hlink (keepsOn_of_keeps (keeps_swdLinereset hlink)))
  | swdTargetsel v => exact done (keeps_linkShape_total hlink (keepsOn_of_keeps (keeps_swdTargetsel hlink v)))

/-- Settles O13: the counts of the command that `exec` runs. -/
theorem abortBudgetHolds : Obligations.AbortBudgetHolds := by
  intro i s u r hexec
  obtain ⟨r', u', hnext, hcalls, hwrites⟩ := exec_abortBounds i s
  have hsame : u.pushResult r = u'.pushResult r' := Host.Outcome.next.inj (hexec.symm.trans hnext)
  have htrace : (u.pushResult r).trace = (u'.pushResult r').trace := by rw [hsame]
  rw [pushResult_trace, pushResult_trace] at htrace
  unfold abortCalls abortWrites newCalls at *
  rw [htrace]
  exact ⟨hcalls, hwrites⟩

end Sys2Proof.Machine

/-! Refusals (60_exceptions.md section 7): the checks come before any call, and nothing that runs after them refuses. -/

namespace Sys2Proof.Machine

open Sys2Proof

/-! ## Checks -/

theorem run_check_true {b : Bool} (h : b = true) (e : DapError) (s : State) : check b e s = .ok () s := by
  rw [h]; rfl

theorem run_check_false {b : Bool} (h : b = false) (e : DapError) (s : State) : check b e s = .error e s := by
  rw [h]; rfl

theorem requireDetected_ok {s : State} (h : detected s.dpVersion = true) : requireDetected s = .ok () s := by
  unfold requireDetected
  rw [run_getS_bind]
  exact run_check_true h _ s

theorem requireDetected_error {s : State} (h : detected s.dpVersion = false) :
    requireDetected s = .error .dpNotReady s := by
  unfold requireDetected
  rw [run_getS_bind]
  exact run_check_false h _ s

theorem requireCodec_ok {s : State} (h : s.cfg.codecPresent = true) : requireCodec s = .ok () s := by
  unfold requireCodec
  rw [run_getS_bind]
  exact run_check_true h _ s

theorem requireCodec_error {s : State} (h : s.cfg.codecPresent = false) :
    requireCodec s = .error .illegalCommand s := by
  unfold requireCodec
  rw [run_getS_bind]
  exact run_check_false h _ s

theorem requireArg_ok {b : Bool} (h : b = true) (s : State) : requireArg b s = .ok () s := run_check_true h _ s

theorem requireArg_error {b : Bool} (h : b = false) (s : State) : requireArg b s = .error .badArgument s :=
  run_check_false h _ s

theorem requireIface_ok {i : Iface} {s : State} (h : s.cfg.iface = i) : requireIface i s = .ok () s := by
  unfold requireIface
  rw [run_getS_bind]
  exact run_check_true (by rw [h]; exact beq_self_eq_true i) _ s

theorem requireConn_some {ap : ApIndex} {c : MemApConnection} {s : State} (h : s.connOf ap = some c) :
    requireConn ap s = .ok c s := by
  unfold requireConn
  rw [run_getS_bind, h]
  rfl

theorem requireConn_none {ap : ApIndex} {s : State} (h : s.connOf ap = none) :
    requireConn ap s = .error (.noConnection ap) s := by
  unfold requireConn
  rw [run_getS_bind, h]
  rfl

/-- A raw access is accepted as `State.accepts` says; a refusal names why (R205). -/
theorem requireDpReg_run (r : DpReg) (s : State) :
    requireDpReg r s = if s.accepts r = true then .ok () s
      else .error (if detected s.dpVersion = true then .registerNotInVersion else .dpNotReady) s := by
  unfold requireDpReg State.accepts
  rw [run_getS_bind]
  cases detected s.dpVersion
  · cases dpValidInV1 r || r == .targetsel <;> rfl
  · cases dpValidIn s.dpVersion r <;> rfl

theorem rangeOk_iff {a b : Nat} : rangeOk a b = true ↔ a ≤ b ∧ b ≤ 2 ^ 32 := by
  unfold rangeOk
  rw [Bool.and_eq_true, decide_eq_true_iff, decide_eq_true_iff]
  rfl

theorem dataOk_iff {a len : Nat} {data : List W32} :
    dataOk a len data = true ↔ data.length = (len + 3) / 4 ∧ a + len ≤ 2 ^ 32 := by
  unfold dataOk
  rw [Bool.and_eq_true, decide_eq_true_iff, beq_iff_eq]
  rfl

theorem busyOk_iff {busy : Option BusyCheck} :
    busyOk busy = true ↔ ∀ b, busy = some b → b.addr.toNat % 4 = 0 := by
  cases busy with
  | none => exact ⟨fun _ b h => absurd h (Option.some_ne_none b).symm, fun _ => rfl⟩
  | some b =>
    refine ⟨fun h c hc => ?_, fun h => decide_eq_true (h b rfl)⟩
    cases hc
    exact of_decide_eq_true h

theorem pollOk_iff {a : W32} {n : Nat} {busy : Option BusyCheck} :
    pollOk a n busy = true ↔ a.toNat % 4 = 0 ∧ 1 ≤ n ∧ ∀ b, busy = some b → b.addr.toNat % 4 = 0 := by
  unfold pollOk wordAligned
  rw [Bool.and_eq_true, Bool.and_eq_true, decide_eq_true_iff, decide_eq_true_iff, busyOk_iff, and_assoc]

/-- A command whose first check fails ends with that error from the state it started in. -/
theorem complete_refused {α : Type} {m : Dap α} {k : α → Dap Value} {s : State} {e : DapError}
    (h : m s = .error e s) : complete (m >>= k) s = .next (s.pushResult (.error e)) :=
  complete_error (run_bind_error h)

/-- A command goes on after a check that passes. -/
theorem complete_passed {α : Type} {m : Dap α} {k : α → Dap Value} {s : State} {a : α} (h : m s = .ok a s) :
    complete (m >>= k) s = complete (k a) s := by
  unfold complete
  rw [run_bind_ok h]

/-- Settles O11: the version is the first check, after the Codec's for the delegated ones. -/
theorem versionIsNeeded : Obligations.VersionIsNeeded := by
  intro i s hi hd hcodec
  have direct : ∀ {k : Unit → Dap Value}, complete (requireDetected >>= k) s =
      .next (s.pushResult (.error .dpNotReady)) := fun {k} => complete_refused (requireDetected_error hd)
  have delegated : ∀ {k : Unit → Dap Value}, s.cfg.codecPresent = true →
      complete (requireCodec >>= fun _ => requireDetected >>= k) s = .next (s.pushResult (.error .dpNotReady)) :=
    fun hc => (complete_passed (requireCodec_ok hc)).trans direct
  cases i with
  | selectAp ap addr => exact direct
  | apRead ap addr => exact direct
  | apWrite ap addr v => exact direct
  | getConnection ap ai per dis => exact direct
  | memoryRead ap a b => exact direct
  | memoryWrite ap a n d => exact direct
  | registerRead ap n rs => exact delegated (hcodec rfl)
  | registerWrite ap n rs vs => exact delegated (hcodec rfl)
  | runCtrlRead ap d => exact delegated (hcodec rfl)
  | runCtrlWrite ap d => exact delegated (hcodec rfl)
  | scanAps x => exact direct
  | getChipVersion => exact direct
  | readMemory ap a b => exact direct
  | writeMemory ap a n d => exact direct
  | writeMemoryRmw ap a n d => exact direct
  | pollRead ap x n bz => exact direct
  | pollWrite ap x n vs bz => exact direct
  | _ => exact absurd hi Bool.false_ne_true

/-- Settles O12: readiness is checked first, the direction after it. -/
theorem rawAccessReadiness : Obligations.RawAccessReadiness := by
  intro s r v
  have refused : ∀ {e : DapError} {k : Unit → Dap Value}, s.accepts r = false →
      e = (if detected s.dpVersion = true then .registerNotInVersion else .dpNotReady) →
      complete (requireDpReg r >>= k) s = .next (s.pushResult (.error e)) := by
    intro e k hr he
    refine complete_refused ?_
    rw [requireDpReg_run, if_neg (by rw [hr]; exact Bool.false_ne_true), he]
  have wrongWay : ∀ {b : Bool} {k : Unit → Dap Value}, s.accepts r = true → b = false →
      complete (requireDpReg r >>= fun _ => requireArg b >>= k) s = .next (s.pushResult (.error .badArgument)) := by
    intro b k hr hb
    have hpass : requireDpReg r s = .ok () s := by rw [requireDpReg_run, if_pos hr]
    exact (complete_passed hpass).trans (complete_refused (requireArg_error hb s))
  refine ⟨fun hd hv hr => ?_, fun hd hv => ?_, fun ha hr => wrongWay ha hr, fun ha hw => wrongWay ha hw⟩
  · have hacc : s.accepts r = false := by
      unfold State.accepts
      rw [hd, hv]
      simpa using hr
    have he : DapError.dpNotReady = if detected s.dpVersion = true then .registerNotInVersion else .dpNotReady := by
      rw [hd]; rfl
    exact ⟨refused hacc he, refused hacc he⟩
  · have hacc : s.accepts r = false := by
      unfold State.accepts
      rw [hd]
      exact hv
    have he : DapError.registerNotInVersion =
        if detected s.dpVersion = true then .registerNotInVersion else .dpNotReady := by rw [hd]; rfl
    exact ⟨refused hacc he, refused hacc he⟩

/-- Settles O31: a detected version is answered from `dp_version`. -/
theorem detectedVersionIsImmutable : Obligations.DetectedVersionIsImmutable := by
  have known : ∀ s : State, detected s.dpVersion = true →
      exec .detectVersion s = .next (s.pushResult (.ok (.word (versionNumber s.dpVersion)))) := by
    intro s hd
    have hrun : detectVersion s = .ok (versionNumber s.dpVersion) s := by
      unfold detectVersion
      rw [run_getS_bind, if_pos hd]
      rfl
    exact complete_ok (run_bind_ok hrun)
  intro s
  refine ⟨fun h => ?_, fun h => ?_, fun h => ?_⟩ <;> (rw [known s (by rw [h]; rfl), h]; rfl)

/-- Settles O51: the operand checks and the lookup of the connection stand before the operation. -/
theorem engineOperandChecks : Obligations.EngineOperandChecks := by
  intro s ap hd
  have bad : ∀ {b : Bool} {k : Unit → Dap Value}, b = false →
      complete (requireDetected >>= fun _ => requireArg b >>= k) s = .next (s.pushResult (.error .badArgument)) :=
    fun hb => (complete_passed (requireDetected_ok hd)).trans (complete_refused (requireArg_error hb s))
  have lost : ∀ {b : Bool} {k : MemApConnection → Dap Value}, s.connOf ap = none → b = true →
      complete (requireDetected >>= fun _ => requireArg b >>= fun _ => requireConn ap >>= k) s =
        .next (s.pushResult (.error (.noConnection ap))) := fun hn hb =>
    (complete_passed (requireDetected_ok hd)).trans
      ((complete_passed (requireArg_ok hb s)).trans (complete_refused (requireConn_none hn)))
  refine ⟨fun a b h => ?_, fun a len data h => ?_, fun a n busy h => ?_, fun a n b h => ?_, fun hn => ⟨fun a b hab hb => ?_,
    fun a len data hl hb => ?_, fun a n busy ha h1 hb => ?_⟩⟩
  · have hr : rangeOk a b = false := Bool.eq_false_iff.mpr fun hok => by
      have := rangeOk_iff.mp hok
      omega
    exact ⟨bad hr, bad hr⟩
  · have hr : dataOk a len data = false := Bool.eq_false_iff.mpr fun hok => by
      have := dataOk_iff.mp hok
      omega
    exact ⟨bad hr, bad hr, bad hr⟩
  · have hr : pollOk a n busy = false := Bool.eq_false_iff.mpr fun hok => by
      obtain ⟨ha, hn, _⟩ := pollOk_iff.mp hok
      omega
    exact ⟨bad hr, fun values => bad (by rw [hr]; rfl)⟩
  · have hr : pollOk a n (some b) = false := Bool.eq_false_iff.mpr fun hok => by
      obtain ⟨_, _, hb⟩ := pollOk_iff.mp hok
      exact h (hb b rfl)
    exact ⟨bad hr, fun values => bad (by rw [hr]; rfl)⟩
  · exact lost hn (rangeOk_iff.mpr ⟨hab, hb⟩)
  · have hr : dataOk a len data = true := dataOk_iff.mpr ⟨hl, hb⟩
    exact ⟨lost hn hr, lost hn hr⟩
  · have hr : pollOk a n busy = true := pollOk_iff.mpr ⟨ha, h1, hb⟩
    exact ⟨lost hn hr, fun values hv => lost hn (by rw [hr, hv, beq_self_eq_true]; rfl)⟩

/-- Settles O57: without a Codec the first check fails, with one the operands' does. -/
theorem delegatedCommandsRefused : Obligations.DelegatedCommandsRefused := by
  intro s ap n regs values ctrl
  refine ⟨fun hc => ?_, fun hc hd hl => ?_⟩
  · have none : ∀ {k : Unit → Dap Value}, complete (requireCodec >>= k) s =
        .next (s.pushResult (.error .illegalCommand)) := fun {k} => complete_refused (requireCodec_error hc)
    exact ⟨none, none, none, none⟩
  · have hbad : (regs.length == n && values.length == n) = false := by
      simp only [Bool.and_eq_false_iff, beq_eq_false_iff_ne]
      omega
    exact (complete_passed (requireCodec_ok hc)).trans ((complete_passed (requireDetected_ok hd)).trans
      (complete_refused (requireArg_error hbad s)))

/-! ## A probed AP (R271 to R273) -/

theorem resolve_absent {s : State} {ap : ApIndex} (h : s.apStateOf ap = .absent) (ai : Option Bool) (per : Bool) :
    resolve ap ai per s = .ok none s := by
  unfold resolve
  rw [run_getS_bind, h]
  rfl

/-- A cached connection is the answer, enabled or not. -/
theorem resolve_cached {s : State} {ap : ApIndex} (h : s.apStateOf ap = .presentEnabled ∨ s.apStateOf ap = .presentDisabled)
    (ai : Option Bool) (per : Bool) : resolve ap ai per s = .ok (s.connOf ap) s := by
  unfold resolve
  rw [run_getS_bind]
  rcases h with h | h <;> rw [h] <;> rfl

/-- A present AP has its connection (R25). -/
theorem Inv.present_conn {s : State} (h : Inv s) {ap : ApIndex}
    (hp : s.apStateOf ap = .presentEnabled ∨ s.apStateOf ap = .presentDisabled) : ∃ c, s.connOf ap = some c := by
  have hc := h.conns ap
  unfold ConnInv at hc
  cases he : s.connOf ap with
  | some c => exact ⟨c, rfl⟩
  | none => rcases hp with hp | hp <;> (rw [hp, he] at hc; exact hc.elim)

/-- GET_CONNECTION is the resolution, and the check for a disabled AP if there is one (R271). -/
theorem exec_getConnection_absent {s u : State} {ap : ApIndex} {ai : Option Bool} {per dis : Bool}
    (hd : detected s.dpVersion = true) (hr : resolve ap ai per s = .ok none u) :
    exec (.getConnection ap ai per dis) s = .next (u.pushResult (.ok .absent)) := by
  refine (complete_passed (requireDetected_ok hd)).trans ?_
  unfold getConnection complete
  rw [run_bind_ok hr]
  rfl

theorem exec_getConnection_present {s u : State} {ap : ApIndex} {ai : Option Bool} {per dis : Bool}
    {c : MemApConnection} (hd : detected s.dpVersion = true) (hr : resolve ap ai per s = .ok (some c) u) :
    exec (.getConnection ap ai per dis) s =
      complete (do requireEnabled ap dis; pure (Value.connection c)) u := by
  refine (complete_passed (requireDetected_ok hd)).trans ?_
  unfold getConnection complete
  rw [run_bind_ok hr]

/-- Settles O53: resolution answers from the cache, and the rest is the check for a disabled AP. -/
theorem getConnectionCached : Obligations.GetConnectionCached := by
  intro s ap ai per dis h hd
  have found : ∀ {c}, s.apStateOf ap = .presentEnabled ∨ s.apStateOf ap = .presentDisabled → s.connOf ap = some c →
      exec (.getConnection ap ai per dis) s =
        complete (do requireEnabled ap dis; pure (Value.connection c)) s := fun hp hc =>
    exec_getConnection_present hd (by rw [resolve_cached hp, hc])
  refine ⟨fun ha => ?_, fun hp => ?_, fun hp => ?_⟩
  · exact exec_getConnection_absent hd (resolve_absent ha ai per)
  · obtain ⟨c, hc⟩ := h.present_conn (.inl hp)
    refine ⟨c, hc, (found (.inl hp) hc).trans (complete_passed (a := ()) ?_)⟩
    rw [requireEnabled_run, hp]
    exact if_pos (by cases dis <;> rfl)
  · obtain ⟨c, hc⟩ := h.present_conn (.inr hp)
    refine ⟨c, hc, (found (.inr hp) hc).trans ?_⟩
    cases dis
    · refine complete_refused ?_
      rw [requireEnabled_run, hp]
      rfl
    · refine complete_passed (a := ()) ?_
      rw [requireEnabled_run]
      rfl

/-- An operation on an AP known absent or disabled ends before it begins, and that error is not retried (R270, R302,
R303). -/
theorem stickyRetry_probed {α : Type} {s : State} {ap : ApIndex} {e : DapError} (h : Inv s)
    (he : s.apStateOf ap = .absent ∧ e = .apNotPresent ap ∨ s.apStateOf ap = .presentDisabled ∧ e = .apDisabled ap)
    (k : MemApConnection → Dap α) : stickyRetry (resolveStrict ap >>= k) s = .error e s := by
  have hstrict : resolveStrict ap s = .error e s := by
    unfold resolveStrict
    rcases he with ⟨ha, rfl⟩ | ⟨hp, rfl⟩
    · rw [run_bind_ok (resolve_absent ha none false)]
      rfl
    · obtain ⟨c, hc⟩ := h.present_conn (.inr hp)
      have hres : resolve ap none false s = .ok (some c) s := by rw [resolve_cached (.inr hp), hc]
      rw [run_bind_ok hres]
      refine run_bind_error ?_
      rw [requireEnabled_run, hp]
      rfl
  have hatt : attempt checkSticky (resolveStrict ap >>= k) s = .error e s :=
    run_bind_error (run_bind_error hstrict)
  unfold stickyRetry withStickyRetry
  rw [run_onError, hatt]
  rcases he with ⟨_, rfl⟩ | ⟨_, rfl⟩ <;> rfl

/-- Settles O55: each of the six resolves the AP before anything else it does. -/
theorem wrappedCommandsNeedEnabledAp : Obligations.WrappedCommandsNeedEnabledAp := by
  intro s ap e h hd hc he
  have wrapped : ∀ {b : Bool} {α : Type} {k : MemApConnection → Dap α} {f : α → Dap Value}, b = true →
      complete (requireDetected >>= fun _ => requireArg b >>= fun _ => stickyRetry (resolveStrict ap >>= k) >>= f) s =
        .next (s.pushResult (.error e)) := fun hb =>
    (complete_passed (requireDetected_ok hd)).trans ((complete_passed (requireArg_ok hb s)).trans
      (complete_refused (stickyRetry_probed h he _)))
  have delegated : ∀ {op : CodecOp} {f : List W32 → Dap Value},
      complete (delegate ap op >>= f) s = .next (s.pushResult (.error e)) := fun {_ _} =>
    complete_refused (stickyRetry_probed h he _)
  have ready : ∀ {k : Unit → Dap Value}, complete (requireCodec >>= fun _ => requireDetected >>= k) s =
      complete (k ()) s := fun {_} =>
    (complete_passed (requireCodec_ok hc)).trans (complete_passed (requireDetected_ok hd))
  have checked : ∀ {b : Bool} {k : Unit → Dap Value}, b = true →
      complete (requireArg b >>= k) s = complete (k ()) s := fun hb => complete_passed (requireArg_ok hb s)
  refine ⟨fun a b hab hb => wrapped (rangeOk_iff.mpr ⟨hab, hb⟩),
    fun a len data hl hb => wrapped (dataOk_iff.mpr ⟨hl, hb⟩), fun regs => ?_, fun regs values hl => ?_,
    fun ctrl => ready.trans delegated, fun ctrl => ready.trans delegated⟩
  · exact ready.trans ((checked (beq_self_eq_true _)).trans delegated)
  · exact ready.trans ((checked (by rw [hl, beq_self_eq_true]; rfl)).trans delegated)

end Sys2Proof.Machine

/-! The memory and poll commands on a T0 that serves the connection (43_memap_engine.md sections 2 to 4, 44_transport.md
section 3), as commands: operand checks, the operation and its frame. -/

namespace Sys2Proof.Machine

open Sys2Proof

/-! ## Byte strings against memory -/

/-- A byte string carried in words has the length it says (R126). -/
theorem dataBytes_length {len : Nat} {data : List W32} (h : data.length = (len + 3) / 4) :
    (dataBytes len data).length = len := by
  unfold dataBytes
  rw [List.length_take, bytesOfWords_length]
  omega

/-- The middle of a byte string that was stored reads back. -/
theorem Memory.bytes_fill_within {m : List Host.Cell} (hm : Memory.wf m = true) (a : Nat) (xs bs ys : List Byte) :
    Memory.bytes (Memory.fill m a (xs ++ bs ++ ys)) (a + xs.length) bs.length = bs := by
  refine List.ext_getElem? fun i => ?_
  by_cases hi : i < bs.length
  · rw [Memory.bytes_getElem _ _ _ _ hi, Memory.read_fill hm, if_pos (by omega),
      List.getElem?_append_left (by rw [List.length_append]; omega), List.getElem?_append_right (by omega)]
    have : a + xs.length + i - a - xs.length = i := by omega
    rw [this, List.getElem?_eq_getElem hi]
    rfl
  · rw [List.getElem?_eq_none (by rw [Memory.bytes_length]; omega), List.getElem?_eq_none (by omega)]

theorem Memory.bytes_fill_same {m : List Host.Cell} (hm : Memory.wf m = true) (a : Nat) (bs : List Byte) :
    Memory.bytes (Memory.fill m a bs) a bs.length = bs := by
  have := Memory.bytes_fill_within hm a [] bs []
  rwa [List.append_nil] at this

/-- A store leaves every address outside it. -/
theorem Memory.read_fill_outside {m : List Host.Cell} (hm : Memory.wf m = true) {a : Nat} {bs : List Byte} {x : Nat}
    (h : x < a ∨ a + bs.length ≤ x) : Memory.read (Memory.fill m a bs) x = Memory.read m x := by
  rw [Memory.read_fill hm]
  by_cases hx : a ≤ x
  · rw [if_pos hx, List.getElem?_eq_none (by omega)]
    rfl
  · rw [if_neg hx]

/-- WRITE_MEMORY's store is one store of the bytes between zeros, on either path (R235). -/
theorem padFill_eq (native : Bool) (m : List Host.Cell) (a : Nat) (bs : List Byte) : ∃ k j : Nat,
    k ≤ a - wordFloor a ∧ j ≤ wordCeil (a + bs.length) - (a + bs.length) ∧
      Memory.padFill native m a bs = Memory.fill m (a - k) (List.replicate k 0 ++ bs ++ List.replicate j 0) := by
  unfold Memory.padFill
  by_cases hb : bs = []
  · rw [if_pos hb, hb]
    exact ⟨0, 0, Nat.zero_le _, Nat.zero_le _, rfl⟩
  · rw [if_neg hb]
    by_cases hn : (unalignedEdge a (a + bs.length) && native) = true
    · rw [if_pos hn]
      refine ⟨0, 0, Nat.zero_le _, Nat.zero_le _, ?_⟩
      rw [List.replicate_zero, List.append_nil, List.nil_append, Nat.sub_zero]
    · rw [if_neg hn]
      refine ⟨_, _, Nat.le_refl _, Nat.le_refl _, ?_⟩
      have := (wordFloor_spec a).2.1
      rw [Nat.sub_sub_self this]

/-- The bytes WRITE_MEMORY stores read back. -/
theorem bytes_padFill {m : List Host.Cell} (hm : Memory.wf m = true) (native : Bool) (a : Nat) (bs : List Byte) :
    Memory.bytes (Memory.padFill native m a bs) a bs.length = bs := by
  obtain ⟨k, j, hk, _, he⟩ := padFill_eq native m a bs
  have hw := Memory.bytes_fill_within hm (a - k) (List.replicate k 0) bs (List.replicate j 0)
  have ha : a - k + (List.replicate k (0 : Byte)).length = a := by
    rw [List.length_replicate]
    omega
  rw [ha] at hw
  rw [he]
  exact hw

/-- WRITE_MEMORY leaves every byte outside the words of the range (R235). -/
theorem read_padFill_outside {m : List Host.Cell} (hm : Memory.wf m = true) (native : Bool) {a : Nat} {bs : List Byte}
    {x : Nat} (h : x < wordFloor a ∨ wordCeil (a + bs.length) ≤ x) :
    Memory.read (Memory.padFill native m a bs) x = Memory.read m x := by
  obtain ⟨k, j, hk, hj, he⟩ := padFill_eq native m a bs
  have hf := wordFloor_spec a
  have hc := wordCeil_spec (a + bs.length)
  rw [he]
  refine Memory.read_fill_outside hm ?_
  rw [List.length_append, List.length_append, List.length_replicate, List.length_replicate]
  omega

/-- A word write leaves every address outside the word. -/
theorem Memory.read_write32_outside {m : List Host.Cell} (hm : Memory.wf m = true) {a : Nat} (v : W32) {x : Nat}
    (h : x < a ∨ a + 4 ≤ x) : Memory.read (Memory.write32 m a v) x = Memory.read m x := by
  rw [Memory.read_write32 hm, if_neg (by omega), if_neg (by omega), if_neg (by omega), if_neg (by omega)]

/-- A word that was written reads back. -/
theorem Memory.read32_write32 {m : List Host.Cell} (hm : Memory.wf m = true) (a : Nat) (v : W32) :
    Memory.read32 (Memory.write32 m a v) a = v := by
  unfold Memory.read32
  rw [Memory.read_write32 hm, Memory.read_write32 hm, Memory.read_write32 hm, Memory.read_write32 hm,
    if_neg (by omega), if_neg (by omega), if_neg (by omega), if_pos rfl, if_neg (by omega), if_neg (by omega),
    if_pos rfl, if_neg (by omega), if_pos rfl, if_pos rfl]
  rw [BitVec.extractLsb'_append_extractLsb'_eq_extractLsb' (show 24 = 16 + 8 from rfl),
    BitVec.extractLsb'_append_extractLsb'_eq_extractLsb' (show 16 = 8 + 8 from rfl),
    BitVec.extractLsb'_append_extractLsb'_eq_extractLsb' (show 8 = 0 + 8 from rfl)]
  exact BitVec.extractLsb'_eq_self

theorem keyhole_outside {m : List Host.Cell} (hm : Memory.wf m = true) {a : Nat} (ws : List W32) {x : Nat}
    (h : x < a ∨ a + 4 ≤ x) : Memory.read (Memory.keyhole m a ws) x = Memory.read m x := by
  induction ws generalizing m with
  | nil => rfl
  | cons w ws ih =>
    show Memory.read (Memory.keyhole (Memory.write32 m a w) a ws) x = _
    rw [ih (Memory.wf_write32 hm a w), Memory.read_write32_outside hm w h]

/-- The last value written stands at the keyhole (R240). -/
theorem keyhole_last {m : List Host.Cell} (hm : Memory.wf m = true) (a : Nat) (ws : List W32) {w : W32}
    (h : ws.getLast? = some w) : Memory.read32 (Memory.keyhole m a ws) a = w := by
  induction ws generalizing m with
  | nil => cases h
  | cons v ws ih =>
    show Memory.read32 (Memory.keyhole (Memory.write32 m a v) a ws) a = w
    cases ws with
    | nil =>
      cases h
      exact Memory.read32_write32 hm a v
    | cons u us =>
      rw [List.getLast?_cons_cons] at h
      exact ih (Memory.wf_write32 hm a v) h

/-! ## Commands of a served connection -/

section
variable {α : Type} {s : State} {t : T0} {c : MemApConnection} {m : List Host.Cell}

theorem Served.owned (h : Served s t c) : Owned c.ap s := by
  intro d hd
  rw [h.conn] at hd
  cases hd
  rfl

/-- What a served connection's command leaves, as the statements say it. -/
theorem Able.after {u : State} {t' : T0} (h : Able u t' c m) (k : Kept s u t t' c) (hd : detected s.dpVersion = true) :
    ServedAfter u t c m := by
  have hs : Serves c (fun _ => .ok () u) s t () m := ⟨u, t', rfl, h, k⟩
  obtain ⟨v, hv, hm⟩ := hs.after hd
  cases hv
  exact hm

/-- An engine command on a served connection: the checks pass, and the operation's result, memory and frame are the
command's (R234). -/
theorem engine_served {op : MemApConnection → Dap α} {f : α → Value} {b : Bool} {r : α} (h : Served s t c)
    (hb : b = true) (hr : Serves c (op c) s t r m) (hk : Keeps (FrameEngine c.ap) (op c)) :
    ∃ u, complete (do requireDetected; requireArg b; let d ← requireConn c.ap; let a ← op d; pure (f a)) s =
        .next (u.pushResult (.ok (f r))) ∧ FrameEngine c.ap s u ∧ ServedAfter u t c m := by
  obtain ⟨u, hu, ha⟩ := hr.after h.detected
  have hf := hk s
  rw [hu] at hf
  exact ⟨u, (complete_passed (requireDetected_ok h.detected)).trans ((complete_passed (requireArg_ok hb s)).trans
    ((complete_passed (requireConn_some h.conn)).trans (complete_ok (run_bind_ok hu)))), hf, ha⟩

/-- The same without a value. -/
theorem engine_served_unit {op : MemApConnection → Dap Unit} {b : Bool} (h : Served s t c)
    (hb : b = true) (hr : Serves c (op c) s t () m) (hk : Keeps (FrameEngine c.ap) (op c)) :
    ∃ u, complete (do requireDetected; requireArg b; let d ← requireConn c.ap; op d; pure .unit) s =
        .next (u.pushResult (.ok .unit)) ∧ FrameEngine c.ap s u ∧ ServedAfter u t c m :=
  engine_served (f := fun _ => .unit) h hb hr hk

/-- A wrapped operation of an enabled AP resolves to the cached connection. -/
theorem Serves.resolved {op : MemApConnection → Dap α} {r : α} (h : Served s t c)
    (hp : s.apStateOf c.ap = .presentEnabled) (hr : Serves c (op c) s t r m) :
    Serves c (stickyRetry (resolveStrict c.ap >>= op)) s t r m := by
  refine stickyRetry_able ?_
  unfold Serves
  rw [run_bind_ok (resolveStrict_cached hp h.conn)]
  exact hr

/-- A wrapped memory command on a served connection (R273). -/
theorem wrapped_served {op : MemApConnection → Dap α} {f : α → Value} {b : Bool} {r : α} (h : Served s t c)
    (hp : s.apStateOf c.ap = .presentEnabled) (hb : b = true) (hr : Serves c (op c) s t r m)
    (hk : ∀ d : MemApConnection, d.ap = c.ap → Keeps (OwnedFrame c.ap) (op d)) :
    ∃ u, complete (do requireDetected; requireArg b; let a ← stickyRetry (resolveStrict c.ap >>= op); pure (f a)) s =
        .next (u.pushResult (.ok (f r))) ∧ FrameResolve c.ap s u ∧ ServedAfter u t c m := by
  obtain ⟨u, hu, ha⟩ := (Serves.resolved h hp hr).after h.detected
  have hf := frameResolve_stickyRetry h.owned hk h.detected
  rw [hu] at hf
  exact ⟨u, (complete_passed (requireDetected_ok h.detected)).trans ((complete_passed (requireArg_ok hb s)).trans
    (complete_ok (run_bind_ok hu))), hf, ha⟩

end

/-! ## The statements -/

/-- Settles O43: `readMemory_able`, the induction over runs, gives the bytes on either path. -/
theorem readMemoryDeliversBytes : Obligations.ReadMemoryDeliversBytes := by
  intro s t c a b h hab hb hg
  have hr := readMemory_able h.able hab hb hg
  exact ⟨engine_served h (rangeOk_iff.mpr ⟨hab, hb⟩) hr (keeps_readMemory (frameEngine_stable c.ap) rfl a b),
    fun hp => wrapped_served h hp (rangeOk_iff.mpr ⟨hab, hb⟩) hr fun _ hd =>
      keeps_readMemory (ownedFrame_stable c.ap).toEngineStable hd a b⟩

/-- Settles O44: memory after the command is `Memory.padFill`, one store of the bytes between zeros. -/
theorem writeMemoryStoresBytes : Obligations.WriteMemoryStoresBytes := by
  intro s t c a len data h hl hb hg
  have hlen := dataBytes_length hl
  have hr := writeMemory_able h.able (bs := dataBytes len data) (by rw [hlen]; exact hb) (by rw [hlen]; exact hg)
  obtain ⟨u, hu, fu, au⟩ := engine_served_unit (op := fun d => writeMemory d a (dataBytes len data)) h
    (dataOk_iff.mpr ⟨hl, hb⟩) hr (keeps_writeMemory (frameEngine_stable c.ap) rfl a _)
  refine ⟨u, _, hu, fu, au, rfl, ?_, fun x hx => read_padFill_outside h.inv.mem _ (by rw [hlen]; exact hx)⟩
  have := bytes_padFill h.inv.mem (subwordOf s c) a (dataBytes len data)
  rwa [hlen] at this

/-- WRITE_MEMORY_RMW's operation on a served connection, in the terms of the statements (R236). -/
theorem rmw_served {s : State} {t : T0} {c : MemApConnection} {a len : Nat} {data : List W32} (h : Served s t c)
    (hl : data.length = (len + 3) / 4) (hb : a + len ≤ 2 ^ 32) (hg : t.goodRange (wordFloor a) (wordCeil (a + len))) :
    Serves c (writeMemoryRmw c a (dataBytes len data)) s t () (Memory.fill t.mem a (dataBytes len data)) ∧
      Memory.bytes (Memory.fill t.mem a (dataBytes len data)) a len = dataBytes len data ∧
      ∀ x, x < a ∨ a + len ≤ x → Memory.read (Memory.fill t.mem a (dataBytes len data)) x = Memory.read t.mem x := by
  have hlen := dataBytes_length hl
  have hbytes := Memory.bytes_fill_same h.inv.mem a (dataBytes len data)
  rw [hlen] at hbytes
  exact ⟨writeMemoryRmw_able h.able (by rw [hlen]; exact hb) (by rw [hlen]; exact hg), hbytes,
    fun x hx => Memory.read_fill_outside h.inv.mem (by rw [hlen]; exact hx)⟩

/-- MEMORY_WRITE on a served connection: memory is the bytes stored (R274). -/
theorem memoryWrite_served {s : State} {t : T0} {c : MemApConnection} {a len : Nat} {data : List W32} (h : Served s t c)
    (hp : s.apStateOf c.ap = .presentEnabled) (hl : data.length = (len + 3) / 4) (hb : a + len ≤ 2 ^ 32)
    (hg : t.goodRange (wordFloor a) (wordCeil (a + len))) :
    ∃ u, exec (.memoryWrite c.ap a len data) s = .next (u.pushResult (.ok .unit)) ∧ FrameResolve c.ap s u ∧
      ServedAfter u t c (Memory.fill t.mem a (dataBytes len data)) :=
  wrapped_served (f := fun _ => .unit) (op := fun d => writeMemoryRmw d a (dataBytes len data)) h hp
    (dataOk_iff.mpr ⟨hl, hb⟩) (rmw_served h hl hb hg).1 fun _ hd =>
      keeps_writeMemoryRmw (ownedFrame_stable c.ap).toEngineStable hd a _

/-- Settles O45: both commands store the bytes and nothing else. -/
theorem rmwWriteStoresExactly : Obligations.RmwWriteStoresExactly := by
  intro s t c a len data h hl hb hg
  obtain ⟨hr, hbytes, hout⟩ := rmw_served h hl hb hg
  obtain ⟨u, hu, fu, au⟩ := engine_served_unit (op := fun d => writeMemoryRmw d a (dataBytes len data)) h
    (dataOk_iff.mpr ⟨hl, hb⟩) hr (keeps_writeMemoryRmw (frameEngine_stable c.ap) rfl a _)
  refine ⟨⟨u, _, hu, fu, au, hbytes, hout⟩, fun hp => ?_⟩
  obtain ⟨v, hv, fv, av⟩ := memoryWrite_served h hp hl hb hg
  exact ⟨v, _, hv, fv, av, hbytes, hout⟩

/-- A result on the list is outside what a served connection is. -/
theorem Served.pushResult {s : State} {t : T0} {c : MemApConnection} (h : Served s t c) (r : Result) :
    Served (s.pushResult r) t c :=
  ⟨⟨⟨h.closed.iface, h.closed.target, h.closed.noWait, h.closed.ir⟩, h.closed.select⟩, h.detected, h.conn, h.layout,
    h.inv, h.sticky, h.inject, h.member⟩

/-- Settles O46: O45's memory is what O43 reads, on the state the first command leaves. -/
theorem memoryRoundTrip : Obligations.MemoryRoundTrip := by
  intro s t c a len data h hp hl hb hg
  obtain ⟨_, hbytes, _⟩ := rmw_served h hl hb hg
  obtain ⟨u, hu, fu, t', b, ft, hm, hserved, hmem⟩ := memoryWrite_served h hp hl hb hg
  have hpu : u.apStateOf c.ap = .presentEnabled := (fu.probed (by rw [hp]; decide)).trans hp
  have hgood : t'.goodRange (wordFloor a) (wordCeil (a + len)) := fun x hx => hg x (ft.bad ▸ hx)
  obtain ⟨v, hv, fv, t'', b', ft', hm', hserved', hmem'⟩ := (readMemoryDeliversBytes _ t' { c with subword := b } a
    (a + len) (hserved.pushResult (.ok .unit)) (by omega) hb hgood).2 hpu
  refine ⟨u, v, hu, ?_, ?_, t'.mem, t'', b', ft.trans ft', hm', hserved', ?_⟩
  · rw [hm, Nat.add_sub_cancel_left, hbytes] at hv
    exact hv
  · exact fv.results.trans (congrArg (· ++ [Result.ok .unit]) fu.results)
  · exact MemberKept.trans hmem hmem'

/-- Settles O48. -/
theorem pollReadDeliversWords : Obligations.PollReadDeliversWords := by
  intro s t c a n busy h ha hn hb
  exact engine_served h (pollOk_iff.mpr ⟨ha.aligned, hn, fun b e => (hb b e).1.aligned⟩)
    (pollRead_able h.able ha n busy hb) (keeps_pollRead (frameEngine_stable c.ap) rfl a n busy)

/-- Settles O49: memory is the keyhole's after the writes in order. -/
theorem pollWriteStoresWords : Obligations.PollWriteStoresWords := by
  intro s t c a values busy h ha hn hb
  have hok : (pollOk a values.length busy && values.length == values.length) = true := by
    rw [pollOk_iff.mpr ⟨ha.aligned, hn, fun b e => (hb b e).1.aligned⟩, beq_self_eq_true]
    rfl
  obtain ⟨u, hu, fu, au⟩ := engine_served_unit (op := fun d => pollWrite d a values busy) h hok
    (pollWrite_able h.able ha values busy hb) (keeps_pollWrite (frameEngine_stable c.ap) rfl a values busy)
  exact ⟨u, _, hu, fu, au, rfl, fun w hw => keyhole_last h.inv.mem _ _ hw,
    fun x hx => keyhole_outside h.inv.mem values hx⟩

end Sys2Proof.Machine

/-! The delegated operations on a T0 that serves the connection (44_transport.md section 5): the Codec's program, call by
call. -/

namespace Sys2Proof.Machine

open Sys2Proof

/-! ## The engine commands of a Codec -/

theorem busyQuiet_iff {t : T0} {m : List Host.Cell} {busy : Option BusyCheck} :
    busyQuiet t m busy = true ↔ ∀ b, busy = some b → GoodWord t b.addr ∧ BusyIdle m b := by
  cases busy with
  | none => exact ⟨fun _ b h => absurd h (Option.some_ne_none b).symm, fun _ => rfl⟩
  | some b =>
    constructor
    · intro h c hc
      cases hc
      obtain ⟨ha, hg, hi⟩ := of_decide_eq_true h
      exact ⟨⟨ha, hg⟩, hi⟩
    · intro h
      obtain ⟨⟨ha, hg⟩, hi⟩ := h b rfl
      exact decide_eq_true ⟨ha, hg, hi⟩

/-- The meaning of a call depends on T0 through its bad addresses alone. -/
theorem callMeaning_congr {t u : T0} (h : u.bad = t.bad) (m : List Host.Cell) (call : EngineCall) :
    callMeaning u m call = callMeaning t m call := by
  have hq : ∀ m b, busyQuiet u m b = busyQuiet t m b := by
    intro m b
    cases b <;> simp only [busyQuiet, T0.goodRange, h]
  cases call <;> simp only [callMeaning, T0.goodRange, hq, h]

theorem codecMeaning_congr {t u : T0} (h : u.bad = t.bad) (m : List Host.Cell) (p : CodecProgram) :
    codecMeaning u m p = codecMeaning t m p := by
  induction p generalizing m with
  | ret ws => rfl
  | raise e => rfl
  | call call k ih =>
    unfold codecMeaning
    rw [callMeaning_congr h]
    cases callMeaning t m call with
    | none => rfl
    | some vm => exact ih vm.1 vm.2

/-- Stores of whole aligned words need no padding (R235). -/
theorem padFill_aligned (native : Bool) (m : List Host.Cell) {a : Nat} {bs : List Byte} (ha : a % 4 = 0)
    (hb : bs.length % 4 = 0) : Memory.padFill native m a bs = Memory.fill m a bs := by
  obtain ⟨k, j, hk, hj, he⟩ := padFill_eq native m a bs
  have hf : wordFloor a = a := by unfold wordFloor; omega
  have hc : wordCeil (a + bs.length) = a + bs.length := by unfold wordCeil; omega
  have hk0 : k = 0 := by omega
  have hj0 : j = 0 := by omega
  rw [he, hk0, hj0, List.replicate_zero, List.nil_append, List.append_nil, Nat.sub_zero]

section
variable {α β : Type} {s : State} {t : T0} {c : MemApConnection} {m m' : List Host.Cell}

/-- A check that passes before an operation. -/
theorem serves_checked {b : Bool} {op : Dap α} {f : α → β} {r : α} (hb : b = true) (h : Serves c op s t r m') :
    Serves c (do requireArg b; let a ← op; pure (f a)) s t (f r) m' := by
  obtain ⟨u, t', hu, au, ku⟩ := h
  exact ⟨u, t', (run_bind_ok (requireArg_ok hb s)).trans (run_bind_ok hu), au, ku⟩

/-- An engine command with a meaning delivers it. -/
theorem engineCall_able {call : EngineCall} {v : Value} (h : Able s t c m) (hm : callMeaning t m call = some (v, m')) :
    Serves c (engineCall c call) s t v m' := by
  cases call with
  | readMemory a b =>
    obtain ⟨⟨hab, hb, hg⟩, he⟩ := Option.ite_none_right_eq_some.mp hm
    cases he
    exact serves_checked (rangeOk_iff.mpr ⟨hab, hb⟩) (readMemory_able h hab hb hg)
  | writeMemory a bs =>
    obtain ⟨⟨ha, hl, hb, hg⟩, he⟩ := Option.ite_none_right_eq_some.mp hm
    cases he
    have hf : wordFloor a = a := by unfold wordFloor; omega
    have hc : wordCeil (a + bs.length) = a + bs.length := by unfold wordCeil; omega
    have hw := writeMemory_able h hb (by rw [hf, hc]; exact hg)
    rw [padFill_aligned _ m ha hl] at hw
    exact serves_checked (f := fun _ => Value.unit) (decide_eq_true hb) hw
  | writeMemoryRmw a bs =>
    obtain ⟨⟨hb, hg⟩, he⟩ := Option.ite_none_right_eq_some.mp hm
    cases he
    exact serves_checked (f := fun _ => Value.unit) (decide_eq_true hb) (writeMemoryRmw_able h hb hg)
  | pollRead a n busy =>
    obtain ⟨⟨ha, hn, hg, hq⟩, he⟩ := Option.ite_none_right_eq_some.mp hm
    cases he
    have hb := busyQuiet_iff.mp hq
    exact serves_checked (pollOk_iff.mpr ⟨ha, hn, fun b e => (hb b e).1.aligned⟩)
      (pollRead_able h ⟨ha, hg⟩ n busy hb)
  | pollWrite a ws busy =>
    obtain ⟨⟨ha, hn, hg, hq⟩, he⟩ := Option.ite_none_right_eq_some.mp hm
    cases he
    have hk : ∀ k, k < ws.length → busyQuiet t (Memory.keyhole m a.toNat (ws.take k)) busy = true := fun k hk =>
      List.all_eq_true.mp hq k (List.mem_range.mpr hk)
    have hb : ∀ b, busy = some b →
        GoodWord t b.addr ∧ ∀ k, k < ws.length → BusyIdle (Memory.keyhole m a.toNat (ws.take k)) b := fun b e =>
      ⟨(busyQuiet_iff.mp (hk 0 hn) b e).1, fun k hl => (busyQuiet_iff.mp (hk k hl) b e).2⟩
    exact serves_checked (f := fun _ => Value.unit) (pollOk_iff.mpr ⟨ha, hn, fun b e => (hb b e).1.aligned⟩)
      (pollWrite_able h ⟨ha, hg⟩ ws busy hb)

/-! ## The program -/

/-- A command of connection `c` that ends in error `e` and leaves `m'` in memory. -/
def Fails (c : MemApConnection) (op : Dap α) (s : State) (t : T0) (e : DapError) (m' : List Host.Cell) : Prop :=
  ∃ u t', op s = .error e u ∧ Able u t' c m' ∧ Kept s u t t' c

/-- A command ends as a meaning says. -/
def EndsAs (c : MemApConnection) (op : Dap α) (s : State) (t : T0) (r : Except DapError α) (m' : List Host.Cell) : Prop :=
  match r with
  | .ok a => Serves c op s t a m'
  | .error e => Fails c op s t e m'

theorem EndsAs.after_serves {op : Dap β} {k : β → Dap α} {b : β} {r : Except DapError α} (h : Serves c op s t b m)
    (hk : ∀ u t', Able u t' c m → Kept s u t t' c → EndsAs c (k b) u t' r m') : EndsAs c (op >>= k) s t r m' := by
  obtain ⟨u, t', hu, au, ku⟩ := h
  have hend := hk u t' au ku
  cases r <;>
  · obtain ⟨v, t'', hv, av, kv⟩ := hend
    exact ⟨v, t'', (run_bind_ok hu).trans hv, av, ku.trans kv⟩

/-- A program with a meaning ends as it says, and raises no error that is retried. -/
theorem runCodec_able (p : CodecProgram) {r : Except DapError (List W32)} (h : Able s t c m)
    (hm : codecMeaning t m p = some (r, m')) :
    EndsAs c (runCodec c p) s t r m' ∧ ∀ e, r = .error e → isSticky e = false := by
  induction p generalizing s t m with
  | ret ws =>
    cases hm
    exact ⟨Serves.pure h ws, fun e he => nomatch he⟩
  | raise e =>
    obtain ⟨hn, he⟩ := Option.ite_none_left_eq_some.mp hm
    cases he
    refine ⟨⟨s, t, rfl, h, Kept.refl s t c⟩, fun e' he' => ?_⟩
    cases he'
    exact Bool.eq_false_iff.mpr hn
  | call call k ih =>
    unfold codecMeaning at hm
    cases hc : callMeaning t m call with
    | none =>
      rw [hc] at hm
      exact absurd hm (Option.some_ne_none _).symm
    | some vm =>
      obtain ⟨v, m₁⟩ := vm
      rw [hc] at hm
      have hop := engineCall_able h hc
      have hrest : ∀ u t', Able u t' c m₁ → Kept s u t t' c →
          EndsAs c (runCodec c (k v)) u t' r m' ∧ ∀ e, r = .error e → isSticky e = false := fun u t' au ku =>
        ih v au ((codecMeaning_congr ku.frame.bad m₁ (k v)).trans hm)
      refine ⟨EndsAs.after_serves hop fun u t' au ku => (hrest u t' au ku).1, ?_⟩
      obtain ⟨u, t', _, au, ku⟩ := hop
      exact (hrest u t' au ku).2

/-! ## The commands -/

/-- An error that is not retried ends a wrapped operation (R270). -/
theorem stickyRetry_raises {op : Dap α} {u : State} {e : DapError} (h : op s = .error e u) (he : isSticky e = false) :
    stickyRetry op s = .error e u := by
  have hatt : attempt checkSticky op s = .error e u := run_bind_error h
  unfold stickyRetry withStickyRetry
  rw [run_onError, hatt]
  cases e with
  | stickyProtocolError w => exact absurd he.symm Bool.false_ne_true
  | _ => rfl

/-- A delegated operation ends as the Codec's program does. -/
theorem delegatedEnds {i : Instr} {op : CodecOp} {value : List W32 → Value} (h : Served s t c)
    (hp : s.apStateOf c.ap = .presentEnabled)
    (hi : exec i s = complete (do let ws ← delegate c.ap op; pure (value ws)) s) : DelegatedEnds s t c i op value := by
  have hf := frameResolve_delegate h.owned op h.detected
  unfold DelegatedEnds
  cases hm : codecMeaning t t.mem (Config.codec op c) with
  | none =>
    rw [hi]
    exact complete_framed (keeps_map_from value hf)
  | some rm =>
    obtain ⟨r, m'⟩ := rm
    obtain ⟨hend, hraise⟩ := runCodec_able _ h.able hm
    cases r with
    | ok ws =>
      obtain ⟨u, t', hu, au, ku⟩ := Serves.resolved (op := fun d => runCodec d (Config.codec op d)) h hp hend
      rw [show delegate c.ap op s = .ok ws u from hu] at hf
      exact ⟨u, hi.trans (complete_ok (run_bind_ok (show delegate c.ap op s = .ok ws u from hu))), hf,
        au.after ku h.detected⟩
    | error e =>
      obtain ⟨u, t', hu, au, ku⟩ := hend
      have hd : delegate c.ap op s = .error e u :=
        stickyRetry_raises ((run_bind_ok (resolveStrict_cached hp h.conn)).trans hu) (hraise e rfl)
      rw [hd] at hf
      exact ⟨u, hi.trans (complete_error (run_bind_error hd)), hf, au.after ku h.detected⟩

end

/-- Settles O56: the checks pass, and `runCodec_able` is the induction over the program. -/
theorem delegatedCommandsRunCodec : Obligations.DelegatedCommandsRunCodec := by
  intro s t c h hp hc
  have ready : ∀ {k : Unit → Dap Value}, complete (requireCodec >>= fun _ => requireDetected >>= k) s =
      complete (k ()) s := fun {_} =>
    (complete_passed (requireCodec_ok hc)).trans (complete_passed (requireDetected_ok h.detected))
  have checked : ∀ {b : Bool} {k : Unit → Dap Value}, b = true →
      complete (requireArg b >>= k) s = complete (k ()) s := fun hb => complete_passed (requireArg_ok hb s)
  refine ⟨fun regs => delegatedEnds h hp (ready.trans (checked (beq_self_eq_true _))),
    fun regs values hl => delegatedEnds h hp (ready.trans (checked ?_)),
    fun ctrl => delegatedEnds h hp ready, fun ctrl => delegatedEnds h hp ready⟩
  rw [hl, beq_self_eq_true]
  rfl

end Sys2Proof.Machine

/-! A refusal comes from a check, before any effect (60_exceptions.md section 7): no operation of a layer raises a
refusal, and nothing but checks that change no state runs before one. -/

namespace Sys2Proof.Machine

open Sys2Proof

/-- Whatever error `m` ends with, it is no refusal (R318). -/
def Unrefusing {α : Type} (m : Dap α) : Prop := ∀ s e t, m s = .error e t → isRefusal e = false

/-! ## Combinators -/

section
variable {α β : Type}

theorem unrefusing_pure (a : α) : Unrefusing (pure a : Dap α) := fun _ _ _ h => nomatch h

theorem unrefusing_getS : Unrefusing getS := fun _ _ _ h => nomatch h

theorem unrefusing_upd (f : State → State) : Unrefusing (upd f) := fun _ _ _ h => nomatch h

theorem unrefusing_raise {e : DapError} (h : isRefusal e = false) : Unrefusing (raise e : Dap α) := by
  intro s e' t h'
  cases h'
  exact h

theorem unrefusing_bind {m : Dap α} {f : α → Dap β} (hm : Unrefusing m) (hf : ∀ a, Unrefusing (f a)) :
    Unrefusing (m >>= f) := by
  intro s e t h
  rw [run_bind] at h
  cases hr : m s with
  | ok a u =>
    rw [hr] at h
    exact hf a u e t h
  | error e' u =>
    rw [hr] at h
    cases h
    exact hm s _ _ hr

theorem unrefusing_getS_bind {f : State → Dap β} (hf : ∀ s, Unrefusing (f s)) : Unrefusing (getS >>= f) :=
  unrefusing_bind unrefusing_getS hf

theorem unrefusing_then_pure {m : Dap α} {f : α → β} (hm : Unrefusing m) : Unrefusing (m >>= fun a => pure (f a)) :=
  unrefusing_bind hm fun _ => unrefusing_pure _

theorem unrefusing_ite {c : Prop} [Decidable c] {m n : Dap α} (hm : Unrefusing m) (hn : Unrefusing n) :
    Unrefusing (if c then m else n) := by
  by_cases hc : c
  · rw [if_pos hc]
    exact hm
  · rw [if_neg hc]
    exact hn

/-- A handler may rely on the error being no refusal. -/
theorem unrefusing_onError {m : Dap α} {k : DapError → Dap α} (hm : Unrefusing m)
    (hk : ∀ e, isRefusal e = false → Unrefusing (k e)) : Unrefusing (onError m k) := by
  intro s e t h
  rw [run_onError] at h
  cases hr : m s with
  | ok a u =>
    rw [hr] at h
    exact nomatch h
  | error e' u =>
    rw [hr] at h
    exact hk e' (hm s _ _ hr) u e t h

theorem unrefusing_withFinally {m : Dap α} {fin : Dap Unit} (hm : Unrefusing m) (hf : Unrefusing fin) :
    Unrefusing (withFinally m fin) := by
  intro s e t h
  rw [run_withFinally] at h
  cases hr : m s with
  | ok a u =>
    rw [hr] at h
    cases hg : fin u with
    | ok _ v =>
      simp only [hg] at h
      exact nomatch h
    | error e' v =>
      simp only [hg] at h
      cases h
      exact hf u _ _ hg
  | error e' u =>
    rw [hr] at h
    cases hg : fin u with
    | ok _ v =>
      simp only [hg] at h
      cases h
      exact hm s _ _ hr
    | error e'' v =>
      simp only [hg] at h
      cases h
      exact hm s _ _ hr

/-- An error that is no refusal may be raised again. -/
theorem unrefusing_reraise {m : Dap α} (hm : Unrefusing m) {k : DapError → Dap α}
    (hk : ∀ e, isRefusal e = false → k e = raise e ∨ Unrefusing (k e)) : Unrefusing (onError m k) :=
  unrefusing_onError hm fun e he => (hk e he).elim (fun h => h ▸ unrefusing_raise he) id

end

/-! ## The link layer -/

theorem unrefusing_draw : Unrefusing draw := fun _ _ _ h => nomatch h

theorem unrefusing_accessError {α : Type} (kind : AccessKind) (info : W32) :
    Unrefusing (accessError kind info : Dap α) := unrefusing_raise rfl

theorem unrefusing_bdDrScan (req : Scan) : Unrefusing (bdDrScan req) := by
  refine unrefusing_getS_bind fun s => ?_
  cases s.target with
  | some t => exact unrefusing_then_pure (unrefusing_upd _)
  | none => exact unrefusing_bind unrefusing_draw fun _ => unrefusing_then_pure (unrefusing_upd _)

theorem unrefusing_bdDriveLine (segs : List Segment) : Unrefusing (bdDriveLine segs) := by
  refine unrefusing_getS_bind fun s => ?_
  cases s.target with
  | some t => exact unrefusing_then_pure (unrefusing_upd _)
  | none =>
    exact unrefusing_ite (unrefusing_then_pure (unrefusing_upd _))
      (unrefusing_bind unrefusing_draw fun _ => unrefusing_then_pure (unrefusing_upd _))

theorem unrefusing_jtagIrsel (ir : IrCode) : Unrefusing (jtagIrsel ir) :=
  unrefusing_getS_bind fun _ => unrefusing_ite (unrefusing_pure _)
    (unrefusing_bind (unrefusing_upd _) fun _ => unrefusing_upd _)

theorem unrefusing_jtagIssue (req : Scan) : Unrefusing (jtagIssue req) :=
  unrefusing_bind (unrefusing_bdDrScan req) fun _ =>
    unrefusing_ite (unrefusing_pure _) (unrefusing_ite (unrefusing_pure _) (unrefusing_accessError _ _))

theorem unrefusing_jtagScanLoop (ir : IrCode) (rnw : Bool) (a : RegAddr) (req : Scan) (n : Nat) :
    Unrefusing (jtagScanLoop ir rnw a req n) := by
  induction n with
  | zero =>
    refine unrefusing_bind (unrefusing_jtagIssue req) fun o => ?_
    cases o with
    | some d => exact unrefusing_pure d
    | none => exact unrefusing_raise rfl
  | succ n ih =>
    refine unrefusing_bind (unrefusing_jtagIssue req) fun o => ?_
    cases o with
    | some d => exact unrefusing_pure d
    | none => exact ih

theorem unrefusing_jtagScan (ir : IrCode) (rnw : Bool) (a : RegAddr) (d : W32) : Unrefusing (jtagScan ir rnw a d) :=
  unrefusing_bind (unrefusing_jtagIrsel ir) fun _ => unrefusing_jtagScanLoop ir rnw a _ _

theorem unrefusing_jtagDpaccRd (a : RegAddr) : Unrefusing (jtagDpaccRd a) :=
  unrefusing_bind (unrefusing_jtagScan _ _ _ _) fun _ => unrefusing_jtagScan _ _ _ _

theorem unrefusing_jtagDpaccWr (a : RegAddr) (v : W32) : Unrefusing (jtagDpaccWr a v) :=
  unrefusing_then_pure (unrefusing_jtagScan _ _ _ _)

theorem unrefusing_jtagApaccRd (a : RegAddr) : Unrefusing (jtagApaccRd a) :=
  unrefusing_bind (unrefusing_jtagScan _ _ _ _) fun _ => unrefusing_jtagScan _ _ _ _

theorem unrefusing_jtagApaccWr (a : RegAddr) (v : W32) : Unrefusing (jtagApaccWr a v) :=
  unrefusing_then_pure (unrefusing_jtagScan _ _ _ _)

theorem unrefusing_jtagReadScans (rs : List (IrCode × RegAddr)) : Unrefusing (jtagReadScans rs) := by
  induction rs with
  | nil => exact unrefusing_then_pure (unrefusing_jtagScan _ _ _ _)
  | cons r rs ih =>
    exact unrefusing_bind (unrefusing_jtagScan _ _ _ _) fun _ => unrefusing_then_pure ih

theorem unrefusing_jtagReadn (rs : List (IrCode × RegAddr)) : Unrefusing (jtagReadn rs) :=
  unrefusing_then_pure (unrefusing_jtagReadScans rs)

theorem unrefusing_jtagWriten (a : RegAddr) (ws : List W32) : Unrefusing (jtagWriten a ws) := by
  induction ws with
  | nil => exact unrefusing_pure _
  | cons w ws ih => exact unrefusing_bind (unrefusing_jtagScan _ _ _ _) fun _ => ih

theorem unrefusing_jtagAbortWr (v : W32) : Unrefusing (jtagAbortWr v) :=
  unrefusing_then_pure (unrefusing_jtagScan _ _ _ _)

theorem unrefusing_swdIdle : Unrefusing swdIdle :=
  unrefusing_getS_bind fun _ => unrefusing_ite (unrefusing_pure _) (unrefusing_then_pure (unrefusing_bdDriveLine _))

theorem unrefusing_swdWritePhase (w : W32) : Unrefusing (swdWritePhase w) :=
  unrefusing_then_pure (unrefusing_bdDriveLine _)

theorem unrefusing_swdDataPhase (rnw : Bool) (w : W32) : Unrefusing (swdDataPhase rnw w) :=
  unrefusing_ite
    (unrefusing_bind (unrefusing_bdDriveLine _) fun _ => unrefusing_bind unrefusing_swdIdle fun _ =>
      unrefusing_ite (unrefusing_pure _) (unrefusing_accessError _ _))
    (unrefusing_bind (unrefusing_swdWritePhase w) fun _ => unrefusing_then_pure unrefusing_swdIdle)

theorem unrefusing_swdSkipPhase (rnw : Bool) (w : W32) : Unrefusing (swdSkipPhase rnw w) :=
  unrefusing_getS_bind fun _ => unrefusing_ite
    (unrefusing_ite (unrefusing_then_pure (unrefusing_bdDriveLine _)) (unrefusing_swdWritePhase w))
    (unrefusing_then_pure (unrefusing_bdDriveLine _))

theorem unrefusing_swdXfer (apndp rnw : Bool) (a : RegAddr) (w : W32) : Unrefusing (swdXfer apndp rnw a w) :=
  unrefusing_bind (unrefusing_bdDriveLine _) fun _ => unrefusing_ite (unrefusing_swdDataPhase rnw w)
    (unrefusing_bind (unrefusing_swdSkipPhase rnw w) fun _ =>
      unrefusing_bind unrefusing_swdIdle fun _ => unrefusing_accessError _ _)

theorem unrefusing_swdDpWr (a : RegAddr) (v : W32) : Unrefusing (swdDpWr a v) :=
  unrefusing_then_pure (unrefusing_swdXfer _ _ _ _)

theorem unrefusing_swdApRd (a : RegAddr) : Unrefusing (swdApRd a) :=
  unrefusing_bind (unrefusing_swdXfer _ _ _ _) fun _ => unrefusing_swdXfer _ _ _ _

theorem unrefusing_swdApWr (a : RegAddr) (v : W32) : Unrefusing (swdApWr a v) :=
  unrefusing_then_pure (unrefusing_swdXfer _ _ _ _)

theorem unrefusing_swdReadXfers (a : RegAddr) (n : Nat) : Unrefusing (swdReadXfers a n) := by
  induction n with
  | zero => exact unrefusing_then_pure (unrefusing_swdXfer _ _ _ _)
  | succ n ih => exact unrefusing_bind (unrefusing_swdXfer _ _ _ _) fun _ => unrefusing_then_pure ih

theorem unrefusing_swdReadn (a : RegAddr) (n : Nat) : Unrefusing (swdReadn a n) :=
  unrefusing_then_pure (unrefusing_swdReadXfers a n)

theorem unrefusing_swdWriten (a : RegAddr) (ws : List W32) : Unrefusing (swdWriten a ws) := by
  induction ws with
  | nil => exact unrefusing_pure _
  | cons w ws ih => exact unrefusing_bind (unrefusing_swdXfer _ _ _ _) fun _ => ih

theorem unrefusing_swdAbort (v : W32) : Unrefusing (swdAbort v) :=
  unrefusing_then_pure (unrefusing_swdXfer _ _ _ _)

theorem unrefusing_swdLinereset : Unrefusing swdLinereset :=
  unrefusing_bind (unrefusing_bdDriveLine _) fun _ => unrefusing_bind (unrefusing_bdDriveLine _) fun _ =>
    unrefusing_then_pure (unrefusing_bdDriveLine _)

theorem unrefusing_swdTargetsel (v : W32) : Unrefusing (swdTargetsel v) :=
  unrefusing_bind (unrefusing_bdDriveLine _) fun _ => unrefusing_swdWritePhase v

theorem unrefusing_backendCall (call : BackendCall) {reply : W32 → Dap (List W32)} (hr : ∀ w, Unrefusing (reply w)) :
    Unrefusing (backendCall call reply) :=
  unrefusing_bind unrefusing_draw fun _ => unrefusing_ite
    (unrefusing_bind (unrefusing_upd _) fun _ => unrefusing_accessError _ _)
    (unrefusing_bind (hr _) fun _ => unrefusing_then_pure (unrefusing_upd _))

theorem unrefusing_backendWord (call : BackendCall) : Unrefusing (backendWord call) :=
  unrefusing_then_pure (unrefusing_backendCall call fun _ => unrefusing_pure _)

theorem unrefusing_backendUnit (call : BackendCall) : Unrefusing (backendUnit call) :=
  unrefusing_then_pure (unrefusing_backendCall call fun _ => unrefusing_pure _)

theorem unrefusing_backendReadN (a : RegAddr) (n : Nat) : Unrefusing (backendReadN a n) := by
  induction n with
  | zero => exact unrefusing_pure _
  | succ n ih => exact unrefusing_bind (unrefusing_backendWord _) fun _ => unrefusing_then_pure ih

theorem unrefusing_backendWriteN (a : RegAddr) (ws : List W32) : Unrefusing (backendWriteN a ws) := by
  induction ws with
  | nil => exact unrefusing_pure _
  | cons w ws ih => exact unrefusing_bind (unrefusing_backendUnit _) fun _ => ih

theorem unrefusing_drawWords (n : Nat) : Unrefusing (drawWords n) := by
  induction n with
  | zero => exact unrefusing_pure _
  | succ n ih => exact unrefusing_bind unrefusing_draw fun _ => unrefusing_then_pure ih

/-- A link primitive is one of three transactions, by the active link (R115). -/
theorem unrefusing_byIface {α : Type} {j w v : Dap α} (hj : Unrefusing j) (hw : Unrefusing w) (hv : Unrefusing v) :
    Unrefusing (do
      let s ← getS
      match s.cfg.iface with
      | .jtag => j
      | .swd => w
      | .vendor => v) := by
  refine unrefusing_getS_bind fun s => ?_
  cases s.cfg.iface with
  | jtag => exact hj
  | swd => exact hw
  | vendor => exact hv

theorem unrefusing_linkDpRead (a : RegAddr) : Unrefusing (linkDpRead a) :=
  unrefusing_byIface (unrefusing_jtagDpaccRd a) (unrefusing_swdXfer _ _ _ _) (unrefusing_backendWord _)

theorem unrefusing_linkDpWrite (a : RegAddr) (v : W32) : Unrefusing (linkDpWrite a v) :=
  unrefusing_byIface (unrefusing_jtagDpaccWr a v) (unrefusing_swdDpWr a v) (unrefusing_backendUnit _)

theorem unrefusing_linkApRead (a : RegAddr) : Unrefusing (linkApRead a) :=
  unrefusing_byIface (unrefusing_jtagApaccRd a) (unrefusing_swdApRd a) (unrefusing_backendWord _)

theorem unrefusing_linkApWrite (a : RegAddr) (v : W32) : Unrefusing (linkApWrite a v) :=
  unrefusing_byIface (unrefusing_jtagApaccWr a v) (unrefusing_swdApWr a v) (unrefusing_backendUnit _)

theorem unrefusing_linkApReadN (a : RegAddr) (n : Nat) : Unrefusing (linkApReadN a n) :=
  unrefusing_byIface (unrefusing_jtagReadn _) (unrefusing_swdReadn a n) (unrefusing_backendReadN a n)

theorem unrefusing_linkApWriteN (a : RegAddr) (ws : List W32) : Unrefusing (linkApWriteN a ws) :=
  unrefusing_byIface (unrefusing_jtagWriten a ws) (unrefusing_swdWriten a ws) (unrefusing_backendWriteN a ws)

theorem unrefusing_linkAbort (v : W32) : Unrefusing (linkAbort v) :=
  unrefusing_byIface (unrefusing_jtagAbortWr v) (unrefusing_swdAbort v) (unrefusing_backendUnit _)

/-! ## The DP layer -/

theorem unrefusing_writeSelect (v : W32) : Unrefusing (writeSelect v) :=
  unrefusing_getS_bind fun _ => unrefusing_ite (unrefusing_pure _)
    (unrefusing_bind (unrefusing_upd _) fun _ => unrefusing_bind (unrefusing_linkDpWrite _ _) fun _ => unrefusing_upd _)

theorem unrefusing_dpSelectBank (bank : BitVec 4) : Unrefusing (dpSelectBank bank) :=
  unrefusing_getS_bind fun _ => unrefusing_writeSelect _

theorem unrefusing_dpRead (r : DpReg) : Unrefusing (dpRead r) :=
  unrefusing_ite (unrefusing_linkDpRead _)
    (unrefusing_bind (unrefusing_dpSelectBank _) fun _ => unrefusing_linkDpRead _)

theorem unrefusing_dpWriteBanked (r : DpReg) (v : W32) : Unrefusing (dpWriteBanked r v) :=
  unrefusing_bind (unrefusing_dpSelectBank _) fun _ => unrefusing_linkDpWrite _ _

theorem unrefusing_apRead (ap : ApIndex) (addr : BitVec 12) : Unrefusing (apRead ap addr) :=
  unrefusing_bind (unrefusing_writeSelect _) fun _ => unrefusing_linkApRead _

theorem unrefusing_apWrite (ap : ApIndex) (addr : BitVec 12) (v : W32) : Unrefusing (apWrite ap addr v) :=
  unrefusing_bind (unrefusing_writeSelect _) fun _ => unrefusing_linkApWrite _ _

theorem unrefusing_apReadN (ap : ApIndex) (addr : BitVec 12) (n : Nat) : Unrefusing (apReadN ap addr n) :=
  unrefusing_bind (unrefusing_writeSelect _) fun _ => unrefusing_linkApReadN _ _

theorem unrefusing_apWriteN (ap : ApIndex) (addr : BitVec 12) (ws : List W32) : Unrefusing (apWriteN ap addr ws) :=
  unrefusing_bind (unrefusing_writeSelect _) fun _ => unrefusing_linkApWriteN _ _

theorem unrefusing_hostApRead (ap : ApIndex) (addr : BitVec 12) : Unrefusing (hostApRead ap addr) :=
  unrefusing_bind (unrefusing_apRead ap addr) fun _ => unrefusing_then_pure (unrefusing_upd _)

theorem unrefusing_hostApWrite (ap : ApIndex) (addr : BitVec 12) (v : W32) : Unrefusing (hostApWrite ap addr v) :=
  unrefusing_bind (unrefusing_apWrite ap addr v) fun _ => unrefusing_upd _

theorem unrefusing_detectVersion : Unrefusing detectVersion := by
  refine unrefusing_getS_bind fun s => unrefusing_ite (unrefusing_pure _) (unrefusing_bind (unrefusing_linkDpRead _)
    fun id => ?_)
  cases hc : classifyDpidr id with
  | ok v => exact unrefusing_then_pure (unrefusing_upd _)
  | error e =>
    refine unrefusing_raise ?_
    unfold classifyDpidr at hc
    split at hc
    · exact nomatch hc
    · split at hc
      · cases hc
        rfl
      · exact nomatch hc

theorem unrefusing_rereadSticky (n : Nat) (w : W32) : Unrefusing (rereadSticky n w) := by
  induction n generalizing w with
  | zero => exact unrefusing_raise rfl
  | succ n ih => exact unrefusing_bind (unrefusing_linkDpRead _) fun v => unrefusing_ite (unrefusing_pure _) (ih v)

theorem unrefusing_checkSticky : Unrefusing checkSticky :=
  unrefusing_bind (unrefusing_dpSelectBank 0) fun _ => unrefusing_bind (unrefusing_linkDpRead _) fun _ =>
    unrefusing_ite (unrefusing_pure _) (unrefusing_rereadSticky _ _)

theorem unrefusing_clearSticky : Unrefusing clearSticky := unrefusing_getS_bind fun _ => unrefusing_linkAbort _

theorem unrefusing_pollPower (n : Nat) : Unrefusing (pollPower n) := by
  induction n with
  | zero =>
    exact unrefusing_bind (unrefusing_linkDpRead _) fun _ => unrefusing_ite (unrefusing_pure _) (unrefusing_raise rfl)
  | succ n ih => exact unrefusing_bind (unrefusing_linkDpRead _) fun _ => unrefusing_ite (unrefusing_pure _) ih

theorem unrefusing_reassertPower : Unrefusing reassertPower :=
  unrefusing_bind (unrefusing_dpSelectBank 0) fun _ => unrefusing_bind (unrefusing_linkDpRead _) fun _ =>
    unrefusing_ite (unrefusing_pure _)
      (unrefusing_bind (unrefusing_linkDpWrite _ _) fun _ => unrefusing_then_pure (unrefusing_pollPower _))

theorem unrefusing_swdAttempt (t : Option W32) : Unrefusing (swdAttempt t) := by
  refine unrefusing_bind unrefusing_swdLinereset fun _ => unrefusing_bind (unrefusing_upd _) fun _ =>
    unrefusing_bind ?_ fun _ => unrefusing_swdXfer _ _ _ _
  cases t with
  | none => exact unrefusing_pure _
  | some v => exact unrefusing_swdTargetsel v

theorem unrefusing_swdConnectLoop (t : Option W32) (n made : Nat) : Unrefusing (swdConnectLoop t n made) := by
  induction n generalizing made with
  | zero =>
    refine unrefusing_reraise (unrefusing_swdAttempt t) fun e _ => ?_
    cases e with
    | dpOrApAccessError e => exact .inr (unrefusing_raise rfl)
    | _ => exact .inl rfl
  | succ n ih =>
    refine unrefusing_reraise (unrefusing_swdAttempt t) fun e _ => ?_
    cases e with
    | dpOrApAccessError e => exact .inr (ih _)
    | _ => exact .inl rfl

theorem unrefusing_swdConnect (t : Option W32) : Unrefusing (swdConnect t) :=
  unrefusing_getS_bind fun _ => unrefusing_swdConnectLoop t _ _

/-! ## The engine -/

theorem unrefusing_apRegRead (ap : ApIndex) (off : BitVec 12) : Unrefusing (apRegRead ap off) :=
  unrefusing_getS_bind fun _ => unrefusing_apRead ap _

theorem unrefusing_apRegWrite (ap : ApIndex) (off : BitVec 12) (v : W32) : Unrefusing (apRegWrite ap off v) :=
  unrefusing_getS_bind fun _ => unrefusing_apWrite ap _ v

theorem unrefusing_writeCsw (ap : ApIndex) (w : W32) : Unrefusing (writeCsw ap w) :=
  unrefusing_bind (unrefusing_apRegWrite _ _ _) fun _ => unrefusing_upd _

section
variable {α : Type}

theorem unrefusing_withCsw (c : MemApConnection) (inc : Bool) (size : BitVec 3) {m : Dap α} (hm : Unrefusing m) :
    Unrefusing (withCsw c inc size m) :=
  unrefusing_getS_bind fun _ => unrefusing_ite hm
    (unrefusing_bind (unrefusing_writeCsw _ _) fun _ => unrefusing_withFinally hm (unrefusing_writeCsw _ _))

theorem unrefusing_recoverSticky (e : AccessError) : Unrefusing (recoverSticky e) := by
  refine unrefusing_onError unrefusing_checkSticky fun e' _ => ?_
  cases e' <;> exact unrefusing_raise rfl

theorem unrefusing_recoverAccess (ap : ApIndex) (e : AccessError) : Unrefusing (recoverAccess ap e : Dap α) := by
  refine unrefusing_bind (unrefusing_recoverSticky e) fun _ => unrefusing_bind
    (unrefusing_onError (unrefusing_apRegRead _ _) fun _ _ => unrefusing_raise rfl) fun csw =>
    unrefusing_bind (unrefusing_upd _) fun _ => unrefusing_raise ?_
  unfold classifyAccess
  split <;> rfl

theorem unrefusing_engineGuard (ap : ApIndex) {m : Dap α} (hm : Unrefusing m) : Unrefusing (engineGuard ap m) := by
  refine unrefusing_reraise hm fun e _ => ?_
  cases e with
  | dpOrApAccessError e => exact .inr (unrefusing_recoverAccess ap e)
  | _ => exact .inl rfl

theorem unrefusing_batch (c : MemApConnection) {m : Dap α} (hm : Unrefusing m) : Unrefusing (batch c m) :=
  unrefusing_bind (unrefusing_engineGuard _ (unrefusing_writeSelect _)) fun _ =>
    unrefusing_bind (unrefusing_upd _) fun _ =>
      unrefusing_withFinally (unrefusing_engineGuard _ hm) (unrefusing_upd _)

end

theorem unrefusing_runRead (ap : ApIndex) (ra n : Nat) : Unrefusing (runRead ap ra n) :=
  unrefusing_getS_bind fun _ => unrefusing_ite
    (unrefusing_withFinally (unrefusing_backendCall _ fun _ => unrefusing_drawWords n) (unrefusing_upd _))
    (unrefusing_bind (unrefusing_apRegWrite _ _ _) fun _ => unrefusing_getS_bind fun _ => unrefusing_apReadN _ _ _)

theorem unrefusing_runWrite (ap : ApIndex) (ra : Nat) (ws : List W32) : Unrefusing (runWrite ap ra ws) :=
  unrefusing_getS_bind fun _ => unrefusing_ite
    (unrefusing_then_pure
      (unrefusing_withFinally (unrefusing_backendCall _ fun _ => unrefusing_pure _) (unrefusing_upd _)))
    (unrefusing_bind (unrefusing_apRegWrite _ _ _) fun _ => unrefusing_getS_bind fun _ => unrefusing_apWriteN _ _ _)

theorem unrefusing_readRuns (ap : ApIndex) (rs : List (Nat × Nat)) : Unrefusing (readRuns ap rs) := by
  induction rs with
  | nil => exact unrefusing_pure _
  | cons r rs ih => exact unrefusing_bind (unrefusing_runRead ap r.1 r.2) fun _ => unrefusing_then_pure ih

theorem unrefusing_writeRuns (ap : ApIndex) (rs : List (Nat × Nat)) (ws : List W32) :
    Unrefusing (writeRuns ap rs ws) := by
  induction rs generalizing ws with
  | nil => exact unrefusing_pure _
  | cons r rs ih => exact unrefusing_bind (unrefusing_runWrite ap r.1 _) fun _ => ih _

theorem unrefusing_readWords (c : MemApConnection) (a b : Nat) : Unrefusing (readWords c a b) :=
  unrefusing_withCsw c _ _ (unrefusing_readRuns _ _)

theorem unrefusing_writeWords (c : MemApConnection) (a b : Nat) (ws : List W32) : Unrefusing (writeWords c a b ws) :=
  unrefusing_withCsw c _ _ (unrefusing_writeRuns _ _ _)

theorem unrefusing_takesNative (ap : ApIndex) (a b : Nat) : Unrefusing (takesNative ap a b) := by
  refine unrefusing_ite (unrefusing_getS_bind fun s => ?_) (unrefusing_pure _)
  cases cachedSubword s ap with
  | some b => exact unrefusing_pure b
  | none => exact unrefusing_then_pure (unrefusing_upd _)

theorem unrefusing_readBytes (ap : ApIndex) (a n : Nat) : Unrefusing (readBytes ap a n) := by
  induction n generalizing a with
  | zero => exact unrefusing_pure _
  | succ n ih =>
    exact unrefusing_bind (unrefusing_apRegWrite _ _ _) fun _ => unrefusing_bind (unrefusing_apRegRead _ _) fun _ =>
      unrefusing_then_pure (ih _)

theorem unrefusing_writeBytes (ap : ApIndex) (a : Nat) (bs : List Byte) : Unrefusing (writeBytes ap a bs) := by
  induction bs generalizing a with
  | nil => exact unrefusing_pure _
  | cons b bs ih =>
    exact unrefusing_bind (unrefusing_apRegWrite _ _ _) fun _ =>
      unrefusing_bind (unrefusing_apRegWrite _ _ _) fun _ => ih _

theorem unrefusing_readSegment (c : MemApConnection) (a b : Nat) : Unrefusing (readSegment c a b) :=
  unrefusing_ite (unrefusing_withCsw c _ _ (unrefusing_readBytes _ _ _)) (unrefusing_pure _)

theorem unrefusing_writeSegment (c : MemApConnection) (a : Nat) (bs : List Byte) : Unrefusing (writeSegment c a bs) :=
  unrefusing_ite (unrefusing_pure _) (unrefusing_withCsw c _ _ (unrefusing_writeBytes _ _ _))

theorem unrefusing_readNative (c : MemApConnection) (a b : Nat) : Unrefusing (readNative c a b) :=
  unrefusing_bind (unrefusing_readSegment c _ _) fun _ => unrefusing_bind
    (unrefusing_ite (unrefusing_then_pure (unrefusing_readWords c _ _)) (unrefusing_pure _)) fun _ =>
    unrefusing_then_pure (unrefusing_readSegment c _ _)

theorem unrefusing_writeNative (c : MemApConnection) (a : Nat) (bs : List Byte) : Unrefusing (writeNative c a bs) :=
  unrefusing_bind (unrefusing_writeSegment c _ _) fun _ => unrefusing_bind
    (unrefusing_ite (unrefusing_writeWords c _ _ _) (unrefusing_pure _)) fun _ => unrefusing_writeSegment c _ _

theorem unrefusing_readMemory (c : MemApConnection) (a b : Nat) : Unrefusing (readMemory c a b) :=
  unrefusing_ite (unrefusing_pure _)
    (unrefusing_batch c (unrefusing_bind (unrefusing_takesNative _ _ _) fun _ =>
      unrefusing_ite (unrefusing_readNative c _ _) (unrefusing_then_pure (unrefusing_readWords c _ _))))

theorem unrefusing_writeMemory (c : MemApConnection) (a : Nat) (bs : List Byte) : Unrefusing (writeMemory c a bs) :=
  unrefusing_ite (unrefusing_pure _)
    (unrefusing_batch c (unrefusing_bind (unrefusing_takesNative _ _ _) fun _ =>
      unrefusing_ite (unrefusing_writeNative c _ _) (unrefusing_writeWords c _ _ _)))

theorem unrefusing_rmwBody (c : MemApConnection) (a : Nat) (bs : List Byte) : Unrefusing (rmwBody c a bs) := by
  have edge : ∀ r, Unrefusing (do let ws ← runRead c.ap r 1; pure (some (ws.headD 0))) := fun r =>
    unrefusing_then_pure (unrefusing_runRead _ _ _)
  refine unrefusing_bind (unrefusing_ite (unrefusing_pure _) (edge _)) fun first =>
    unrefusing_bind (unrefusing_ite (unrefusing_pure _) ?_) fun _ => unrefusing_writeRuns _ _ _
  split
  · exact unrefusing_pure _
  · exact edge _

theorem unrefusing_writeMemoryRmw (c : MemApConnection) (a : Nat) (bs : List Byte) :
    Unrefusing (writeMemoryRmw c a bs) :=
  unrefusing_ite (unrefusing_pure _)
    (unrefusing_batch c (unrefusing_bind (unrefusing_takesNative _ _ _) fun _ =>
      unrefusing_ite (unrefusing_writeNative c _ _) (unrefusing_withCsw c _ _ (unrefusing_rmwBody c _ _))))

theorem unrefusing_busyLoop (ap : ApIndex) (b : BusyCheck) (n : Nat) : Unrefusing (busyLoop ap b n) := by
  induction n with
  | zero =>
    exact unrefusing_bind (unrefusing_apRegRead _ _) fun _ => unrefusing_ite (unrefusing_pure _) (unrefusing_raise rfl)
  | succ n ih => exact unrefusing_bind (unrefusing_apRegRead _ _) fun _ => unrefusing_ite (unrefusing_pure _) ih

theorem unrefusing_awaitIdle (ap : ApIndex) (b : BusyCheck) (a : W32) : Unrefusing (awaitIdle ap b a) :=
  unrefusing_bind (unrefusing_apRegWrite _ _ _) fun _ => unrefusing_getS_bind fun _ =>
    unrefusing_bind (unrefusing_busyLoop ap b _) fun _ => unrefusing_apRegWrite _ _ _

theorem unrefusing_pollReads (ap : ApIndex) (b : BusyCheck) (a : W32) (n : Nat) : Unrefusing (pollReads ap b a n) := by
  induction n with
  | zero => exact unrefusing_pure _
  | succ n ih =>
    exact unrefusing_bind (unrefusing_awaitIdle ap b a) fun _ => unrefusing_bind (unrefusing_apRegRead _ _) fun _ =>
      unrefusing_then_pure ih

theorem unrefusing_pollWrites (ap : ApIndex) (b : BusyCheck) (a : W32) (ws : List W32) :
    Unrefusing (pollWrites ap b a ws) := by
  induction ws with
  | nil => exact unrefusing_pure _
  | cons w ws ih =>
    exact unrefusing_bind (unrefusing_awaitIdle ap b a) fun _ =>
      unrefusing_bind (unrefusing_apRegWrite _ _ _) fun _ => ih

theorem unrefusing_pollRead (c : MemApConnection) (a : W32) (n : Nat) (busy : Option BusyCheck) :
    Unrefusing (pollRead c a n busy) := by
  refine unrefusing_batch c (unrefusing_withCsw c _ _ ?_)
  cases busy with
  | none =>
    exact unrefusing_bind (unrefusing_apRegWrite _ _ _) fun _ => unrefusing_getS_bind fun _ => unrefusing_apReadN _ _ _
  | some b => exact unrefusing_pollReads _ _ _ _

theorem unrefusing_pollWrite (c : MemApConnection) (a : W32) (ws : List W32) (busy : Option BusyCheck) :
    Unrefusing (pollWrite c a ws busy) := by
  refine unrefusing_batch c (unrefusing_withCsw c _ _ ?_)
  cases busy with
  | none =>
    exact unrefusing_bind (unrefusing_apRegWrite _ _ _) fun _ => unrefusing_getS_bind fun _ => unrefusing_apWriteN _ _ _
  | some b => exact unrefusing_pollWrites _ _ _ _

/-! ## The transport -/

theorem unrefusing_check {b : Bool} {e : DapError} (h : isRefusal e = false) : Unrefusing (check b e) :=
  unrefusing_ite (unrefusing_pure _) (unrefusing_raise h)

theorem unrefusing_createConnection (ap : ApIndex) (ai : Option Bool) (per : Bool) :
    Unrefusing (createConnection ap ai per) :=
  unrefusing_bind (unrefusing_apRegRead _ _) fun _ => unrefusing_ite (unrefusing_then_pure (unrefusing_upd _))
    (unrefusing_bind (unrefusing_apRegRead _ _) fun _ =>
      unrefusing_bind (unrefusing_ite (unrefusing_apRegWrite _ _ _) (unrefusing_pure _)) fun _ =>
        unrefusing_getS_bind fun _ => unrefusing_then_pure (unrefusing_upd _))

theorem unrefusing_resolve (ap : ApIndex) (ai : Option Bool) (per : Bool) : Unrefusing (resolve ap ai per) := by
  refine unrefusing_getS_bind fun s => ?_
  cases s.apStateOf ap with
  | unresolved => exact unrefusing_createConnection ap ai per
  | absent => exact unrefusing_pure _
  | presentDisabled => exact unrefusing_pure _
  | presentEnabled => exact unrefusing_pure _

theorem unrefusing_requireEnabled (ap : ApIndex) (allow : Bool) : Unrefusing (requireEnabled ap allow) :=
  unrefusing_getS_bind fun _ => unrefusing_check rfl

theorem unrefusing_resolveStrict (ap : ApIndex) : Unrefusing (resolveStrict ap) := by
  refine unrefusing_bind (unrefusing_resolve ap none false) fun o => ?_
  cases o with
  | none => exact unrefusing_raise rfl
  | some c => exact unrefusing_then_pure (unrefusing_requireEnabled ap false)

theorem unrefusing_getConnection (ap : ApIndex) (ai : Option Bool) (per dis : Bool) :
    Unrefusing (getConnection ap ai per dis) := by
  refine unrefusing_bind (unrefusing_resolve ap ai per) fun o => ?_
  cases o with
  | none => exact unrefusing_pure _
  | some c => exact unrefusing_then_pure (unrefusing_requireEnabled ap dis)

theorem unrefusing_stickyRetry {α : Type} {op : Dap α} (h : Unrefusing op) : Unrefusing (stickyRetry op) := by
  have once : Unrefusing (attempt checkSticky op) :=
    unrefusing_bind h fun _ => unrefusing_then_pure unrefusing_checkSticky
  refine unrefusing_reraise once fun e _ => ?_
  cases e with
  | stickyProtocolError w => exact .inr (unrefusing_bind unrefusing_clearSticky fun _ => once)
  | _ => exact .inl rfl

theorem unrefusing_scanFrom (extra : Bool) (i n : Nat) : Unrefusing (scanFrom extra i n) := by
  induction n generalizing i with
  | zero => exact unrefusing_pure _
  | succ n ih =>
    exact unrefusing_bind (unrefusing_apRegRead _ _) fun _ => unrefusing_ite (unrefusing_pure _)
      (unrefusing_bind (unrefusing_apRegRead _ _) fun _ => unrefusing_bind
        (unrefusing_ite (unrefusing_then_pure (unrefusing_apRegRead _ _)) (unrefusing_pure _)) fun _ =>
          unrefusing_then_pure (ih _))

theorem unrefusing_chipVersion : Unrefusing chipVersion :=
  unrefusing_getS_bind fun _ => unrefusing_ite (unrefusing_pure _)
    (unrefusing_bind (unrefusing_dpRead _) fun _ => unrefusing_then_pure (unrefusing_dpRead _))

/-! ## Commands -/

/-- A refusal of `m` leaves the state as it was. -/
def RefusesFirst {α : Type} (m : Dap α) : Prop := ∀ s e t, m s = .error e t → isRefusal e = true → t = s

/-- What only looks at the state. -/
abbrev Looks {α : Type} (m : Dap α) : Prop := Keeps (fun s t => t = s) m

theorem unchanged_chain : Chain fun s t : State => t = s where
  refl := fun _ => rfl
  trans := fun h k => k.trans h

section
variable {α β : Type}

theorem refusesFirst_of_unrefusing {m : Dap α} (h : Unrefusing m) : RefusesFirst m := fun s e t hm he =>
  absurd ((h s e t hm).symm.trans he) Bool.false_ne_true

/-- A check that looks at the state and then the rest. -/
theorem refusesFirst_then {m : Dap α} {f : α → Dap β} (hm : Looks m) (hf : ∀ a, RefusesFirst (f a)) :
    RefusesFirst (m >>= f) := by
  intro s e t h he
  have hl := hm s
  rw [run_bind] at h
  cases hr : m s with
  | ok a u =>
    rw [hr] at h hl
    exact (hf a u e t h he).trans hl
  | error e' u =>
    rw [hr] at h hl
    cases h
    exact hl

theorem refusesFirst_then_pure {m : Dap α} {f : α → β} (h : RefusesFirst m) :
    RefusesFirst (m >>= fun a => pure (f a)) := by
  intro s e t hm he
  rw [run_bind] at hm
  cases hr : m s with
  | ok a u =>
    rw [hr] at hm
    exact nomatch hm
  | error e' u =>
    rw [hr] at hm
    cases hm
    exact h s _ _ hr he

end

theorem looks_requireIface (i : Iface) : Looks (requireIface i) :=
  keeps_getS_bind fun s => keeps_check unchanged_chain _ _ s

theorem looks_requireDetected : Looks requireDetected := keeps_requireDetected unchanged_chain

theorem looks_requireArg (b : Bool) : Looks (requireArg b) := keeps_check unchanged_chain _ _

theorem looks_requireDpReg (r : DpReg) : Looks (requireDpReg r) := fun s => by
  rw [requireDpReg_run]
  split <;> rfl

theorem looks_requireConn (ap : ApIndex) : Looks (requireConn ap) := by
  refine keeps_getS_bind fun s => ?_
  cases s.connOf ap <;> rfl

section
variable {α : Type} {m : Dap α} {f : α → Value} {b : Bool}

theorem refusesFirst_packed (h : Unrefusing m) : RefusesFirst (m >>= fun a => pure (f a)) :=
  refusesFirst_of_unrefusing (unrefusing_then_pure h)

/-- A link transaction whose operands are checked. -/
theorem refusesFirst_link {i : Iface} (h : Unrefusing m) :
    RefusesFirst (do requireIface i; requireArg b; let a ← m; pure (f a)) :=
  refusesFirst_then (looks_requireIface i) fun _ => refusesFirst_then (looks_requireArg b) fun _ =>
    refusesFirst_packed h

theorem refusesFirst_link_total {i : Iface} (h : Unrefusing m) :
    RefusesFirst (do requireIface i; let a ← m; pure (f a)) :=
  refusesFirst_then (looks_requireIface i) fun _ => refusesFirst_packed h

/-- A command that needs a version, its operands checked. -/
theorem refusesFirst_detected (h : Unrefusing m) :
    RefusesFirst (do requireDetected; requireArg b; let a ← m; pure (f a)) :=
  refusesFirst_then looks_requireDetected fun _ => refusesFirst_then (looks_requireArg b) fun _ =>
    refusesFirst_packed h

/-- An engine command on the cached connection. -/
theorem refusesFirst_engine {ap : ApIndex} {k : MemApConnection → Dap α} (h : ∀ c, Unrefusing (k c)) :
    RefusesFirst (do requireDetected; requireArg b; let c ← requireConn ap; let a ← k c; pure (f a)) :=
  refusesFirst_then looks_requireDetected fun _ => refusesFirst_then (looks_requireArg b) fun _ =>
    refusesFirst_then (looks_requireConn ap) fun c => refusesFirst_packed (h c)

/-- A wrapped operation on a resolved connection. -/
theorem unrefusing_wrapped {ap : ApIndex} {k : MemApConnection → Dap α} (h : ∀ c, Unrefusing (k c)) :
    Unrefusing (stickyRetry (resolveStrict ap >>= k)) :=
  unrefusing_stickyRetry (unrefusing_bind (unrefusing_resolveStrict ap) h)

end

/-- DP_WRITE refuses a register that is not written and TARGETSEL off SWD, before any call (R198). -/
theorem refusesFirst_dpWrite (r : DpReg) (v : W32) : RefusesFirst (dpWrite r v) := by
  have refused : RefusesFirst (raise .badArgument : Dap Unit) := fun s e t h _ => by
    cases h
    rfl
  cases r with
  | abort => exact refusesFirst_of_unrefusing (unrefusing_linkAbort v)
  | select => exact refusesFirst_of_unrefusing (unrefusing_writeSelect v)
  | targetsel =>
    exact refusesFirst_then (keeps_getS unchanged_chain) fun _ =>
      refusesFirst_then (keeps_check unchanged_chain _ _) fun _ =>
        refusesFirst_of_unrefusing (unrefusing_swdTargetsel v)
  | ctrlStat => exact refusesFirst_of_unrefusing (unrefusing_dpWriteBanked _ v)
  | select1 => exact refusesFirst_of_unrefusing (unrefusing_dpWriteBanked _ v)
  | dpidr => exact refused
  | targetid => exact refused
  | dlpidr => exact refused
  | eventstat => exact refused
  | dpidr1 => exact refused
  | rdbuff => exact refused

/-- A result on the list hides nothing of the state before. -/
theorem pushResult_injective {s t : State} {r q : Result} (h : s.pushResult r = t.pushResult q) : s = t ∧ r = q := by
  obtain ⟨hs, hr⟩ := List.append_inj' (congrArg State.results h) rfl
  refine ⟨?_, (List.cons.inj hr).1⟩
  have back : ∀ (u : State) (q : Result), { u.pushResult q with results := u.results } = u := fun _ _ => rfl
  rw [← back s r, ← back t q, h, hs]

theorem refused_unchanged {m : Dap Value} {s u : State} {e : DapError} (h : RefusesFirst m) (he : isRefusal e = true)
    (hx : complete m s = .next (u.pushResult (.error e))) : u = s := by
  cases hm : m s with
  | ok v t =>
    rw [complete_ok hm] at hx
    exact nomatch (pushResult_injective (Host.Outcome.next.inj hx)).2
  | error e' t =>
    rw [complete_error hm] at hx
    obtain ⟨rfl, hr⟩ := pushResult_injective (Host.Outcome.next.inj hx)
    cases hr
    exact h s _ t hm he

/-- Settles O10: each command is checks that look, and an operation that raises no refusal. -/
theorem refusalChangesNothing : Obligations.RefusalChangesNothing := by
  intro i s u e hi hx he
  have close : ∀ {m : Dap Value}, RefusesFirst m → complete m s = .next (u.pushResult (.error e)) → u = s :=
    fun h => refused_unchanged h he
  have upd : ∀ {f : State → State}, RefusesFirst (do upd f; pure Value.unit) :=
    fun {f} => refusesFirst_packed (unrefusing_upd f)
  cases i with
  | detectVersion => exact close (refusesFirst_packed unrefusing_detectVersion) hx
  | reassertPower => exact close (refusesFirst_packed unrefusing_reassertPower) hx
  | dpRead r =>
    exact close (refusesFirst_then (looks_requireDpReg r) fun _ => refusesFirst_then (looks_requireArg _) fun _ =>
      refusesFirst_packed (unrefusing_dpRead r)) hx
  | dpWrite r v =>
    exact close (refusesFirst_then (looks_requireDpReg r) fun _ => refusesFirst_then (looks_requireArg _) fun _ =>
      refusesFirst_then_pure (refusesFirst_dpWrite r v)) hx
  | selectAp ap addr => exact close (refusesFirst_detected (unrefusing_writeSelect _)) hx
  | freezeSelect => exact close upd hx
  | unfreezeSelect => exact close upd hx
  | checkSticky => exact close (refusesFirst_packed unrefusing_checkSticky) hx
  | clearSticky => exact close (refusesFirst_packed unrefusing_clearSticky) hx
  | apRead ap addr => exact close (refusesFirst_detected (unrefusing_hostApRead ap _)) hx
  | apWrite ap addr v => exact close (refusesFirst_detected (unrefusing_hostApWrite ap _ v)) hx
  | swdConnect t => exact close (refusesFirst_link_total (unrefusing_swdConnect t)) hx
  | getConnection ap ai per dis =>
    exact close (refusesFirst_then looks_requireDetected fun _ =>
      refusesFirst_of_unrefusing (unrefusing_getConnection ap ai per dis)) hx
  | memoryRead ap a b =>
    exact close (refusesFirst_detected (unrefusing_wrapped fun c => unrefusing_readMemory c a b)) hx
  | memoryWrite ap a n d =>
    exact close (refusesFirst_detected (unrefusing_wrapped fun c => unrefusing_writeMemoryRmw c a _)) hx
  | registerRead ap n rs => exact absurd hi.symm Bool.false_ne_true
  | registerWrite ap n rs vs => exact absurd hi.symm Bool.false_ne_true
  | runCtrlRead ap d => exact absurd hi.symm Bool.false_ne_true
  | runCtrlWrite ap d => exact absurd hi.symm Bool.false_ne_true
  | scanAps x =>
    exact close (refusesFirst_then looks_requireDetected fun _ => refusesFirst_packed (unrefusing_scanFrom x _ _)) hx
  | getChipVersion =>
    exact close (refusesFirst_then looks_requireDetected fun _ => refusesFirst_of_unrefusing unrefusing_chipVersion) hx
  | teardown => exact close upd hx
  | readMemory ap a b => exact close (refusesFirst_engine fun c => unrefusing_readMemory c a b) hx
  | writeMemory ap a n d => exact close (refusesFirst_engine fun c => unrefusing_writeMemory c a _) hx
  | writeMemoryRmw ap a n d => exact close (refusesFirst_engine fun c => unrefusing_writeMemoryRmw c a _) hx
  | pollRead ap x n bz => exact close (refusesFirst_engine fun c => unrefusing_pollRead c x n bz) hx
  | pollWrite ap x n vs bz => exact close (refusesFirst_engine fun c => unrefusing_pollWrite c x vs bz) hx
  | jtagIrsel ir => exact close (refusesFirst_link_total (unrefusing_jtagIrsel ir)) hx
  | jtagScan ir rnw a d => exact close (refusesFirst_link (unrefusing_jtagScan ir rnw a d)) hx
  | jtagDpaccRd a => exact close (refusesFirst_link (unrefusing_jtagDpaccRd a)) hx
  | jtagDpaccWr a v => exact close (refusesFirst_link (unrefusing_jtagDpaccWr a v)) hx
  | jtagApaccRd a => exact close (refusesFirst_link (unrefusing_jtagApaccRd a)) hx
  | jtagApaccWr a v => exact close (refusesFirst_link (unrefusing_jtagApaccWr a v)) hx
  | jtagReadn rs => exact close (refusesFirst_link (unrefusing_jtagReadn rs)) hx
  | jtagWriten a ws => exact close (refusesFirst_link (unrefusing_jtagWriten a ws)) hx
  | jtagAbortWr v => exact close (refusesFirst_link_total (unrefusing_jtagAbortWr v)) hx
  | swdXfer p q a w => exact close (refusesFirst_link (unrefusing_swdXfer p q a w)) hx
  | swdDpRd a => exact close (refusesFirst_link (unrefusing_swdXfer _ _ _ _)) hx
  | swdDpWr a v => exact close (refusesFirst_link (unrefusing_swdDpWr a v)) hx
  | swdApRd a => exact close (refusesFirst_link (unrefusing_swdApRd a)) hx
  | swdApWr a v => exact close (refusesFirst_link (unrefusing_swdApWr a v)) hx
  | swdReadn a n => exact close (refusesFirst_link (unrefusing_swdReadn a n)) hx
  | swdWriten a ws => exact close (refusesFirst_link (unrefusing_swdWriten a ws)) hx
  | swdAbort v => exact close (refusesFirst_link_total (unrefusing_swdAbort v)) hx
  | swdLinereset => exact close (refusesFirst_link_total unrefusing_swdLinereset) hx
  | swdTargetsel v => exact close (refusesFirst_link_total (unrefusing_swdTargetsel v)) hx

end Sys2Proof.Machine

/-! The JTAG transactions as commands (40_link_jtag.md): acknowledgements, what T0 does, and the number of scans. -/

namespace Sys2Proof.Machine

open Sys2Proof

/-! ## The calls of a command -/

theorem newCalls_of_trace {s u : State} {es : List WireEvent} (h : u.trace = s.trace ++ es) : newCalls s u = es := by
  unfold newCalls
  rw [h, List.drop_left]

/-- From `s` to `u` calls were made, `n` of them of kind `p`. -/
def Calls (p : WireEvent → Bool) (n : Nat) (s u : State) : Prop :=
  ∃ es, u.trace = s.trace ++ es ∧ es.countP p = n

section
variable {p : WireEvent → Bool} {s t u : State} {n m : Nat}

theorem Calls.none (h : t.trace = s.trace) : Calls p 0 s t := ⟨[], by rw [h, List.append_nil], rfl⟩

theorem Calls.one {e : WireEvent} (h : t.trace = s.trace ++ [e]) (he : p e = true) : Calls p 1 s t :=
  ⟨[e], h, by rw [List.countP_singleton, if_pos he]⟩

theorem Calls.trans (h : Calls p n s t) (k : Calls p m t u) : Calls p (n + m) s u := by
  obtain ⟨es, he, hn⟩ := h
  obtain ⟨fs, hf, hm⟩ := k
  exact ⟨es ++ fs, by rw [hf, he, List.append_assoc], by rw [List.countP_append, hn, hm]⟩

theorem Calls.count (h : Calls p n s u) : (newCalls s u).countP p = n := by
  obtain ⟨es, he, hn⟩ := h
  rw [newCalls_of_trace he, hn]

end

/-! ## A link transaction as a command -/

section
variable {s : State} {i : Iface} {b : Bool} {k : Unit → Dap Value}

theorem complete_link_total (hi : s.cfg.iface = i) : complete (requireIface i >>= k) s = complete (k ()) s :=
  complete_passed (requireIface_ok hi)

theorem complete_link (hi : s.cfg.iface = i) (hb : b = true) :
    complete (requireIface i >>= fun _ => requireArg b >>= k) s = complete (k ()) s :=
  (complete_link_total hi).trans (complete_passed (requireArg_ok hb s))

end

/-! ## JTAG.IRSEL (R150) -/

/-- The call JTAG.IRSEL makes, if any. -/
def irselCalls (s : State) (ir : IrCode) : List WireEvent := if s.jtagIr = some ir then [] else [.irScan ir.code]

theorem irselCalls_scans (s : State) (ir : IrCode) : (irselCalls s ir).countP isDrScan = 0 := by
  unfold irselCalls
  split <;> rfl

theorem jtagIrsel_run {s : State} (hj : s.cfg.iface = .jtag) (ir : IrCode) :
    ∃ u, jtagIrsel ir s = .ok () u ∧ FrameLink s u ∧ u.jtagIr = some ir ∧ u.trace = s.trace ++ irselCalls s ir ∧
      u.target = (if s.jtagIr = some ir then s.target else s.target.map fun t => t.irScan ir.code) ∧
      u.answers = s.answers := by
  have hf := frameLink_irsel ir s hj
  unfold irselCalls
  by_cases h : s.jtagIr = some ir
  · rw [if_pos h, if_pos h]
    exact ⟨s, jtagIrsel_same h, FrameLink.refl s, h, by rw [List.append_nil], rfl, rfl⟩
  · rw [jtagIrsel_change h] at hf
    rw [if_neg h, if_neg h]
    exact ⟨_, jtagIrsel_change h, hf, rfl, rfl, rfl, rfl⟩

/-- Settles O14. -/
theorem irselLoadsOnChange : Obligations.IrselLoadsOnChange := by
  intro s ir hj
  obtain ⟨u, hu, fu, iu, tu, gu, au⟩ := jtagIrsel_run hj ir
  exact ⟨u, (complete_link_total hj).trans (complete_ok (run_bind_ok hu)), fu, iu, newCalls_of_trace tu, gu, au⟩

/-! ## The scan loop over a list of answers (R151) -/

/-- One scan with the answers queued. -/
theorem bdDrScan_answered (req : Scan) {s : State} {y : Scan} {rest : List Scan} (ht : s.target = none)
    (ha : s.answers = y :: rest) :
    ∃ u, bdDrScan req s = .ok y u ∧ u.answers = rest ∧ u.target = none ∧ u.trace = s.trace ++ [.drScan req y] ∧
      u.jtagIr = s.jtagIr := by
  have hy : s.nextAnswer = y := by
    unfold State.nextAnswer
    rw [ha]
  have hrun := bdDrScan_free req ht
  rw [hy, ha] at hrun
  exact ⟨_, hrun, rfl, ht, rfl, rfl⟩

/-- A WAIT answer with a re-issue left is the rest of the loop (R151). -/
theorem jtagScanLoop_wait {ir : IrCode} {rnw : Bool} {a : RegAddr} {req rsp : Scan} {left : Nat} {s u : State}
    (h : bdDrScan req s = .ok rsp u) (ha : drAck rsp = 0b001#3) :
    jtagScanLoop ir rnw a req (left + 1) s = jtagScanLoop ir rnw a req left u := by
  conv => lhs; unfold jtagScanLoop
  rw [run_bind_ok (jtagIssue_wait h ha)]

theorem jtagScanLoop_exhausted {ir : IrCode} {rnw : Bool} {a : RegAddr} {req rsp : Scan} {s u : State}
    (h : bdDrScan req s = .ok rsp u) (ha : drAck rsp = 0b001#3) :
    jtagScanLoop ir rnw a req 0 s = .error (.waitAckExhausted ir rnw a) u := by
  unfold jtagScanLoop
  rw [run_bind_ok (jtagIssue_wait h ha)]
  rfl

theorem jtagScanLoop_ok {ir : IrCode} {rnw : Bool} {a : RegAddr} {req rsp : Scan} {left : Nat} {s u : State}
    (h : bdDrScan req s = .ok rsp u) (ha : drAck rsp = 0b010#3) :
    jtagScanLoop ir rnw a req left s = .ok (drData rsp) u := by
  cases left <;> (unfold jtagScanLoop; rw [run_bind_ok (jtagIssue_ok h ha)]; rfl)

theorem jtagScanLoop_invalid {ir : IrCode} {rnw : Bool} {a : RegAddr} {req rsp : Scan} {left : Nat} {s u : State}
    (h : bdDrScan req s = .ok rsp u) (h2 : drAck rsp ≠ 0b010#3) (h1 : drAck rsp ≠ 0b001#3) :
    jtagScanLoop ir rnw a req left s = .error (.dpOrApAccessError ⟨.invalidAck, (drAck rsp).setWidth 32⟩) u := by
  cases left <;> (unfold jtagScanLoop; rw [run_bind_error (jtagIssue_invalid h h2 h1)])

/-- What the scans of a loop leave: the answers used, the calls made. -/
structure Scanned (req : Scan) (used rest : List Scan) (s u : State) : Prop where
  answers : u.answers = rest
  target : u.target = none
  jtagIr : u.jtagIr = s.jtagIr
  trace : u.trace = s.trace ++ used.map (.drScan req)

theorem Scanned.cons {req y : Scan} {used rest : List Scan} {s t u : State} (h : t.trace = s.trace ++ [.drScan req y])
    (hj : t.jtagIr = s.jtagIr) (k : Scanned req used rest t u) : Scanned req (y :: used) rest s u :=
  ⟨k.answers, k.target, k.jtagIr.trans hj, by rw [k.trace, h, List.append_assoc]; rfl⟩

/-- WAIT answers within the threshold and then another one: that one decides (R151). -/
theorem jtagScanLoop_decided (ir : IrCode) (rnw : Bool) (a : RegAddr) (req y : Scan) (rest : List Scan)
    (hy : drAck y ≠ 0b001#3) (ws : List Scan) (hw : ∀ w ∈ ws, drAck w = 0b001#3) {left : Nat} (hl : ws.length ≤ left)
    {s : State} (ht : s.target = none) (ha : s.answers = ws ++ y :: rest) :
    ∃ u, jtagScanLoop ir rnw a req left s =
        (if drAck y = 0b010#3 then .ok (drData y) u
         else .error (.dpOrApAccessError ⟨.invalidAck, (drAck y).setWidth 32⟩) u) ∧
      Scanned req (ws ++ [y]) rest s u := by
  induction ws generalizing left s with
  | nil =>
    obtain ⟨u, hu, au, tu, cu, ju⟩ := bdDrScan_answered req ht ha
    refine ⟨u, ?_, au, tu, ju, cu⟩
    by_cases hok : drAck y = 0b010#3
    · rw [if_pos hok]
      exact jtagScanLoop_ok hu hok
    · rw [if_neg hok]
      exact jtagScanLoop_invalid hu hok hy
  | cons w ws ih =>
    obtain ⟨t, hrun, at', tt, ct, jt⟩ := bdDrScan_answered req ht ha
    obtain ⟨left, rfl⟩ : ∃ k, left = k + 1 := ⟨left - 1, by rw [List.length_cons] at hl; omega⟩
    obtain ⟨u, hu, ku⟩ := ih (fun x hx => hw x (List.mem_cons_of_mem w hx)) (Nat.le_of_succ_le_succ hl) tt at'
    exact ⟨u, (jtagScanLoop_wait hrun (hw w List.mem_cons_self)).trans hu, ku.cons ct jt⟩

/-- WAIT answers to the last issue end the loop (R151, R305). -/
theorem jtagScanLoop_waits (ir : IrCode) (rnw : Bool) (a : RegAddr) (req : Scan) (rest : List Scan) (left : Nat)
    {ws : List Scan} (hw : ∀ w ∈ ws, drAck w = 0b001#3) (hl : ws.length = left + 1) {s : State} (ht : s.target = none)
    (ha : s.answers = ws ++ rest) :
    ∃ u, jtagScanLoop ir rnw a req left s = .error (.waitAckExhausted ir rnw a) u ∧ Scanned req ws rest s u := by
  induction left generalizing ws s with
  | zero =>
    obtain ⟨w, rfl⟩ := List.length_eq_one_iff.mp hl
    obtain ⟨u, hu, au, tu, cu, ju⟩ := bdDrScan_answered req ht ha
    exact ⟨u, jtagScanLoop_exhausted hu (hw w List.mem_cons_self), au, tu, ju, cu⟩
  | succ left ih =>
    obtain ⟨w, vs, rfl⟩ := List.exists_cons_of_length_eq_add_one hl
    obtain ⟨t, hrun, at', tt, ct, jt⟩ := bdDrScan_answered req ht ha
    obtain ⟨u, hu, ku⟩ := ih (fun x hx => hw x (List.mem_cons_of_mem w hx)) (Nat.succ.inj hl) tt at'
    exact ⟨u, (jtagScanLoop_wait hrun (hw w List.mem_cons_self)).trans hu, ku.cons ct jt⟩

/-- JTAG.SCAN is its instruction's load and then the loop. -/
theorem exec_jtagScan {s v : State} {ir : IrCode} {rnw : Bool} {a : RegAddr} {d : W32} (hj : s.cfg.iface = .jtag)
    (hok : scanOk ir rnw a d = true) (hv : jtagIrsel ir s = .ok () v) :
    exec (.jtagScan ir rnw a d) s =
      complete (jtagScanLoop ir rnw a (drReq rnw a d) 3 >>= fun w => pure (Value.word w)) v := by
  refine (complete_link hj hok).trans ?_
  show complete ((jtagIrsel ir >>= fun _ => jtagScanLoop ir rnw a (drReq rnw a d) 3) >>= _) s = _
  unfold complete
  rw [run_bind, run_bind_ok hv, run_bind]

/-- The frame of JTAG.SCAN, given how its loop ends. -/
theorem frameLink_scanned {s v : State} {ir : IrCode} {rnw : Bool} {a : RegAddr} {d : W32} (hj : s.cfg.iface = .jtag)
    (hv : jtagIrsel ir s = .ok () v) :
    FrameLink s (endState (jtagScanLoop ir rnw a (drReq rnw a d) 3 v)) := by
  have hf := frameLink_scan ir rnw a d s hj
  have hrun : jtagScan ir rnw a d s = jtagScanLoop ir rnw a (drReq rnw a d) 3 v := run_bind_ok hv
  rwa [hrun] at hf

/-- Settles O15: the loop over the queued answers, after the instruction's load. -/
theorem scanAcknowledgements : Obligations.ScanAcknowledgements := by
  intro s ir rnw a d ws hj ht hok hw
  obtain ⟨v, hv, fv, iv, tv, gv, av⟩ := jtagIrsel_run hj ir
  have hrun := exec_jtagScan hj hok hv
  have hf := frameLink_scanned (rnw := rnw) (a := a) (d := d) hj hv
  have htv : v.target = none := by
    rw [gv, ht]
    split <;> rfl
  have calls : ∀ {used rest u}, Scanned (drReq rnw a d) used rest v u →
      newCalls s u = irselCalls s ir ++ used.map (.drScan (drReq rnw a d)) := fun k =>
    newCalls_of_trace (by rw [k.trace, tv, List.append_assoc])
  refine ⟨fun y rest hl ha hy => ?_, fun rest hl ha => ?_⟩
  · obtain ⟨u, hu, ku⟩ := jtagScanLoop_decided ir rnw a (drReq rnw a d) y rest hy ws hw hl htv (av.trans ha)
    refine ⟨u, ?_, ?_, ku.jtagIr.trans iv, ku.answers, ku.target, calls ku⟩
    · by_cases hack : drAck y = 0b010#3
      · rw [if_pos hack] at hu ⊢
        exact hrun.trans (complete_ok (run_bind_ok hu))
      · rw [if_neg hack] at hu ⊢
        exact hrun.trans (complete_error (run_bind_error hu))
    · rw [hu] at hf
      by_cases hack : drAck y = 0b010#3
      · rwa [if_pos hack] at hf
      · rwa [if_neg hack] at hf
  · obtain ⟨u, hu, ku⟩ := jtagScanLoop_waits ir rnw a (drReq rnw a d) rest 3 hw hl htv (av.trans ha)
    rw [hu] at hf
    exact ⟨u, hrun.trans (complete_error (run_bind_error hu)), hf, ku.jtagIr.trans iv, ku.answers, ku.target, calls ku⟩

/-! ## The scan loop on T0 (R408) -/

/-- One scan that T0 answers WAIT. -/
theorem bdDrScan_waiting (req : Scan) {s : State} {t : T0} {ir : IrCode} (ht : s.target = some t)
    (hi : t.ir = ir.code) (hw : t.waiting = true) :
    ∃ u, bdDrScan req s = .ok 0b001 u ∧ u.target = some t.waitOnce ∧ u.jtagIr = s.jtagIr ∧ Calls isDrScan 1 s u := by
  have hq : t.drScan req = (0b001, t.waitOnce) := by
    unfold T0.drScan
    rw [hi, ofCode_code, hw]
    rfl
  have hrun := bdDrScan_target req ht
  rw [hq] at hrun
  exact ⟨_, hrun, rfl, rfl, Calls.one rfl rfl⟩

/-- One scan that T0 answers. -/
theorem bdDrScan_quiet (req : Scan) {s : State} {t : T0} {ir : IrCode} (ht : s.target = some t)
    (hi : t.ir = ir.code) (hw : t.wait = .count 0) :
    ∃ u, bdDrScan req s = .ok (t.rdbuff ++ 0b010#3) u ∧ u.target = some (t.scanEffect req) ∧ u.jtagIr = s.jtagIr ∧
      Calls isDrScan 1 s u := by
  have hrun := bdDrScan_target req ht
  rw [drScan_quiet hw hi] at hrun
  exact ⟨_, hrun, rfl, rfl, Calls.one rfl rfl⟩

/-- Up to the threshold T0's WAIT answers are waited for. -/
theorem jtagScanLoop_patient (ir : IrCode) (rnw : Bool) (a : RegAddr) (req : Scan) (n : Nat) {left : Nat}
    (hl : n ≤ left) {s : State} {t : T0} (ht : s.target = some t) (hi : t.ir = ir.code) (hw : t.wait = .count n) :
    ∃ u, jtagScanLoop ir rnw a req left s = .ok t.rdbuff u ∧ u.jtagIr = s.jtagIr ∧
      u.target = some ((t.withWait (.count 0)).scanEffect req) ∧ Calls isDrScan (n + 1) s u := by
  induction n generalizing left s t with
  | zero =>
    obtain ⟨u, hu, tu, ju, cu⟩ := bdDrScan_quiet req ht hi hw
    have hsame : t.withWait (.count 0) = t := by
      unfold T0.withWait
      rw [← hw]
    refine ⟨u, ?_, ju, by rw [hsame]; exact tu, cu⟩
    rw [jtagScanLoop_ok hu (drAck_append _ _), drData_append]
  | succ n ih =>
    have hwait : t.waiting = true := by
      unfold T0.waiting
      rw [hw]
      rfl
    have honce : t.waitOnce = t.withWait (.count n) := by
      unfold T0.waitOnce
      rw [hw]
      rfl
    obtain ⟨x, hx, tx, jx, cx⟩ := bdDrScan_waiting req ht hi hwait
    rw [honce] at tx
    obtain ⟨left, rfl⟩ : ∃ k, left = k + 1 := ⟨left - 1, by omega⟩
    obtain ⟨u, hu, ju, tu, cu⟩ := ih (Nat.le_of_succ_le_succ hl) tx hi rfl
    refine ⟨u, (jtagScanLoop_wait hx (by decide)).trans hu, ju.trans jx, tu, ?_⟩
    rw [Nat.add_comm (n + 1)]
    exact cx.trans cu

/-- T0 answers WAIT to every issue: the loop ends with nothing done but the answers used up. -/
theorem jtagScanLoop_refused (ir : IrCode) (rnw : Bool) (a : RegAddr) (req : Scan) (left : Nat) {s : State} {t : T0}
    (ht : s.target = some t) (hi : t.ir = ir.code) (hw : t.wait = .forever ∨ ∃ n, left + 1 ≤ n ∧ t.wait = .count n) :
    ∃ u, jtagScanLoop ir rnw a req left s = .error (.waitAckExhausted ir rnw a) u ∧ u.jtagIr = s.jtagIr ∧
      u.target = some (T0.waitOnce^[left + 1] t) ∧ Calls isDrScan (left + 1) s u := by
  have hwait : t.waiting = true := by
    unfold T0.waiting
    rcases hw with hw | ⟨n, hn, hw⟩ <;> rw [hw]
    exact bne_iff_ne.mpr (by omega)
  obtain ⟨x, hx, tx, jx, cx⟩ := bdDrScan_waiting req ht hi hwait
  cases left with
  | zero => exact ⟨x, jtagScanLoop_exhausted hx (by decide), jx, tx, cx⟩
  | succ left =>
    have hi' : t.waitOnce.ir = ir.code := by
      rw [← hi]
      unfold T0.waitOnce
      cases t.wait <;> rfl
    have hw' : t.waitOnce.wait = .forever ∨ ∃ n, left + 1 ≤ n ∧ t.waitOnce.wait = .count n := by
      unfold T0.waitOnce
      rcases hw with hw | ⟨n, hn, hw⟩
      · rw [hw]
        exact .inl hw
      · rw [hw]
        exact .inr ⟨n - 1, by omega, rfl⟩
    obtain ⟨u, hu, ju, tu, cu⟩ := jtagScanLoop_refused ir rnw a req left tx hi' hw'
    refine ⟨u, (jtagScanLoop_wait hx (by decide)).trans hu, ju.trans jx, tu, ?_⟩
    rw [Nat.add_comm (left + 1)]
    exact cx.trans cu

theorem waitOnce_forever {t : T0} (h : t.wait = .forever) : t.waitOnce = t := by
  unfold T0.waitOnce
  rw [h]

/-- Settles O16: the loop on T0, after the instruction's load. -/
theorem scanOnTarget : Obligations.ScanOnTarget := by
  intro s t ir rnw a d hj ht hir hok
  obtain ⟨v, hv, fv, iv, tv, gv, av⟩ := jtagIrsel_run hj ir
  have hrun := exec_jtagScan hj hok hv
  have hf := frameLink_scanned (rnw := rnw) (a := a) (d := d) hj hv
  have htv : v.target = some (t.irScan ir.code) := by
    rw [gv, ht]
    by_cases h : s.jtagIr = some ir
    · rw [if_pos h]
      unfold T0.irScan
      rw [← hir ir h]
    · rw [if_neg h]
      rfl
  have scans : ∀ {u n}, Calls isDrScan n v u → drScans s u = n := fun k => by
    have h0 : Calls isDrScan 0 s v := ⟨_, tv, irselCalls_scans s ir⟩
    have := (h0.trans k).count
    rwa [Nat.zero_add] at this
  have refused : (t.wait = .forever ∨ ∃ n, 4 ≤ n ∧ t.wait = .count n) →
      ∃ u, exec (.jtagScan ir rnw a d) s = .next (u.pushResult (.error (.waitAckExhausted ir rnw a))) ∧ FrameLink s u ∧
        u.jtagIr = some ir ∧ u.target = some (T0.waitOnce^[4] (t.irScan ir.code)) ∧ drScans s u = 4 := by
    intro hw
    obtain ⟨u, hu, ju, tu, cu⟩ := jtagScanLoop_refused ir rnw a (drReq rnw a d) 3 htv rfl hw
    rw [hu] at hf
    exact ⟨u, hrun.trans (complete_error (run_bind_error hu)), hf, ju.trans iv, tu, scans cu⟩
  refine ⟨fun n hn hw => ?_, fun n hn hw => ?_, fun hw => ?_⟩
  · obtain ⟨u, hu, ju, tu, cu⟩ := jtagScanLoop_patient ir rnw a (drReq rnw a d) n (left := 3) hn htv rfl hw
    rw [hu] at hf
    exact ⟨u, hrun.trans (complete_ok (run_bind_ok hu)), hf, ju.trans iv, tu, scans cu⟩
  · obtain ⟨u, hu, fu, ju, tu, cu⟩ := refused (.inr ⟨n, hn, hw⟩)
    refine ⟨u, hu, fu, ju, tu.trans (congrArg some ?_), cu⟩
    have hsame : t.irScan ir.code = (t.irScan ir.code).withWait (.count n) := by
      unfold T0.withWait T0.irScan
      rw [← hw]
    rw [hsame]
    rfl
  · obtain ⟨u, hu, fu, ju, tu, cu⟩ := refused (.inl hw)
    refine ⟨u, hu, fu, ju, tu.trans (congrArg some ?_), cu⟩
    have hfix : (t.irScan ir.code).waitOnce = t.irScan ir.code := waitOnce_forever hw
    exact Function.iterate_fixed hfix 4

/-! ## Transactions in the loop (R152 to R158) -/

/-- JTAG.SCAN in the loop is one scan. -/
theorem jtagScan_counted {s : State} {t : T0} (h : Loop s t) (hj : s.cfg.iface = .jtag) (ir : IrCode) (rnw : Bool)
    (a : RegAddr) (d : W32) :
    ∃ u, jtagScan ir rnw a d s = .ok t.rdbuff u ∧ FrameLink s u ∧ u.cfg.iface = .jtag ∧
      Loop u (t.afterScan ir rnw a d) ∧ Calls isDrScan 1 s u := by
  obtain ⟨u, hu, fu, _, _, lu⟩ := jtagScan_loop h hj ir rnw a d
  obtain ⟨v, hv, _, _, tv, gv, _⟩ := jtagIrsel_run hj ir
  obtain ⟨v', hv', _, _, tv'⟩ := jtagIrsel_loop h hj ir
  cases hv.symm.trans hv'
  obtain ⟨x, hx, _, _, cx⟩ := jtagScanLoop_patient ir rnw a (drReq rnw a d) 0 (left := 3) (Nat.zero_le 3) tv' rfl h.noWait
  have hrun : jtagScan ir rnw a d s = .ok t.rdbuff x := (run_bind_ok hv).trans hx
  cases hu.symm.trans hrun
  refine ⟨u, hu, fu, by rw [fu.cfg]; exact hj, lu, ?_⟩
  have h0 : Calls isDrScan 0 s v := ⟨_, tv, irselCalls_scans s ir⟩
  have := h0.trans cx
  rwa [Nat.zero_add] at this

/-- A read scan and the read of RDBUFF that fetches its result (R152, R154). -/
theorem jtagRead_counted {s : State} {t : T0} (h : Loop s t) (hj : s.cfg.iface = .jtag) (ir : IrCode) (a : RegAddr) :
    ∃ u t', (jtagScan ir true a 0 >>= fun _ => jtagScan .dpacc true 0xC 0) s = .ok (t.afterScan ir true a 0).rdbuff u ∧
      FrameLink s u ∧ Loop u t' ∧ t'.settled = (t.afterScan ir true a 0).settled ∧ drScans s u = 2 := by
  obtain ⟨x, hx, fx, jx, lx, cx⟩ := jtagScan_counted h hj ir true a 0
  obtain ⟨y, hy, fy, _, ly, cy⟩ := jtagScan_counted lx jx .dpacc true 0xC 0
  refine ⟨y, _, (run_bind_ok hx).trans hy, fx.trans fy, ly, ?_, (cx.trans cy).count⟩
  unfold T0.afterScan
  rw [scan_dpRead _ (by decide)]
  rfl

/-- Settles O17: a read is two scans, a write one. -/
theorem jtagDpTransactions : Obligations.JtagDpTransactions := by
  intro s t a h hj
  refine ⟨fun hok => ?_, fun v hok => ?_⟩
  · have ha := scanOk_aligned hok
    obtain ⟨u, t', hu, fu, lu, su, cu⟩ := jtagRead_counted h hj .dpacc a
    have hafter : t.afterScan .dpacc true a 0 = { t.irScan IrCode.dpacc.code with rdbuff := t.dpRead a } := scan_dpRead t ha
    rw [hafter] at hu su
    exact ⟨u, t', (complete_link hj hok).trans (complete_ok (run_bind_ok hu)), fu, lu, su, cu⟩
  · have ha := scanOk_aligned hok
    have h0 : a ≠ 0 := by
      rintro rfl
      exact Bool.false_ne_true hok
    obtain ⟨u, hu, fu, _, lu, cu⟩ := jtagScan_counted h hj .dpacc false a v
    have hafter : t.afterScan .dpacc false a v = (t.irScan IrCode.dpacc.code).dpWrite a v := scan_dpWrite t ha h0 v
    refine ⟨u, _, (complete_link hj hok).trans (complete_ok (run_bind_ok (run_bind_ok hu))), fu, lu, ?_, cu.count⟩
    rw [hafter]
    exact dpWrite_irScan t _ a v

/-- With a sticky flag set a read scan of an AP register delivers zero and a write does nothing (R408). -/
theorem afterScan_barred {t : T0} (hs : t.sticky ≠ 0) {a : RegAddr} (ha : a.aligned = true) (rnw : Bool) (v : W32) :
    (t.afterScan .apacc rnw a v).settled = t.settled ∧ (rnw = true → (t.afterScan .apacc rnw a v).rdbuff = 0) := by
  obtain ⟨hr, _, _⟩ := drReq_fields rnw a v ha
  have heffect : t.afterScan .apacc rnw a v =
      if rnw then { t.irScan IrCode.apacc.code with rdbuff := 0 } else t.irScan IrCode.apacc.code := by
    unfold T0.afterScan T0.scanEffect
    simp only [hr]
    have habort : ¬ (t.irScan IrCode.apacc.code).ir = IrCode.abort.code :=
      show ¬ IrCode.apacc.code = IrCode.abort.code by decide
    have hdpacc : ¬ (t.irScan IrCode.apacc.code).ir = IrCode.dpacc.code :=
      show ¬ IrCode.apacc.code = IrCode.dpacc.code by decide
    rw [if_neg habort, if_neg hdpacc]
    exact if_pos hs
  rw [heffect]
  cases rnw
  · exact ⟨rfl, fun h => absurd h Bool.false_ne_true⟩
  · exact ⟨rfl, fun _ => rfl⟩

/-- With none set it delivers the register that SELECT names. -/
theorem afterScan_apRead {t : T0} (hs : t.sticky = 0) {a : RegAddr} (ha : a.aligned = true) :
    (t.afterScan .apacc true a 0).rdbuff = (t.apAccess true a 0).1 ∧
      (t.afterScan .apacc true a 0).settled = (t.apAccess true a 0).2.settled := by
  unfold T0.afterScan
  rw [scan_apRead hs ha]
  exact apAccess_irScan t _ true a 0

/-- Settles O18: as O17, with T0's answer where a sticky flag bars the AP. -/
theorem jtagApTransactions : Obligations.JtagApTransactions := by
  intro s t a h hj
  refine ⟨fun hok => ?_, fun v hok => ?_⟩
  · have ha := scanOk_aligned hok
    obtain ⟨u, t', hu, fu, lu, su, cu⟩ := jtagRead_counted h hj .apacc a
    have hend := (complete_link (k := fun _ => jtagApaccRd a >>= fun w => pure (Value.word w)) hj hok).trans
      (complete_ok (run_bind_ok hu))
    by_cases hs : t.sticky = 0
    · obtain ⟨hval, hset⟩ := afterScan_apRead hs ha
      rw [hval] at hend
      rw [if_pos hs, if_pos hs]
      exact ⟨u, t', hend, fu, lu, su.trans hset, cu⟩
    · obtain ⟨hset, hval⟩ := afterScan_barred hs ha true 0
      rw [hval rfl] at hend
      rw [if_neg hs, if_neg hs]
      exact ⟨u, t', hend, fu, lu, su.trans hset, cu⟩
  · have ha := scanOk_aligned hok
    obtain ⟨u, hu, fu, _, lu, cu⟩ := jtagScan_counted h hj .apacc false a v
    refine ⟨u, _, (complete_link hj hok).trans (complete_ok (run_bind_ok (run_bind_ok hu))), fu, lu, ?_, cu.count⟩
    by_cases hs : t.sticky = 0
    · rw [if_pos hs]
      unfold T0.afterScan
      rw [scan_apWrite hs ha]
      exact (apAccess_irScan t _ false a v).2
    · rw [if_neg hs]
      exact (afterScan_barred hs ha false v).1

/-- A sequence of read scans captures what each scan left pending, the last one by a read of RDBUFF (R156). -/
theorem jtagReadScans_counted (reads : List (IrCode × RegAddr)) {s : State} {t : T0} (h : Loop s t)
    (hj : s.cfg.iface = .jtag) :
    ∃ u, jtagReadScans reads s = .ok (t.rdbuff :: (t.scanReads reads).1) u ∧ FrameLink s u ∧
      u.target = some ((t.scanReads reads).2.afterScan .dpacc true 0xC 0) ∧
      Calls isDrScan (reads.length + 1) s u := by
  induction reads generalizing s t with
  | nil =>
    obtain ⟨u, hu, fu, _, lu, cu⟩ := jtagScan_counted h hj .dpacc true 0xC 0
    exact ⟨u, run_bind_ok hu, fu, lu.target, cu⟩
  | cons r reads ih =>
    obtain ⟨x, hx, fx, jx, lx, cx⟩ := jtagScan_counted h hj r.1 true r.2 0
    obtain ⟨u, hu, fu, tu, cu⟩ := ih lx jx
    refine ⟨u, ?_, fx.trans fu, tu, ?_⟩
    · show (jtagScan r.1 true r.2 0 >>= fun d => jtagReadScans reads >>= fun ds => pure (d :: ds)) s = _
      rw [run_bind_ok hx, run_bind_ok hu]
      rfl
    · rw [List.length_cons, Nat.add_comm (reads.length + 1)]
      exact cx.trans cu

theorem jtagWriten_counted (a : RegAddr) (values : List W32) {s : State} {t : T0} (h : Loop s t)
    (hj : s.cfg.iface = .jtag) :
    ∃ u, jtagWriten a values s = .ok () u ∧ FrameLink s u ∧ u.target = some (t.scanWrites a values) ∧
      Calls isDrScan values.length s u := by
  induction values generalizing s t with
  | nil => exact ⟨s, rfl, FrameLink.refl s, h.target, Calls.none rfl⟩
  | cons w values ih =>
    obtain ⟨x, hx, fx, jx, lx, cx⟩ := jtagScan_counted h hj .apacc false a w
    obtain ⟨u, hu, fu, tu, cu⟩ := ih lx jx
    refine ⟨u, (run_bind_ok hx).trans hu, fx.trans fu, tu, ?_⟩
    rw [List.length_cons, Nat.add_comm values.length]
    exact cx.trans cu

/-- Settles O19: induction over the list, a scan an element. -/
theorem jtagSequences : Obligations.JtagSequences := by
  intro s t h hj
  refine ⟨fun reads hne hok => ?_, fun a values ha hne => ?_⟩
  · obtain ⟨u, hu, fu, tu, cu⟩ := jtagReadScans_counted reads h hj
    have hb : (!reads.isEmpty && reads.all readScanOk) = true := by
      rw [List.isEmpty_eq_false_iff.mpr hne, hok]
      rfl
    exact ⟨u, (complete_link hj hb).trans (complete_ok (run_bind_ok (run_bind_ok hu))), fu, tu, cu.count⟩
  · obtain ⟨u, hu, fu, tu, cu⟩ := jtagWriten_counted a values h hj
    have hb : (a.aligned && !values.isEmpty) = true := by
      rw [List.isEmpty_eq_false_iff.mpr hne, ha]
      rfl
    exact ⟨u, (complete_link hj hb).trans (complete_ok (run_bind_ok hu)), fu, tu, cu.count⟩

/-! ## ABORT (R158, R177, R200) -/

theorem linkAbort_jtag {s : State} (hj : s.cfg.iface = .jtag) (v : W32) : linkAbort v s = jtagAbortWr v s := by
  unfold linkAbort
  rw [run_getS_bind, hj]

theorem linkAbort_swd {s : State} (hw : s.cfg.iface = .swd) (v : W32) : linkAbort v s = swdAbort v s := by
  unfold linkAbort
  rw [run_getS_bind, hw]

theorem clearSticky_run (s : State) :
    clearSticky s = linkAbort (if s.cfg.orunDetect then 0x1E else 0x0E) s := by
  unfold clearSticky
  rw [run_getS_bind]
  cases s.cfg.orunDetect <;> rfl

/-- Settles O20: each is `Link.Abort` of its value, which T0 takes also with flags set. -/
theorem abortClearsFlags : Obligations.AbortClearsFlags := by
  intro s t v h
  obtain ⟨u, t', hu, fu, lu, su⟩ := linkAbort_loop h v
  refine ⟨fun hj => ?_, fun hw => ?_, ?_⟩
  · rw [linkAbort_jtag hj] at hu
    exact ⟨u, t', (complete_link_total hj).trans (complete_ok (run_bind_ok hu)), fu, lu, su⟩
  · rw [linkAbort_swd hw] at hu
    exact ⟨u, t', (complete_link_total hw).trans (complete_ok (run_bind_ok hu)), fu, lu, su⟩
  · obtain ⟨x, t'', hx, fx, lx, sx⟩ := linkAbort_loop h (if s.cfg.orunDetect then 0x1E else 0x0E)
    exact ⟨x, t'', complete_ok (run_bind_ok ((clearSticky_run s).trans hx)), fx, lx, sx⟩

end Sys2Proof.Machine

/-! The SWD transactions as commands (41_link_swd.md): acknowledgements, what T0 does, the line reset, TARGETSEL and
SWD_CONNECT. -/

namespace Sys2Proof.Machine

open Sys2Proof

/-! ## Quiet calls -/

theorem FrameQuiet.refl (s : State) : FrameQuiet s s :=
  ⟨rfl, rfl, rfl, rfl, rfl, rfl, rfl, rfl, rfl, rfl, rfl, List.prefix_refl _⟩

theorem FrameQuiet.trans {s t u : State} (h : FrameQuiet s t) (k : FrameQuiet t u) : FrameQuiet s u where
  dpVersion := k.dpVersion.trans h.dpVersion
  selectLast := k.selectLast.trans h.selectLast
  freezeDepth := k.freezeDepth.trans h.freezeDepth
  frozenValid := k.frozenValid.trans h.frozenValid
  apState := k.apState.trans h.apState
  conn := k.conn.trans h.conn
  jtagIr := k.jtagIr.trans h.jtagIr
  cfg := k.cfg.trans h.cfg
  commands := k.commands.trans h.commands
  pc := k.pc.trans h.pc
  results := k.results.trans h.results
  trace := h.trace.trans k.trace

theorem FrameQuiet.toLink {s t : State} (h : FrameQuiet s t) : FrameLink s t where
  dpVersion := h.dpVersion
  selectLast := h.selectLast
  freezeDepth := h.freezeDepth
  frozenValid := h.frozenValid
  apState := h.apState
  conn := h.conn
  jtagIr := fun _ => h.jtagIr
  cfg := h.cfg
  commands := h.commands
  pc := h.pc
  results := h.results
  trace := h.trace

/-- One call of the line: the state is as it was but for the target, the answers and the trace. -/
theorem bdDriveLine_call (segs : List Segment) (s : State) :
    ∃ bits u, bdDriveLine segs s = .ok bits u ∧ FrameQuiet s u ∧ u.trace = s.trace ++ [.driveLine segs bits] ∧
      (∀ t, s.target = some t → bits = (t.driveLine segs).1 ∧ u.target = some (t.driveLine segs).2) ∧
      (s.target = none → u.target = none ∧ bits = bitsOf s.nextAnswer (sampledBits segs) ∧
        u.answers = if sampledBits segs = 0 then s.answers else s.answers.tail) := by
  cases ht : s.target with
  | some t =>
    refine ⟨_, _, bdDriveLine_target segs ht, ⟨rfl, rfl, rfl, rfl, rfl, rfl, rfl, rfl, rfl, rfl, rfl,
      List.prefix_append _ _⟩, rfl, fun t' h => ?_, fun h => nomatch h⟩
    cases h
    exact ⟨rfl, rfl⟩
  | none =>
    by_cases hn : sampledBits segs = 0
    · refine ⟨_, _, bdDriveLine_silent ht hn, ⟨rfl, rfl, rfl, rfl, rfl, rfl, rfl, rfl, rfl, rfl, rfl,
        List.prefix_append _ _⟩, rfl, (fun t h => nomatch h), fun _ => ⟨ht, by rw [hn]; rfl, by rw [if_pos hn]; rfl⟩⟩
    · exact ⟨_, _, bdDriveLine_free ht hn, ⟨rfl, rfl, rfl, rfl, rfl, rfl, rfl, rfl, rfl, rfl, rfl,
        List.prefix_append _ _⟩, rfl, (fun t h => nomatch h), fun _ => ⟨ht, rfl, by rw [if_neg hn]; rfl⟩⟩

/-- A call that samples nothing and that T0 does not look at adds itself to the trace and nothing else. -/
theorem bdDriveLine_inert {segs : List Segment} (hn : sampledBits segs = 0) (ht : ∀ t : T0, t.driveLine segs = ([], t))
    (s : State) : bdDriveLine segs s = .ok [] (s.pushEvent (.driveLine segs [])) := by
  cases h : s.target with
  | none => exact bdDriveLine_silent h hn
  | some t =>
    rw [bdDriveLine_target segs h, ht t]
    have hsame : s.setTarget (some t) = s := by
      unfold State.setTarget
      rw [← h]
    rw [hsame]

/-! ## The line reset (R178) -/

theorem swdLinereset_run (s : State) : swdLinereset s =
    .ok () (((s.pushEvent (.driveLine [.out (List.replicate 56 true)] [])).pushEvent
      (.driveLine [.out (bitsOf 0xE79E#16 16)] [])).pushEvent
      (.driveLine [.out (List.replicate 56 true), .out (List.replicate 8 false)] [])) := by
  unfold swdLinereset
  rw [run_bind_ok (bdDriveLine_inert rfl (fun _ => rfl) s), run_bind_ok (bdDriveLine_inert rfl (fun _ => rfl) _),
    run_bind_ok (bdDriveLine_inert rfl (fun _ => rfl) _)]
  rfl

/-- Settles O26. -/
theorem lineresetDrivesTheLine : Obligations.LineresetDrivesTheLine := by
  intro s hw
  refine ⟨_, (complete_link_total hw).trans (complete_ok (run_bind_ok (swdLinereset_run s))), ⟨rfl, rfl, rfl, rfl, rfl,
    rfl, rfl, rfl, rfl, rfl, rfl, ?_⟩, newCalls_of_trace ?_, rfl, rfl⟩
  · exact (List.prefix_append _ _).trans ((List.prefix_append _ _).trans (List.prefix_append _ _))
  · show ((s.trace ++ _) ++ _) ++ _ = _
    rw [List.append_assoc, List.append_assoc]
    rfl

/-! ## TARGETSEL (R179) -/

/-- The packet 0x99 goes to T0 as a request that opens no phase (R409). -/
theorem driveLine_targetsel (t : T0) : t.driveLine [.out (bitsOf (0x99#8) 8), .trn 1, .inp 3] =
    ([true, true, true], { t with phase := .idle }) := by
  show t.swdRequest (byteOfBits (bitsOf (0x99#8) 8)) = _
  rw [byteOfBits_bitsOf]
  unfold T0.swdRequest
  exact if_pos rfl

theorem swdTargetsel_run (v : W32) (s : State) : ∃ u bits, swdTargetsel v s = .ok () u ∧ FrameQuiet s u ∧
    u.trace = s.trace ++ swdDpWriteCalls 0xC v bits ∧ u.target = s.target.map fun t => { t with phase := .idle } := by
  obtain ⟨bits, x, hx, qx, cx, tx, nx⟩ := bdDriveLine_call [.out (bitsOf (0x99#8) 8), .trn 1, .inp 3] s
  obtain ⟨bits', y, hy, qy, cy, ty, ny⟩ := bdDriveLine_call [.trn 1, .out (dataBits v)] x
  have hrun : swdTargetsel v s = .ok () y := by
    unfold swdTargetsel swdWritePhase
    rw [run_bind_ok hx, run_bind_ok hy]
    rfl
  have hbits : bits' = [] ∧ y.target = s.target.map fun t => { t with phase := .idle } := by
    cases ht : s.target with
    | none =>
      obtain ⟨hyt, hb, _⟩ := ny (nx ht).1
      exact ⟨hb, hyt⟩
    | some t =>
      obtain ⟨_, hxt⟩ := tx t ht
      rw [driveLine_targetsel] at hxt
      obtain ⟨hb, hyt⟩ := ty _ hxt
      exact ⟨hb, hyt⟩
  refine ⟨y, bits, hrun, qx.trans qy, ?_, hbits.2⟩
  rw [cy, cx, hbits.1, List.append_assoc]
  rfl

/-- Settles O27. -/
theorem targetselIgnoresAck : Obligations.TargetselIgnoresAck := by
  intro s v hw
  obtain ⟨u, bits, hu, fu, cu, tu⟩ := swdTargetsel_run v s
  refine ⟨u, bits, (complete_link_total hw).trans (complete_ok (run_bind_ok hu)), fu, newCalls_of_trace cu, ?_⟩
  rw [tu, Option.map_map]
  rfl

/-! ## The phases of SWD.XFER (R170) -/

/-- The request phase of a transaction. -/
abbrev requestSegs (apndp rnw : Bool) (a : RegAddr) : List Segment :=
  [.out (bitsOf (swdReqByte apndp rnw a) 8), .trn 1, .inp 3]

section
variable {apndp rnw : Bool} {a : RegAddr} {w d : W32} {s u v z : State} {bits : List Bool}

theorem swdXfer_acked (h : bdDriveLine (requestSegs apndp rnw a) s = .ok bits v) (ha : ackOf bits = 0b001#3) :
    swdXfer apndp rnw a w s = swdDataPhase rnw w v := by
  unfold swdXfer
  rw [run_bind_ok h]
  exact congrFun (if_pos ha) v

theorem swdXfer_refused (h : bdDriveLine (requestSegs apndp rnw a) s = .ok bits v) (ha : ackOf bits ≠ 0b001#3)
    (hs : swdSkipPhase rnw w v = .ok () z) (hi : swdIdle z = .ok () u) :
    swdXfer apndp rnw a w s = .error (.dpOrApAccessError ⟨.swdAck, (ackOf bits).setWidth 32⟩) u := by
  unfold swdXfer
  rw [run_bind_ok h]
  refine (congrFun (if_neg ha) v).trans ?_
  rw [run_bind_ok hs, run_bind_ok hi]
  rfl

/-- The data phase of a read: the word if its parity agrees. -/
theorem swdDataPhase_read (h : bdDriveLine [.inp 33, .trn 1] v = .ok bits z) (hi : swdIdle z = .ok () u)
    (hd : wordOfBits (bits.take 32) = d) :
    swdDataPhase true w v = if bits.getD 32 false = par32 d then .ok d u
      else .error (.dpOrApAccessError ⟨.readParity, d⟩) u := by
  unfold swdDataPhase
  rw [if_pos rfl, run_bind_ok h, run_bind_ok hi]
  simp only [hd]
  split <;> rfl

theorem swdDataPhase_write (h : swdWritePhase w v = .ok () z) (hi : swdIdle z = .ok () u) :
    swdDataPhase false w v = .ok 0 u := by
  show (swdWritePhase w >>= fun _ => swdIdle >>= fun _ => pure 0) v = _
  rw [run_bind_ok h, run_bind_ok hi]
  rfl

theorem exec_swdXfer_ok (hw : s.cfg.iface = .swd) (hok : packetOk apndp rnw a = true)
    (h : swdXfer apndp rnw a w s = .ok d u) :
    exec (.swdXfer apndp rnw a w) s = .next (u.pushResult (.ok (.word d))) ∧ FrameLink s u := by
  have hf := keeps_swdXferAny frameLink_abortStable apndp rnw a w s
  rw [h] at hf
  exact ⟨(complete_link hw hok).trans (complete_ok (run_bind_ok h)), hf⟩

theorem exec_swdXfer_error {e : DapError} (hw : s.cfg.iface = .swd) (hok : packetOk apndp rnw a = true)
    (h : swdXfer apndp rnw a w s = .error e u) :
    exec (.swdXfer apndp rnw a w) s = .next (u.pushResult (.error e)) ∧ FrameLink s u := by
  have hf := keeps_swdXferAny frameLink_abortStable apndp rnw a w s
  rw [h] at hf
  exact ⟨(complete_link hw hok).trans (complete_error (run_bind_error h)), hf⟩

end

/-! ## SWD.XFER over a list of answers (R170) -/

theorem ackOf_bitsOf (x : BitVec 35) : ackOf (bitsOf x 3) = x.extractLsb' 0 3 := by
  refine BitVec.eq_of_getLsbD_eq fun i hi => ?_
  unfold ackOf
  rw [BitVec.getLsbD_setWidth, wordOfBits_getLsbD, bitsOf_getD, BitVec.getLsbD_extractLsb', Nat.zero_add]
  simp [hi, show i < 32 by omega]

theorem wordOfBits_take_bitsOf (y : BitVec 35) : wordOfBits ((bitsOf y 33).take 32) = y.extractLsb' 0 32 := by
  refine BitVec.eq_of_getLsbD_eq fun i hi => ?_
  rw [wordOfBits_getLsbD, List.getD_eq_getElem?_getD, List.getElem?_take_of_lt hi, ← List.getD_eq_getElem?_getD,
    bitsOf_getD, BitVec.getLsbD_extractLsb', Nat.zero_add]
  simp [hi, show i < 33 by omega]

/-- What a part of a transaction leaves of the queued answers. -/
def Leaves (rest : List (BitVec 35)) (u : State) : Prop := u.target = none ∧ u.answers = rest

/-- A call that samples nothing uses no answer. -/
theorem bdDriveLine_unanswered {segs : List Segment} (hn : sampledBits segs = 0) {s : State} {rest : List (BitVec 35)}
    (h : Leaves rest s) : ∃ u, bdDriveLine segs s = .ok [] u ∧ Leaves rest u ∧ u.cfg = s.cfg :=
  ⟨_, bdDriveLine_silent h.1 hn, ⟨h.1, h.2⟩, rfl⟩

/-- A call that samples uses one. -/
theorem bdDriveLine_answered {segs : List Segment} (hn : sampledBits segs ≠ 0) {s : State} {x : BitVec 35}
    {rest : List (BitVec 35)} (h : Leaves (x :: rest) s) :
    ∃ u, bdDriveLine segs s = .ok (bitsOf x (sampledBits segs)) u ∧ Leaves rest u ∧ u.cfg = s.cfg := by
  have hx : s.nextAnswer = x := by
    unfold State.nextAnswer
    rw [h.2]
  have hrun := bdDriveLine_free h.1 hn
  rw [hx, h.2] at hrun
  exact ⟨_, hrun, ⟨h.1, rfl⟩, rfl⟩

theorem swdIdle_unanswered {s : State} {rest : List (BitVec 35)} (h : Leaves rest s) :
    ∃ u, swdIdle s = .ok () u ∧ Leaves rest u := by
  unfold swdIdle
  rw [run_getS_bind]
  by_cases hz : s.cfg.swdIdleCycles = 0
  · rw [if_pos hz]
    exact ⟨s, rfl, h⟩
  · rw [if_neg hz]
    obtain ⟨u, hu, lu, _⟩ := bdDriveLine_unanswered (segs := [.out (List.replicate s.cfg.swdIdleCycles false)]) rfl h
    exact ⟨u, run_bind_ok hu, lu⟩

theorem swdWritePhase_unanswered (w : W32) {s : State} {rest : List (BitVec 35)} (h : Leaves rest s) :
    ∃ u, swdWritePhase w s = .ok () u ∧ Leaves rest u := by
  obtain ⟨u, hu, lu, _⟩ := bdDriveLine_unanswered (segs := [.trn 1, .out (dataBits w)]) rfl h
  exact ⟨u, run_bind_ok hu, lu⟩

/-- After a missing acknowledgement: with overrun detection the data phase of a read uses an answer (R170). -/
theorem swdSkipPhase_answers (rnw : Bool) (w : W32) {s : State} {rest : List (BitVec 35)} (h : Leaves rest s) :
    ∃ u, swdSkipPhase rnw w s = .ok () u ∧
      Leaves (if s.cfg.orunDetect && rnw then rest.drop 1 else rest) u := by
  unfold swdSkipPhase
  rw [run_getS_bind]
  cases ho : s.cfg.orunDetect
  · obtain ⟨u, hu, lu, _⟩ := bdDriveLine_unanswered (segs := [.trn 1]) rfl h
    exact ⟨u, run_bind_ok hu, lu⟩
  · cases rnw
    · exact swdWritePhase_unanswered w h
    · have hn : sampledBits [.inp 33, .trn 1] ≠ 0 := by decide
      refine ⟨_, run_bind_ok (bdDriveLine_free h.1 hn), h.1, ?_⟩
      show s.answers.tail = rest.drop 1
      rw [h.2, List.drop_one]

/-- Settles O21: the acknowledgement decides which phase follows, and the answers used are those sampled. -/
theorem xferAcknowledgements : Obligations.XferAcknowledgements := by
  intro s apndp a w x rest hw ht ha
  have request : ∀ rnw, ∃ v, bdDriveLine (requestSegs apndp rnw a) s = .ok (bitsOf x 3) v ∧ Leaves rest v ∧
      v.cfg = s.cfg := fun rnw =>
    bdDriveLine_answered (segs := requestSegs apndp rnw a) (show 3 ≠ 0 by decide) ⟨ht, ha⟩
  refine ⟨fun y rest' hr hok hack => ?_, fun hok hack => ?_, fun rnw hok hack => ?_⟩
  · obtain ⟨v, hv, lv, _⟩ := request true
    rw [hr] at lv
    obtain ⟨z, hz, lz, _⟩ := bdDriveLine_answered (segs := [.inp 33, .trn 1]) (by decide) lv
    obtain ⟨u, hu, lu⟩ := swdIdle_unanswered lz
    have hrun := (swdXfer_acked hv ((ackOf_bitsOf x).trans hack)).trans
      (swdDataPhase_read (w := w) hz hu (wordOfBits_take_bitsOf y))
    have hpar : (bitsOf y (sampledBits [.inp 33, .trn 1])).getD 32 false = y.getLsbD 32 := bitsOf_getD y 33 32
    rw [hpar] at hrun
    refine ⟨u, ?_⟩
    by_cases hp : y.getLsbD 32 = par32 (y.extractLsb' 0 32)
    · rw [if_pos hp] at hrun ⊢
      obtain ⟨hend, hf⟩ := exec_swdXfer_ok hw hok hrun
      exact ⟨hend, hf, lu.2⟩
    · rw [if_neg hp] at hrun ⊢
      obtain ⟨hend, hf⟩ := exec_swdXfer_error hw hok hrun
      exact ⟨hend, hf, lu.2⟩
  · obtain ⟨v, hv, lv, _⟩ := request false
    obtain ⟨z, hz, lz⟩ := swdWritePhase_unanswered w lv
    obtain ⟨u, hu, lu⟩ := swdIdle_unanswered lz
    obtain ⟨hend, hf⟩ := exec_swdXfer_ok hw hok
      ((swdXfer_acked hv ((ackOf_bitsOf x).trans hack)).trans (swdDataPhase_write hz hu))
    exact ⟨u, hend, hf, lu.2⟩
  · obtain ⟨v, hv, lv, gv⟩ := request rnw
    obtain ⟨z, hz, lz⟩ := swdSkipPhase_answers rnw w lv
    obtain ⟨u, hu, lu⟩ := swdIdle_unanswered lz
    rw [gv] at lu
    have hack' : ackOf (bitsOf x 3) ≠ 0b001#3 := by
      rw [ackOf_bitsOf]
      exact hack
    obtain ⟨hend, hf⟩ := exec_swdXfer_error hw hok (swdXfer_refused hv hack' hz hu)
    rw [ackOf_bitsOf] at hend
    exact ⟨u, hend, hf, lu.2⟩

end Sys2Proof.Machine

/-! The SWD transactions on T0 as commands (41_link_swd.md, 45_reference_target.md section 3). -/

namespace Sys2Proof.Machine

open Sys2Proof

/-! ## A transaction T0 acknowledges (R409) -/

/-- No more than the target's own condition is needed: no WAIT to come, and the request one it acknowledges. -/
theorem swdXfer_target {s : State} {t : T0} (ht : s.target = some t) (hw : t.wait = .count 0) {apndp rnw : Bool}
    {a : RegAddr} (ha : a.aligned = true) (hok : t.xferOk apndp rnw a = true) (w : W32) :
    ∃ u, swdXfer apndp rnw a w s = .ok (t.xferValue apndp rnw a) u ∧
      u.target = some { t.xferEffect apndp rnw a w with phase := .idle } := by
  obtain ⟨v, hv, _, _, tv⟩ := bdDriveLine_loop ht (requestSegs apndp rnw a)
  rw [swdRequest_ok hw ha hok] at hv tv
  have hacked := swdXfer_acked (w := w) hv (show ackOf [true, false, false] = 0b001#3 by decide)
  cases rnw
  · obtain ⟨x, hx, _, _, tx⟩ := bdDriveLine_loop tv [.trn 1, .out (dataBits w)]
    rw [writePhase_ok t apndp a w] at tx
    obtain ⟨y, hy, _, _, ty⟩ := swdIdle_loop tx
    exact ⟨y, hacked.trans (swdDataPhase_write (run_bind_ok hx) hy), ty⟩
  · obtain ⟨x, hx, _, _, tx⟩ := bdDriveLine_loop tv [.inp 33, .trn 1]
    rw [readPhase_ok t apndp a] at hx tx
    obtain ⟨y, hy, _, _, ty⟩ := swdIdle_loop tx
    have hdata := swdDataPhase_read (w := w) hx hy (wordOfBits_take_dataBits _)
    rw [dataBits_parity, if_pos rfl] at hdata
    have he : t.xferEffect apndp true a w = t.xferEffect apndp true a 0 := by cases apndp <;> rfl
    exact ⟨y, hacked.trans hdata, by rw [he]; exact ty⟩

/-! ## A request T0 does not acknowledge -/

/-- With no phase open, what follows a missing acknowledgement leaves T0 (R409). -/
theorem swdSkipPhase_idle {s : State} {t : T0} (ht : s.target = some t) (hp : t.phase = .idle) (rnw : Bool) (w : W32) :
    ∃ u, swdSkipPhase rnw w s = .ok () u ∧ u.jtagIr = s.jtagIr ∧ u.target = some t := by
  have hread : (t.driveLine [.inp 33, .trn 1]).2 = t := by
    show t.swdReadPhase.2 = t
    unfold T0.swdReadPhase
    rw [hp]
  have hwrite : (t.driveLine [.trn 1, .out (dataBits w)]).2 = t := by
    show t.swdWritePhase _ = t
    unfold T0.swdWritePhase
    rw [hp]
  have one : ∀ segs, (t.driveLine segs).2 = t →
      ∃ u, (bdDriveLine segs >>= fun _ => pure ()) s = .ok () u ∧ u.jtagIr = s.jtagIr ∧ u.target = some t := by
    intro segs hs
    obtain ⟨u, hu, _, ju, tu⟩ := bdDriveLine_loop ht segs
    rw [hs] at tu
    exact ⟨u, run_bind_ok hu, ju, tu⟩
  unfold swdSkipPhase
  rw [run_getS_bind]
  cases s.cfg.orunDetect
  · exact one [.trn 1] rfl
  · cases rnw
    · exact one _ hwrite
    · exact one _ hread

/-- Another acknowledgement than OK is an error at once, and T0 is as its request phase left it. -/
theorem swdXfer_unacked {s : State} {t t' : T0} (ht : s.target = some t) {apndp rnw : Bool} {a : RegAddr} {bits : List Bool}
    (hreq : t.driveLine (requestSegs apndp rnw a) = (bits, t')) (hp : t'.phase = .idle) (hack : ackOf bits ≠ 0b001#3)
    (w : W32) :
    ∃ u, swdXfer apndp rnw a w s = .error (.dpOrApAccessError ⟨.swdAck, (ackOf bits).setWidth 32⟩) u ∧
      u.jtagIr = s.jtagIr ∧ u.target = some t' := by
  obtain ⟨v, hv, _, jv, tv⟩ := bdDriveLine_loop ht (requestSegs apndp rnw a)
  rw [hreq] at hv tv
  obtain ⟨x, hx, jx, tx⟩ := swdSkipPhase_idle tv hp rnw w
  obtain ⟨u, hu, _, ju, tu⟩ := swdIdle_loop tx
  exact ⟨u, swdXfer_refused hv hack hx hu, ju.trans (jx.trans jv), tu⟩

theorem driveLine_request (t : T0) (apndp rnw : Bool) (a : RegAddr) :
    t.driveLine (requestSegs apndp rnw a) = t.swdRequest (swdReqByte apndp rnw a) :=
  congrArg t.swdRequest (byteOfBits_bitsOf _)

/-- T0 answers WAIT (R408, R409). -/
theorem request_wait {t : T0} (hw : t.waiting = true) {apndp rnw : Bool} {a : RegAddr} (ha : a.aligned = true)
    (hne : apndp = true ∨ rnw = true ∨ a ≠ 0xC) :
    t.driveLine (requestSegs apndp rnw a) = ([false, true, false], { t.waitOnce with phase := .idle }) := by
  rw [driveLine_request]
  unfold T0.swdRequest
  simp only [if_neg (swdReq_targetsel apndp rnw a hne ha), hw, if_true]

/-- A sticky flag bars an AP access: FAULT (R409). -/
theorem request_fault {t : T0} (hw : t.wait = .count 0) (hs : t.sticky ≠ 0) {rnw : Bool} {a : RegAddr}
    (ha : a.aligned = true) :
    t.driveLine (requestSegs true rnw a) = ([false, false, true], { t with phase := .idle }) := by
  obtain ⟨h1, _, _⟩ := swdReq_fields true rnw a ha
  have hq : t.waiting = false := by
    unfold T0.waiting
    rw [hw]
    rfl
  have hb : (true && t.sticky != 0) = true := bne_iff_ne.mpr hs
  rw [driveLine_request]
  unfold T0.swdRequest
  simp only [if_neg (swdReq_targetsel true rnw a (.inl rfl) ha), hq, h1, hb, if_true, Bool.false_eq_true, if_false]

theorem packetOk_aligned {apndp rnw : Bool} {a : RegAddr} (h : packetOk apndp rnw a = true) : a.aligned = true :=
  (Bool.and_eq_true _ _ ▸ h : _ ∧ _).1

/-- Settles O22: T0's answer to the request decides. -/
theorem xferOnTarget : Obligations.XferOnTarget := by
  intro s t apndp rnw a w hi ht hok
  have ha := packetOk_aligned hok
  have unacked : ∀ {bits t'}, t.driveLine (requestSegs apndp rnw a) = (bits, t') → t'.phase = .idle →
      ackOf bits ≠ 0b001#3 → ∃ u, exec (.swdXfer apndp rnw a w) s =
        .next (u.pushResult (.error (.dpOrApAccessError ⟨.swdAck, (ackOf bits).setWidth 32⟩))) ∧ FrameLink s u ∧
        u.target = some t' := by
    intro bits t' hreq hp hack
    obtain ⟨u, hu, _, tu⟩ := swdXfer_unacked ht hreq hp hack w
    obtain ⟨hend, hf⟩ := exec_swdXfer_error hi hok hu
    exact ⟨u, hend, hf, tu⟩
  refine ⟨fun hw hx => ?_, fun hw hne => ?_, fun hw hs hap => ?_, fun hap hr hc => ?_⟩
  · obtain ⟨u, hu, tu⟩ := swdXfer_target ht hw ha hx w
    obtain ⟨hend, hf⟩ := exec_swdXfer_ok hi hok hu
    exact ⟨u, hend, hf, tu⟩
  · exact unacked (request_wait hw ha hne) rfl (by decide)
  · subst hap
    exact unacked (request_fault hw hs ha) rfl (by decide)
  · subst hap hr hc
    exact unacked (driveLine_targetsel t) rfl (by decide)

/-! ## The transactions in the loop (R171 to R176) -/

/-- A transaction that changes no more than T0's phase keeps the loop. -/
theorem Loop.of_phase {s u : State} {t : T0} (h : Loop s t) (f : FrameLink s u) (hj : u.jtagIr = s.jtagIr)
    {p : T0Phase} (ht : u.target = some { t with phase := p }) : Loop u { t with phase := p } :=
  ⟨by rw [f.cfg]; exact h.iface, ht, h.noWait, fun ir hir => h.ir ir (hj.symm.trans hir)⟩

theorem linkDpRead_swd {s : State} (hw : s.cfg.iface = .swd) (a : RegAddr) : linkDpRead a s = swdDpRd a s := by
  unfold linkDpRead
  rw [run_getS_bind, hw]

/-- An unacknowledged request in the loop. -/
theorem swdXfer_unacked_loop {s : State} {t : T0} (h : Loop s t) {apndp rnw : Bool} {a : RegAddr} {bits : List Bool}
    (hreq : t.driveLine (requestSegs apndp rnw a) = (bits, { t with phase := .idle })) (hack : ackOf bits ≠ 0b001#3)
    (w : W32) :
    ∃ u t', swdXfer apndp rnw a w s = .error (.dpOrApAccessError ⟨.swdAck, (ackOf bits).setWidth 32⟩) u ∧
      FrameLink s u ∧ Loop u t' ∧ t'.settled = t.settled := by
  obtain ⟨u, hu, ju, tu⟩ := swdXfer_unacked h.target hreq rfl hack w
  have hf := keeps_swdXferAny frameLink_abortStable apndp rnw a w s
  rw [hu] at hf
  exact ⟨u, _, hu, hf, h.of_phase hf ju tu, rfl⟩

/-- Settles O23. -/
theorem swdDpTransactions : Obligations.SwdDpTransactions := by
  intro s t a h hw
  refine ⟨fun hok => ?_, fun v hok hc => ?_, fun v hc => ?_⟩
  · obtain ⟨u, t', hu, fu, lu, su⟩ := linkDpRead_loop h (packetOk_aligned hok)
    rw [linkDpRead_swd hw] at hu
    exact ⟨u, t', (complete_link hw hok).trans (complete_ok (run_bind_ok hu)), fu, lu, su⟩
  · have hx : t.xferOk false false a = true := by
      unfold T0.xferOk
      exact bne_iff_ne.mpr hc
    obtain ⟨u, hu, fu, _, _, lu⟩ := swdXfer_loop h (packetOk_aligned hok) hx v
    exact ⟨u, _, (complete_link hw hok).trans (complete_ok (run_bind_ok (run_bind_ok hu))), fu, lu, rfl⟩
  · subst hc
    obtain ⟨u, t', hu, fu, lu, su⟩ := swdXfer_unacked_loop (apndp := false) (rnw := false) (a := 0xC) h
      (driveLine_targetsel t) (by decide) v
    exact ⟨u, t', (complete_link hw (by decide)).trans (complete_error (run_bind_error (run_bind_error hu))), fu, lu, su⟩

/-- An aligned AP packet is always one the driver emits (R130). -/
theorem packetOk_ap {a : RegAddr} (ha : a.aligned = true) (rnw : Bool) : packetOk true rnw a = true := by
  unfold packetOk
  rw [ha]
  rfl

theorem linkApRead_swd {s : State} (hw : s.cfg.iface = .swd) (a : RegAddr) : linkApRead a s = swdApRd a s := by
  unfold linkApRead
  rw [run_getS_bind, hw]

theorem linkApWrite_swd {s : State} (hw : s.cfg.iface = .swd) (a : RegAddr) (v : W32) :
    linkApWrite a v s = swdApWr a v s := by
  unfold linkApWrite
  rw [run_getS_bind, hw]

/-- Settles O24. -/
theorem swdApTransactions : Obligations.SwdApTransactions := by
  intro s t a h hw ha
  refine ⟨fun hs => ?_, fun v hs => ?_, fun v hs => ?_⟩
  · obtain ⟨u, t', hu, fu, lu, su⟩ := linkApRead_loop h hs ha
    rw [linkApRead_swd hw] at hu
    exact ⟨u, t', (complete_link hw (packetOk_ap ha true)).trans (complete_ok (run_bind_ok hu)), fu, lu, su⟩
  · obtain ⟨u, t', hu, fu, lu, su⟩ := linkApWrite_loop h hs ha v
    rw [linkApWrite_swd hw] at hu
    exact ⟨u, t', (complete_link hw (packetOk_ap ha false)).trans (complete_ok (run_bind_ok hu)), fu, lu, su⟩
  · have fault : ∀ rnw w, ∃ u t', swdXfer true rnw a w s = .error (.dpOrApAccessError ⟨.swdAck, 4⟩) u ∧
        FrameLink s u ∧ Loop u t' ∧ t'.settled = t.settled := fun rnw w =>
      swdXfer_unacked_loop h (request_fault h.noWait hs ha) (by decide) w
    obtain ⟨u, t', hu, fu, lu, su⟩ := fault true 0
    obtain ⟨x, t'', hx, fx, lx, sx⟩ := fault false v
    exact ⟨⟨u, t', (complete_link hw (packetOk_ap ha true)).trans
        (complete_error (run_bind_error (run_bind_error hu))), fu, lu, su⟩,
      x, t'', (complete_link hw (packetOk_ap ha false)).trans
        (complete_error (run_bind_error (run_bind_error hx))), fx, lx, sx⟩

/-- Settles O25. -/
theorem swdSequences : Obligations.SwdSequences := by
  intro s t a h hw ha
  refine ⟨fun n hn hs => ?_, fun values hne hs => ?_⟩
  · obtain ⟨u, t', hu, fu, lu, su⟩ := swdReadXfers_loop a ha n h hs
    have hb : (a.aligned && n != 0) = true := by
      rw [ha]
      exact bne_iff_ne.mpr (by omega)
    exact ⟨u, t', (complete_link hw hb).trans (complete_ok (run_bind_ok (run_bind_ok hu))), fu, lu, su⟩
  · obtain ⟨u, t', hu, fu, lu, su⟩ := swdWriten_loop a ha values h hs
    have hb : (a.aligned && !values.isEmpty) = true := by
      rw [ha, List.isEmpty_eq_false_iff.mpr hne]
      rfl
    exact ⟨u, t', (complete_link hw hb).trans (complete_ok (run_bind_ok hu)), fu, lu, su⟩

/-! ## SWD_CONNECT (R178) -/

/-- What the line reset and the target selection of an attempt leave. -/
structure Prepared (s v : State) (t t' : T0) : Prop where
  frame : FrameSelect s v
  selectLast : v.selectLast = none
  frozenValid : v.frozenValid = s.frozenValid
  jtagIr : v.jtagIr = s.jtagIr
  target : v.target = some t'
  phase : ∃ p, t' = { t with phase := p }

/-- An attempt is its preparation and then the read of DPIDR. -/
theorem swdAttempt_prepared (ts : Option W32) {s : State} {t : T0} (ht : s.target = some t) :
    ∃ v t', swdAttempt ts s = swdXfer false true 0x0 0 v ∧ Prepared s v t t' := by
  have start : ∀ x, swdLinereset s = .ok () x → FrameQuiet s x → x.target = some t →
      ∃ v t', swdAttempt ts s = swdXfer false true 0x0 0 v ∧ Prepared s v t t' := by
    intro x hx qx tx
    have hfx : FrameSelect s (x.setSelectLast none) := qx.toLink.toSelect.trans (frameSelect_stable.lose x)
    have hrun : swdAttempt ts s = (swdSelectTarget ts >>= fun _ => swdXfer false true 0x0 0) (x.setSelectLast none) := by
      unfold swdAttempt
      rw [run_bind_ok hx, run_upd_bind]
    cases ts with
    | none => exact ⟨x.setSelectLast none, t, hrun, hfx, rfl, qx.frozenValid, qx.jtagIr, tx, t.phase, rfl⟩
    | some w =>
      obtain ⟨v, _, hv, qv, _, tv⟩ := swdTargetsel_run w (x.setSelectLast none)
      refine ⟨v, { t with phase := .idle }, hrun.trans (run_bind_ok hv), hfx.trans qv.toLink.toSelect, qv.selectLast,
        qv.frozenValid.trans qx.frozenValid, qv.jtagIr.trans qx.jtagIr, ?_, .idle, rfl⟩
      rw [tv]
      show x.target.map _ = _
      rw [tx]
      rfl
  refine start _ (swdLinereset_run s) ⟨rfl, rfl, rfl, rfl, rfl, rfl, rfl, rfl, rfl, rfl, rfl, ?_⟩ ht
  exact (List.prefix_append _ _).trans ((List.prefix_append _ _).trans (List.prefix_append _ _))

/-- A first attempt that succeeds is the result. -/
theorem swdConnectLoop_ok {ts : Option W32} {left made : Nat} {s u : State} {d : W32} (h : swdAttempt ts s = .ok d u) :
    swdConnectLoop ts left made s = .ok d u := by
  cases left <;> (unfold swdConnectLoop; rw [run_onError, h])

theorem swdConnectLoop_last {ts : Option W32} {made : Nat} {s u : State} {e : AccessError}
    (h : swdAttempt ts s = .error (.dpOrApAccessError e) u) :
    swdConnectLoop ts 0 made s = .error (.targetSelectionFailed ts (made + 1)) u := by
  unfold swdConnectLoop
  rw [run_onError, h]
  rfl

theorem swdConnectLoop_again {ts : Option W32} {left made : Nat} {s u : State} {e : AccessError}
    (h : swdAttempt ts s = .error (.dpOrApAccessError e) u) :
    swdConnectLoop ts (left + 1) made s = swdConnectLoop ts left (made + 1) u := by
  conv => lhs; unfold swdConnectLoop
  rw [run_onError, h]

theorem swdConnect_run (ts : Option W32) (s : State) :
    swdConnect ts s = swdConnectLoop ts (s.cfg.targetselAttempts - 1) 0 s := rfl

/-- Settles O28: the first attempt succeeds. -/
theorem swdConnectReadsDpidr : Obligations.SwdConnectReadsDpidr := by
  intro s t ts h hw
  obtain ⟨v, t', hv, fv, lv, zv, jv, tv, p, rfl⟩ := swdAttempt_prepared ts h.target
  have hl : Loop v { t with phase := p } :=
    ⟨by rw [fv.cfg]; exact h.iface, tv, h.noWait, fun ir hir => h.ir ir (jv.symm.trans hir)⟩
  obtain ⟨u, hu, fu, _, _, lu⟩ := swdXfer_loop hl (apndp := false) (rnw := true) (a := 0x0) (by decide) rfl 0
  have hrun : swdConnect ts s = .ok (t.dpRead 0x0) u := (swdConnect_run ts s).trans (swdConnectLoop_ok (hv.trans hu))
  exact ⟨u, _, (complete_link_total hw).trans (complete_ok (run_bind_ok hrun)), fv.trans fu.toSelect,
    fu.selectLast.trans lv, fu.frozenValid.trans zv, lu, rfl⟩

/-- Against a target that only answers WAIT every attempt fails, and T0 stays (R178, R310). -/
theorem swdConnectLoop_gives_up (ts : Option W32) (left made : Nat) {s : State} {t : T0} (ht : s.target = some t)
    (hwait : t.wait = .forever) :
    ∃ u t', swdConnectLoop ts left made s = .error (.targetSelectionFailed ts (made + left + 1)) u ∧ FrameSelect s u ∧
      u.selectLast = none ∧ u.frozenValid = s.frozenValid ∧ u.target = some t' ∧ t'.settled = t.settled := by
  obtain ⟨v, t', hv, fv, lv, zv, _, tv, p, rfl⟩ := swdAttempt_prepared ts ht
  have hw' : ({ t with phase := p } : T0).waiting = true := by
    unfold T0.waiting
    rw [show ({ t with phase := p } : T0).wait = .forever from hwait]
  have hreq := request_wait (apndp := false) (rnw := true) (a := 0x0) hw' (by decide) (.inr (.inl rfl))
  rw [waitOnce_forever (t := { t with phase := p }) hwait] at hreq
  obtain ⟨x, hx, _, tx⟩ := swdXfer_unacked tv hreq rfl (by decide) 0
  have fx := keeps_swdXferAny frameLink_abortStable false true 0x0 0 v
  rw [hx] at fx
  have hatt := hv.trans hx
  have fsx : FrameSelect s x := fv.trans fx.toSelect
  cases left with
  | zero => exact ⟨x, _, swdConnectLoop_last hatt, fsx, fx.selectLast.trans lv, fx.frozenValid.trans zv, tx, rfl⟩
  | succ left =>
    obtain ⟨u, t'', hu, fu, lu, zu, tu, su⟩ := swdConnectLoop_gives_up ts left (made + 1) tx hwait
    refine ⟨u, t'', (swdConnectLoop_again hatt).trans ?_, fsx.trans fu, lu, zu.trans (fx.frozenValid.trans zv), tu, su⟩
    rw [hu, Nat.add_right_comm made 1 left, ← Nat.add_assoc]

/-- Settles O29. -/
theorem swdConnectGivesUp : Obligations.SwdConnectGivesUp := by
  intro s t ts hw ht hwait
  obtain ⟨u, t', hu, fu, lu, zu, tu, su⟩ :=
    swdConnectLoop_gives_up ts (s.cfg.targetselAttempts - 1) 0 ht hwait
  have hn : 0 + (s.cfg.targetselAttempts - 1) + 1 = max 1 s.cfg.targetselAttempts := by omega
  rw [hn] at hu
  exact ⟨u, t', (complete_link_total hw).trans (complete_error (run_bind_error ((swdConnect_run ts s).trans hu))), fu,
    lu, zu, tu, su⟩

end Sys2Proof.Machine

/-! SELECT and the DP registers on T0 (42_dp_model.md): the calls of a DP write, the SELECT count law, and each register
access as a command. -/

namespace Sys2Proof.Machine

open Sys2Proof

/-! ## The calls of a DP write (R117, R119, R152, R172) -/

/-- A scan in the loop: the instruction's load if it changes, and one scan. -/
theorem jtagScan_trace {s : State} {t : T0} (h : Loop s t) (hj : s.cfg.iface = .jtag) (ir : IrCode) (rnw : Bool)
    (a : RegAddr) (d : W32) :
    ∃ u, jtagScan ir rnw a d s = .ok t.rdbuff u ∧ u.jtagIr = some ir ∧
      u.trace = s.trace ++ (irselCalls s ir ++ [.drScan (drReq rnw a d) (t.rdbuff ++ 0b010#3)]) := by
  obtain ⟨v, hv, _, iv, tv, _⟩ := jtagIrsel_run hj ir
  obtain ⟨v', hv', _, _, gv⟩ := jtagIrsel_loop h hj ir
  cases hv.symm.trans hv'
  have hrun := bdDrScan_target (drReq rnw a d) gv
  rw [drScan_quiet (t := t.irScan ir.code) (ir := ir) h.noWait rfl] at hrun
  have hloop := jtagScanLoop_ok (ir := ir) (rnw := rnw) (a := a) (left := 3) hrun (drAck_append _ _)
  rw [drData_append] at hloop
  refine ⟨_, (run_bind_ok hv).trans hloop, iv, ?_⟩
  show v.trace ++ _ = _
  rw [tv, List.append_assoc]
  rfl

theorem swdIdle_trace (s : State) :
    ∃ u, swdIdle s = .ok () u ∧ u.trace = s.trace ++ swdIdleCalls s.cfg.swdIdleCycles := by
  unfold swdIdle
  rw [run_getS_bind]
  cases hn : s.cfg.swdIdleCycles with
  | zero =>
    rw [if_pos rfl]
    exact ⟨s, rfl, by rw [swdIdleCalls, List.append_nil]⟩
  | succ n =>
    rw [if_neg (Nat.succ_ne_zero n)]
    exact ⟨_, run_bind_ok (bdDriveLine_inert rfl (fun _ => rfl) s), rfl⟩

/-- A write packet that T0 acknowledges: the request, the data and the idle cycles. -/
theorem swdWrite_trace {s : State} {t : T0} (h : Loop s t) {a : RegAddr} (ha : a.aligned = true)
    (hok : t.xferOk false false a = true) (w : W32) :
    ∃ u, swdXfer false false a w s = .ok 0 u ∧
      u.trace = s.trace ++ (swdDpWriteCalls a w [true, false, false] ++ swdIdleCalls s.cfg.swdIdleCycles) := by
  have hv := bdDriveLine_target (requestSegs false false a) h.target
  rw [swdRequest_ok h.noWait ha hok] at hv
  have hx := bdDriveLine_target (s := (s.setTarget (some { t with phase := phaseOf false false a })).pushEvent
    (.driveLine (requestSegs false false a) [true, false, false])) [.trn 1, .out (dataBits w)] rfl
  rw [writePhase_ok t false a w] at hx
  obtain ⟨u, hu, tu⟩ := swdIdle_trace ((((s.setTarget (some { t with phase := phaseOf false false a })).pushEvent
    (.driveLine (requestSegs false false a) [true, false, false])).setTarget
      (some { t.xferEffect false false a w with phase := .idle })).pushEvent (.driveLine [.trn 1, .out (dataBits w)] []))
  have hacked := swdXfer_acked (w := w) hv (show ackOf [true, false, false] = 0b001#3 by decide)
  refine ⟨u, hacked.trans (swdDataPhase_write (run_bind_ok hx) hu), tu.trans ?_⟩
  show ((s.trace ++ _) ++ _) ++ _ = _
  rw [List.append_assoc, List.append_assoc]
  rfl

/-- The calls of an acknowledged DP write, link by link. -/
structure DpWritten (s u : State) (a : RegAddr) (v : W32) : Prop where
  jtag : s.cfg.iface = .jtag → u.jtagIr = some .dpacc ∧ ∃ rsp, drAck rsp = 0b010#3 ∧
    u.trace = s.trace ++ (irselCalls s .dpacc ++ [.drScan (drReq false a v) rsp])
  swd : s.cfg.iface = .swd →
    u.trace = s.trace ++ (swdDpWriteCalls a v [true, false, false] ++ swdIdleCalls s.cfg.swdIdleCycles)

theorem linkDpWrite_jtag {s : State} (hj : s.cfg.iface = .jtag) (a : RegAddr) (v : W32) :
    linkDpWrite a v s = jtagDpaccWr a v s := by
  unfold linkDpWrite
  rw [run_getS_bind, hj]

theorem linkDpWrite_swd {s : State} (hw : s.cfg.iface = .swd) (a : RegAddr) (v : W32) :
    linkDpWrite a v s = swdDpWr a v s := by
  unfold linkDpWrite
  rw [run_getS_bind, hw]

theorem linkDpWrite_written {s : State} {t : T0} (h : Loop s t) {a : RegAddr} (ha : a.aligned = true) (h0 : a ≠ 0)
    (hc : a ≠ 0xC) (v : W32) :
    ∃ u t', linkDpWrite a v s = .ok () u ∧ FrameLink s u ∧ Loop u t' ∧ t'.settled = (t.dpWrite a v).settled ∧
      DpWritten s u a v := by
  obtain ⟨u, t', hu, fu, lu, su⟩ := linkDpWrite_loop h ha h0 hc v
  refine ⟨u, t', hu, fu, lu, su, fun hj => ?_, fun hw => ?_⟩
  · obtain ⟨x, hx, jx, tx⟩ := jtagScan_trace h hj .dpacc false a v
    have hrun : linkDpWrite a v s = .ok () x := (linkDpWrite_jtag hj a v).trans (run_bind_ok hx)
    cases hu.symm.trans hrun
    exact ⟨jx, _, drAck_append _ _, tx⟩
  · have hok : t.xferOk false false a = true := by
      unfold T0.xferOk
      exact bne_iff_ne.mpr hc
    obtain ⟨x, hx, tx⟩ := swdWrite_trace h ha hok v
    have hrun : linkDpWrite a v s = .ok () x := (linkDpWrite_swd hw a v).trans (run_bind_ok hx)
    cases hu.symm.trans hrun
    exact tx

/-- The last calls of a command are those of its last DP write. -/
theorem DpWritten.endsIn {s x u : State} {a : RegAddr} {v : W32} (h : DpWritten x u a v) (hg : x.cfg = s.cfg)
    (ht : s.trace <+: x.trace) : EndsInDpWrite s u a v := by
  obtain ⟨es, hes⟩ := ht
  refine ⟨fun hj => ?_, fun hw => ?_⟩
  · obtain ⟨ju, rsp, hack, hu⟩ := h.jtag (hg ▸ hj)
    refine ⟨ju, rsp, hack, ?_⟩
    rw [newCalls_of_trace (es := (es ++ irselCalls x .dpacc) ++ [.drScan (drReq false a v) rsp])
      (by rw [hu, ← hes]; simp only [List.append_assoc]), List.getLast?_concat]
  · have hu := h.swd (hg ▸ hw)
    rw [hg] at hu
    rw [newCalls_of_trace (es := es ++ (swdDpWriteCalls a v [true, false, false] ++ swdIdleCalls s.cfg.swdIdleCycles))
      (by rw [hu, ← hes, List.append_assoc])]
    exact List.suffix_append _ _

/-! ## SELECT (R190, R206) -/

theorem irselCalls_selects (s : State) (ir : IrCode) : (irselCalls s ir).countP isSelectWrite = 0 := by
  unfold irselCalls
  split <;> rfl

theorem swdIdleCalls_selects (n : Nat) : (swdIdleCalls n).countP isSelectWrite = 0 := by
  cases n with
  | zero => rfl
  | succ n =>
    have hne : (List.replicate (n + 1) false == bitsOf (0xB1#8) 8) = false := rfl
    simp only [swdIdleCalls, List.countP_singleton, isSelectWrite, hne]
    rfl

/-- A write of DP address 0x8 is one SELECT write. -/
theorem DpWritten.selects {s u : State} {t : T0} {v : W32} (h : Loop s t) (k : DpWritten s u 0x8 v) :
    Calls isSelectWrite 1 s u := by
  rcases h.iface with hi | hi
  · obtain ⟨_, rsp, _, hu⟩ := k.jtag hi
    obtain ⟨hr, ha, _⟩ := drReq_fields false 0x8 v (by decide)
    refine ⟨_, hu, ?_⟩
    rw [List.countP_append, irselCalls_selects, List.countP_singleton]
    simp only [isSelectWrite, hr, ha]
    rfl
  · refine ⟨_, k.swd hi, ?_⟩
    rw [List.countP_append, swdIdleCalls_selects]
    rfl

/-- WriteSelect in the closed loop, its calls and the freeze with it (R190). -/
theorem writeSelect_counted {s : State} {t : T0} (h : Closed s t) (v : W32) :
    ∃ u t', writeSelect v s = .ok () u ∧ FrameSelect s u ∧ Closed u t' ∧ u.selectLast = some v ∧
      t'.settled = (t.withSelect v).settled ∧ u.frozenValid = freezeAfter s.frozenValid s.selectLast v ∧
      Calls isSelectWrite (if s.selectHeld v then 0 else 1) s u := by
  obtain ⟨u, t', hu, fu, cu, su, eu⟩ := writeSelect_closed h v
  refine ⟨u, t', hu, fu, cu, su, eu, ?_⟩
  unfold writeSelect at hu
  rw [run_getS_bind] at hu
  by_cases hh : s.selectHeld v = true
  · rw [if_pos hh] at hu ⊢
    cases hu
    refine ⟨?_, Calls.none rfl⟩
    obtain ⟨hf, hl⟩ := (Bool.and_eq_true _ _ ▸ hh : s.frozenValid = true ∧ (s.selectLast == some v) = true)
    rw [hf, eq_of_beq hl]
    exact (beq_self_eq_true v).symm
  · rw [if_neg hh, run_upd_bind] at hu
    rw [if_neg hh]
    have l : Loop (s.setSelectLast none) t := ⟨h.iface, h.target, h.noWait, h.ir⟩
    obtain ⟨x, _, hx, fx, _, _, wx⟩ := linkDpWrite_written l (a := 0x8) (by decide) (by decide) (by decide) v
    rw [run_bind_ok hx, run_upd] at hu
    cases hu
    exact ⟨congrArg (freezeAfter · s.selectLast v) fx.frozenValid,
      (show Calls isSelectWrite 1 (s.setSelectLast none) x from wx.selects l)⟩

/-- SELECT_AP once its operand is accepted. -/
theorem exec_selectAp {s : State} (ap : ApIndex) {addr : W32} (hd : detected s.dpVersion = true)
    (ha : addr.toNat ≤ 0xFFF) : exec (.selectAp ap addr) s =
      complete (writeSelect (selVal ap (apOffset addr)) >>= fun _ => pure Value.unit) s :=
  (complete_passed (requireDetected_ok hd)).trans (complete_passed (requireArg_ok (decide_eq_true ha) s))

/-- Settles O32. -/
theorem selectApSelects : Obligations.SelectApSelects := by
  intro s ap addr hd
  refine ⟨fun t h ha => ?_, fun ha hh => ?_, fun ha => ?_⟩
  · obtain ⟨u, t', hu, fu, cu, su, eu, zu, ku⟩ := writeSelect_counted h (selVal ap (apOffset addr))
    exact ⟨u, t', (exec_selectAp ap hd ha).trans (complete_ok (run_bind_ok hu)), fu, cu, su, zu, eu, ku.count⟩
  · have hrun : writeSelect (selVal ap (apOffset addr)) s = .ok () s := by
      unfold writeSelect
      rw [run_getS_bind, if_pos hh]
      rfl
    exact (exec_selectAp ap hd ha).trans (complete_ok (run_bind_ok hrun))
  · exact (complete_passed (requireDetected_ok hd)).trans
      (complete_refused (requireArg_error (decide_eq_false (Nat.not_le.mpr ha)) s))

/-- The SELECT writes of `n` SELECT_AP of a value, from the freeze and the selection before them (R206). -/
def selectCount (s : State) (v : W32) (n : Nat) : Nat :=
  if s.frozenValid = false then n
  else match s.selectLast with
    | none => min 1 n
    | some w => if w = v then 0 else n

/-- One SELECT_AP more, from the state the first one leaves. -/
theorem selectCount_step {s u : State} {v : W32} (hz : u.frozenValid = freezeAfter s.frozenValid s.selectLast v)
    (hl : u.selectLast = some v) (n : Nat) :
    selectCount s v (n + 1) = (if s.selectHeld v then 0 else 1) + selectCount u v n := by
  unfold selectCount State.selectHeld
  rw [hz, hl]
  unfold freezeAfter
  cases s.frozenValid
  · simp [Nat.add_comm]
  · cases s.selectLast with
    | none => simp
    | some w =>
      by_cases hw : w = v
      · simp [hw]
      · simp [hw, Nat.add_comm]

theorem Closed.pushResult {s : State} {t : T0} (h : Closed s t) (r : Result) : Closed (s.pushResult r) t :=
  ⟨⟨h.iface, h.target, h.noWait, h.ir⟩, h.select⟩

/-- `n` times SELECT_AP, by induction on `n`. -/
theorem runAll_selectAp (ap : ApIndex) {addr : W32} (ha : addr.toNat ≤ 0xFFF) (n : Nat) {s : State} {t : T0}
    (h : Closed s t) (hd : detected s.dpVersion = true) :
    ∃ u, runAll s (List.replicate n (.selectAp ap addr)) = some u ∧
      u.results = s.results ++ List.replicate n (.ok .unit) ∧
      Calls isSelectWrite (selectCount s (selVal ap (apOffset addr)) n) s u := by
  induction n generalizing s t with
  | zero =>
    refine ⟨s, rfl, (List.append_nil _).symm, ?_⟩
    have h0 : selectCount s (selVal ap (apOffset addr)) 0 = 0 := by
      unfold selectCount
      split
      · rfl
      · split
        · rfl
        · split <;> rfl
    rw [h0]
    exact Calls.none rfl
  | succ n ih =>
    obtain ⟨u, t', hu, fu, cu, su, _, zu, ku⟩ := writeSelect_counted h (selVal ap (apOffset addr))
    obtain ⟨w, hw, rw', kw⟩ := ih (cu.pushResult (.ok .unit))
      (show detected u.dpVersion = true by rw [fu.dpVersion]; exact hd)
    refine ⟨w, ?_, ?_, ?_⟩
    · rw [List.replicate_succ]
      unfold runAll
      have hexec := (exec_selectAp ap hd ha).trans
        (complete_ok (run_bind_ok (f := fun _ => pure Value.unit) hu))
      rw [hexec]
      exact hw
    · rw [rw', List.replicate_succ]
      show (u.results ++ _) ++ _ = _
      rw [fu.results, List.append_assoc]
      rfl
    · rw [selectCount_step zu su]
      exact ku.trans kw

/-- Settles O33. -/
theorem selectCountLaw : Obligations.SelectCountLaw := by
  intro s t ap addr n h hd ha hn
  obtain ⟨u, hu, ru, ku⟩ := runAll_selectAp ap ha n h hd
  refine ⟨u, hu, ru, ku.count.trans ?_⟩
  unfold selectCount
  by_cases hf : s.frozenValid = false
  · rw [if_pos hf, if_pos hf]
  · rw [if_neg hf, if_neg hf]
    cases s.selectLast with
    | none => exact Nat.min_eq_left hn
    | some w => rfl

/-! ## DETECT_VERSION (R191, R192) -/

theorem Closed.setDpVersion {s : State} {t : T0} (h : Closed s t) (v : DpVersion) : Closed (s.setDpVersion v) t :=
  ⟨⟨h.iface, h.target, h.noWait, h.ir⟩, h.select⟩

/-- DETECT_VERSION of a DP whose DPIDR is read, as it classifies it. -/
theorem detectVersion_run {s u : State} {id : W32} (hd : detected s.dpVersion = false)
    (hr : linkDpRead 0x0 s = .ok id u) : detectVersion s = match classifyDpidr id with
      | .ok v => .ok (versionNumber v) (u.setDpVersion v)
      | .error e => .error e u := by
  unfold detectVersion
  rw [run_getS_bind, if_neg (by rw [hd]; exact Bool.false_ne_true), run_bind_ok hr]
  cases classifyDpidr id <;> rfl

/-- Settles O30: one read, then the classification of DPIDR. -/
theorem detectVersionOnTarget : Obligations.DetectVersionOnTarget := by
  intro s t h hd hid
  obtain ⟨u, t', hu, fu, lu, su⟩ := linkDpRead_loop h.toLoop (a := 0x0) (by decide)
  rw [hid] at hu
  have cu := h.of_link fu lu (settled_select su)
  have hrun := detectVersion_run hd hu
  have hver : dpidrVersion t.dpidr = if t.ver = 0 then 1 else t.ver := rfl
  refine ⟨fun ha => ?_, fun ha hv => ?_, fun ha hv => ?_⟩
  · have hc : classifyDpidr t.dpidr = .ok .absent := if_pos ha
    rw [hc] at hrun
    exact ⟨_, t', complete_ok (run_bind_ok hrun), fu.setDpVersion .absent, cu.setDpVersion .absent, su⟩
  · have hle : ¬ Config.dpVersionMax < dpidrVersion t.dpidr := by
      rw [hver]
      show ¬ 3 < _
      split <;> omega
    have hc : classifyDpidr t.dpidr = .ok (versionOf (dpidrVersion t.dpidr)) := (if_neg ha).trans (if_neg hle)
    rw [hc, hver] at hrun
    have hv4 : t.ver = 0 ∨ t.ver = 1 ∨ t.ver = 2 ∨ t.ver = 3 := by omega
    have hnum : versionOf (if t.ver = 0 then 1 else t.ver) =
          (if t.ver = 2 then DpVersion.v2 else if t.ver = 3 then .v3 else .v1) ∧
        versionNumber (versionOf (if t.ver = 0 then 1 else t.ver)) = if t.ver = 0 then 1 else w32 t.ver := by
      rcases hv4 with h | h | h | h <;> rw [h] <;> exact ⟨rfl, rfl⟩
    obtain ⟨hversion, hnumber⟩ := hnum
    have hend := complete_ok (run_bind_ok (f := fun v => pure (Value.word v)) hrun)
    rw [hnumber, hversion] at hend
    exact ⟨_, t', hend, fu.setDpVersion _, cu.setDpVersion _, su⟩
  · have h0 : ¬ t.ver = 0 := by omega
    have hc : classifyDpidr t.dpidr = .error (.versionUnsupported t.dpidr (w32 t.ver)) := by
      unfold classifyDpidr
      rw [if_neg (show ¬ t.dpidr = dpidrAbsent from ha), hver, if_neg h0, if_pos (show Config.dpVersionMax < t.ver from hv)]
    rw [hc] at hrun
    exact ⟨u, t', complete_error (run_bind_error hrun), fu, cu, su⟩

/-! ## DP_READ and DP_WRITE (R197, R198) -/

section
variable {s : State} {r : DpReg} {k : Unit → Dap Value}

theorem complete_dpReg {b : Bool} (hr : s.accepts r = true) (hb : b = true) :
    complete (requireDpReg r >>= fun _ => requireArg b >>= k) s = complete (k ()) s :=
  (complete_passed (by rw [requireDpReg_run, if_pos hr])).trans (complete_passed (requireArg_ok hb s))

/-- A register of version 1 is accepted in every version and in none (R33, R205). -/
theorem accepts_of_v1 (s : State) (hr : dpValidInV1 r = true) : s.accepts r = true := by
  unfold State.accepts
  cases s.dpVersion with
  | undetected => exact (congrArg (· || r == .targetsel) hr).trans (Bool.true_or _)
  | absent => exact (congrArg (· || r == .targetsel) hr).trans (Bool.true_or _)
  | v1 => exact hr
  | v2 =>
    show (dpValidInV1 r || _ || _ || _ || _) = true
    rw [hr]
    rfl
  | v3 => rfl

end

/-- Settles O36. -/
theorem dpReadOnTarget : Obligations.DpReadOnTarget := by
  intro s t r h hr hread
  obtain ⟨u, t', hu, fu, cu, su, eu⟩ := dpRead_closed h hread
  refine ⟨u, t', (complete_dpReg hr hread).trans (complete_ok (run_bind_ok hu)), fu, cu, ?_, eu⟩
  by_cases hb : r = .rdbuff
  · rw [if_pos hb]
    have hf := keeps_linkDpRead frameLink_stable 0xC s
    have hrun : linkDpRead 0xC s = .ok (t.register r) u := by
      rw [← hu]
      unfold dpRead
      rw [if_pos hb]
    rw [hrun] at hf
    exact hf.selectLast
  · rw [if_neg hb]
    exact su hb

/-- A DP write of address 0x4 under a bank (R193, R198). -/
theorem dpWriteBanked_closed {s : State} {t : T0} (h : Closed s t) {r : DpReg} {bank : BitVec 4}
    (hb : dpBank r = some bank) (ha : dpAddr r = 0x4) (v : W32) :
    ∃ u t', dpWriteBanked r v s = .ok () u ∧ FrameSelect s u ∧ Closed u t' ∧
      u.selectLast = some (selDp s.selectLast bank) ∧ EndsInDpWrite s u 0x4 v ∧
      t'.settled = ((t.withSelect (selDp s.selectLast bank)).dpWrite 0x4 v).settled := by
  obtain ⟨x, tx, hx, fx, cx, sx, ex⟩ := writeSelect_closed h (selDp s.selectLast bank)
  obtain ⟨u, t', hu, fu, lu, eu, wu⟩ := linkDpWrite_written cx.toLoop (a := 0x4) (by decide) (by decide) (by decide) v
  have hdp : (tx.dpWrite 0x4 v).settled = ((t.withSelect (selDp s.selectLast bank)).dpWrite 0x4 v).settled := by
    rw [← dpWrite_settled, ex, dpWrite_settled]
  have hsel : t'.select = tx.select := by
    refine (settled_select eu).trans ?_
    unfold T0.dpWrite
    rw [if_neg (by decide), if_pos rfl]
    split <;> rfl
  have hbank : dpSelectBank ((dpBank r).getD 0) s = .ok () x := by
    unfold dpSelectBank
    rw [run_getS_bind, hb]
    exact hx
  have hrun : dpWriteBanked r v s = .ok () u := by
    unfold dpWriteBanked
    rw [run_bind_ok hbank, ha, hu]
  exact ⟨u, t', hrun, fx.trans fu.toSelect, cx.of_link fu lu hsel, fu.selectLast.trans sx,
    wu.endsIn fx.cfg fx.trace, eu.trans hdp⟩

/-- What a write of DP address 0x4 does under a bank (R404). -/
theorem dpWrite_bank (t : T0) (last : Option W32) (bank : BitVec 4) (v : W32) :
    (t.withSelect (selDp last bank)).dpWrite 0x4 v =
      if bank = 0 then { t.withSelect (selDp last bank) with ctrl := v &&& 0x54FFFF0D }
      else t.withSelect (selDp last bank) := by
  have hsel : (t.withSelect (selDp last bank)).select.extractLsb' 0 4 = bank := selDp_bank last bank
  unfold T0.dpWrite
  rw [if_neg (by decide), if_pos rfl, hsel]

/-- TARGETSEL is a DP_WRITE on SWD alone (R198). -/
theorem dpWriteTargetsel_run (v : W32) (s : State) : dpWrite .targetsel v s =
    if s.cfg.iface = .swd then swdTargetsel v s else .error .badArgument s := by
  show dpWriteTargetsel v s = _
  unfold dpWriteTargetsel
  rw [run_getS_bind]
  cases s.cfg.iface <;> rfl

/-- Settles O37: each register by its own write. -/
theorem dpWriteOnTarget : Obligations.DpWriteOnTarget := by
  intro s t v h
  refine ⟨?_, ?_, ?_, fun hv => ?_, fun hr hw => ?_, fun hr hj => ?_⟩
  · obtain ⟨u, t', hu, fu, lu, eu⟩ := linkAbort_loop h.toLoop v
    exact ⟨u, t', (complete_dpReg (accepts_of_v1 s rfl) rfl).trans (complete_ok (run_bind_ok hu)), fu,
      h.of_link fu lu ((settled_select eu).trans rfl), eu⟩
  · obtain ⟨u, t', hu, fu, cu, su, eu, zu, _⟩ := writeSelect_counted h v
    exact ⟨u, t', (complete_dpReg (accepts_of_v1 s rfl) rfl).trans (complete_ok (run_bind_ok hu)), fu, cu, su, zu, eu⟩
  · obtain ⟨u, t', hu, fu, cu, su, wu, eu⟩ := dpWriteBanked_closed h (r := .ctrlStat) rfl rfl v
    rw [dpWrite_bank, if_pos rfl] at eu
    exact ⟨u, t', (complete_dpReg (accepts_of_v1 s rfl) rfl).trans (complete_ok (run_bind_ok hu)), fu, cu, su, wu, eu⟩
  · obtain ⟨u, t', hu, fu, cu, su, wu, eu⟩ := dpWriteBanked_closed h (r := .select1) rfl rfl v
    have hacc : s.accepts .select1 = true := by
      unfold State.accepts
      rw [hv]
      rfl
    rw [dpWrite_bank, if_neg (by decide)] at eu
    exact ⟨u, t', (complete_dpReg hacc rfl).trans (complete_ok (run_bind_ok hu)), fu, cu, su, wu, eu⟩
  · obtain ⟨u, bits, hu, qu, tu, gu⟩ := swdTargetsel_run v s
    have hrun : dpWrite .targetsel v s = .ok () u := by rw [dpWriteTargetsel_run, if_pos hw, hu]
    rw [h.target] at gu
    have lu : Loop u { t with phase := .idle } := h.toLoop.of_phase qu.toLink qu.jtagIr gu
    exact ⟨u, _, bits, (complete_dpReg hr rfl).trans (complete_ok (run_bind_ok hrun)), qu.toLink,
      h.of_link qu.toLink lu rfl, newCalls_of_trace tu, rfl⟩
  · have hrun : dpWrite .targetsel v s = .error .badArgument s := by
      rw [dpWriteTargetsel_run, if_neg (by rw [hj]; decide)]
    exact (complete_dpReg hr rfl).trans (complete_error (run_bind_error hrun))

end Sys2Proof.Machine

/-! CHECK_STICKY and REASSERT_POWER on T0: what the re-reads and the polls of CTRL_STAT find (R199, R201). -/

namespace Sys2Proof.Machine

open Sys2Proof

/-! ## CTRL_STAT -/

/-- A set sticky flag shows in CTRL_STAT (R33, R403). -/
theorem ctrlStat_sticky {t : T0} (h : T0Inv t) (hs : t.sticky ≠ 0) : noSticky t.ctrlStat = false := by
  refine Bool.eq_false_iff.mpr fun hn => hs ?_
  have hmask : t.ctrlStat &&& stickyMask = 0 := eq_of_beq hn
  apply BitVec.eq_of_getLsbD_eq
  intro i hi
  have hin := congrArg (BitVec.getLsbD · i) h.sticky
  have hout := congrArg (BitVec.getLsbD · i) hmask
  have hz : BitVec.getLsbD (0 : W32) i = false := BitVec.getLsbD_zero
  unfold T0.ctrlStat at hout
  simp only [BitVec.getLsbD_and, BitVec.getLsbD_or, BitVec.getLsbD_not, hz, hi, decide_true,
    Bool.true_and] at hin hout ⊢
  cases hb : t.sticky.getLsbD i with
  | false => rfl
  | true =>
    rw [hb] at hin hout
    cases hm : BitVec.getLsbD stickyMask i with
    | false => rw [hm] at hin; exact absurd hin (by decide)
    | true => rw [hm, Bool.or_true] at hout; exact absurd hout (by decide)

theorem dpRead_ctrlStat {t : T0} (hb : t.select.extractLsb' 0 4 = 0) : t.dpRead 0x4 = t.ctrlStat := by
  unfold T0.dpRead
  simp only [hb]
  rfl

theorem ctrlStat_congr {t u : T0} (h : u.settled = t.settled) : u.ctrlStat = t.ctrlStat :=
  (rfl : u.ctrlStat = u.settled.ctrlStat).trans ((congrArg T0.ctrlStat h).trans rfl)

/-- A read of DP address 0x4 under DP bank 0 (R197). -/
theorem linkDpRead_ctrlStat {s : State} {t : T0} (h : Closed s t) (hb : t.select.extractLsb' 0 4 = 0) :
    ∃ u t', linkDpRead 0x4 s = .ok t.ctrlStat u ∧ FrameLink s u ∧ Closed u t' ∧ t'.settled = t.settled := by
  obtain ⟨u, t', hu, fu, lu, eu⟩ := linkDpRead_loop h.toLoop (a := 0x4) (by decide)
  rw [dpRead_ctrlStat hb] at hu
  exact ⟨u, t', hu, fu, h.of_link fu lu (settled_select eu), eu⟩

/-- DP bank 0 selected, and CTRL_STAT read (R199, R201). -/
theorem ctrlStat_closed {s : State} {t : T0} (h : Closed s t) :
    ∃ x tx u t', dpSelectBank 0 s = .ok () x ∧ linkDpRead 0x4 x = .ok t.ctrlStat u ∧ FrameSelect s u ∧ Closed u t' ∧
      u.selectLast = some (selDp s.selectLast 0) ∧ t'.select.extractLsb' 0 4 = 0 ∧
      Closed x tx ∧ FrameSelect s x ∧ FrameLink x u ∧ t'.settled = (t.withSelect (selDp s.selectLast 0)).settled := by
  obtain ⟨x, tx, hx, fx, cx, sx, ex⟩ := writeSelect_closed h (selDp s.selectLast 0)
  have hbank : tx.select.extractLsb' 0 4 = 0 := by
    rw [settled_select ex]
    exact selDp_bank _ _
  obtain ⟨u, t', hu, fu, cu, eu⟩ := linkDpRead_ctrlStat cx hbank
  rw [ctrlStat_congr ex] at hu
  refine ⟨x, tx, u, t', ?_, hu, fx.trans fu.toSelect, cu, fu.selectLast.trans sx, ?_, cx, fx, fu, eu.trans ex⟩
  · unfold dpSelectBank
    rw [run_getS_bind, hx]
  · rw [settled_select eu]
    exact hbank

/-! ## CHECK_STICKY (R199) -/

/-- The re-reads find the flags again, and the last one raises. -/
theorem rereadSticky_raises (n : Nat) {s : State} {t : T0} (h : Closed s t) (hb : t.select.extractLsb' 0 4 = 0)
    (hn : noSticky t.ctrlStat = false) :
    ∃ u t', rereadSticky n t.ctrlStat s = .error (.stickyProtocolError t.ctrlStat) u ∧ FrameLink s u ∧ Closed u t' ∧
      t'.settled = t.settled := by
  induction n generalizing s t with
  | zero => exact ⟨s, t, rfl, FrameLink.refl s, h, rfl⟩
  | succ n ih =>
    obtain ⟨x, tx, hx, fx, cx, ex⟩ := linkDpRead_ctrlStat h hb
    have hc := ctrlStat_congr ex
    obtain ⟨u, t', hu, fu, cu, eu⟩ := ih cx (by rw [settled_select ex]; exact hb) (by rw [hc]; exact hn)
    rw [hc] at hu
    refine ⟨u, t', ?_, fx.trans fu, cu, eu.trans ex⟩
    unfold rereadSticky
    rw [run_bind_ok hx, if_neg (by rw [hn]; exact Bool.false_ne_true), hu]

/-- CHECK_STICKY in the closed loop with a flag set: CTRL_STAT reads the same each time, and the check raises it. -/
theorem checkSticky_raises {s : State} {t : T0} (h : Closed s t) (hi : T0Inv t) (hs : t.sticky ≠ 0) :
    ∃ u t', checkSticky s = .error (.stickyProtocolError t.ctrlStat) u ∧ FrameSelect s u ∧ Closed u t' ∧
      u.selectLast = some (selDp s.selectLast 0) ∧ t'.settled = (t.withSelect (selDp s.selectLast 0)).settled := by
  obtain ⟨x, tx, v, tv, hx, hv, fv, cv, sv, bv, _, _, _, ev⟩ := ctrlStat_closed h
  have hn : noSticky t.ctrlStat = false := ctrlStat_sticky hi hs
  have hc : tv.ctrlStat = t.ctrlStat := (ctrlStat_congr ev).trans rfl
  obtain ⟨u, t', hu, fu, cu, eu⟩ := rereadSticky_raises Config.stickyRereadMax cv bv (by rw [hc]; exact hn)
  rw [hc] at hu
  refine ⟨u, t', ?_, fv.trans fu.toSelect, cu, fu.selectLast.trans sv, eu.trans ev⟩
  unfold checkSticky
  rw [run_bind_ok hx, run_bind_ok hv, if_neg (by rw [hn]; exact Bool.false_ne_true), hu]

/-- CHECK_STICKY in the closed loop with no flag set, and the value SELECT is left at. -/
theorem checkSticky_passes {s : State} {t : T0} (h : Closed s t) (hi : T0Inv t) (hs : t.sticky = 0) :
    ∃ u t', checkSticky s = .ok () u ∧ FrameSelect s u ∧ Closed u t' ∧
      u.selectLast = some (selDp s.selectLast 0) ∧ t'.settled = (t.withSelect (selDp s.selectLast 0)).settled := by
  obtain ⟨x, tx, u, t', hx, hu, fu, cu, su, _, _, _, _, eu⟩ := ctrlStat_closed h
  refine ⟨u, t', ?_, fu, cu, su, eu⟩
  unfold checkSticky
  rw [run_bind_ok hx, run_bind_ok hu, if_pos (ctrlStat_noSticky hi hs)]
  rfl

/-- Settles O38. -/
theorem checkStickyOnTarget : Obligations.CheckStickyOnTarget := by
  intro s t h hi
  by_cases hs : t.sticky = 0
  · obtain ⟨u, t', hu, ku⟩ := checkSticky_passes h hi hs
    rw [if_pos hs]
    exact ⟨u, t', complete_ok (run_bind_ok hu), ku⟩
  · obtain ⟨u, t', hu, ku⟩ := checkSticky_raises h hi hs
    rw [if_neg hs]
    exact ⟨u, t', complete_error (run_bind_error hu), ku⟩

/-! ## REASSERT_POWER (R201) -/

/-- The control bits REASSERT_POWER writes: both requests, and every other bit as read. -/
def powerCtrl (w : W32) : W32 := (w ||| 0x50000000) &&& 0x54FFFF0D

/-- The acknowledgements follow the requests where the target has power (R361). -/
theorem powered_of_requested {t : T0} (w : W32) (hc : t.ctrl = powerCtrl w) (hd : t.powerDead = false) :
    powered t.ctrlStat = true := by
  unfold powered
  rw [beq_iff_eq]
  apply BitVec.eq_of_getLsbD_eq
  intro i hi
  rw [BitVec.getLsbD_and]
  cases hm : BitVec.getLsbD pwrAckMask i with
  | false => exact Bool.and_false _
  | true =>
    have hi' : i = 29 ∨ i = 31 := by
      have all : ∀ j : Fin 32, BitVec.getLsbD pwrAckMask j.val = true → j.val = 29 ∨ j.val = 31 := by decide
      exact all ⟨i, hi⟩ hm
    have hack : ((t.ctrl &&& (0x54000000 : W32)) <<< 1).getLsbD i = true := by
      rw [hc]
      unfold powerCtrl
      rw [BitVec.getLsbD_shiftLeft, BitVec.getLsbD_and, BitVec.getLsbD_and, BitVec.getLsbD_or]
      rcases hi' with h | h <;> subst h
      · rw [show BitVec.getLsbD (0x50000000 : W32) 28 = true by decide]
        simp
      · rw [show BitVec.getLsbD (0x50000000 : W32) 30 = true by decide]
        simp
    unfold T0.ctrlStat
    rw [hd, if_neg Bool.false_ne_true, BitVec.getLsbD_or, BitVec.getLsbD_or, hack]
    simp

/-- A target without power acknowledges nothing (R361). -/
theorem not_powered_of_dead {t : T0} (hi : T0Inv t) (hd : t.powerDead = true) : powered t.ctrlStat = false := by
  refine Bool.eq_false_iff.mpr fun hp => ?_
  have hmask : t.ctrlStat &&& pwrAckMask = pwrAckMask := eq_of_beq hp
  have hbit := congrArg (BitVec.getLsbD · 31) hmask
  have hctrl := congrArg (BitVec.getLsbD · 31) hi.ctrl
  have hsticky := congrArg (BitVec.getLsbD · 31) hi.sticky
  unfold T0.ctrlStat at hbit
  rw [hd, if_pos rfl] at hbit
  simp only [BitVec.getLsbD_and, BitVec.getLsbD_or, show BitVec.getLsbD pwrAckMask 31 = true by decide,
    show BitVec.getLsbD (~~~0x54FFFF0D#32) 31 = true by decide,
    show BitVec.getLsbD (~~~stickyMask) 31 = true by decide, show BitVec.getLsbD (0 : W32) 31 = false by decide,
    Bool.and_true, Bool.or_false] at hbit hctrl hsticky
  rw [hctrl, hsticky] at hbit
  exact absurd hbit (by decide)

/-- The polls of a target without power: the last one raises PowerUpFailed (R201). -/
theorem pollPower_fails (n : Nat) {s : State} {t : T0} (h : Closed s t) (hb : t.select.extractLsb' 0 4 = 0)
    (hp : powered t.ctrlStat = false) :
    ∃ u t', pollPower n s = .error (.powerUpFailed t.ctrlStat) u ∧ FrameLink s u ∧ Closed u t' ∧
      t'.settled = t.settled := by
  induction n generalizing s t with
  | zero =>
    obtain ⟨u, t', hu, fu, cu, eu⟩ := linkDpRead_ctrlStat h hb
    refine ⟨u, t', ?_, fu, cu, eu⟩
    unfold pollPower
    rw [run_bind_ok hu, if_neg (by rw [hp]; exact Bool.false_ne_true)]
    rfl
  | succ n ih =>
    obtain ⟨x, tx, hx, fx, cx, ex⟩ := linkDpRead_ctrlStat h hb
    have hc := ctrlStat_congr ex
    obtain ⟨u, t', hu, fu, cu, eu⟩ := ih cx (by rw [settled_select ex]; exact hb) (by rw [hc]; exact hp)
    rw [hc] at hu
    refine ⟨u, t', ?_, fx.trans fu, cu, eu.trans ex⟩
    unfold pollPower
    rw [run_bind_ok hx, if_neg (by rw [hp]; exact Bool.false_ne_true), hu]

/-- The polls of a target that has power: the first one succeeds (R201). -/
theorem pollPower_passes (n : Nat) {s : State} {t : T0} (h : Closed s t) (hb : t.select.extractLsb' 0 4 = 0)
    (hp : powered t.ctrlStat = true) :
    ∃ u t', pollPower n s = .ok () u ∧ FrameLink s u ∧ Closed u t' ∧ t'.settled = t.settled := by
  obtain ⟨u, t', hu, fu, cu, eu⟩ := linkDpRead_ctrlStat h hb
  refine ⟨u, t', ?_, fu, cu, eu⟩
  cases n <;> (unfold pollPower; rw [run_bind_ok hu, if_pos hp]; rfl)

/-- REASSERT_POWER up to the polls, of a target that is not powered (R201). -/
theorem requestPower_closed {s : State} {t : T0} (h : Closed s t) (hp : powered t.ctrlStat = false) :
    ∃ u t', reassertPower s = (pollPower (Config.powerPollLimit - 1) >>= fun _ => pure false) u ∧ FrameSelect s u ∧
      Closed u t' ∧ t'.select.extractLsb' 0 4 = 0 ∧
      t'.settled = ({ t.withSelect (selDp s.selectLast 0) with ctrl := powerCtrl t.ctrlStat } : T0).settled := by
  obtain ⟨x, tx, v, tv, hx, hv, fv, cv, _, bv, _, _, _, ev⟩ := ctrlStat_closed h
  obtain ⟨u, t', hu, fu, lu, eu⟩ := linkDpWrite_loop cv.toLoop (a := 0x4) (by decide) (by decide) (by decide)
    (t.ctrlStat ||| pwrReqMask)
  have hwrite : tv.dpWrite 0x4 (t.ctrlStat ||| pwrReqMask) = { tv with ctrl := powerCtrl t.ctrlStat } := by
    unfold T0.dpWrite
    rw [if_neg (by decide), if_pos rfl, bv]
    rfl
  rw [hwrite] at eu
  refine ⟨u, t', ?_, fv.trans fu.toSelect, cv.of_link fu lu ((settled_select eu).trans rfl), ?_, ?_⟩
  · unfold reassertPower
    rw [run_bind_ok hx, run_bind_ok hv, if_neg (by rw [hp]; exact Bool.false_ne_true), run_bind_ok hu]
  · rw [settled_select eu]
    exact bv
  · rw [eu]
    exact congrArg (fun w : T0 => { w with ctrl := powerCtrl t.ctrlStat }) ev

/-- Settles O40. -/
theorem reassertPowerOnTarget : Obligations.ReassertPowerOnTarget := by
  intro s t h hi
  refine ⟨fun hp => ?_, fun hp hd => ?_, fun hd => ?_⟩
  · obtain ⟨x, tx, u, t', hx, hu, fu, cu, _, _, _, _, _, eu⟩ := ctrlStat_closed h
    have hrun : reassertPower s = .ok true u := by
      unfold reassertPower
      rw [run_bind_ok hx, run_bind_ok hu, if_pos hp]
      rfl
    exact ⟨u, t', complete_ok (run_bind_ok hrun), fu, cu, eu⟩
  · obtain ⟨x, tx, hx, fx, cx, bx, ex⟩ := requestPower_closed h hp
    have hpow : powered tx.ctrlStat = true := by
      rw [ctrlStat_congr ex]
      exact powered_of_requested t.ctrlStat rfl hd
    obtain ⟨u, t', hu, fu, cu, eu⟩ := pollPower_passes (Config.powerPollLimit - 1) cx bx hpow
    refine ⟨u, t', complete_ok (run_bind_ok (hx.trans (run_bind_ok hu))), fx.trans fu.toSelect, cu, eu.trans ex, ?_⟩
    rw [ctrlStat_congr eu]
    exact hpow
  · obtain ⟨x, tx, hx, fx, cx, bx, ex⟩ := requestPower_closed h (not_powered_of_dead hi hd)
    have hdead : powered tx.ctrlStat = false := by
      rw [ctrlStat_congr ex]
      refine not_powered_of_dead (t := { t.withSelect (selDp s.selectLast 0) with ctrl := powerCtrl t.ctrlStat })
        ⟨hi.mem, ?_, hi.sticky, hi.inject, hi.deviceEn⟩ hd
      unfold powerCtrl
      rw [BitVec.and_assoc]
      exact (congrArg (_ &&& ·) (show (0x54FFFF0D : W32) &&& ~~~0x54FFFF0D#32 = 0 by decide)).trans (BitVec.and_zero)
    obtain ⟨u, t', hu, fu, cu, eu⟩ := pollPower_fails (Config.powerPollLimit - 1) cx bx hdead
    rw [← ctrlStat_congr eu] at hu
    exact ⟨u, t', complete_error (run_bind_error (hx.trans (run_bind_error hu))), fx.trans fu.toSelect, cu,
      eu.trans ex⟩

end Sys2Proof.Machine

/-! The AP registers of T0 as the host finds them: AP_READ and AP_WRITE, SCAN_APS, GET_CONNECTION and
GET_CHIP_VERSION (R202, R203, R230, R275, R276). -/

namespace Sys2Proof.Machine

open Sys2Proof

/-! ## Reads of an AP register -/

/-- Only SELECT and the wire registers of T0 differ. -/
def SameTarget (t t' : T0) : Prop := ∃ v, t'.settled = (t.withSelect v).settled

section
variable {t t' t'' : T0}

theorem SameTarget.refl (t : T0) : SameTarget t t := ⟨t.select, rfl⟩

theorem SameTarget.trans (h : SameTarget t t') (k : SameTarget t' t'') : SameTarget t t'' := by
  obtain ⟨v, hv⟩ := h
  obtain ⟨w, hw⟩ := k
  exact ⟨w, hw.trans (congrArg (T0.withSelect · w) hv)⟩

theorem SameTarget.aps (h : SameTarget t t') : t'.aps = t.aps := h.elim fun _ hv => (congrArg T0.aps hv :)

theorem SameTarget.mem (h : SameTarget t t') : t'.mem = t.mem := h.elim fun _ hv => (congrArg T0.mem hv :)

theorem SameTarget.sticky (h : SameTarget t t') : t'.sticky = t.sticky := h.elim fun _ hv => (congrArg T0.sticky hv :)

theorem SameTarget.layout (h : SameTarget t t') : t'.layout = t.layout := h.elim fun _ hv => (congrArg T0.layout hv :)

theorem SameTarget.apOf (h : SameTarget t t') (ap : ApIndex) : t'.apOf ap = t.apOf ap := by
  unfold T0.apOf
  rw [h.aps]

end

/-- After reads of AP registers alone: the frame of a selection, and the target as it was. -/
structure Looked (s u : State) (t t' : T0) : Prop where
  frame : FrameSelect s u
  closed : Closed u t'
  target : SameTarget t t'

section
variable {s u v : State} {t t' t'' : T0}

theorem Looked.refl (h : Closed s t) : Looked s s t t := ⟨FrameSelect.refl s, h, SameTarget.refl t⟩

theorem Looked.trans (h : Looked s u t t') (k : Looked u v t' t'') : Looked s v t t'' :=
  ⟨h.frame.trans k.frame, k.closed, h.target.trans k.target⟩

/-- The target is in the detected layout and shows no flag. -/
structure Readable (s : State) (t : T0) : Prop where
  closed : Closed s t
  layout : layoutBase s.dpVersion = t.layout
  sticky : t.sticky = 0

theorem Looked.readable (h : Readable s t) (k : Looked s u t t') : Readable u t' :=
  ⟨k.closed, by rw [k.frame.dpVersion, k.target.layout]; exact h.layout, k.target.sticky.trans h.sticky⟩

/-- A read of an AP register that has no side effect (R405). -/
theorem apRegRead_looks (h : Readable s t) {ap : ApIndex} {off : BitVec 12} (ho : off.extractLsb' 0 2 = 0) {w : W32}
    (he : (t.withSelect (selVal ap (layoutBase s.dpVersion + off))).apAccess true
        (apLinkAddr (layoutBase s.dpVersion + off)) 0 = (w, t.withSelect (selVal ap (layoutBase s.dpVersion + off)))) :
    ∃ u t', apRegRead ap off s = .ok w u ∧ Looked s u t t' := by
  obtain ⟨u, t', hu, fu, cu, _, eu⟩ := apRead_closed h.closed h.sticky ap (apReg_aligned s ho)
  unfold State.apReg at hu eu
  rw [he] at hu eu
  exact ⟨u, t', hu, fu, cu, _, eu⟩

variable {ap : ApIndex} {p : T0Ap}

theorem readIdr_looks (h : Readable s t) (hp : t.apOf ap = some p) :
    ∃ u t', apRegRead ap idrOffset s = .ok p.idr u ∧ Looked s u t t' :=
  apRegRead_looks h (by decide) (by
    rw [apAccess_reg hp h.layout, if_neg (by decide), if_neg (by decide), if_neg (by decide), if_neg (by decide),
      if_pos rfl, if_pos rfl])

theorem readCsw_looks (h : Readable s t) (hp : t.apOf ap = some p) :
    ∃ u t', apRegRead ap cswOffset s = .ok p.csw u ∧ Looked s u t t' :=
  apRegRead_looks h (by decide) (by rw [apAccess_reg hp h.layout, if_pos rfl, if_pos rfl])

theorem readBase_looks (h : Readable s t) (hp : t.apOf ap = some p) :
    ∃ u t', apRegRead ap baseOffset s = .ok p.base u ∧ Looked s u t t' :=
  apRegRead_looks h (by decide) (by
    rw [apAccess_reg hp h.layout, if_neg (by decide), if_neg (by decide), if_neg (by decide), if_pos rfl, if_pos rfl])

/-- IDR, then CSW, as GET_CONNECTION and SCAN_APS read them (R230, R275). -/
theorem readIdrCsw_looks (h : Readable s t) (hp : t.apOf ap = some p) :
    ∃ a b tb, apRegRead ap idrOffset s = .ok p.idr a ∧ apRegRead ap cswOffset a = .ok p.csw b ∧ Looked s b t tb ∧
      Readable b tb ∧ tb.apOf ap = some p := by
  obtain ⟨a, ta, ha, ka⟩ := readIdr_looks h hp
  obtain ⟨b, tb, hb, kb⟩ := readCsw_looks (ka.readable h) ((ka.target.apOf ap).trans hp)
  have kab := ka.trans kb
  exact ⟨a, b, tb, ha, hb, kab, kab.readable h, (kab.target.apOf ap).trans hp⟩

/-- IDR of an AP that is not there reads zero, as one that is disabled may (R275, R405). -/
theorem readIdr_absent (h : Readable s t) (hz : t.idrOf ap = 0) :
    ∃ u t', apRegRead ap idrOffset s = .ok 0 u ∧ Looked s u t t' := by
  unfold T0.idrOf at hz
  cases hp : t.apOf ap with
  | none => exact apRegRead_looks h (by decide) (apAccess_absent hp _ true _ 0)
  | some p =>
    rw [hp] at hz
    have hidr : p.idr = 0 := hz
    rw [← hidr]
    exact readIdr_looks h hp

end

/-! ## SCAN_APS (R275) -/

/-- BASE is read for the extra columns only. -/
theorem scanExtra_looks {s : State} {t : T0} (h : Readable s t) {ap : ApIndex} {p : T0Ap} (hp : t.apOf ap = some p)
    (extra : Bool) : ∃ u t', scanExtra extra ap p.idr p.csw s =
        .ok (if extra then some (scanDetails p.idr p.csw p.base) else none) u ∧ Looked s u t t' := by
  cases extra with
  | false => exact ⟨s, t, rfl, Looked.refl h.closed⟩
  | true =>
    obtain ⟨u, t', hu, ku⟩ := readBase_looks h hp
    exact ⟨u, t', run_bind_ok hu, ku⟩

theorem scanRows_congr {t t' : T0} (h : SameTarget t t') (extra : Bool) (i n : Nat) :
    t'.scanRows extra i n = t.scanRows extra i n := by
  induction n generalizing i with
  | zero => rfl
  | succ n ih =>
    unfold T0.scanRows
    rw [h.apOf, ih]

theorem scanRows_absent {t : T0} {i : Nat} (hz : t.idrOf (BitVec.ofNat 8 i) = 0) (extra : Bool) (n : Nat) :
    t.scanRows extra i (n + 1) = [] := by
  unfold T0.idrOf at hz
  unfold T0.scanRows
  cases hp : t.apOf (BitVec.ofNat 8 i) with
  | none => rfl
  | some p =>
    rw [hp] at hz
    exact if_pos hz

theorem scanRows_present {t : T0} {i : Nat} {p : T0Ap} (hp : t.apOf (BitVec.ofNat 8 i) = some p) (hi : p.idr ≠ 0)
    (extra : Bool) (n : Nat) :
    t.scanRows extra i (n + 1) = p.row extra (BitVec.ofNat 8 i) :: t.scanRows extra (i + 1) n := by
  rw [T0.scanRows, hp]
  exact if_neg hi

/-- A nonzero IDR is that of a member. -/
theorem apOf_of_idr {t : T0} {ap : ApIndex} (hz : t.idrOf ap ≠ 0) : ∃ p, t.apOf ap = some p ∧ p.idr ≠ 0 := by
  unfold T0.idrOf at hz
  cases hp : t.apOf ap with
  | none =>
    rw [hp] at hz
    exact absurd rfl hz
  | some p =>
    rw [hp] at hz
    exact ⟨p, rfl, hz⟩

/-- The rows from an index on, by induction on how many may follow. -/
theorem scanFrom_looks (extra : Bool) (n i : Nat) {s : State} {t : T0} (h : Readable s t) :
    ∃ u t', scanFrom extra i n s = .ok (t.scanRows extra i n) u ∧ Looked s u t t' := by
  induction n generalizing i s t with
  | zero => exact ⟨s, t, rfl, Looked.refl h.closed⟩
  | succ n ih =>
    by_cases hz : t.idrOf (BitVec.ofNat 8 i) = 0
    · obtain ⟨u, t', hu, ku⟩ := readIdr_absent h hz
      refine ⟨u, t', ?_, ku⟩
      rw [scanRows_absent hz]
      unfold scanFrom
      rw [run_bind_ok hu, if_pos rfl]
      rfl
    · obtain ⟨p, hp, hi⟩ := apOf_of_idr hz
      obtain ⟨a, b, tb, ha, hb, kab, rb, pb⟩ := readIdrCsw_looks h hp
      obtain ⟨c, tc, hc, kc⟩ := scanExtra_looks rb pb extra
      have kabc := kab.trans kc
      obtain ⟨u, t', hu, ku⟩ := ih (i + 1) (kabc.readable h)
      rw [scanRows_congr kabc.target] at hu
      refine ⟨u, t', ?_, kabc.trans ku⟩
      rw [scanRows_present hp hi]
      unfold scanFrom
      rw [run_bind_ok ha, if_neg hi, run_bind_ok hb, run_bind_ok hc, run_bind_ok hu]
      rfl

/-- Settles O58. -/
theorem scanApsListsAps : Obligations.ScanApsListsAps := by
  intro s t extra h hd hl hs
  obtain ⟨u, t', hu, ku⟩ := scanFrom_looks extra 256 0 ⟨h, hl, hs⟩
  obtain ⟨v, ev⟩ := ku.target
  exact ⟨u, t', v, (complete_passed (requireDetected_ok hd)).trans (complete_ok (run_bind_ok hu)), ku.frame,
    ku.closed, ev⟩

/-! ## GET_CHIP_VERSION (R276) -/

/-- DPSELBANK twice selects the bank of the second (R124). -/
theorem selDp_selDp (last : Option W32) (b c : BitVec 4) : selDp (some (selDp last b)) c = selDp last c := by
  unfold selDp
  apply BitVec.eq_of_getLsbD_eq
  intro i hi
  by_cases h4 : i < 4
  · have hm : BitVec.getLsbD (0xFFFFFFF0 : W32) i = false := by
      have all : ∀ j : Fin 4, BitVec.getLsbD (0xFFFFFFF0 : W32) j.val = false := by decide
      exact all ⟨i, h4⟩
    simp only [Option.getD_some, BitVec.getLsbD_or, BitVec.getLsbD_and, hm, Bool.and_false]
  · have hb : (b.setWidth 32).getLsbD i = false := by
      rw [BitVec.getLsbD_setWidth, BitVec.getLsbD_of_ge _ _ (by omega), Bool.and_false]
    simp only [Option.getD_some, BitVec.getLsbD_or, BitVec.getLsbD_and, hb, Bool.or_false, Bool.and_assoc, Bool.and_self]

/-- Settles O59: TARGETID under bank 2, then DLPIDR under bank 3. -/
theorem chipVersionFields : Obligations.ChipVersionFields := by
  intro s
  refine ⟨fun hv => ?_, fun t h hv h2 => ?_⟩
  · have hrun : chipVersion s = .ok .absent s := by
      unfold chipVersion
      rw [run_getS_bind, if_pos hv]
      rfl
    exact (complete_passed (requireDetected_ok (by rw [hv]; rfl))).trans (complete_ok hrun)
  · have hd : detected s.dpVersion = true := by
      rcases hv with hv | hv <;> rw [hv] <;> rfl
    have h1 : s.dpVersion ≠ .v1 := by
      rcases hv with hv | hv <;> rw [hv] <;> decide
    obtain ⟨x, tx, hx, fx, cx, sx, ex⟩ := dpRead_closed h (r := .targetid) rfl
    obtain ⟨u, t', hu, fu, cu, su, eu⟩ := dpRead_closed cx (r := .dlpidr) rfl
    have hlast : x.selectLast = some (selDp s.selectLast 2) := sx (by decide)
    have hsel : selDp x.selectLast 3 = selDp s.selectLast 3 := by rw [hlast, selDp_selDp]
    have hver : 2 ≤ tx.ver := by
      have hver' : tx.ver = t.ver := (congrArg T0.ver ex :)
      rw [hver']
      exact h2
    have hid : t.register .targetid = t.targetid := if_pos h2
    have hdl : tx.register .dlpidr = t.dlpidr := (if_pos hver).trans (congrArg T0.dlpidr ex :)
    rw [hid] at hx
    rw [hdl] at hu
    have hrun : chipVersion s = .ok (.chip (t.targetid.extractLsb' 1 11) (t.targetid.extractLsb' 12 16)
        (t.targetid.extractLsb' 28 4) (t.dlpidr.extractLsb' 28 4)) u := by
      unfold chipVersion
      rw [run_getS_bind, if_neg h1, run_bind_ok hx, run_bind_ok hu]
      rfl
    refine ⟨u, t', (complete_passed (requireDetected_ok hd)).trans (complete_ok hrun), fx.trans fu, cu,
      (su (by decide)).trans (congrArg some hsel), eu.trans ?_⟩
    show (tx.withSelect (selDp x.selectLast 3)).settled = _
    rw [hsel]
    exact congrArg (T0.withSelect · (selDp s.selectLast 3)) ex

/-! ## AP_READ and AP_WRITE (R202, R203) -/

theorem apOffset_aligned {addr : W32} (h : addr.toNat % 4 = 0) : (apOffset addr).extractLsb' 0 2 = 0 := by
  rw [← BitVec.toNat_inj]
  unfold apOffset
  rw [BitVec.extractLsb'_toNat, BitVec.toNat_setWidth]
  show addr.toNat % 2 ^ 12 >>> 0 % 2 ^ 2 = 0
  rw [Nat.shiftRight_zero]
  omega

theorem apRegOk_iff (addr : W32) : apRegOk addr = true ↔ addr.toNat ≤ 0xFFF ∧ addr.toNat % 4 = 0 := by
  unfold apRegOk apOffsetOk
  rw [Bool.and_eq_true, decide_eq_true_iff, decide_eq_true_iff]

/-- What the host's own access leaves of the connections: the shadow, at CSW of the detected layout (R86 b). -/
theorem connOf_of_noteCsw {s u : State} {ap : ApIndex} {addr : BitVec 12} {w : W32}
    (h : FrameSelect (s.noteCsw ap addr w) u) :
    (addr = s.apReg cswOffset → u.connOf ap = (s.connOf ap).map fun c => { c with cswShadow := w }) ∧
      (addr ≠ s.apReg cswOffset → u.conn = s.conn) := by
  refine ⟨fun ha => ?_, fun ha => ?_⟩
  · rw [connOf_congr h.conn, ha, connOf_noteCsw_csw]
  · rw [h.conn, noteCsw_other ha]

/-- An access changes memory through DRW only (R405). -/
theorem apAccess_mem (t : T0) (ap : ApIndex) {addr : BitVec 12} (hd : addr ≠ t.layout + drwOffset) (rnw : Bool) (v : W32) :
    ((t.withSelect (selVal ap addr)).apAccess rnw (apLinkAddr addr) v).2.mem = t.mem := by
  cases hp : t.apOf ap with
  | none => rw [apAccess_absent hp]; rfl
  | some p =>
    have ha : t.layout + (addr - t.layout) = addr := by rw [BitVec.add_comm, BitVec.sub_add_cancel]
    have hreg := apAccess_reg hp (base := t.layout) (off := addr - t.layout) rfl rnw v
    rw [ha] at hreg
    have hoff : addr - t.layout ≠ drwOffset := fun h => hd (by rw [← h, ha])
    rw [hreg, if_neg hoff]
    split
    · cases rnw <;> rfl
    · split
      · cases rnw <;> rfl
      · split
        · rfl
        · split <;> rfl

/-- AP_READ once its operand is accepted. -/
theorem exec_apRead {s : State} (ap : ApIndex) {addr : W32} (hd : detected s.dpVersion = true) (ha : addr.toNat ≤ 0xFFF)
    (h4 : addr.toNat % 4 = 0) : exec (.apRead ap addr) s =
      complete (hostApRead ap (apOffset addr) >>= fun v => pure (Value.word v)) s :=
  (complete_passed (requireDetected_ok hd)).trans
    (complete_passed (requireArg_ok ((apRegOk_iff addr).mpr ⟨ha, h4⟩) s))

/-- AP_WRITE once its operand is accepted. -/
theorem exec_apWrite {s : State} (ap : ApIndex) {addr : W32} (v : W32) (hd : detected s.dpVersion = true)
    (ha : addr.toNat ≤ 0xFFF) (h4 : addr.toNat % 4 = 0) : exec (.apWrite ap addr v) s =
      complete (hostApWrite ap (apOffset addr) v >>= fun _ => pure Value.unit) s :=
  (complete_passed (requireDetected_ok hd)).trans
    (complete_passed (requireArg_ok ((apRegOk_iff addr).mpr ⟨ha, h4⟩) s))

/-- Settles O41. -/
theorem apAccessOnTarget : Obligations.ApAccessOnTarget := by
  intro s ap addr v hd
  refine ⟨fun t h hs ha h4 => ⟨?_, ?_⟩, fun hbad => ?_⟩
  · obtain ⟨u, t', hu, fu, cu, su, eu⟩ := hostApRead_closed h hs ap (apOffset_aligned h4)
    obtain ⟨kc, kn⟩ := connOf_of_noteCsw fu
    exact ⟨u, t', (exec_apRead ap hd ha h4).trans (complete_ok (run_bind_ok hu)), fu, kc, kn, cu, su, eu⟩
  · obtain ⟨u, t', hu, fu, cu, su, eu⟩ := hostApWrite_closed h hs ap (apOffset_aligned h4) v
    obtain ⟨kc, kn⟩ := connOf_of_noteCsw fu
    have hmem : t'.mem = ((t.withSelect (selVal ap (apOffset addr))).apAccess false (apLinkAddr (apOffset addr)) v).2.mem :=
      (congrArg T0.mem eu :)
    exact ⟨u, t', (exec_apWrite ap v hd ha h4).trans (complete_ok (run_bind_ok hu)), fu, kc, kn, cu, su, eu,
      fun hdrw x => by rw [hmem, apAccess_mem t ap hdrw]⟩
  · have hno : apRegOk addr = false := by
      refine Bool.eq_false_iff.mpr fun hok => ?_
      obtain ⟨ha, h4⟩ := (apRegOk_iff addr).mp hok
      omega
    exact ⟨(complete_passed (requireDetected_ok hd)).trans (complete_refused (requireArg_error hno s)),
      (complete_passed (requireDetected_ok hd)).trans (complete_refused (requireArg_error hno s))⟩

/-! ## GET_CONNECTION (R230) -/

/-- A selection, then the entry of one AP that was not resolved. -/
theorem FrameSelect.toResolve {s u v : State} {ap : ApIndex} (h : FrameSelect s u) (hs : s.apStateOf ap = .unresolved)
    (hc : FrameCommand u v) (ha : ∀ j, j ≠ ap → v.apStateOf j = u.apStateOf j)
    (hn : ∀ j, j ≠ ap → v.connOf j = u.connOf j) : FrameResolve ap s v := by
  refine ⟨h.toCommand.trans hc, fun j hj => (ha j hj).trans ?_, fun hne => absurd hs hne,
    fun j hj => (hn j hj).trans (connOf_congr h.conn j)⟩
  unfold State.apStateOf
  rw [h.apState]

theorem FrameCommand.setApState (s : State) (ap : ApIndex) (v : ApState) : FrameCommand s (s.setApState ap v) :=
  ⟨rfl, rfl, id, fun _ => rfl, rfl, rfl, rfl, rfl, List.prefix_rfl⟩

/-- The entry of an AP that is found (R230). -/
def State.cache (s : State) (ap : ApIndex) (c : MemApConnection) (v : ApState) : State :=
  (s.setConn ap (some c)).setApState ap v

section
variable (s : State) (ap : ApIndex) (c : MemApConnection) (v : ApState)

theorem FrameCommand.cache : FrameCommand s (s.cache ap c v) :=
  ⟨rfl, rfl, id, fun _ => rfl, rfl, rfl, rfl, rfl, List.prefix_rfl⟩

theorem cache_apStateOf : (s.cache ap c v).apStateOf ap = v := apStateOf_setApState_same _ ap v

theorem cache_connOf : (s.cache ap c v).connOf ap = some c := connOf_setConn_same s ap (some c)

theorem FrameResolve.cache {s u : State} (h : FrameSelect s u) {ap : ApIndex} (hs : s.apStateOf ap = .unresolved) :
    FrameResolve ap s (u.cache ap c v) :=
  h.toResolve hs (FrameCommand.cache u ap c v) (fun j hj => apStateOf_setApState_ne _ ap j v hj)
    fun j hj => connOf_setConn_ne u ap j (some c) hj

end

theorem Closed.setApState {s : State} {t : T0} (h : Closed s t) (ap : ApIndex) (v : ApState) :
    Closed (s.setApState ap v) t := ⟨⟨h.iface, h.target, h.noWait, h.ir⟩, h.select⟩

theorem Closed.cache {s : State} {t : T0} (h : Closed s t) (ap : ApIndex) (c : MemApConnection) (v : ApState) :
    Closed (s.cache ap c v) t := ⟨⟨h.iface, h.target, h.noWait, h.ir⟩, h.select⟩

/-- An AP whose IDR reads zero is resolved as absent (R230). -/
theorem resolve_finds_none {s u : State} {ap : ApIndex} (hs : s.apStateOf ap = .unresolved)
    (hu : apRegRead ap idrOffset s = .ok 0 u) (ai : Option Bool) (per : Bool) :
    resolve ap ai per s = .ok none (u.setApState ap .absent) := by
  unfold resolve
  rw [run_getS_bind, hs]
  show createConnection ap ai per s = _
  unfold createConnection
  rw [run_bind_ok hu, if_pos rfl]
  rfl

/-- An AP whose IDR and CSW read, and whose default CSW is installed, is resolved as a connection of them (R230). -/
theorem resolve_finds {s a b u : State} {ap : ApIndex} {p : T0Ap} {base : BitVec 12} (hs : s.apStateOf ap = .unresolved)
    (ha : apRegRead ap idrOffset s = .ok p.idr a) (hi : p.idr ≠ 0) (hb : apRegRead ap cswOffset a = .ok p.csw b)
    (ai : Option Bool) (per : Bool)
    (hu : installCsw ap p.csw (p.connection ap ai per base).cswShadow b = .ok () u) (hl : layoutBase u.dpVersion = base) :
    resolve ap ai per s = .ok (some (p.connection ap ai per base))
      (u.cache ap (p.connection ap ai per base) (presentState p.csw)) := by
  unfold resolve
  rw [run_getS_bind, hs]
  show createConnection ap ai per s = _
  unfold createConnection
  rw [run_bind_ok ha, if_neg hi, run_bind_ok hb]
  refine (run_bind_ok hu).trans ?_
  rw [run_getS_bind]
  have hd : u.apReg drwOffset = base + drwOffset := congrArg (· + drwOffset) hl
  rw [hd]
  rfl

/-- Settles O54: the IDR decides whether there is an AP, its CSW whether it is enabled. -/
theorem getConnectionCreates : Obligations.GetConnectionCreates := by
  intro s t ap ai per dis h hd hl hst hu
  have hr : Readable s t := ⟨h, hl, hst⟩
  refine ⟨fun hz => ?_, fun p hp hi hen => ?_, fun p hp hi hen => ?_⟩
  · obtain ⟨u, t', hx, kx⟩ := readIdr_absent hr hz
    refine ⟨_, t', exec_getConnection_absent hd (resolve_finds_none hu hx ai per), ?_, apStateOf_setApState_same u ap _,
      connOf_congr kx.frame.conn ap, kx.closed.setApState ap .absent, ?_, kx.target.mem, kx.target.aps⟩
    · exact kx.frame.toResolve hu (FrameCommand.setApState u ap .absent)
        (fun j hj => apStateOf_setApState_ne u ap j _ hj) fun _ _ => rfl
    · obtain ⟨v, hv⟩ := kx.target
      exact T0Frame.of_settled hv
  · obtain ⟨a, b, tb, ha, hb, kab, rb, pb⟩ := readIdrCsw_looks hr hp
    have hlay : layoutBase b.dpVersion = t.layout := rb.layout.trans kab.target.layout
    obtain ⟨u, t', hw, fw, cw, _, ew⟩ := apWrite_closed rb.closed rb.sticky ap
      (apReg_aligned b (off := cswOffset) (by decide)) (p.connection ap ai per t.layout).cswShadow
    unfold State.apReg at ew
    rw [apAccess_reg pb rb.layout, if_pos rfl, if_neg Bool.false_ne_true] at ew
    have kw : ApStep ap { p with csw := p.writtenCsw (p.connection ap ai per t.layout).cswShadow } tb.mem tb t' :=
      ApStep.of_setAp (q := { p with csw := p.writtenCsw (p.connection ap ai per t.layout).cswShadow })
        (v := selVal ap (layoutBase b.dpVersion + cswOffset)) (m := tb.mem) pb (apOf_index (p := p) pb) rfl ew
    have hinstall : installCsw ap p.csw (p.connection ap ai per t.layout).cswShadow b = .ok () u :=
      (congrFun (if_pos hen) b).trans hw
    have hres := resolve_finds hu ha hi hb ai per hinstall ((congrArg layoutBase fw.dpVersion).trans hlay)
    have hstate : presentState p.csw = .presentEnabled := if_pos hen
    rw [hstate] at hres
    obtain ⟨v, hv⟩ := kab.target
    refine ⟨_, t', ?_, FrameResolve.cache _ _ (kab.frame.trans fw) hu, cache_apStateOf u ap _ _, cache_connOf u ap _ _,
      cw.cache ap _ _, (T0Frame.of_settled hv).trans kw.frame, kw.mem.trans kab.target.mem, kw.member⟩
    refine (exec_getConnection_present hd hres).trans (complete_passed (a := ()) ?_)
    rw [requireEnabled_run, cache_apStateOf]
    exact if_pos (by cases dis <;> rfl)
  · obtain ⟨a, b, tb, ha, hb, kab, rb, pb⟩ := readIdrCsw_looks hr hp
    have hlay : layoutBase b.dpVersion = t.layout := rb.layout.trans kab.target.layout
    have hinstall : installCsw ap p.csw (p.connection ap ai per t.layout).cswShadow b = .ok () b :=
      congrFun (if_neg (by rw [hen]; exact Bool.false_ne_true)) b
    have hres := resolve_finds hu ha hi hb ai per hinstall hlay
    have hstate : presentState p.csw = .presentDisabled := if_neg (by rw [hen]; exact Bool.false_ne_true)
    rw [hstate] at hres
    obtain ⟨v, hv⟩ := kab.target
    refine ⟨_, tb, ?_, FrameResolve.cache _ _ kab.frame hu, cache_apStateOf b ap _ _, cache_connOf b ap _ _,
      kab.closed.cache ap _ _, T0Frame.of_settled hv, kab.target.mem, kab.target.aps⟩
    refine (exec_getConnection_present hd hres).trans ?_
    cases dis with
    | true =>
      refine complete_passed (a := ()) ?_
      rw [requireEnabled_run]
      exact if_pos rfl
    | false =>
      refine complete_refused ?_
      rw [requireEnabled_run, cache_apStateOf]
      rfl

end Sys2Proof.Machine

/-! A vendor's backend (R115, R307): one call is one answer drawn, and what CHECK_STICKY, the AP accesses and the
recovery of a failed block read make of the answers. -/

namespace Sys2Proof.Machine

open Sys2Proof

/-! ## One call -/

/-- After one backend call: its event, one answer less, and the frame of a link transaction. -/
structure Replied (s u : State) (call : BackendCall) (r : BackendReply) (rest : List (BitVec 35)) : Prop where
  frame : FrameLink s u
  answers : u.answers = rest
  trace : u.trace = s.trace ++ [.backend call r]

section
variable {s : State} {x : BitVec 35} {rest : List (BitVec 35)} (call : BackendCall)

/-- The state after a backend call. -/
def State.replied (s : State) (call : BackendCall) (r : BackendReply) : State :=
  (s.setAnswers s.answers.tail (s.drawn + 1)).pushEvent (.backend call r)

theorem replied_of_answers (h : s.answers = x :: rest) (r : BackendReply) : Replied s (s.replied call r) call r rest :=
  ⟨FrameLink.call (.backend call r) rfl rfl rfl rfl rfl rfl (fun _ => rfl) rfl rfl rfl rfl rfl,
    congrArg List.tail h, rfl⟩

theorem draw_queued (h : s.answers = x :: rest) : draw s = .ok x (s.setAnswers s.answers.tail (s.drawn + 1)) := by
  unfold draw State.nextAnswer
  rw [h]

/-- A call the backend fails delivers its code (R307). -/
theorem backendCall_failed (h : s.answers = x :: rest) (hx : x.getLsbD 32 = true) (reply : W32 → Dap (List W32)) :
    backendCall call reply s = .error (.dpOrApAccessError ⟨.backend, x.extractLsb' 0 32⟩)
      (s.replied call (.failed (x.extractLsb' 0 32))) := by
  unfold backendCall
  rw [run_bind_ok (draw_queued h), if_pos hx]
  rfl

/-- A call the backend makes delivers the words of its reply (R307). -/
theorem backendCall_ok (h : s.answers = x :: rest) (hx : x.getLsbD 32 = false) (ws : W32 → List W32) :
    backendCall call (fun w => pure (ws w)) s =
      .ok (ws (x.extractLsb' 0 32)) (s.replied call (.ok (ws (x.extractLsb' 0 32)))) := by
  unfold backendCall
  rw [run_bind_ok (draw_queued h), if_neg (by rw [hx]; exact Bool.false_ne_true)]
  rfl

theorem backendWord_ok (h : s.answers = x :: rest) (hx : x.getLsbD 32 = false) :
    backendWord call s = .ok (x.extractLsb' 0 32) (s.replied call (.ok [x.extractLsb' 0 32])) :=
  run_bind_ok (backendCall_ok call h hx fun w => [w])

theorem backendUnit_ok (h : s.answers = x :: rest) (hx : x.getLsbD 32 = false) :
    backendUnit call s = .ok () (s.replied call (.ok [])) :=
  run_bind_ok (backendCall_ok call h hx fun _ => [])

theorem backendUnit_failed (h : s.answers = x :: rest) (hx : x.getLsbD 32 = true) :
    backendUnit call s = .error (.dpOrApAccessError ⟨.backend, x.extractLsb' 0 32⟩)
      (s.replied call (.failed (x.extractLsb' 0 32))) :=
  run_bind_error (backendCall_failed call h hx _)

end

/-! ## Link transactions of a backend -/

section
variable {s : State}

theorem linkDpRead_vendor (hv : s.cfg.iface = .vendor) (a : RegAddr) : linkDpRead a s = backendWord (.dpRead a) s := by
  unfold linkDpRead
  rw [run_getS_bind, hv]

theorem linkDpWrite_vendor (hv : s.cfg.iface = .vendor) (a : RegAddr) (v : W32) :
    linkDpWrite a v s = backendUnit (.dpWrite a v) s := by
  unfold linkDpWrite
  rw [run_getS_bind, hv]

theorem linkApRead_vendor (hv : s.cfg.iface = .vendor) (a : RegAddr) : linkApRead a s = backendWord (.apRead a) s := by
  unfold linkApRead
  rw [run_getS_bind, hv]

theorem linkApWrite_vendor (hv : s.cfg.iface = .vendor) (a : RegAddr) (v : W32) :
    linkApWrite a v s = backendUnit (.apWrite a v) s := by
  unfold linkApWrite
  rw [run_getS_bind, hv]

end

/-! ## SELECT through a backend (R190) -/

/-- After the SELECT write of a value: one call, and the freeze as the change of selection leaves it. -/
structure Selected (s u : State) (v : W32) (rest : List (BitVec 35)) : Prop where
  frame : FrameSelect s u
  selectLast : u.selectLast = some v
  frozenValid : u.frozenValid = freezeAfter s.frozenValid s.selectLast v
  answers : u.answers = rest
  trace : u.trace = s.trace ++ [.backend (.dpWrite 0x8 v) (.ok [])]

section
variable {s : State} {x : BitVec 35} {rest : List (BitVec 35)} {v : W32}

theorem writeSelect_vendor (hv : s.cfg.iface = .vendor) (hh : s.selectHeld v = false) (ha : s.answers = x :: rest)
    (hx : x.getLsbD 32 = false) : ∃ u, writeSelect v s = .ok () u ∧ Selected s u v rest := by
  have ha' : (s.setSelectLast none).answers = x :: rest := ha
  have hw : linkDpWrite 0x8 v (s.setSelectLast none) = _ :=
    (linkDpWrite_vendor (s := s.setSelectLast none) hv 0x8 v).trans (backendUnit_ok _ ha' hx)
  obtain ⟨fw, aw, tw⟩ := replied_of_answers (.dpWrite 0x8 v) ha' (.ok [])
  have hrun : writeSelect v s = .ok () ((((s.setSelectLast none).replied (.dpWrite 0x8 v) (.ok [])).setSelectLast
      (some v)).setFreeze s.freezeDepth (freezeAfter s.frozenValid s.selectLast v)) := by
    unfold writeSelect
    rw [run_getS_bind, if_neg (by rw [hh]; exact Bool.false_ne_true), run_upd_bind, run_bind_ok hw]
    rfl
  have hf := keeps_writeSelect frameSelect_stable v s
  rw [hrun] at hf
  exact ⟨_, hrun, hf, rfl, rfl, aw, tw⟩

/-- A SELECT write the backend fails leaves SELECT unknown (R190). -/
theorem writeSelect_vendor_failed (hv : s.cfg.iface = .vendor) (hh : s.selectHeld v = false)
    (ha : s.answers = x :: rest) (hx : x.getLsbD 32 = true) :
    ∃ u, writeSelect v s = .error (.dpOrApAccessError ⟨.backend, x.extractLsb' 0 32⟩) u ∧ FrameSelect s u ∧
      u.selectLast = none ∧ u.answers = rest ∧
      u.trace = s.trace ++ [.backend (.dpWrite 0x8 v) (.failed (x.extractLsb' 0 32))] := by
  have ha' : (s.setSelectLast none).answers = x :: rest := ha
  have hw : linkDpWrite 0x8 v (s.setSelectLast none) = _ :=
    (linkDpWrite_vendor (s := s.setSelectLast none) hv 0x8 v).trans (backendUnit_failed _ ha' hx)
  obtain ⟨fw, aw, tw⟩ := replied_of_answers (.dpWrite 0x8 v) ha' (.failed (x.extractLsb' 0 32))
  have hrun : writeSelect v s = .error (.dpOrApAccessError ⟨.backend, x.extractLsb' 0 32⟩)
      ((s.setSelectLast none).replied (.dpWrite 0x8 v) (.failed (x.extractLsb' 0 32))) := by
    unfold writeSelect
    rw [run_getS_bind, if_neg (by rw [hh]; exact Bool.false_ne_true), run_upd_bind, run_bind_error hw]
  have hf := keeps_writeSelect frameSelect_stable v s
  rw [hrun] at hf
  exact ⟨_, hrun, hf, rfl, aw, tw⟩

theorem not_selectHeld (h : s.frozenValid = false) (v : W32) : s.selectHeld v = false := by
  unfold State.selectHeld
  rw [h]
  rfl

end

/-! ## CHECK_STICKY through a backend (R199) -/

/-- A read that succeeds and shows a flag. -/
def Flagged (w : BitVec 35) : Prop := w.getLsbD 32 = false ∧ noSticky (w.extractLsb' 0 32) = false

section
variable {rest : List (BitVec 35)} {y : BitVec 35}

/-- One read of CTRL_STAT. -/
theorem rereadSticky_vendor_step {s : State} {x : BitVec 35} {as : List (BitVec 35)} (hv : s.cfg.iface = .vendor)
    (ha : s.answers = x :: as) (hx : x.getLsbD 32 = false) (n : Nat) (w : W32) :
    ∃ u, FrameLink s u ∧ u.answers = as ∧ rereadSticky (n + 1) w s =
      if noSticky (x.extractLsb' 0 32) then .ok () u else rereadSticky n (x.extractLsb' 0 32) u := by
  have hread := (linkDpRead_vendor hv 0x4).trans (backendWord_ok _ ha hx)
  obtain ⟨fu, au, _⟩ := replied_of_answers (.dpRead 0x4) ha (.ok [x.extractLsb' 0 32])
  refine ⟨_, fu, au, ?_⟩
  rw [rereadSticky, run_bind_ok hread]
  split <;> rfl

/-- The re-reads end at the first clean one. -/
theorem rereadSticky_vendor_clean (ws : List (BitVec 35)) (n : Nat) (w : W32) {s : State} (hn : ws.length < n)
    (hv : s.cfg.iface = .vendor) (hws : ∀ w ∈ ws, Flagged w) (hy : y.getLsbD 32 = false)
    (hc : noSticky (y.extractLsb' 0 32) = true) (ha : s.answers = ws ++ y :: rest) :
    ∃ u, rereadSticky n w s = .ok () u ∧ FrameLink s u ∧ u.answers = rest := by
  induction ws generalizing n w s with
  | nil =>
    obtain ⟨m, rfl⟩ := Nat.exists_eq_succ_of_ne_zero (Nat.ne_of_gt hn)
    obtain ⟨u, fu, au, hu⟩ := rereadSticky_vendor_step hv ha hy m w
    rw [if_pos hc] at hu
    exact ⟨u, hu, fu, au⟩
  | cons x ws ih =>
    obtain ⟨m, rfl⟩ := Nat.exists_eq_succ_of_ne_zero (Nat.ne_of_gt (Nat.zero_lt_of_lt hn))
    obtain ⟨hx, hf⟩ := hws x List.mem_cons_self
    obtain ⟨a, fa, aa, hstep⟩ := rereadSticky_vendor_step hv ha hx m w
    obtain ⟨u, hu, fu, au⟩ := ih m (x.extractLsb' 0 32) (Nat.lt_of_succ_lt_succ hn)
      (show a.cfg.iface = .vendor by rw [fa.cfg]; exact hv) (fun w hw => hws w (List.mem_cons_of_mem x hw)) aa
    rw [if_neg (by rw [hf]; exact Bool.false_ne_true), hu] at hstep
    exact ⟨u, hstep, fa.trans fu, au⟩

/-- The last re-read raises what it read. -/
theorem rereadSticky_vendor_raises (vs : List (BitVec 35)) (w : W32) {s : State} (hv : s.cfg.iface = .vendor)
    (hws : ∀ w ∈ vs ++ [y], Flagged w) (ha : s.answers = vs ++ y :: rest) :
    ∃ u, rereadSticky (vs.length + 1) w s = .error (.stickyProtocolError (y.extractLsb' 0 32)) u ∧ FrameLink s u ∧
      u.answers = rest := by
  induction vs generalizing w s with
  | nil =>
    obtain ⟨hy, hf⟩ := hws y List.mem_cons_self
    obtain ⟨u, fu, au, hu⟩ := rereadSticky_vendor_step hv ha hy 0 w
    rw [if_neg (by rw [hf]; exact Bool.false_ne_true)] at hu
    exact ⟨u, hu, fu, au⟩
  | cons x vs ih =>
    obtain ⟨hx, hf⟩ := hws x List.mem_cons_self
    obtain ⟨a, fa, aa, hstep⟩ := rereadSticky_vendor_step hv ha hx (vs.length + 1) w
    obtain ⟨u, hu, fu, au⟩ := ih (x.extractLsb' 0 32) (show a.cfg.iface = .vendor by rw [fa.cfg]; exact hv)
      (fun w hw => hws w (List.mem_cons_of_mem x hw)) aa
    rw [if_neg (by rw [hf]; exact Bool.false_ne_true), hu] at hstep
    exact ⟨u, hstep, fa.trans fu, au⟩

end

/-- CHECK_STICKY is the selection of DP bank 0 and eleven reads at most (R199). -/
theorem checkSticky_vendor {s : State} {x : BitVec 35} {as : List (BitVec 35)} (hv : s.cfg.iface = .vendor)
    (hh : s.selectHeld (selDp s.selectLast 0) = false) (ha : s.answers = x :: as) (hx : x.getLsbD 32 = false) :
    ∃ u, checkSticky s = rereadSticky 11 0 u ∧ Selected s u (selDp s.selectLast 0) as := by
  obtain ⟨u, hu, ku⟩ := writeSelect_vendor hv hh ha hx
  have hb : dpSelectBank 0 s = .ok () u := by
    unfold dpSelectBank
    rw [run_getS_bind, hu]
  refine ⟨u, ?_, ku⟩
  unfold checkSticky
  rw [run_bind_ok hb]
  rfl

/-- Settles O39. -/
theorem checkStickyRereads : Obligations.CheckStickyRereads := by
  intro s x ws rest hv hf hx hws
  refine ⟨fun y rest' hlen hrest hy hc ha => ?_, fun vs y hvs hlen ha => ?_⟩
  · obtain ⟨a, hcheck, ka⟩ := checkSticky_vendor hv (not_selectHeld hf _) (as := ws ++ rest) (by rw [ha]; rfl) hx
    obtain ⟨u, hu, fu, au⟩ := rereadSticky_vendor_clean ws 11 0 (Nat.lt_succ_of_le hlen)
      (show a.cfg.iface = .vendor by rw [ka.frame.cfg]; exact hv) hws hy hc (by rw [ka.answers, hrest])
    exact ⟨u, complete_ok (run_bind_ok (hcheck.trans hu)), ka.frame.trans fu.toSelect, au⟩
  · obtain ⟨a, hcheck, ka⟩ := checkSticky_vendor hv (not_selectHeld hf _) (as := ws ++ rest) (by rw [ha]; rfl) hx
    obtain ⟨u, hu, fu, au⟩ := rereadSticky_vendor_raises (y := y) (rest := rest) vs 0
      (show a.cfg.iface = .vendor by rw [ka.frame.cfg]; exact hv) (hvs ▸ hws)
      (by rw [ka.answers, hvs, List.append_assoc]; rfl)
    rw [hlen] at hu
    exact ⟨u, complete_error (run_bind_error (hcheck.trans hu)), ka.frame.trans fu.toSelect, au⟩

/-! ## AP_READ and AP_WRITE through a backend (R202, R203) -/

/-- Settles O42. -/
theorem vendorApAccess : Obligations.VendorApAccess := by
  intro s ap addr v x rest hv hd ha h4 hf hans
  have hh := not_selectHeld hf (selVal ap (apOffset addr))
  refine ⟨fun y rest' hx hrest hy => ?_, fun hx => ?_⟩
  · obtain ⟨a, hsel, fa, la, _, aa, ta⟩ := writeSelect_vendor hv hh hans hx
    have hva : a.cfg.iface = .vendor := by rw [fa.cfg]; exact hv
    have hay : a.answers = y :: rest' := aa.trans hrest
    refine ⟨?_, ?_⟩
    · obtain ⟨fu, au, tu⟩ := replied_of_answers (.apRead (apLinkAddr (apOffset addr))) hay (.ok [y.extractLsb' 0 32])
      have hread := (run_bind_ok (f := fun _ => linkApRead (apLinkAddr (apOffset addr))) hsel).trans
        ((linkApRead_vendor hva _).trans (backendWord_ok _ hay hy))
      refine ⟨_, (exec_apRead ap hd ha h4).trans (complete_ok (run_bind_ok (run_bind_ok hread))),
        (fa.trans fu.toSelect).noteCsw ap (apOffset addr) (y.extractLsb' 0 32), ?_, ?_, ?_⟩
      · rw [noteCsw_selectLast]
        exact la
      · rw [noteCsw_answers]
        exact au
      · refine newCalls_of_trace ?_
        rw [noteCsw_trace, tu, ta, List.append_assoc]
        rfl
    · obtain ⟨fu, au, tu⟩ := replied_of_answers (.apWrite (apLinkAddr (apOffset addr)) v) hay (.ok [])
      have hwrite := (run_bind_ok (f := fun _ => linkApWrite (apLinkAddr (apOffset addr)) v) hsel).trans
        ((linkApWrite_vendor hva _ v).trans (backendUnit_ok _ hay hy))
      refine ⟨_, (exec_apWrite ap v hd ha h4).trans (complete_ok (run_bind_ok (run_bind_ok hwrite))),
        (fa.trans fu.toSelect).noteCsw ap (apOffset addr) v, ?_, ?_, ?_⟩
      · rw [noteCsw_selectLast]
        exact la
      · rw [noteCsw_answers]
        exact au
      · refine newCalls_of_trace ?_
        rw [noteCsw_trace, tu, ta, List.append_assoc]
        rfl
  · obtain ⟨u, hsel, fu, lu, au, tu⟩ := writeSelect_vendor_failed hv hh hans hx
    exact ⟨u, (exec_apRead ap hd ha h4).trans (complete_error (run_bind_error (run_bind_error (run_bind_error hsel)))),
      fu, lu, au, newCalls_of_trace tu⟩

end Sys2Proof.Machine

/-! The recovery of a failed block read (R242): the sticky check, then the DeviceEn bit of CSW. -/

namespace Sys2Proof.Machine

open Sys2Proof

/-! ## Runs of the error handlers -/

section
variable {α : Type} {m : Dap α} {s t u : State} {e : DapError}

theorem onError_ok {a : α} (hm : m s = .ok a t) (h : DapError → Dap α) : onError m h s = .ok a t := by
  rw [run_onError, hm]

theorem onError_error (hm : m s = .error e t) (h : DapError → Dap α) : onError m h s = h e t := by
  rw [run_onError, hm]

theorem withFinally_error {fin : Dap Unit} (hm : m s = .error e t) (hf : fin t = .ok () u) :
    withFinally m fin s = .error e u := by
  rw [run_withFinally, hm]
  show (match fin t with | .ok _ u => _ | .error _ u => _) = _
  rw [hf]

theorem engineGuard_access {ap : ApIndex} {a : AccessError} (hm : m s = .error (.dpOrApAccessError a) t) :
    engineGuard ap m s = recoverAccess ap a t :=
  onError_error hm _

/-- The freeze of a batch whose selection works and whose body does not (R244). -/
theorem batch_error {c : MemApConnection} {x y : State} (hs : selectAp c.ap c.drwBank s = .ok () x)
    (hm : engineGuard c.ap m x.freeze = .error e y) : batch c m s = .error e y.unfreeze := by
  have hsel : engineGuard c.ap (selectAp c.ap c.drwBank) s = .ok () x := onError_ok hs _
  unfold batch
  rw [run_bind_ok hsel]
  exact (run_upd_bind State.freeze _ x).trans (withFinally_error hm rfl)

end

/-! ## A failed block read (R241) -/

/-- After a failed block read under a freeze: SELECT is unknown. -/
structure BlockFailed (s u : State) (rest : List (BitVec 35)) : Prop where
  cfg : u.cfg = s.cfg
  conn : u.conn = s.conn
  dpVersion : u.dpVersion = s.dpVersion
  selectLast : u.selectLast = none
  frozenValid : u.frozenValid = s.frozenValid
  answers : u.answers = rest

/-- A block read that fails loses the selection (R241, log 11). -/
theorem runRead_failed {s : State} {x : BitVec 35} {rest : List (BitVec 35)} (hb : s.cfg.blocks = true)
    (ha : s.answers = x :: rest) (hx : x.getLsbD 32 = true) (ap : ApIndex) (ra n : Nat) :
    ∃ u, runRead ap ra n s = .error (.dpOrApAccessError ⟨.backend, x.extractLsb' 0 32⟩) u ∧ BlockFailed s u rest := by
  obtain ⟨fu, au, _⟩ := replied_of_answers (.blockRead ap (w32 ra) n) ha (.failed (x.extractLsb' 0 32))
  refine ⟨(s.replied (.blockRead ap (w32 ra) n) (.failed (x.extractLsb' 0 32))).setSelectLast none, ?_,
    fu.cfg, fu.conn, fu.dpVersion, rfl, fu.frozenValid, au⟩
  unfold runRead
  rw [run_getS_bind, if_pos hb]
  exact withFinally_error (backendCall_failed _ ha hx _) rfl

/-- An aligned range that is not empty has a first run (R233). -/
theorem runs_nonempty {a b : Nat} (ha : a % 4 = 0) (hb : b % 4 = 0) (h : a < b) (ai : Bool) :
    ∃ r rs, runs ai a b = r :: rs := by
  obtain ⟨n, hn⟩ := Nat.exists_eq_succ_of_ne_zero (show (b - a) / 4 ≠ 0 by omega)
  unfold runs
  rw [hn, runsFrom, if_pos h]
  exact ⟨_, _, rfl⟩

/-! ## The body of an aligned READ_MEMORY (R234) -/

theorem wordFloor_aligned {a : Nat} (h : a % 4 = 0) : wordFloor a = a := by
  unfold wordFloor
  omega

theorem wordCeil_aligned {b : Nat} (h : b % 4 = 0) : wordCeil b = b := by
  unfold wordCeil
  omega

/-- An aligned range takes the word path. -/
theorem takesNative_aligned {a b : Nat} (ha : a % 4 = 0) (hb : b % 4 = 0) (ap : ApIndex) (s : State) :
    takesNative ap a b s = .ok false s := by
  have hedge : unalignedEdge a b = false := by
    unfold unalignedEdge
    rw [wordFloor_aligned ha, wordCeil_aligned hb, bne_self_eq_false, bne_self_eq_false]
    rfl
  unfold takesNative
  rw [hedge]
  rfl

/-- The words of a range where CSW needs no write are those of its runs (R232). -/
theorem readWords_runs {s : State} {c : MemApConnection} (hc : s.connOf c.ap = some c)
    (hcsw : cswVal c.cswShadow c.autoinc sizeWord = c.cswShadow) (a b : Nat) :
    readWords c a b s = readRuns c.ap (runs c.autoinc a b) s := by
  have hshadow : s.shadowOf c = c.cswShadow := by
    unfold State.shadowOf
    rw [hc]
  unfold readWords withCsw
  rw [run_getS_bind, hshadow, if_pos hcsw]

/-- READ_MEMORY's body of an aligned range under a shadow that needs no change (R232, R234). -/
theorem readBody_failed {s : State} {c : MemApConnection} {a b : Nat} {x : BitVec 35} {rest : List (BitVec 35)}
    (hblocks : s.cfg.blocks = true) (hc : s.connOf c.ap = some c)
    (hcsw : cswVal c.cswShadow c.autoinc sizeWord = c.cswShadow) (h4 : a % 4 = 0) (h4b : b % 4 = 0) (hab : a < b)
    (ha : s.answers = x :: rest) (hx : x.getLsbD 32 = true) :
    ∃ u, (do
        if ← takesNative c.ap a b then readNative c a b
        else
          let ws ← readWords c (wordFloor a) (wordCeil b)
          pure (((bytesOfWords ws).drop (a - wordFloor a)).take (b - a)) : Dap (List Byte)) s =
      .error (.dpOrApAccessError ⟨.backend, x.extractLsb' 0 32⟩) u ∧ BlockFailed s u rest := by
  obtain ⟨⟨ra, n⟩, rs, hruns⟩ := runs_nonempty h4 h4b hab c.autoinc
  obtain ⟨u, hu, ku⟩ := runRead_failed hblocks ha hx c.ap ra n
  have hwords : readWords c a b s = .error (.dpOrApAccessError ⟨.backend, x.extractLsb' 0 32⟩) u := by
    rw [readWords_runs hc hcsw, hruns]
    exact run_bind_error hu
  refine ⟨u, ?_, ku⟩
  rw [run_bind_ok (takesNative_aligned h4 h4b c.ap s), if_neg Bool.false_ne_true, wordFloor_aligned h4,
    wordCeil_aligned h4b, run_bind_error hwords]

/-! ## The recovery (R242) -/

section
variable {s : State} {x : BitVec 35} {rest : List (BitVec 35)} {v : W32}

/-- A selection that a freeze holds makes no call, and any other one makes one. -/
theorem writeSelect_vendor_any (hv : s.cfg.iface = .vendor) {sel : List (BitVec 35)}
    (hsel : ∀ w ∈ sel, w.getLsbD 32 = false) (hlen : sel.length = if s.selectHeld v then 0 else 1)
    (ha : s.answers = sel ++ rest) : ∃ u, writeSelect v s = .ok () u ∧ FrameSelect s u ∧ u.answers = rest := by
  by_cases hh : s.selectHeld v = true
  · rw [if_pos hh] at hlen
    rw [List.length_eq_zero_iff.mp hlen] at ha
    refine ⟨s, ?_, FrameSelect.refl s, ha⟩
    unfold writeSelect
    rw [run_getS_bind, if_pos hh]
    rfl
  · rw [if_neg hh] at hlen
    obtain ⟨y, rfl⟩ := List.length_eq_one_iff.mp hlen
    obtain ⟨u, hu, ku⟩ := writeSelect_vendor hv (Bool.eq_false_iff.mpr hh) ha (hsel y List.mem_cons_self)
    exact ⟨u, hu, ku.frame, ku.answers⟩

/-- A read of an AP register: the selection, if it is not held, and one call. -/
theorem apRegRead_vendor (hv : s.cfg.iface = .vendor) {ap : ApIndex} {off : BitVec 12} {sel : List (BitVec 35)}
    (hsel : ∀ w ∈ sel, w.getLsbD 32 = false)
    (hlen : sel.length = if s.selectHeld (selVal ap (s.apReg off)) then 0 else 1) (hx : x.getLsbD 32 = false)
    (ha : s.answers = sel ++ x :: rest) :
    ∃ u, apRegRead ap off s = .ok (x.extractLsb' 0 32) u ∧ FrameSelect s u ∧ u.answers = rest := by
  obtain ⟨r, hr, fr, ar⟩ := writeSelect_vendor_any hv hsel hlen ha
  obtain ⟨fu, au, _⟩ := replied_of_answers (.apRead (apLinkAddr (s.apReg off))) ar (.ok [x.extractLsb' 0 32])
  have hread := (linkApRead_vendor (by rw [fr.cfg]; exact hv) (apLinkAddr (s.apReg off))).trans (backendWord_ok _ ar hx)
  refine ⟨_, ?_, fr.trans fu.toSelect, au⟩
  unfold apRegRead
  rw [run_getS_bind]
  exact (run_bind_ok hr).trans hread

/-- The recovery whose sticky check raises ends in that error (R242). -/
theorem recoverAccess_sticky {α : Type} {ap : ApIndex} {e : AccessError} {w : W32} {u : State}
    (hc : checkSticky s = .error (.stickyProtocolError w) u) :
    recoverAccess (α := α) ap e s = .error (.stickyProtocolError w) u := by
  have hr : recoverSticky e s = .error (.stickyProtocolError w) u := onError_error hc _
  unfold recoverAccess
  exact run_bind_error hr

/-- The recovery whose sticky check passes reads CSW and classifies the error by it (R242, R308, R309). -/
theorem recoverAccess_csw {α : Type} {ap : ApIndex} {e : AccessError} {w : W32} {a u : State}
    (hc : checkSticky s = .ok () a) (hr : apRegRead ap cswOffset a = .ok w u) :
    recoverAccess (α := α) ap e s = .error (classifyAccess ap w e) (u.setShadow ap w) := by
  have h1 : recoverSticky e s = .ok () a := onError_ok hc _
  have h2 : onError (apRegRead ap cswOffset) (fun _ => raise (.dpOrApAccessError e)) a = .ok w u := onError_ok hr _
  unfold recoverAccess
  rw [run_bind_ok h1, run_bind_ok h2]
  rfl

end

/-- READ_MEMORY once its operands are accepted (R234). -/
theorem exec_readMemory_error {s u : State} {c : MemApConnection} {a b : Nat} {e : DapError}
    (hd : detected s.dpVersion = true) (hc : s.connOf c.ap = some c) (hab : a ≤ b) (hb : b ≤ 2 ^ 32)
    (hr : readMemory c a b s = .error e u) : exec (.readMemory c.ap a b) s = .next (u.pushResult (.error e)) :=
  (complete_passed (requireDetected_ok hd)).trans ((complete_passed (requireArg_ok (rangeOk_iff.mpr ⟨hab, hb⟩) s)).trans
    ((complete_passed (requireConn_some hc)).trans (complete_error (run_bind_error hr))))

/-- The block read fails: what the batch leaves is what the recovery makes of it. -/
theorem readMemory_failed {s : State} {c : MemApConnection} {a b : Nat} {x0 x1 : BitVec 35} {rest : List (BitVec 35)}
    (hv : s.cfg.iface = .vendor) (hblocks : s.cfg.blockSupport = true) (hc : s.connOf c.ap = some c)
    (hf : s.frozenValid = false) (hdep : s.freezeDepth = 0)
    (hcsw : cswVal c.cswShadow c.autoinc sizeWord = c.cswShadow) (h4 : a % 4 = 0) (h4b : b % 4 = 0) (hab : a < b)
    (h0 : x0.getLsbD 32 = false) (h1 : x1.getLsbD 32 = true) (ha : s.answers = x0 :: x1 :: rest) :
    ∃ v, v.cfg = s.cfg ∧ v.conn = s.conn ∧ v.dpVersion = s.dpVersion ∧ v.selectLast = none ∧ v.frozenValid = true ∧
      v.answers = rest ∧ ∀ e u, recoverAccess (α := List Byte) c.ap ⟨.backend, x1.extractLsb' 0 32⟩ v = .error e u →
        readMemory c a b s = .error e u.unfreeze := by
  obtain ⟨x, hx, fx, _, _, ax, _⟩ := writeSelect_vendor hv (not_selectHeld hf (selVal c.ap c.drwBank)) ha h0
  have hfz : x.freeze.frozenValid = true := by
    rw [freeze_frozenValid, fx.freezeDepth, hdep]
    rfl
  have hbx : x.freeze.cfg.blocks = true := by
    rw [freeze_cfg, fx.cfg]
    unfold Config.blocks
    rw [hv, hblocks]
    rfl
  have hcx : x.freeze.connOf c.ap = some c := (connOf_congr ((freeze_conn x).trans fx.conn) c.ap).trans hc
  obtain ⟨v, hrun, gv, nv, dv, lv, zv, av⟩ := readBody_failed hbx hcx hcsw h4 h4b hab
    ((freeze_answers x).trans ax) h1
  refine ⟨v, gv.trans ((freeze_cfg x).trans fx.cfg), nv.trans ((freeze_conn x).trans fx.conn),
    dv.trans ((freeze_dpVersion x).trans fx.dpVersion), lv, zv.trans hfz, av, fun e u hrec => ?_⟩
  unfold readMemory
  rw [if_neg (Nat.ne_of_lt hab)]
  exact batch_error hx ((engineGuard_access hrun).trans hrec)

/-- Settles O52: the sticky check decides first, then DeviceEn of the CSW read. -/
theorem accessErrorClassified : Obligations.AccessErrorClassified := by
  intro s c a b x0 x1 x2 rest hv hblocks hd hc hf hdep hcsw h4 h4b hab hb h0 h1 h2
  have hframe := keeps_readMemory (frameEngine_stable c.ap) rfl (c := c) a b s
  have hheld : ∀ {v : State}, v.selectLast = none → v.selectHeld (selDp v.selectLast 0) = false := by
    intro v hl
    unfold State.selectHeld
    rw [hl]
    exact Bool.and_false _
  refine ⟨fun x3 sel x5 rest' hrest h3 h5 hsel hlen hns ha => ?_, fun vs y rest' hrest hlen hws ha => ?_⟩
  · obtain ⟨v, gv, nv, dv, lv, zv, av, hread⟩ := readMemory_failed hv hblocks hc hf hdep hcsw h4 h4b hab h0 h1 ha
    have hvv : v.cfg.iface = .vendor := by rw [gv]; exact hv
    obtain ⟨p, hcheck, fp, lp, zp, ap', _⟩ := checkSticky_vendor hvv (hheld lv) (as := rest) av h2
    obtain ⟨q, hq, fq, aq⟩ := rereadSticky_vendor_clean (rest := sel ++ x5 :: rest') [] 11 0 (by decide)
      (show p.cfg.iface = .vendor by rw [fp.cfg]; exact hvv) (by simp) h3 hns (ap'.trans hrest)
    have hvq : q.cfg.iface = .vendor := by rw [fq.cfg, fp.cfg]; exact hvv
    have hreg : q.apReg cswOffset = s.apReg cswOffset := by
      unfold State.apReg
      rw [fq.dpVersion, fp.dpVersion, dv]
    have hzero : selDp v.selectLast 0 = 0 := by
      rw [lv]
      decide
    have hqheld : ∀ w, q.selectHeld w = decide (w = 0) := by
      intro w
      unfold State.selectHeld
      rw [fq.frozenValid, zp, zv, lv, fq.selectLast, lp, hzero]
      show ((0 : W32) == w) = _
      rw [Bool.eq_iff_iff, beq_iff_eq, decide_eq_true_iff]
      exact eq_comm
    obtain ⟨u, hu, fu, au⟩ := apRegRead_vendor (ap := c.ap) (off := cswOffset) hvq hsel
      (by rw [hlen, hreg, hqheld]; simp only [decide_eq_true_eq]) h5 aq
    have hrun := hread _ _ (recoverAccess_csw (hcheck.trans hq) hu)
    rw [hrun] at hframe
    refine ⟨_, exec_readMemory_error hd hc (Nat.le_of_lt hab) hb hrun, hframe, ?_, ?_⟩
    · rw [unfreeze_answers, setShadow_answers]
      exact au
    · have hconn := fu.conn.trans (fq.conn.trans (fp.conn.trans nv))
      rw [connOf_congr (unfreeze_conn _), connOf_setShadow_same, connOf_congr hconn, hc]
      rfl
  · obtain ⟨v, gv, nv, dv, lv, zv, av, hread⟩ := readMemory_failed hv hblocks hc hf hdep hcsw h4 h4b hab h0 h1 ha
    have hvv : v.cfg.iface = .vendor := by rw [gv]; exact hv
    obtain ⟨p, hcheck, fp, _, _, ap', _⟩ := checkSticky_vendor hvv (hheld lv) (as := rest) av h2
    obtain ⟨q, hq, fq, aq⟩ := rereadSticky_vendor_raises (y := y) (rest := rest') vs 0
      (show p.cfg.iface = .vendor by rw [fp.cfg]; exact hvv) hws (ap'.trans hrest)
    rw [hlen] at hq
    have hrun := hread _ _ (recoverAccess_sticky (hcheck.trans hq))
    rw [hrun] at hframe
    exact ⟨_, exec_readMemory_error hd hc (Nat.le_of_lt hab) hb hrun, hframe, (unfreeze_answers q).trans aq⟩

end Sys2Proof.Machine

/-! Engine commands that end in an error of their own on a served connection: the busy poll that times out (R239). -/

namespace Sys2Proof.Machine

open Sys2Proof

/-! ## An error as a result -/

/-- A computation that delivers the error it ends in, if any. What the guards of the engine do on the normal path they
then do around it, so the rules for commands that succeed serve for those that fail. -/
def caught {α : Type} (m : Dap α) : Dap (Option DapError) := fun s =>
  match m s with
  | .ok _ t => .ok none t
  | .error e t => .ok (some e) t

section
variable {α : Type} {m : Dap α} {s u : State} {e : DapError}

theorem caught_some : caught m s = .ok (some e) u ↔ m s = .error e u := by
  unfold caught
  cases m s <;> simp

theorem caught_ok {a : α} (h : m s = .ok a u) : caught m s = .ok none u := by
  unfold caught
  rw [h]

/-- The clean-up after a body that fails (R232, R314). -/
theorem withFinally_caught {fin : Dap Unit} (h : withFinally (caught m) fin s = .ok (some e) u) :
    withFinally m fin s = .error e u := by
  cases hm : m s with
  | ok a t =>
    rw [run_withFinally, caught_ok hm] at h
    cases hf : fin t <;> (simp only [hf] at h; cases h)
  | error e' t =>
    rw [run_withFinally, caught_some.mpr hm] at h
    cases hf : fin t with
    | ok _ v =>
      simp only [hf] at h
      cases h
      exact withFinally_error hm hf
    | error _ v =>
      simp only [hf] at h
      cases h

theorem withCsw_caught {c : MemApConnection} {inc : Bool} {size : BitVec 3}
    (h : withCsw c inc size (caught m) s = .ok (some e) u) : withCsw c inc size m s = .error e u := by
  unfold withCsw at h ⊢
  rw [run_getS_bind] at h ⊢
  split at h
  next hv =>
    rw [if_pos hv]
    exact caught_some.mp h
  next hv =>
    rw [if_neg hv]
    rw [run_bind] at h ⊢
    cases hw : writeCsw c.ap (cswVal (s.shadowOf c) inc size) s with
    | ok a t =>
      rw [hw] at h
      exact withFinally_caught h
    | error e' t =>
      rw [hw] at h
      cases h

/-- The guard lets every error pass that is not of a link transaction (R242). -/
theorem engineGuard_caught {ap : ApIndex} (he : ∀ a, e ≠ .dpOrApAccessError a)
    (h : engineGuard ap (caught m) s = .ok (some e) u) : engineGuard ap m s = .error e u := by
  have hcaught : engineGuard ap (caught m) s = caught m s := by
    cases hm : m s with
    | ok a t => exact (onError_ok (caught_ok hm) _).trans (caught_ok hm).symm
    | error e' t => exact (onError_ok (caught_some.mpr hm) _).trans (caught_some.mpr hm).symm
  have hm : m s = .error e u := caught_some.mp (hcaught.symm.trans h)
  refine (onError_error hm _).trans ?_
  cases e with
  | dpOrApAccessError a => exact absurd rfl (he a)
  | _ => rfl

theorem batch_caught {c : MemApConnection} (he : ∀ a, e ≠ .dpOrApAccessError a)
    (h : batch c (caught m) s = .ok (some e) u) : batch c m s = .error e u := by
  unfold batch at h ⊢
  rw [run_bind] at h ⊢
  cases hs : engineGuard c.ap (selectAp c.ap c.drwBank) s with
  | error e' t =>
    rw [hs] at h
    cases h
  | ok a t =>
    rw [hs] at h
    have hf : withFinally (engineGuard c.ap (caught m)) unfreezeSelect t.freeze = .ok (some e) u := h
    show withFinally (engineGuard c.ap m) unfreezeSelect t.freeze = .error e u
    have hguard : ∀ {r v}, engineGuard c.ap (caught m) t.freeze = .ok r v → r = some e →
        engineGuard c.ap m t.freeze = .error e v := fun hr hsome => engineGuard_caught he (hr.trans (by rw [hsome]))
    rw [run_withFinally] at hf
    cases hb : engineGuard c.ap (caught m) t.freeze with
    | error e' v =>
      rw [hb] at hf
      cases hf
    | ok r v =>
      rw [hb] at hf
      cases hf
      exact withFinally_error (hguard hb rfl) rfl

end

/-! ## A connection whose command fails -/

section
variable {α : Type} {c : MemApConnection} {s : State} {t : T0} {e : DapError} {m m' : List Host.Cell}

theorem Fails.caught {op : Dap α} (h : Fails c op s t e m') : Serves c (caught op) s t (some e) m' := by
  obtain ⟨u, t', hu, au, ku⟩ := h
  exact ⟨u, t', caught_some.mpr hu, au, ku⟩

/-- A body that fails with CSW in a mode. -/
theorem withCsw_fails {inc : Bool} {size : BitVec 3} {body : Dap α} (h : Able s t c m)
    (hbody : ∀ x tx px, Quiet x tx c.ap px → CswMode inc size px → tx.mem = m → T0Frame c.ap t tx →
      ∃ u t' q, body x = .error e u ∧ SameAp px q ∧ After x u t' c.ap q m' tx) :
    Fails c (withCsw c inc size body) s t e m' := by
  obtain ⟨u, t', hu, au, ku⟩ := withCsw_able (body := caught body) (r := some e) h fun x tx px qx mx mm fx => by
    obtain ⟨u, t', q, hu, k⟩ := hbody x tx px qx mx mm fx
    exact ⟨u, t', q, caught_some.mpr hu, k⟩
  exact ⟨u, t', withCsw_caught hu, au, ku⟩

/-- A batch whose body fails with an error of its own. -/
theorem batch_fails {body : Dap α} (h : Able s t c m) (he : ∀ a, e ≠ .dpOrApAccessError a)
    (hbody : ∀ x tx, Able x tx c m → T0Frame c.ap t tx → Fails c body x tx e m') : Fails c (batch c body) s t e m' := by
  obtain ⟨u, t', hu, au, ku⟩ := batch_able (body := caught body) (r := some e) h fun x tx ax fx _ _ =>
    (hbody x tx ax fx).caught
  exact ⟨u, t', batch_caught he hu, au, ku⟩

/-- An engine command on a served connection that fails (R234). -/
theorem engine_fails {op : MemApConnection → Dap α} {f : α → Value} {b : Bool} (h : Served s t c) (hb : b = true)
    (hr : Fails c (op c) s t e m) (hk : Keeps (FrameEngine c.ap) (op c)) :
    ∃ u, complete (do requireDetected; requireArg b; let d ← requireConn c.ap; let a ← op d; pure (f a)) s =
        .next (u.pushResult (.error e)) ∧ FrameEngine c.ap s u ∧ ServedAfter u t c m := by
  obtain ⟨u, t', hu, au, ku⟩ := hr
  have hf := hk s
  rw [hu] at hf
  exact ⟨u, (complete_passed (requireDetected_ok h.detected)).trans ((complete_passed (requireArg_ok hb s)).trans
    ((complete_passed (requireConn_some h.conn)).trans (complete_error (run_bind_error hu)))), hf, au.after ku h.detected⟩

end

/-! ## The busy poll (R239, R240) -/

section
variable {ap : ApIndex} {b : BusyCheck} {s : State} {t : T0} {p : T0Ap}

/-- Every poll reads the same word, and the last one raises. -/
theorem busyLoop_quiet (n : Nat) (h : Quiet s t ap (p.withTar b.addr)) (hm : WordMode false p) (hb : GoodWord t b.addr)
    (hi : ¬ BusyIdle t.mem b) :
    ∃ u t', busyLoop ap b n s = .error (.busyPollTimeout b.addr (Memory.read32 t.mem b.addr.toNat)) u ∧
      After s u t' ap (p.withTar b.addr) t.mem t := by
  induction n generalizing s t with
  | zero =>
    obtain ⟨u, t', hu, au⟩ := readDrw_word h (hb.access hm)
    rw [bumpTar_off (p := p.withTar b.addr) hm.inc] at au
    refine ⟨u, t', ?_, au⟩
    unfold busyLoop
    rw [run_bind_ok hu]
    exact congrFun (if_neg hi) u
  | succ n ih =>
    obtain ⟨x, tx, hx, ax⟩ := readDrw_word h (hb.access hm)
    rw [bumpTar_off (p := p.withTar b.addr) hm.inc] at ax
    obtain ⟨u, t', hu, au⟩ := ih ax.quiet (hb.frame ax.step.frame) (by rw [ax.step.mem]; exact hi)
    rw [ax.step.mem] at hu au
    refine ⟨u, t', ?_, ax.trans au⟩
    unfold busyLoop
    rw [run_bind_ok hx]
    exact (congrFun (if_neg hi) x).trans hu

/-- A busy check that is not satisfied ends the command. -/
theorem awaitIdle_fails (h : Quiet s t ap p) (hm : WordMode false p) (hb : GoodWord t b.addr) (hi : ¬ BusyIdle t.mem b)
    (a : W32) : ∃ u t' q, awaitIdle ap b a s =
        .error (.busyPollTimeout b.addr (Memory.read32 t.mem b.addr.toNat)) u ∧ SameAp p q ∧ After s u t' ap q t.mem t := by
  obtain ⟨x, tx, hx, ax⟩ := writeTar_quiet h b.addr
  obtain ⟨u, t', hu, au⟩ := busyLoop_quiet (x.cfg.busyPollLimit - 1) ax.quiet hm (hb.frame ax.step.frame)
    (by rw [ax.step.mem]; exact hi)
  rw [ax.step.mem] at hu au
  refine ⟨u, t', _, ?_, ⟨_, rfl⟩, ax.trans au⟩
  unfold awaitIdle
  rw [run_bind_ok hx, run_getS_bind, run_bind_error hu]

end

/-- A poll command whose busy check comes first and is not satisfied. -/
theorem poll_fails {α : Type} {s : State} {t : T0} {c : MemApConnection} {b : BusyCheck} {a : W32} (h : Served s t c)
    (hb : GoodWord t b.addr) (hi : ¬ BusyIdle t.mem b) {rest : Unit → Dap α} {body : Dap α}
    (hbody : body = awaitIdle c.ap b a >>= rest) :
    Fails c (batch c (withCsw c false sizeWord body)) s t
      (.busyPollTimeout b.addr (Memory.read32 t.mem b.addr.toNat)) t.mem := by
  refine batch_fails h.able (fun _ => nofun) fun x tx ax fx => withCsw_fails ax fun y ty py qy my mm fy => ?_
  obtain ⟨u, t', q, hu, k⟩ := awaitIdle_fails qy my.word ((hb.frame fx).frame fy) (by rw [mm]; exact hi) a
  rw [mm] at hu k
  rw [hbody]
  exact ⟨u, t', q, run_bind_error hu, k⟩

/-- Settles O50: the first busy check of either command fails, whatever its other operands are. -/
theorem busyPollTimesOut : Obligations.BusyPollTimesOut := by
  intro s t c a b h ha hb hi
  have hok : ∀ n, 1 ≤ n → pollOk a n (some b) = true := fun n hn =>
    pollOk_iff.mpr ⟨ha.aligned, hn, fun b' e => by cases e; exact hb.aligned⟩
  refine ⟨fun n hn => ?_, fun values hn => ?_⟩
  · obtain ⟨n, rfl⟩ := Nat.exists_eq_succ_of_ne_zero (Nat.ne_of_gt hn)
    exact engine_fails h (hok _ hn) (poll_fails h hb hi rfl)
      (keeps_pollRead (frameEngine_stable c.ap) rfl a (n + 1) (some b))
  · have hok' : (pollOk a values.length (some b) && values.length == values.length) = true := by
      rw [hok _ hn, beq_self_eq_true]
      rfl
    cases values with
    | nil => exact absurd hn (by decide)
    | cons w ws =>
      exact engine_fails (op := fun d => pollWrite d a (w :: ws) (some b)) (f := fun _ => .unit) h hok'
        (poll_fails h hb hi rfl) (keeps_pollWrite (frameEngine_stable c.ap) rfl a (w :: ws) (some b))

end Sys2Proof.Machine

/-! How many ABORT writes the retry of an operation makes, exactly: none in an attempt, one in CLEAR_STICKY (R270). -/

namespace Sys2Proof.Machine

open Sys2Proof

/-! ## Exact counts -/

/-- From `s` to `t` exactly `n` ABORT writes are begun and made. -/
def AbortExact (n : Nat) (s t : State) : Prop :=
  ∃ es, t.trace = s.trace ++ es ∧ es.countP isAbortCall = n ∧
    ∀ rest, abortWritesIn (underAbort s) 0 (es ++ rest) = n + abortWritesIn (underAbort t) 0 rest

section
variable {s t u : State}

theorem AbortCount.exact (h : AbortCount 0 0 s t) : AbortExact 0 s t := by
  obtain ⟨es, _, ht, hc, k, hk, hw⟩ := h
  rw [Nat.le_zero.mp hk] at hw
  exact ⟨es, ht, Nat.le_zero.mp hc, hw⟩

theorem AbortExact.trans {n k : Nat} (h : AbortExact n s t) (g : AbortExact k t u) : AbortExact (n + k) s u := by
  obtain ⟨es, ht, hc, hw⟩ := h
  obtain ⟨es', ht', hc', hw'⟩ := g
  refine ⟨es ++ es', by rw [ht', ht, List.append_assoc], by rw [List.countP_append, hc, hc'], fun rest => ?_⟩
  rw [List.append_assoc, hw, hw', Nat.add_assoc]

theorem AbortExact.counts {n : Nat} (h : AbortExact n s u) : abortCalls s u = n ∧ abortWrites s u = n := by
  obtain ⟨es, ht, hc, hw⟩ := h
  have hnew := newCalls_of_trace ht
  have hall := hw []
  rw [List.append_nil] at hall
  unfold abortCalls abortWrites
  rw [hnew]
  exact ⟨hc, hall⟩

/-- Calls that load no ABORT keep another instruction loaded: a scan after them is no ABORT write. -/
theorem abortWritesIn_unloaded (es : List WireEvent) (hes : es.countP isAbortCall = 0) (req rsp : Scan) (w : Nat) :
    abortWritesIn false w (es ++ [.drScan req rsp]) = 0 := by
  induction es generalizing w with
  | nil => rfl
  | cons e es ih =>
    obtain ⟨hes', he⟩ : es.countP isAbortCall = 0 ∧ isAbortCall e = false := by
      rw [List.countP_cons] at hes
      cases he : isAbortCall e with
      | false => exact ⟨by omega, rfl⟩
      | true => rw [he, if_pos rfl] at hes; omega
    cases e with
    | irScan v =>
      have hv : (v == IrCode.abort.code) = false := he
      show abortWritesIn (v == IrCode.abort.code) 0 (es ++ _) = 0
      rw [hv]
      exact ih hes' 0
    | drScan q r => exact (Nat.zero_add _).trans (ih hes' _)
    | driveLine segs bits =>
      show (if isAbortCall (.driveLine segs bits) then 1 else 0) + abortWritesIn false 0 (es ++ _) = 0
      rw [he, ih hes']
      rfl
    | backend c r =>
      show (if isAbortCall (.backend c r) then 1 else 0) + abortWritesIn false 0 (es ++ _) = 0
      rw [he, ih hes']
      rfl

/-- Without an ABORT write no ABORT instruction gets loaded. -/
theorem AbortCount.underAbort_false (h : AbortCount 0 0 s t) (hs : underAbort s = false) : underAbort t = false := by
  obtain ⟨es, _, hc, hw⟩ := h.exact
  have hscan := hw [.drScan 0 0]
  rw [hs, abortWritesIn_unloaded es hc] at hscan
  cases ht : underAbort t with
  | false => rfl
  | true =>
    rw [ht] at hscan
    exact absurd hscan (by decide)

end

/-! ## CLEAR_STICKY (R200) -/

theorem swdIdleCalls_abort (n : Nat) : (swdIdleCalls n).countP isAbortCall = 0 ∧
    ∀ under rest, abortWritesIn under 0 (swdIdleCalls n ++ rest) = abortWritesIn under 0 rest := by
  cases n with
  | zero => exact ⟨rfl, fun _ _ => rfl⟩
  | succ n =>
    have hne : isAbortCall (.driveLine [.out (List.replicate (n + 1) false)] []) = false := rfl
    refine ⟨?_, fun under rest => ?_⟩
    · simp only [swdIdleCalls, List.countP_singleton, hne]
      rfl
    · simp only [swdIdleCalls, List.singleton_append, abortWritesIn, hne]
      exact Nat.zero_add _

/-- The ABORT write in the loop, begun once and made once: another instruction was loaded before it. -/
theorem linkAbort_exact {s : State} {t : T0} (h : Loop s t) (hu : s.cfg.iface = .jtag → underAbort s = false) (v : W32) :
    ∃ u t', linkAbort v s = .ok () u ∧ FrameLink s u ∧ Loop u t' ∧ t'.settled = (t.dpWrite 0x0 v).settled ∧
      AbortExact 1 s u := by
  obtain ⟨u, t', hrun, fu, lu, eu⟩ := linkAbort_loop h v
  refine ⟨u, t', hrun, fu, lu, eu, ?_⟩
  rcases h.iface with hi | hi
  · obtain ⟨x, hx, jx, tx⟩ := jtagScan_trace h hi .abort false 0x0 v
    have hrun' : linkAbort v s = .ok () x := (linkAbort_jtag hi v).trans (run_bind_ok hx)
    cases hrun.symm.trans hrun'
    have hload : irselCalls s .abort = [.irScan IrCode.abort.code] := by
      unfold irselCalls
      refine if_neg fun he => ?_
      have hno := hu hi
      unfold underAbort at hno
      rw [he] at hno
      exact absurd hno (by decide)
    have hack : ¬ (drAck (t.rdbuff ++ 0b010#3) = 0b001#3 ∧ 0 < Config.waitThreshold) := by
      rw [drAck_append]
      decide
    rw [hload] at tx
    refine ⟨_, tx, rfl, fun rest => ?_⟩
    have hafter : underAbort u = true := by
      unfold underAbort
      rw [jx]
      rfl
    rw [hafter]
    show 1 + abortWritesIn true (if _ then _ else _) rest = _
    rw [if_neg hack]
  · have hok : t.xferOk false false 0x0 = true := by
      unfold T0.xferOk
      rfl
    obtain ⟨x, hx, tx⟩ := swdWrite_trace h (a := 0x0) (by decide) hok v
    have hrun' : linkAbort v s = .ok () x := (linkAbort_swd hi v).trans (run_bind_ok hx)
    cases hrun.symm.trans hrun'
    have hsame : underAbort u = underAbort s := by
      unfold underAbort
      rw [fu.jtagIr (by rw [hi]; decide)]
    obtain ⟨hc, hw⟩ := swdIdleCalls_abort s.cfg.swdIdleCycles
    refine ⟨_, tx, ?_, fun rest => ?_⟩
    · rw [List.countP_append, hc]
      rfl
    · rw [hsame, List.append_assoc]
      show 1 + (0 + abortWritesIn _ 0 (swdIdleCalls s.cfg.swdIdleCycles ++ rest)) = _
      rw [hw, Nat.zero_add]

/-! ## CHECK_STICKY leaves DPACC loaded (R199) -/

/-- A DP read in the loop on JTAG ends under DPACC. -/
theorem linkDpRead_loads {s u : State} {t : T0} {a : RegAddr} {v : W32} (h : Loop s t) (hj : s.cfg.iface = .jtag)
    (hr : linkDpRead a s = .ok v u) : underAbort u = false := by
  obtain ⟨x, hx, fx, _, _, lx⟩ := jtagScan_loop h hj .dpacc true a 0
  obtain ⟨y, hy, _, jy, _⟩ := jtagScan_loop lx (show x.cfg.iface = .jtag by rw [fx.cfg]; exact hj) .dpacc true 0xC 0
  have hread : linkDpRead a s = jtagDpaccRd a s := by
    unfold linkDpRead
    rw [run_getS_bind, hj]
  have hrun := hread.trans ((run_bind_ok (f := fun _ => jtagScan .dpacc true 0xC 0) hx).trans hy)
  cases hr.symm.trans hrun
  unfold underAbort
  rw [jy]
  rfl

theorem checkSticky_loads {s : State} {t : T0} (h : Closed s t) (hj : s.cfg.iface = .jtag) :
    underAbort (endState (checkSticky s)) = false := by
  obtain ⟨x, tx, u, t', hx, hu, _, _, _, _, cx, fx, _, _⟩ := ctrlStat_closed h
  have hload := linkDpRead_loads cx.toLoop (by rw [fx.cfg]; exact hj) hu
  have hrest : AbortCount 0 0 u (endState ((if noSticky t.ctrlStat then pure () else
      rereadSticky Config.stickyRereadMax t.ctrlStat : Dap Unit) u)) :=
    keeps_ite (keeps_pure abortFree_chain _) (keeps_rereadSticky abortFree_stable.toSelectStable _ _) u
  unfold checkSticky
  rw [run_bind_ok hx, run_bind_ok hu]
  exact hrest.underAbort_false hload

end Sys2Proof.Machine

/-! The retry-once policy (R270): an attempt whose one access T0 turns into sticky flags, the ABORT write that clears
them, and the attempt that then succeeds. -/

namespace Sys2Proof.Machine

open Sys2Proof

/-! ## One read through the batch -/

section
variable {s : State}

/-- A sequence of one read is the read (R156, R175). -/
theorem linkApReadN_one (hi : s.cfg.iface = .jtag ∨ s.cfg.iface = .swd) (a : RegAddr) :
    linkApReadN a 1 s = (linkApRead a >>= fun v => pure [v]) s := by
  unfold linkApReadN linkApRead
  rw [bind_assoc, run_getS_bind, run_getS_bind]
  rcases hi with hi | hi
  · rw [hi]
    show jtagReadn [(.apacc, a)] s = (jtagApaccRd a >>= fun v => pure [v]) s
    unfold jtagReadn jtagApaccRd
    simp only [jtagReadScans, bind_assoc, pure_bind, List.tail_cons]
  · rw [hi]
    show swdReadn a 1 s = (swdApRd a >>= fun v => pure [v]) s
    unfold swdReadn swdApRd
    simp only [swdReadXfers, bind_assoc, pure_bind, List.tail_cons]

theorem apReadN_one {u : State} {t : T0} {ap : ApIndex} {addr : BitVec 12} {v : W32} (h : Closed s t)
    (hr : apRead ap addr s = .ok v u) : apReadN ap addr 1 s = .ok [v] u := by
  obtain ⟨x, _, hx, fx, _, _, _⟩ := writeSelect_closed h (selVal ap addr)
  have hread : apRead ap addr s = linkApRead (apLinkAddr addr) x := by
    unfold apRead
    rw [run_bind_ok hx]
  unfold apReadN
  rw [run_bind_ok hx, linkApReadN_one (by rw [fx.cfg]; exact h.iface)]
  exact run_bind_ok (hread.symm.trans hr)

/-- The freeze of a batch whose selection and body work (R244). -/
theorem batch_ok {α : Type} {c : MemApConnection} {m : Dap α} {x y : State} {r : α}
    (hs : selectAp c.ap c.drwBank s = .ok () x) (hm : m x.freeze = .ok r y) : batch c m s = .ok r y.unfreeze := by
  unfold batch
  rw [run_bind_ok (engineGuard_ok (ap := c.ap) hs)]
  refine (run_upd_bind State.freeze _ x).trans ?_
  rw [run_withFinally, engineGuard_ok hm]
  rfl

theorem Closed.freeze {t : T0} (h : Closed s t) (hs : ∀ v, s.selectLast = some v → t.select = v) : Closed s.freeze t :=
  ⟨⟨h.iface, h.target, h.noWait, h.ir⟩, fun _ => hs⟩

theorem Closed.unfreeze {t : T0} (h : Closed s t) : Closed s.unfreeze t := by
  unfold State.unfreeze
  split
  · exact h
  · refine ⟨⟨h.iface, h.target, h.noWait, h.ir⟩, fun hv => ?_⟩
    have hvalid : (s.freezeDepth != 1 && s.frozenValid) = true := hv
    exact h.select (Bool.and_eq_true _ _ ▸ hvalid).2

end

/-- One word is one run (R233). -/
theorem runs_one {a : Nat} (h : a % 4 = 0) (inc : Bool) : runs inc a (a + 4) = [(a, 1)] := by
  have hfuel : (a + 4 - a) / 4 = 1 := by omega
  have hend : (if inc then runEnd a (a + 4) else a + 4) = a + 4 := by
    cases inc with
    | false => rfl
    | true =>
      show min (a + 4) (1024 * (a / 1024 + 1)) = a + 4
      omega
  unfold runs
  rw [hfuel, runsFrom, if_pos (Nat.lt_add_of_pos_right (by decide))]
  show ((a, ((if inc then runEnd a (a + 4) else a + 4) - a) / 4) :: runsFrom inc 0 _ _) = _
  rw [hend, hfuel]
  rfl

/-! ## The attempt that faults (R407) -/

/-- What the engine's accesses leave of the caches and the configuration. -/
structure SameCaches (s u : State) : Prop where
  dpVersion : u.dpVersion = s.dpVersion
  apState : u.apState = s.apState
  conn : u.conn = s.conn
  cfg : u.cfg = s.cfg

section
variable {s u v : State}

theorem FrameSelect.caches (h : FrameSelect s u) : SameCaches s u := ⟨h.dpVersion, h.apState, h.conn, h.cfg⟩

theorem SameCaches.trans (h : SameCaches s u) (k : SameCaches u v) : SameCaches s v :=
  ⟨k.dpVersion.trans h.dpVersion, k.apState.trans h.apState, k.conn.trans h.conn, k.cfg.trans h.cfg⟩

theorem SameCaches.freeze (h : SameCaches s u) : SameCaches s u.freeze := ⟨h.dpVersion, h.apState, h.conn, h.cfg⟩

theorem SameCaches.unfreeze (h : SameCaches s u) : SameCaches s u.unfreeze :=
  ⟨(unfreeze_dpVersion u).trans h.dpVersion, (unfreeze_apState u).trans h.apState, (unfreeze_conn u).trans h.conn,
    (unfreeze_cfg u).trans h.cfg⟩

end

/-- T0 after a selection, a write of TAR and an injected fault that sets the flags `m`. -/
def T0.struck (t : T0) (v : W32) (p : T0Ap) (m : W32) : T0 :=
  { (t.withSelect v).setAp p with inject := none, sticky := m }

/-- A T0 in the detected layout whose next DRW access sets the flags `m`. -/
structure Armed (s : State) (t : T0) (c : MemApConnection) (p : T0Ap) (m : W32) : Prop where
  closed : Closed s t
  layout : layoutBase s.dpVersion = t.layout
  sticky : t.sticky = 0
  inject : t.inject = some (1, m)
  member : t.apOf c.ap = some p

theorem apOf_setAp {t : T0} {ap : ApIndex} {p q : T0Ap} (h : t.apOf ap = some p) (hq : q.index = ap) (v : W32) :
    ((t.withSelect v).setAp q).apOf ap = some q := find_setAp h hq

theorem settled_struck {t x : T0} {v0 v m : W32} {q : T0Ap} (hx : x.settled = ((t.withSelect v0).setAp q).settled)
    (hs : x.sticky = 0) :
    ({ x.withSelect v with inject := none, sticky := x.sticky ||| m } : T0).settled = (t.struck v q m).settled := by
  have hm : x.sticky ||| m = m := by
    rw [hs]
    exact BitVec.zero_or
  rw [hm]
  exact congrArg (fun w : T0 => { w.withSelect v with inject := none, sticky := m }) hx

/-- The ABORT write that clears the flags leaves the target as before the fault, with TAR written (R404). -/
theorem settled_cleared {t x : T0} {v w m val : W32} {q : T0Ap} (hs : t.sticky = 0) (hi : t.inject = none)
    (hx : x.settled = ((({ t with inject := some (1, m) } : T0).struck v q m).withSelect w).settled)
    (hm : m &&& ~~~(T0.abortClears val) = 0) :
    (x.dpWrite 0x0 val).settled = ((t.withSelect w).setAp q).settled := by
  rw [← dpWrite_settled, hx, dpWrite_settled]
  unfold T0.dpWrite
  rw [if_pos rfl]
  show (({ t.withSelect w with inject := none, sticky := m &&& ~~~(T0.abortClears val) } : T0).setAp q).settled = _
  rw [hm]
  cases t
  dsimp only at hs hi
  subst hs hi
  rfl

/-- The run of one word: TAR is written, and the access of DRW faults. -/
theorem runRead_struck {s : State} {t : T0} {c : MemApConnection} {p : T0Ap} {m : W32} (h : Armed s t c p m) (a : Nat) :
    ∃ w u t' v, runRead c.ap a 1 s = .ok [w] u ∧ FrameSelect s u ∧ Closed u t' ∧
      t'.settled = (t.struck v (p.withTar (w32 a)) m).settled := by
  obtain ⟨hc, hl, hs, hi, hp⟩ := h
  have hq : (p.withTar (w32 a)).index = c.ap := apOf_index (p := p) hp
  obtain ⟨x, tx, hx, fx, cx, _, ex⟩ := apWrite_closed hc hs c.ap (apReg_aligned s (off := tarOffset) (by decide)) (w32 a)
  unfold State.apReg at ex
  rw [apAccess_reg hp hl, if_neg (by decide), if_pos rfl, if_neg Bool.false_ne_true] at ex
  have px : tx.apOf c.ap = some (p.withTar (w32 a)) := by
    have haps : tx.aps = ((t.withSelect (selVal c.ap (layoutBase s.dpVersion + tarOffset))).setAp
      (p.withTar (w32 a))).aps := (congrArg T0.aps ex :)
    unfold T0.apOf
    rw [haps]
    exact apOf_setAp hp hq _
  have lx : layoutBase x.dpVersion = tx.layout := by
    rw [fx.dpVersion]
    exact hl.trans (congrArg T0.layout ex :).symm
  have sx : tx.sticky = 0 := (congrArg T0.sticky ex :).trans hs
  have ix : tx.inject = some (1, m) := (congrArg T0.inject ex :).trans hi
  obtain ⟨y, ty, hy, fy, cy, _, ey⟩ := apRead_closed cx sx c.ap (apReg_aligned x (off := drwOffset) (by decide))
  unfold State.apReg at hy ey
  rw [apAccess_drw px lx,
    drw_fire (t := tx.withSelect (selVal c.ap (layoutBase x.dpVersion + drwOffset))) ix] at hy ey
  refine ⟨0, y, ty, selVal c.ap (layoutBase x.dpVersion + drwOffset), ?_, fx.trans fy, cy, ey.trans ?_⟩
  · have hblocks : s.cfg.blocks = false := by
      unfold Config.blocks
      rcases hc.iface with hi | hi <;> rw [hi] <;> rfl
    have htar : apRegWrite c.ap tarOffset (w32 a) s = .ok () x := by
      unfold apRegWrite
      rw [run_getS_bind, hx]
    unfold runRead
    rw [run_getS_bind, hblocks, if_neg Bool.false_ne_true]
    unfold runReadPlain
    rw [run_bind_ok htar, run_getS_bind]
    exact apReadN_one cx hy
  · exact settled_struck ex sx

/-- READ_MEMORY of one word, whose access faults: it delivers bytes, and T0 holds the flags. -/
theorem readMemory_struck {s : State} {t : T0} {c : MemApConnection} {p : T0Ap} {m : W32} {a : Nat} (h : Armed s t c p m)
    (hc : s.connOf c.ap = some c) (hcsw : cswVal c.cswShadow c.autoinc sizeWord = c.cswShadow) (h4 : a % 4 = 0) :
    ∃ bs u t' v, readMemory c a (a + 4) s = .ok bs u ∧ SameCaches s u ∧ Closed u t' ∧
      t'.settled = (t.struck v (p.withTar (w32 a)) m).settled := by
  obtain ⟨x, tx, hx, fx, cx, sx, ex⟩ := writeSelect_closed h.closed (selVal c.ap c.drwBank)
  have kx := fx.caches.freeze
  have cf : Closed x.freeze tx := cx.freeze fun v hv => by
    cases sx.symm.trans hv
    exact settled_select ex
  have hx' : Armed x.freeze tx c p m := by
    refine ⟨cf, ?_, settled_sticky ex |>.trans h.sticky, (congrArg T0.inject ex :).trans h.inject, ?_⟩
    · rw [kx.dpVersion]
      exact h.layout.trans (congrArg T0.layout ex :).symm
    · have haps : tx.aps = t.aps := (congrArg T0.aps ex :)
      unfold T0.apOf
      rw [haps]
      exact h.member
  obtain ⟨w, y, ty, v, hy, fy, cy, ey⟩ := runRead_struck hx' a
  have h4b : (a + 4) % 4 = 0 := by omega
  have hwords : readWords c a (a + 4) x.freeze = .ok ([w] ++ []) y := by
    rw [readWords_runs ((connOf_congr kx.conn c.ap).trans hc) hcsw, runs_one h4]
    exact run_bind_ok hy
  refine ⟨((bytesOfWords [w]).drop (a - a)).take (a + 4 - a), y.unfreeze, ty, v, ?_,
    (kx.trans fy.caches).unfreeze, cy.unfreeze, ey.trans ?_⟩
  · unfold readMemory
    rw [if_neg (show ¬ a = a + 4 by omega)]
    refine batch_ok hx ?_
    rw [run_bind_ok (takesNative_aligned h4 h4b c.ap x.freeze), if_neg Bool.false_ne_true, wordFloor_aligned h4,
      wordCeil_aligned h4b, run_bind_ok hwords]
    rfl
  · exact congrArg (fun w : T0 => w.struck v (p.withTar (w32 a)) m) ex

/-! ## The flags that CLEAR_STICKY clears (R125, R404) -/

/-- The ABORT value of CLEAR_STICKY clears every flag but STICKYORUN, and that with overrun detection. -/
theorem abortVal_clears {orun : Bool} {m : W32} (hm : m &&& ~~~(if orun then 0xB2#32 else 0xB0#32) = 0) :
    m &&& ~~~(T0.abortClears (if orun then 0x1E else 0x0E)) = 0 := by
  have hv : T0.abortClears (if orun then 0x1E else 0x0E) = if orun then 0xB2#32 else 0xB0#32 := by
    cases orun <;> decide
  rw [hv]
  exact hm

/-- The flags it clears are sticky flags. -/
theorem stickyMask_of_clears {orun : Bool} {m : W32} (hm : m &&& ~~~(if orun then 0xB2#32 else 0xB0#32) = 0) :
    m &&& ~~~stickyMask = 0 := by
  have hsub : ~~~stickyMask = ~~~(if orun then 0xB2#32 else 0xB0#32) &&& ~~~stickyMask := by
    cases orun <;> decide
  rw [hsub, ← BitVec.and_assoc, hm]
  exact BitVec.zero_and

/-! ## The two attempts (R270) -/

section
variable {α : Type} {s u v : State} {op : Dap α}

/-- An operation that works and leaves a flag fails its attempt. -/
theorem attempt_flagged {r : α} {w : W32} (ho : op s = .ok r u)
    (hc : checkSticky u = .error (.stickyProtocolError w) v) :
    attempt checkSticky op s = .error (.stickyProtocolError w) v := by
  unfold attempt
  rw [run_bind_ok ho, run_bind_error hc]

/-- A first attempt with a sticky error, CLEAR_STICKY, and a second attempt. -/
theorem stickyRetry_second {w : W32} (h1 : attempt checkSticky op s = .error (.stickyProtocolError w) u)
    (hc : clearSticky u = .ok () v) : stickyRetry op s = attempt checkSticky op v := by
  unfold stickyRetry withStickyRetry
  exact (onError_error h1 _).trans (run_bind_ok hc)

end

/-- An attempt of READ_MEMORY makes no ABORT write. -/
theorem attempt_abortFree {s : State} (ap : ApIndex) (a b : Nat) (hd : detected s.dpVersion = true) :
    AbortCount 0 0 s (endState (attempt checkSticky (resolveStrict ap >>= fun c => readMemory c a b) s)) := by
  have hstable := abortFree_stable.andCommand fun _ _ _ _ _ => trivial
  exact (keeps_attempt hstable trivial (fun _ _ => keeps_readMemory hstable.toEngineStable trivial a b) hd).1

/-- The second attempt of a served connection. -/
theorem attempt_serves {s : State} {t : T0} {c : MemApConnection} {m : List Host.Cell} {a b : Nat} (h : Able s t c m)
    (hp : s.apStateOf c.ap = .presentEnabled) (hc : s.connOf c.ap = some c) (hab : a ≤ b) (hb : b ≤ 2 ^ 32)
    (hg : t.goodRange (wordFloor a) (wordCeil b)) :
    Serves c (attempt checkSticky (resolveStrict c.ap >>= fun c => readMemory c a b)) s t (Memory.bytes m a (b - a)) m := by
  have hread : Serves c (resolveStrict c.ap >>= fun c => readMemory c a b) s t (Memory.bytes m a (b - a)) m := by
    unfold Serves
    rw [run_bind_ok (resolveStrict_cached hp hc)]
    exact readMemory_able h hab hb hg
  unfold attempt
  refine hread.bind fun u t' au _ => ?_
  exact (checkSticky_able au).bind fun v t'' av _ => Serves.pure av _

/-- The state of the statement: the target's next DRW access is to fault (R407). -/
def State.arm (s : State) (t : T0) (m : W32) : State := s.setTarget (some { t with inject := some (1, m) })

/-- The first attempt and CLEAR_STICKY: the connection is served again, after one ABORT write. -/
theorem fault_cleared {s : State} {t : T0} {c : MemApConnection} {a : Nat} {m : W32} (h : Served s t c)
    (hp : s.apStateOf c.ap = .presentEnabled) (h4 : a % 4 = 0)
    (hcsw : cswVal c.cswShadow c.autoinc sizeWord = c.cswShadow) (hm : m ≠ 0)
    (hmask : m &&& ~~~(if s.cfg.orunDetect then 0xB2#32 else 0xB0#32) = 0) :
    ∃ w x y ty, attempt checkSticky (resolveStrict c.ap >>= fun c => readMemory c a (a + 4)) (s.arm t m) =
          .error (.stickyProtocolError w) x ∧
      clearSticky x = .ok () y ∧ SameCaches s y ∧ Able y ty c t.mem ∧ Kept s y t ty c ∧
      AbortExact 1 (s.arm t m) y := by
  obtain ⟨p, hap, hen, hlow⟩ := h.member
  have armed : Armed (s.arm t m) { t with inject := some (1, m) } c p m :=
    ⟨⟨⟨h.closed.iface, rfl, h.closed.noWait, h.closed.ir⟩, h.closed.select⟩, h.layout, h.sticky, rfl, hap⟩
  obtain ⟨bs, u, tu, v, hu, ku, cu, eu⟩ := readMemory_struck armed h.conn hcsw h4
  have hinv : T0Inv tu := by
    refine T0Inv.of_settled (t := ({ t with inject := some (1, m) } : T0).struck v (p.withTar (w32 a)) m) ?_ eu
    have hset : T0Inv ((t.withSelect v).setAp (p.withTar (w32 a))) :=
      (h.inv.withSelect v).setAp (h.inv.deviceEn p (List.mem_of_find?_eq_some hap))
    exact ⟨hset.mem, hset.ctrl, stickyMask_of_clears hmask, trivial, hset.deviceEn⟩
  have hflag : tu.sticky = m := (congrArg T0.sticky eu :)
  obtain ⟨x, tx, hx, fx, cx, _, ex⟩ := checkSticky_raises cu hinv (by rw [hflag]; exact hm)
  have hfirst : attempt checkSticky (resolveStrict c.ap >>= fun c => readMemory c a (a + 4)) (s.arm t m) =
      .error (.stickyProtocolError tu.ctrlStat) x :=
    attempt_flagged ((run_bind_ok (s := s.arm t m) (resolveStrict_cached hp h.conn)).trans hu) hx
  have hload : x.cfg.iface = .jtag → underAbort x = false := fun hj => by
    have hloads := checkSticky_loads cu (show u.cfg.iface = .jtag by rw [← fx.cfg]; exact hj)
    rw [hx] at hloads
    exact hloads
  obtain ⟨y, ty, hy, fy, ly, ey, ay⟩ := linkAbort_exact cx.toLoop hload (if x.cfg.orunDetect then 0x1E else 0x0E)
  have ksx : SameCaches s x :=
    ⟨fx.dpVersion.trans ku.dpVersion, fx.apState.trans ku.apState, fx.conn.trans ku.conn, fx.cfg.trans ku.cfg⟩
  have hclear : clearSticky x = .ok () y := (clearSticky_run x).trans hy
  have hsettled : ty.settled = ((t.withSelect (selDp u.selectLast 0)).setAp (p.withTar (w32 a))).settled := by
    refine ey.trans (settled_cleared (v := v) (m := m) h.sticky h.inject ?_ ?_)
    · exact ex.trans (congrArg (T0.withSelect · (selDp u.selectLast 0)) eu)
    · rw [ksx.cfg]
      exact abortVal_clears hmask
  have kstep : ApStep c.ap (p.withTar (w32 a)) t.mem t ty :=
    ApStep.of_setAp (q := p.withTar (w32 a)) (v := selDp u.selectLast 0) (m := t.mem) hap
      (apOf_index (p := p) hap) rfl hsettled
  have cy : Closed y ty := cx.of_link fy ly ((settled_select ey).trans rfl)
  have ksy : SameCaches s y := ksx.trans fy.toSelect.caches
  have quiet : Quiet s t c.ap p := ⟨h.closed, h.layout, h.inv, h.sticky, h.inject, hap⟩
  have hinvy : T0Inv ty := T0Inv.of_settled ((h.inv.withSelect _).setAp (p := p.withTar (w32 a))
    (h.inv.deviceEn p (List.mem_of_find?_eq_some hap))) hsettled
  have same : SameAp p (p.withTar (w32 a)) := ⟨_, rfl⟩
  have agrees : CswAgrees p c.cswShadow := ⟨hen, hlow⟩
  have hcount := (attempt_abortFree c.ap a (a + 4) (s := s.arm t m) h.detected)
  rw [hfirst] at hcount
  exact ⟨_, x, y, ty, hfirst, hclear, ksy,
    ⟨⟨_, quiet.step cy ksy.dpVersion hinvy kstep, agrees.same same⟩,
      ⟨c.subword, (connOf_congr ksy.conn c.ap).trans h.conn⟩, kstep.mem⟩,
    ⟨ksy.dpVersion, kstep.frame, .of hap kstep.member (same.restored _)⟩, hcount.exact.trans ay⟩

/-- Settles O47: the first attempt sets the flags, CLEAR_STICKY is the one ABORT write, and the second attempt is that of
a served connection. -/
theorem retryOnceRecovers : Obligations.RetryOnceRecovers := by
  intro s t c a m h hp h4 hb hg hcsw hm hmask
  obtain ⟨w, x, y, ty, hfirst, hclear, ky, ay, kept, count1⟩ := fault_cleared h hp h4 hcsw hm hmask
  have hg' : ty.goodRange (wordFloor a) (wordCeil (a + 4)) := by
    rw [wordFloor_aligned h4, wordCeil_aligned (show (a + 4) % 4 = 0 by omega)]
    exact fun z hz => hg z (kept.frame.bad ▸ hz)
  have hpy : y.apStateOf c.ap = .presentEnabled := by
    unfold State.apStateOf
    rw [ky.apState]
    exact hp
  obtain ⟨u, t', hu, au, ku⟩ := attempt_serves ay hpy ((connOf_congr ky.conn c.ap).trans h.conn) (Nat.le_add_right a 4)
    hb hg'
  rw [Nat.add_sub_cancel_left] at hu
  have hretry := (stickyRetry_second hfirst hclear).trans hu
  have hdy : detected y.dpVersion = true := by rw [ky.dpVersion]; exact h.detected
  have hcount := attempt_abortFree c.ap a (a + 4) hdy
  rw [hu] at hcount
  obtain ⟨ncalls, nwrites⟩ := (count1.trans hcount.exact).counts
  have hframe := frameResolve_stickyRetry (s := s.arm t m) h.owned
    (k := fun c => readMemory c a (a + 4))
    (fun d hd => keeps_readMemory (ownedFrame_stable c.ap).toEngineStable hd a (a + 4)) h.detected
  rw [hretry] at hframe
  refine ⟨u, ?_, ⟨⟨hframe.dpVersion, hframe.freezeDepth, hframe.frozenValid, hframe.jtagIr, hframe.cfg, hframe.commands,
    hframe.pc, hframe.results, hframe.trace⟩, hframe.apStates, hframe.probed, hframe.conns⟩,
    au.after (kept.trans ku) h.detected, ncalls, nwrites⟩
  exact (complete_passed (requireDetected_ok (s := s.arm t m) h.detected)).trans
    ((complete_passed (requireArg_ok (rangeOk_iff.mpr ⟨Nat.le_add_right a 4, hb⟩) _)).trans
      (complete_ok (run_bind_ok hretry)))

end Sys2Proof.Machine
